-- ==== Sys2Proof/Word.lean ====
section
/-! DEFINITION. The value types of the block. A storage byte is a bit vector. An object as it stands on
an object-wide bus is a natural number of `8·S` bits whose bits `[8·i+7 : 8·i]` are byte `i` of the
object (R11, R202): the width depends on the elaboration parameter `S`, so the bound is a check
(`objFits`), not a type. Cursors, counts and gray codes are natural numbers for the same reason: their
widths `IW` and `NW` are elaboration parameters (R13, R14). -/

namespace Sys2Proof

/-- One byte of storage (R104: "each slot holding exactly `objectSize` bytes"). -/
abbrev Byte := BitVec 8

end Sys2Proof
end

