-- ==== Sys2Proof/Config.lean ====
section
/-! DEFINITION. The elaboration parameters of 00_scope.md R10 to R18, the values the spec leaves to
the implementation (`LAT_MAX`, `BASE`), the configuration `State.reset` is elaborated with, and the
free values: constants without a body, of which nothing can be proved. -/

namespace Sys2Proof

/-- R12: the wraparound strategy of an instance. -/
inductive Strategy where
  | mod
  | mask
  deriving DecidableEq, Repr

/-- R15: own RAM, or a slot-addressed port to a caller-supplied RAM. -/
inductive StorageKind where
  | internal
  | external
  deriving DecidableEq, Repr

/-- The elaboration parameters of one block (R10 to R18). "Every parameter is fixed at elaboration.
None can be changed while the block runs": a block's record stands in its part of `State` so that
every statement is about every configuration, and no step writes it. -/
structure Config where
  /-- `C`, the number of slots (R10). -/
  c : Nat
  /-- `S`, the object size in bytes (R11). -/
  s : Nat
  /-- `STRAT` (R12). -/
  strat : Strategy
  /-- `NW`, the width of `cmd_n` and `rsp_count` (R14). -/
  nw : Nat
  /-- `STORAGE` (R15). -/
  storage : StorageKind
  /-- `D_STO`, the depth of an external RAM in slots (R15). -/
  dSto : Nat
  /-- `L_STO`, the read latency of a storage port in cycles (R18). -/
  lSto : Nat
  /-- `SYNC_N`, the stages of each AF synchroniser (R16). -/
  syncN : Nat
  /-- `LAT_MAX` (R1240, OPEN): the most cycles from a command's last beat to its final beat, and
  within which a `WDATA` phase raises `cmd_ready` (log entry 11). -/
  latMax : Nat
  /-- `BASE`, the caller's placement of an external byte-addressed storage (R203). -/
  base : Nat
  deriving DecidableEq, Repr

/-- R404: the same elaboration with `STRAT = MOD`, which no result tells from it. -/
def Config.asMod (p : Config) : Config := { p with strat := .mod }

/-- The elaboration `State.reset` stands for: the parameters 95_test_vectors.md uses (`C = 4`,
`S = 1`, `NW = 8`, `STRAT = MOD`, `SYNC_N = 2`, `L_STO = 1`). DESIGN CHOICE: the spec leaves every
parameter open; unsafe for a claim about `State.reset` alone (log entry 2). -/
def Config.vectors : Config where
  c := 4
  s := 1
  strat := .mod
  nw := 8
  storage := .internal
  dSto := 4
  lSto := 1
  syncN := 2
  latMax := 5
  base := 0

/-- Free value: the count an AF synchroniser's first stage captures when its input has changed since
the previous edge, before it is brought into the interval of R931 (log entry 9). -/
opaque Config.freeSample : Nat → Nat

/-- Free value: whether `cmd_ready` is 0 in this cycle of `WDATA` (R342: "it may be 0 or 1 in any
cycle"; log entry 11). -/
opaque Config.freeStall : Nat → Bool

/-- Free value: whether a command in `EXEC` makes a storage access at this edge (R346: the cycles are
unspecified; log entry 11). -/
opaque Config.freeIssue : Nat → Bool

/-- Free value: whether a command in `EXEC` sends a response beat at this edge (R346: "Consecutive
response beats of one command may have gaps"; log entry 11). -/
opaque Config.freeSend : Nat → Bool

/-- Free value: which prefix of the running command the RBC's status outputs show (R348: "Which
prefix is unspecified"; log entry 12). -/
opaque Config.freePrefix : Nat → Nat

/-- Free value: whether an AF domain's reset synchroniser releases at this edge of its own clock
(R1202; log entry 10). -/
opaque Config.freeRelease : Nat → Bool

end Sys2Proof
end

