-- ==== Sys2Proof/Syntax.lean ====
section
/-! DEFINITION. The instructions: one constructor for each row of spec/opcode_table.json, the values
the ports carry, and the pseudo-instructions of 30_encoding.md R361. -/

namespace Sys2Proof

/-- R320: the sixteen values of `cmd_op`, in the order of their codes. -/
inductive Opcode where
  | nop | clear | writeObj | readObj | deleteHead | deleteN | writeN | readN
  | writeAll | readAll | peekNth | qEmpty | qFull | qOccupied | qFree | reservedF
  deriving DecidableEq, Repr

/-- One row of spec/opcode_table.json each, with the operands the row reads: `n` is `cmd_n`, an
object is `cmd_data`, `wr_data` or `wdata`, and the list of a write burst is its data beats in
order. Fields a row ignores (R310, R311) are not operands. -/
inductive Instr where
  -- ring_buffer_controller (format HDR)
  | nop
  | clear
  | writeObj (d : Nat)
  | readObj
  | deleteHead
  | deleteN (n : Nat)
  | writeN (n : Nat) (ds : List Nat)
  | readN (n : Nat)
  | writeAll (n : Nat) (ds : List Nat)
  | readAll (n : Nat)
  | peekNth (n : Nat)
  | qEmpty
  | qFull
  | qOccupied
  | qFree
  | reservedF
  -- sync_fifo (format SF_CTL)
  | sfIdle
  | sfPush (d : Nat)
  | sfPop
  | sfPushPop (d : Nat)
  | sfClear
  -- async_fifo (formats AF_W and AF_R)
  | afWidle
  | afPush (d : Nat)
  | afRidle
  | afPop
  deriving DecidableEq, Repr

/-- What one port presents: the RBC's packed header `HDR` with the `cmd_data` beside it and the data
beats that follow (R301, R302), SF's control vector with `wr_data` (R303), AF's `winc` with `wdata`,
AF's `rinc` (R304). The four ports are separate, so the port is part of the value: the same bits
mean different instructions on different ports. -/
inductive PortWord where
  | hdr (w : Nat) (data : Nat) (beats : List Nat)
  | sfCtl (w : Nat) (data : Nat)
  | afW (w : Nat) (data : Nat)
  | afR (w : Nat)
  deriving DecidableEq, Repr

/-- R361: the pseudo-instructions of the command-program syntax. -/
inductive Pseudo where
  | push (d : Nat)
  | pop
  | drop
  | peek
  | flush
  | drain
  deriving DecidableEq, Repr

end Sys2Proof
end

