-- ==== Sys2Proof/WellFormed.lean ====
section
/-! DEFINITION. Which instructions a block elaborated with given parameters can be given: every
operand fits its port, and a write burst has as many data beats as its count. -/

namespace Sys2Proof

/-- A count fits `cmd_n` (R310: an `NW`-bit unsigned count). -/
def countFits (p : Config) (n : Nat) : Bool := decide (n < 2 ^ p.nw)

/-- An object fits an object-wide bus (R11: `8·S` bits). -/
def objFits (p : Config) (d : Nat) : Bool := decide (d < 2 ^ (8 * p.s))

/-- A write burst: the count fits, every beat fits, and there are exactly `n` beats (R351). -/
def burstFits (p : Config) (n : Nat) (ds : List Nat) : Bool :=
  countFits p n && ds.all (objFits p) && decide (ds.length = n)

/-- Well-formed for the block whose parameters are `p`. -/
def Instr.wellFormed (p : Config) : Instr → Bool
  | .nop => true
  | .clear => true
  | .writeObj d => objFits p d
  | .readObj => true
  | .deleteHead => true
  | .deleteN n => countFits p n
  | .writeN n ds => burstFits p n ds
  | .readN n => countFits p n
  | .writeAll n ds => burstFits p n ds
  | .readAll n => countFits p n
  | .peekNth n => countFits p n
  | .qEmpty => true
  | .qFull => true
  | .qOccupied => true
  | .qFree => true
  | .reservedF => true
  | .sfIdle => true
  | .sfPush d => objFits p d
  | .sfPop => true
  | .sfPushPop d => objFits p d
  | .sfClear => true
  | .afWidle => true
  | .afPush d => objFits p d
  | .afRidle => true
  | .afPop => true

end Sys2Proof
end

