-- ==== Sys2Proof/Decode.lean ====
section
/-! DEFINITION. The decoder of every port, total and rejecting by name, and after it the encoder,
both written from 30_encoding.md R301 to R304 and R320 to R322. -/

namespace Sys2Proof

/-- Why a value is no instruction. Each is a value the port cannot carry or a burst the host may not
send (R1220: "send exactly `n` data beats"); no encoding of the right width is rejected (R350). -/
inductive DecodeError where
  /-- A header of more than `NW + 4` bits. -/
  | headerTooWide
  /-- An object of more than `8·S` bits. -/
  | objectTooWide
  /-- A control vector wider than its port. -/
  | controlTooWide
  /-- A number of data beats other than the header asks for. -/
  | beatCount
  deriving DecidableEq, Repr

/-- R320: the opcode map, from the four bits `cmd_op`. -/
def Opcode.ofBits (op : Nat) : Opcode :=
  match op with
  | 0 => .nop
  | 1 => .clear
  | 2 => .writeObj
  | 3 => .readObj
  | 4 => .deleteHead
  | 5 => .deleteN
  | 6 => .writeN
  | 7 => .readN
  | 8 => .writeAll
  | 9 => .readAll
  | 10 => .peekNth
  | 11 => .qEmpty
  | 12 => .qFull
  | 13 => .qOccupied
  | 14 => .qFree
  | _ => .reservedF

/-- R301: `op` is `HDR[3:0]`. -/
def headerOp (w : Nat) : Nat := w % 16

/-- R301: `n` is `HDR[NW+3:4]`. -/
def headerN (w : Nat) : Nat := w / 16

/-- R302, R351: the number of data beats that follow a header. -/
def burstLength (op : Opcode) (n : Nat) : Nat :=
  match op with
  | .writeN | .writeAll => n
  | _ => 0

/-- The instruction an opcode stands for, with the operands it reads (R310, R311). -/
def Instr.ofHeader (op : Opcode) (n : Nat) (d : Nat) (ds : List Nat) : Instr :=
  match op with
  | .nop => .nop
  | .clear => .clear
  | .writeObj => .writeObj d
  | .readObj => .readObj
  | .deleteHead => .deleteHead
  | .deleteN => .deleteN n
  | .writeN => .writeN n ds
  | .readN => .readN n
  | .writeAll => .writeAll n ds
  | .readAll => .readAll n
  | .peekNth => .peekNth n
  | .qEmpty => .qEmpty
  | .qFull => .qFull
  | .qOccupied => .qOccupied
  | .qFree => .qFree
  | .reservedF => .reservedF

/-- A header beat and its data beats (R301, R302, R320, R351). -/
def decodeHeader (p : Config) (w : Nat) (d : Nat) (ds : List Nat) : Except DecodeError Instr :=
  if !decide (w < 2 ^ (p.nw + 4)) then .error .headerTooWide
  else if !(objFits p d && ds.all (objFits p)) then .error .objectTooWide
  else if ds.length ≠ burstLength (Opcode.ofBits (headerOp w)) (headerN w) then .error .beatCount
  else .ok (Instr.ofHeader (Opcode.ofBits (headerOp w)) (headerN w) d ds)

/-- R303, R321: SF's control vector, bit 0 `wr_en`, bit 1 `rd_en`, bit 2 `clr`. -/
def decodeSf (p : Config) (w : Nat) (d : Nat) : Except DecodeError Instr :=
  if !decide (w < 8) then .error .controlTooWide
  else if !objFits p d then .error .objectTooWide
  else if w.testBit 2 then .ok .sfClear
  else match w.testBit 1, w.testBit 0 with
    | false, false => .ok .sfIdle
    | false, true => .ok (.sfPush d)
    | true, false => .ok .sfPop
    | true, true => .ok (.sfPushPop d)

/-- R304, R322: `AF_W = {winc}`. -/
def decodeAfW (p : Config) (w : Nat) (d : Nat) : Except DecodeError Instr :=
  if !decide (w < 2) then .error .controlTooWide
  else if !objFits p d then .error .objectTooWide
  else if w.testBit 0 then .ok (.afPush d) else .ok .afWidle

/-- R304, R322: `AF_R = {rinc}`. -/
def decodeAfR (w : Nat) : Except DecodeError Instr :=
  if !decide (w < 2) then .error .controlTooWide
  else if w.testBit 0 then .ok .afPop else .ok .afRidle

/-- The decoder of a block elaborated with `p`. -/
def decode (p : Config) : PortWord → Except DecodeError Instr
  | .hdr w d ds => decodeHeader p w d ds
  | .sfCtl w d => decodeSf p w d
  | .afW w d => decodeAfW p w d
  | .afR w => decodeAfR w

/-- R301: `HDR = {cmd_n, cmd_op} = n·16 + op`. -/
def packHeader (op n : Nat) : Nat := n * 16 + op

/-- The encoder: the port value of an instruction, with every ignored field 0. -/
def encode : Instr → PortWord
  | .nop => .hdr (packHeader 0x0 0) 0 []
  | .clear => .hdr (packHeader 0x1 0) 0 []
  | .writeObj d => .hdr (packHeader 0x2 0) d []
  | .readObj => .hdr (packHeader 0x3 0) 0 []
  | .deleteHead => .hdr (packHeader 0x4 0) 0 []
  | .deleteN n => .hdr (packHeader 0x5 n) 0 []
  | .writeN n ds => .hdr (packHeader 0x6 n) 0 ds
  | .readN n => .hdr (packHeader 0x7 n) 0 []
  | .writeAll n ds => .hdr (packHeader 0x8 n) 0 ds
  | .readAll n => .hdr (packHeader 0x9 n) 0 []
  | .peekNth n => .hdr (packHeader 0xA n) 0 []
  | .qEmpty => .hdr (packHeader 0xB 0) 0 []
  | .qFull => .hdr (packHeader 0xC 0) 0 []
  | .qOccupied => .hdr (packHeader 0xD 0) 0 []
  | .qFree => .hdr (packHeader 0xE 0) 0 []
  | .reservedF => .hdr (packHeader 0xF 0) 0 []
  | .sfIdle => .sfCtl 0b000 0
  | .sfPush d => .sfCtl 0b001 d
  | .sfPop => .sfCtl 0b010 0
  | .sfPushPop d => .sfCtl 0b011 d
  | .sfClear => .sfCtl 0b100 0
  | .afWidle => .afW 0b0 0
  | .afPush d => .afW 0b1 d
  | .afRidle => .afR 0b0
  | .afPop => .afR 0b1

/-- R361: what each pseudo-instruction expands to on a block with parameters `p`. -/
def Pseudo.expand (p : Config) : Pseudo → Instr
  | .push d => .writeObj d
  | .pop => .readObj
  | .drop => .deleteHead
  | .peek => .peekNth 0
  | .flush => .clear
  | .drain => .readN (2 ^ p.nw - 1)

/-- The header port's value for a table word: the data beats its count asks for, every object 0
(operand words of zeros). -/
def tableWord (w : Nat) : PortWord :=
  .hdr w 0 (List.replicate (burstLength (Opcode.ofBits (headerOp w)) (headerN w)) 0)

/-- The instruction the decoder reads from a word numbered as spec/opcode_table.json numbers it. A
word does not say which port it stands on, and the SF and AF rows reuse the RBC's values, so a table
word is read as an RBC header, for the parameters of `State.reset` (DESIGN CHOICE, log entry 4). -/
def decodeTableWord (nbits w : Nat) : Option Instr :=
  match decode Config.vectors (tableWord (w % 2 ^ nbits)) with
  | .ok i => some i
  | .error _ => none

end Sys2Proof
end

