-- ==== Sys2Proof/Machine/State.lean ====
section
/-! DEFINITION. Everything the spec gives the machine, as plain data: the three blocks (10_state.md),
the host side that drives their ports, and the reasons a step can stop. INVENTORY.md, "## State",
lists every field with its rule and its reset value. -/

namespace Sys2Proof.Machine

/-- Storage as (byte address, byte) pairs, addresses strictly rising. An unlisted address holds `⊥`
(R25, R104: "After elaboration every byte is `⊥`"): it reads as no value. -/
abbrev Memory := List Host.Cell

/-- R1100: the status codes of a final beat. -/
inductive Status where
  | ok
  | full
  | empty
  | illegal
  deriving DecidableEq, Repr

/-- R24: what a transaction-level rule ends with. `none` is the spec's `—`; `beats` holds each data
beat's slot and object. -/
structure Response where
  status : Status
  count : Nat
  index : Option Nat
  data : Option Nat
  beats : List (Nat × Nat)
  deriving DecidableEq, Repr

/-- R330: one response beat. `none` is the `⊥` of a beat that carries no object. -/
structure RspBeat where
  last : Bool
  status : Status
  count : Nat
  index : Option Nat
  data : Option Nat
  deriving DecidableEq, Repr

/-- R208: one access on a storage port. The type holds a write or a read, so `sto_we` and `sto_re`
are never 1 together. -/
inductive StoAccess where
  | write (slot : Nat) (d : Nat)
  | read (slot : Nat)
  deriving DecidableEq, Repr

/-- R208: what a storage port drives at one edge, `none` where it makes no access. Its signals are
`StoPort.we`, `re`, `addr` and `wdata`. -/
abbrev StoPort := Option StoAccess

/-- R208: a read made on a storage port: the slot, the object the RAM gives for it, and the cycles
until `sto_rdata` holds it: `L_STO` right after the edge with `sto_re = 1`, 1 in the cycle where it
is valid, 0 once the RBC has taken it in. -/
structure StoRead where
  slot : Nat
  obj : Nat
  left : Nat
  deriving DecidableEq, Repr

/-- R345: a command in `EXEC`, as accepted at its header: the operands, and the number `k` of
one-object steps it takes; then how far it is: the storage accesses made in `EXEC`, the data beats
sent, the reads made whose beats are not yet sent, oldest first, and the cycles since the command's
last beat (R1240). -/
structure Job where
  op : Opcode
  n : Nat
  data : Nat
  k : Nat
  issued : Nat
  sent : Nat
  flight : List StoRead
  cycles : Nat
  deriving DecidableEq, Repr

/-- R112: the cycle-level command phase. -/
inductive Phase where
  | idle
  | wdata (op : Opcode) (n k i : Nat)
  | exec (job : Job)
  deriving DecidableEq, Repr

/-- R300: the beat the host presents: packed header bits and object. -/
structure CmdBeat where
  hdr : Nat
  data : Nat
  deriving DecidableEq, Repr

/-- ring_buffer_controller (R110, R112, R104). -/
structure Rbc where
  cfg : Config
  /-- Read cursor (R101). -/
  head : Nat
  /-- Write cursor (R102). -/
  tail : Nat
  /-- Storage (R104). -/
  sto : Memory
  /-- Command phase (R112). -/
  phase : Phase
  /-- The `rsp_*` output registers (R330): `none` is `rsp_valid = 0`, when every other field is `⊥`. -/
  rsp : Option RspBeat
  /-- The storage port's access at the last edge (R208). -/
  port : StoPort
  /-- The beat the host is holding because it was not accepted (R341). A host duty, not hardware. -/
  held : Option CmdBeat
  /-- The cursors at the running command's header, of which R348 shows a prefix state. Model state. -/
  preHead : Nat
  preTail : Nat
  /-- Cycles `cmd_ready` has been 0 in this `WDATA` phase (R1240). Model state. -/
  waited : Nat
  /-- Every response beat sent since elaboration, oldest first (R347). Model state. -/
  out : List RspBeat
  deriving DecidableEq, Repr

/-- sync_fifo (R120, R104). -/
structure Sf where
  cfg : Config
  head : Nat
  tail : Nat
  sto : Memory
  rdData : Nat
  wrAck : Bool
  wrOvf : Bool
  rdAck : Bool
  rdUnf : Bool
  /-- The storage port of the push at the last edge (R810, R208; log entry 8). -/
  wPort : StoPort
  /-- The storage port of the pop at the last edge (R810, R208; log entry 8). -/
  rPort : StoPort
  deriving DecidableEq, Repr

/-- async_fifo (R130 to R132). The ghost counts are those of R141 and R931. -/
structure Af where
  cfg : Config
  /-- Write domain. -/
  wbin : Nat
  wgray : Nat
  /-- `wq[1] … wq[SYNC_N]`, stage 1 first. -/
  wq : List Nat
  wrAck : Bool
  wrOvf : Bool
  /-- The storage's write port at the last `wclk` edge (R207, R15). -/
  wPort : StoPort
  /-- Read domain. -/
  rbin : Nat
  rgray : Nat
  /-- `rq[1] … rq[SYNC_N]`, stage 1 first. -/
  rq : List Nat
  rdData : Nat
  rdAck : Bool
  rdUnf : Bool
  /-- The storage's read port at the last `rclk` edge (R207, R15). -/
  rPort : StoPort
  sto : Memory
  /-- The level of `arst_n` (R1202). -/
  arstN : Bool
  /-- The write domain has left reset (R1202). -/
  wLive : Bool
  /-- The read domain has left reset (R1202). -/
  rLive : Bool
  /-- Ghost: pushes since reset (R141 `Wc`). -/
  wc : Nat
  /-- Ghost: pops since reset (R141 `Rc`). -/
  rc : Nat
  /-- Ghost: the count each stage of `wq` stands for (R931). -/
  wqc : List Nat
  /-- Ghost: the count each stage of `rq` stands for (R931). -/
  rqc : List Nat
  /-- Ghost: `rgray` has changed since the previous `wclk` edge (R931). -/
  rMoved : Bool
  /-- Ghost: `wgray` has changed since the previous `rclk` edge (R931). -/
  wMoved : Bool
  deriving DecidableEq, Repr

/-- The blocks that serve one agent only (R216). -/
inductive OneHostBlock where
  | rbc
  | sf
  deriving DecidableEq, Repr

/-- AF's two domains. -/
inductive Domain where
  | write
  | read
  deriving DecidableEq, Repr

/-- What the outside world does next. -/
inductive Event where
  /-- The host sends one whole RBC command, taken as one atomic transition (R7, R112). -/
  | cmd (hdr : Nat) (data : Nat) (beats : List Nat)
  /-- One rising edge of the RBC's `clk`, with its input pins (R300, R1200). -/
  | rbcClk (rst valid : Bool) (beat : CmdBeat)
  /-- One rising edge of SF's `clk`, with its input pins (R810). -/
  | sfClk (rst : Bool) (ctl : Nat) (wrData : Nat)
  /-- One rising edge of `wclk` (R900). -/
  | wclk (winc : Nat) (wdata : Nat)
  /-- One rising edge of `rclk` (R900). -/
  | rclk (rinc : Nat)
  /-- `arst_n` is driven to a level (R1202). -/
  | arst (level : Bool)
  /-- A second agent, or another clock domain, drives this block (R216). -/
  | secondAgent (b : OneHostBlock)
  /-- One AF domain is reset without the other (R1203). -/
  | domainReset (d : Domain)
  deriving DecidableEq, Repr

/-- The whole machine: the three blocks, and the host side. -/
structure State where
  rbc : Rbc
  sf : Sf
  af : Af
  /-- What the outside world will do, next first. Host side, not hardware. -/
  script : List Event
  /-- R116: "the index, within the host's command sequence, of the next command to send. That index
  lives in the host, not in the block." -/
  pos : Nat
  /-- Counts the draws of free values. Model state. -/
  free : Nat
  deriving DecidableEq, Repr

/-- Why the machine stops with a fault. -/
inductive Fault where
  /-- Raised by a read of a storage byte that nothing has written (R25: "reading it faults in the
  model"). Safe; R206 says no run from reset reaches it. -/
  | unwrittenStorage
  /-- Raised by a storage access outside the slots `[0, C − 1]` (R212: "Nothing else is
  addressable"). Safe; only a cursor outside its range (R103) reaches it. -/
  | noSuchSlot
  deriving DecidableEq, Repr

/-- Why a step has no meaning. -/
inductive Refusal where
  /-- Raised by an arm of `exec` whose instruction has no meaning yet. Safe. -/
  | notModelled (mnemonic : String)
  /-- R500 `ZERO_OBJECT_SIZE`. Raised by every operation of a block elaborated with `S = 0`. Safe. -/
  | zeroObjectSize
  /-- R500 `CAPACITY_TOO_SMALL`: `C < 2`. Safe. -/
  | capacityTooSmall
  /-- R500 `MASK_NOT_POW2`. Safe. -/
  | maskNotPow2
  /-- R500 `STORAGE_TOO_SMALL`: external storage with `D_STO < C`. Safe. -/
  | storageTooSmall
  /-- R500 `COUNT_TOO_NARROW`: RBC with `NW < IW`. Safe. -/
  | countTooNarrow
  /-- R500 `BAD_LATENCY`: `L_STO = 0`. Safe. -/
  | badLatency
  /-- R500 `AF_NOT_POW2`. Safe. -/
  | afNotPow2
  /-- R500 `AF_SYNC_TOO_SHORT`: `SYNC_N < 2`. Safe. -/
  | afSyncTooShort
  /-- R500 `SF_LATENCY`: SF with external storage and `L_STO ≠ 1`. Safe. -/
  | sfLatency
  /-- Raised by fetching a value that is no instruction of its port: the host has no such move
  (R1220). Unsafe only as U15 of 93_implementation_defined.md says of host duties. -/
  | badPortValue (e : DecodeError)
  /-- Raised by a transaction-level command while a cycle-level one is in progress (R340: no further
  header is accepted). Safe. -/
  | commandWhileBusy
  /-- Raised when the host withdraws or changes a beat that was not accepted (R341). Unsafe as U15
  of 93_implementation_defined.md says. -/
  | beatWithdrawn
  /-- Raised when a second agent drives RBC or SF (R216). Safe. -/
  | secondAgent
  /-- Raised when one AF domain is reset alone (R1203). Safe. -/
  | singleDomainReset
  deriving DecidableEq, Repr

/-- The RBC right after reset (R110, R1200, R1204). -/
def Rbc.reset (p : Config) : Rbc where
  cfg := p
  head := 0
  tail := 0
  sto := []
  phase := .idle
  rsp := none
  port := none
  held := none
  preHead := 0
  preTail := 0
  waited := 0
  out := []

/-- SF right after reset (R120, R1201). `rd_data` is `⊥` there; the model names 0 (log entry 3). -/
def Sf.reset (p : Config) : Sf where
  cfg := p
  head := 0
  tail := 0
  sto := []
  rdData := 0
  wrAck := false
  wrOvf := false
  rdAck := false
  rdUnf := false
  wPort := none
  rPort := none

/-- AF after reset, both domains having left it (R130, R131, R1202). `rd_data` is `⊥` there; the
model names 0 (log entry 3). -/
def Af.reset (p : Config) : Af where
  cfg := p
  wbin := 0
  wgray := 0
  wq := List.replicate p.syncN 0
  wrAck := false
  wrOvf := false
  wPort := none
  rbin := 0
  rgray := 0
  rq := List.replicate p.syncN 0
  rdData := 0
  rdAck := false
  rdUnf := false
  rPort := none
  sto := []
  arstN := true
  wLive := true
  rLive := true
  wc := 0
  rc := 0
  wqc := List.replicate p.syncN 0
  rqc := List.replicate p.syncN 0
  rMoved := false
  wMoved := false

/-- The machine right after elaboration and reset (R1204, R1210), elaborated with
`Config.vectors` (log entry 2), the host having sent nothing. -/
def State.reset : State where
  rbc := Rbc.reset Config.vectors
  sf := Sf.reset Config.vectors
  af := Af.reset Config.vectors
  script := []
  pos := 0
  free := 0

end Sys2Proof.Machine
end

