-- ==== Sys2Proof/Machine/Index.lean ====
section
/-! DEFINITION. The index unit of 40_index_arithmetic.md, shared by the three blocks: advance in both
strategies, the comparators, the occupancy calculator, and the gray code. -/

namespace Sys2Proof.Machine

/-- R13: `IW = ⌈log2 C⌉`, for `C ≥ 2`. -/
def indexWidth (c : Nat) : Nat := Nat.log2 (c - 1) + 1

/-- `C` is a power of two: `C = 2^IW` with `IW ≥ 1`. -/
def isPow2 (c : Nat) : Bool := decide (c = 2 ^ indexWidth c)

/-- R400: `adv_MOD`. -/
def advMod (c i : Nat) : Nat := (i + 1) % c

/-- R401: the mask form, `bitmask = C − 1`. -/
def advMask (c i : Nat) : Nat := (i + 1) &&& (c - 1)

/-- R401, R403, R404: a sum of places brought back into the slots by the instance's strategy. It is
the one place where a result is computed with `STRAT`: "When `C = 2^m`, `x & (C − 1) = x mod C`", so
the two strategies agree in every legal `MASK` configuration. -/
def wrap (p : Config) (x : Nat) : Nat :=
  match p.strat with
  | .mod => x % p.c
  | .mask => x &&& (p.c - 1)

/-- R401: the advance every rule uses, `advMod` or `advMask` as `STRAT` says. -/
def adv (p : Config) (i : Nat) : Nat := wrap p (i + 1)

/-- R403: the index `k` places after `i`. -/
def addk (p : Config) (i k : Nat) : Nat := wrap p (i + k)

/-- R410. -/
def isEmpty (head tail : Nat) : Bool := decide (head = tail)

/-- R411. -/
def isFull (p : Config) (head tail : Nat) : Bool := decide (adv p tail = head)

/-- R412, with the corrected formula of 90_conflicts.md C1. The sum `tail + C` comes first, so that
no natural subtraction underflows for `head < C` (R21). -/
def occ (p : Config) (head tail : Nat) : Nat := (tail + p.c - head) % p.c

/-- R413. -/
def freeSlots (p : Config) (head tail : Nat) : Nat := p.c - 1 - occ p head tail

/-- R26: `gray(b) = b ⊕ (b >> 1)`. -/
def gray (b : Nat) : Nat := b ^^^ (b >>> 1)

/-- R26: `gray⁻¹` over `w` bits: bit `i` of the result is `g[i] ⊕ result[i+1]`. -/
def grayInv : Nat → Nat → Nat
  | 0, _ => 0
  | w + 1, g => g ^^^ grayInv w (g >>> 1)

/-- R420: the head/tail address mux, for a write of an object. -/
def writeSlot (tail : Nat) : Nat := tail

/-- R420: the head/tail address mux, for a read of the `j`-th object from the head. -/
def readSlot (p : Config) (head j : Nat) : Nat := addk p head j

end Sys2Proof.Machine
end

