-- ==== Sys2Proof/Machine/Operands.lean ====
section
/-! DEFINITION. Operand forms: the byte lanes of an object bus, the byte address of a slot, and how
many one-object steps a header asks for. -/

namespace Sys2Proof.Machine

/-- R202: byte `i` of the object on a bus, bits `[8·i+7 : 8·i]`. -/
def byteLane (d : Nat) (i : Nat) : Byte := BitVec.ofNat 8 (d >>> (8 * i))

/-- R203: where the caller placed an external storage; internal storage starts at offset 0 (R201). -/
def storageBase (p : Config) : Nat :=
  match p.storage with
  | .internal => 0
  | .external => p.base

/-- R201, R203: the byte address of byte 0 of a slot. Byte `i` of the slot is `i` above it. -/
def slotAddr (p : Config) (slot : Nat) : Nat := storageBase p + slot * p.s

/-- How many one-object steps a command takes from a state: the `k` of R343 for the write bursts,
`min(n, occ)` for READ_N and DELETE_N (R611, R603), all or nothing for READ_ALL (R613), one for a
single-object command that does not fail, and one for CLEAR, whose only two states R348 can show are
before and after. -/
def plannedSteps (p : Config) (op : Opcode) (n head tail : Nat) : Nat :=
  match op with
  | .writeN => min n (freeSlots p head tail)
  | .writeAll => if n ≤ freeSlots p head tail then n else 0
  | .readN | .deleteN => min n (occ p head tail)
  | .readAll => if n ≤ occ p head tail then n else 0
  | .writeObj => if isFull p head tail then 0 else 1
  | .readObj | .deleteHead => if isEmpty head tail then 0 else 1
  | .clear => 1
  | .nop | .peekNth | .qEmpty | .qFull | .qOccupied | .qFree | .reservedF => 0

/-- R343: WRITE_N and WRITE_ALL, the commands whose header is followed by data beats. -/
def isBurst : Opcode → Bool
  | .writeN | .writeAll => true
  | _ => false

/-- The commands whose one-object steps take objects out from the head one by one. -/
def isBulkRead : Opcode → Bool
  | .readN | .readAll => true
  | _ => false

end Sys2Proof.Machine
end

