-- ==== Sys2Proof/Machine/Flags.lean ====
section
/-! DEFINITION. Every flag and status output: the RBC's status outputs and packed vectors, SF's
combinational outputs, AF's comparators and levels. Each is a function of the state. -/

namespace Sys2Proof.Machine

/-- R113, R121: the four status outputs of a pair of cursors. -/
structure StatusOutputs where
  empty : Bool
  full : Bool
  occupied : Nat
  free : Nat
  deriving DecidableEq, Repr

def statusOf (p : Config) (head tail : Nat) : StatusOutputs where
  empty := isEmpty head tail
  full := isFull p head tail
  occupied := occ p head tail
  free := freeSlots p head tail

/-- R348: the cursors after the first `j` one-object steps of a command whose header found
`(head, tail)`. -/
def prefixCursors (p : Config) (op : Opcode) (head tail j : Nat) : Nat × Nat :=
  match op with
  | .writeObj | .writeN | .writeAll => (head, addk p tail j)
  | .readObj | .deleteHead | .deleteN | .readN | .readAll => (addk p head j, tail)
  | .clear => if j = 0 then (head, tail) else (0, 0)
  | .nop | .peekNth | .qEmpty | .qFull | .qOccupied | .qFree | .reservedF => (head, tail)

/-- R348: the cursors the RBC's status outputs show. Exact in `IDLE`; a prefix state of the running
command otherwise, chosen by the draw. -/
def Rbc.shownCursors (b : Rbc) (draw : Nat) : Nat × Nat :=
  match b.phase with
  | .idle => (b.head, b.tail)
  | .wdata op _ k _ => prefixCursors b.cfg op b.preHead b.preTail (draw % (k + 1))
  | .exec job => prefixCursors b.cfg job.op b.preHead b.preTail (draw % (job.k + 1))

/-- R113, R348: the RBC's status outputs `st_empty`, `st_full`, `st_occupied`, `st_free`. -/
def Rbc.status (b : Rbc) (draw : Nat) : StatusOutputs :=
  statusOf b.cfg (b.shownCursors draw).1 (b.shownCursors draw).2

/-- R113, R348, with the machine's own draw for the prefix the RBC shows. -/
def State.rbcStatus (s : State) : StatusOutputs := s.rbc.status (Config.freePrefix s.free)

/-- R114: the packed vector `STATUS = {free, occupied, full, empty}`. -/
def StatusOutputs.pack (p : Config) (o : StatusOutputs) : Nat :=
  o.empty.toNat + 2 * o.full.toNat + 2 ^ 2 * o.occupied + 2 ^ (indexWidth p.c + 2) * o.free

/-- R121: SF's combinational outputs. -/
def Sf.status (f : Sf) : StatusOutputs := statusOf f.cfg f.head f.tail

/-- R1100: the code of a status. -/
def Status.code : Status → Nat
  | .ok => 0
  | .full => 1
  | .empty => 2
  | .illegal => 3

/-- R330: the low `NW + 3` bits of a packed response beat, `{rsp_count, rsp_status, rsp_last}`. -/
def RspBeat.packLow (r : RspBeat) : Nat := r.last.toNat + 2 * r.status.code + 2 ^ 3 * r.count

/-- R330: the packed beat `RSP = {rsp_index, rsp_count, rsp_status, rsp_last}`, when it carries an
index; a beat without one has `⊥` there. -/
def RspBeat.pack (p : Config) (r : RspBeat) : Option Nat :=
  r.index.map fun i => r.packLow + 2 ^ (p.nw + 3) * i

/-- R330: `rsp_valid`. -/
def Rbc.rspValid (b : Rbc) : Bool := b.rsp.isSome

/-- R208: `sto_we`. -/
def StoPort.we (q : StoPort) : Bool :=
  match q with
  | some (.write _ _) => true
  | some (.read _) => false
  | none => false

/-- R208: `sto_re`. -/
def StoPort.re (q : StoPort) : Bool :=
  match q with
  | some (.write _ _) => false
  | some (.read _) => true
  | none => false

/-- R208: `sto_addr`, when an access is made. -/
def StoPort.addr (q : StoPort) : Option Nat :=
  match q with
  | some (.write slot _) => some slot
  | some (.read slot) => some slot
  | none => none

/-- R208: `sto_wdata`, when a write is made. -/
def StoPort.wdata (q : StoPort) : Option Nat :=
  match q with
  | some (.write _ d) => some d
  | some (.read _) => none
  | none => none

/-- R208: the RBC's `sto_we`. -/
def Rbc.stoWe (b : Rbc) : Bool := b.port.we

/-- R208: the RBC's `sto_re`. -/
def Rbc.stoRe (b : Rbc) : Bool := b.port.re

/-- R208: the RBC's `sto_addr`. -/
def Rbc.stoAddr (b : Rbc) : Option Nat := b.port.addr

/-- R208: the RBC's `sto_wdata`. -/
def Rbc.stoWdata (b : Rbc) : Option Nat := b.port.wdata

/-- R208: the object that `sto_rdata` holds in this cycle: that of the read made `L_STO` cycles
ago. -/
def flightData (flight : List StoRead) : Option Nat :=
  (flight.find? fun r => decide (r.left = 1)).map StoRead.obj

/-- R208: the RBC's `sto_rdata`, in the cycle where it is valid. A read still awaited when `rst` cuts
its command is never shown (DESIGN CHOICE, unsafe: log entry 30). -/
def Rbc.stoRdata (b : Rbc) : Option Nat :=
  match b.phase with
  | .idle => none
  | .wdata _ _ _ _ => none
  | .exec job => flightData job.flight

/-- R208, R810: SF's `sto_rdata`, valid `L_STO = 1` cycle after the edge that read: the object that
edge loaded into `rd_data`. -/
def Sf.stoRdata (f : Sf) : Option Nat := if f.rPort.re then some f.rdData else none

/-- R207: the object AF's read port delivered into `rd_data` at the last `rclk` edge. -/
def Af.stoRdata (a : Af) : Option Nat := if a.rPort.re then some a.rdData else none

/-- R342: `cmd_ready`, at a cycle with `rst` and, for `WDATA`, the stall draw. A `WDATA` phase raises
it within `LAT_MAX` cycles (R1240): in that phase's last such cycle at the latest. -/
def Rbc.cmdReady (b : Rbc) (rst stall : Bool) : Bool :=
  !rst && match b.phase with
    | .idle => true
    | .wdata _ _ _ _ => !(decide (b.waited + 1 < b.cfg.latMax) && stall)
    | .exec _ => false

/-- The output of a synchroniser chain, its last stage. -/
def chainOut (q : List Nat) : Nat := q.getLastD 0

/-- R905: `full_w`. -/
def Af.fullW (a : Af) : Bool := decide (gray (adv a.cfg a.wbin) = chainOut a.wq)

/-- R906: `empty_r`. -/
def Af.emptyR (a : Af) : Bool := decide (a.rgray = chainOut a.rq)

/-- R940: `w_level`. -/
def Af.wLevel (a : Af) : Nat :=
  occ a.cfg (grayInv (indexWidth a.cfg.c) (chainOut a.wq)) a.wbin

/-- R941: `r_level`. -/
def Af.rLevel (a : Af) : Nat :=
  occ a.cfg a.rbin (grayInv (indexWidth a.cfg.c) (chainOut a.rq))

/-- R141: `Rv`, the count the write domain's synchroniser output stands for. -/
def Af.rv (a : Af) : Nat := chainOut a.wqc

/-- R141: `Wv`, the count the read domain's synchroniser output stands for. -/
def Af.wv (a : Af) : Nat := chainOut a.rqc

end Sys2Proof.Machine
end

