-- ==== Sys2Proof/Machine/Ops.lean ====
section
/-! DEFINITION. The shared operations: storage, the elaboration checks, answering a command, the
one-object steps, and the frames every instruction of a block runs in. No block has a trap (R1113):
an error is a status code or a flag, so the shared operation beside the effects is `Rbc.respond`, and
there is neither an exception entry nor a return. -/

namespace Sys2Proof.Machine

/-! ## Storage (20_memory.md) -/

/-- The byte at an address, or none where nothing has written. -/
def readByte : Memory → Nat → Option Byte
  | [], _ => none
  | (b, v) :: m, a => if a = b then some v else readByte m a

/-- Store one byte, keeping the addresses strictly rising. -/
def writeByte : Memory → Nat → Byte → Memory
  | [], a, v => [(a, v)]
  | (b, w) :: m, a, v =>
    if a < b then (a, v) :: (b, w) :: m
    else if a = b then (a, v) :: m
    else (b, w) :: writeByte m a v

/-- The canonical form: addresses strictly rise. An unlisted address reads as no value, so no entry
can equal it. -/
abbrev Memory.wf (m : Memory) : Prop := m.Pairwise fun x y => x.1 < y.1

/-- The object whose `k` bytes lie from address `a` up, byte 0 on the lowest lane (R201, R202); none
if a byte was never written. -/
def readBytes (m : Memory) (a : Nat) : Nat → Option Nat
  | 0 => some 0
  | k + 1 =>
    match readByte m a, readBytes m (a + 1) k with
    | some v, some d => some (v.toNat + 256 * d)
    | _, _ => none

/-- Store the `k` low byte lanes of an object from address `a` up. -/
def writeBytes (m : Memory) (a : Nat) (d : Nat) : Nat → Memory
  | 0 => m
  | k + 1 => writeBytes (writeByte m a (byteLane d 0)) (a + 1) (d >>> 8) k

/-- R23: `MemRead(slot·S, S)`. -/
def memRead (p : Config) (m : Memory) (slot : Nat) : Except Fault Nat :=
  if slot < p.c then
    match readBytes m (slotAddr p slot) p.s with
    | some d => .ok d
    | none => .error .unwrittenStorage
  else .error .noSuchSlot

/-- R23: `MemWrite(slot·S, S, v)`. -/
def memWrite (p : Config) (m : Memory) (slot : Nat) (d : Nat) : Except Fault Memory :=
  if slot < p.c then .ok (writeBytes m (slotAddr p slot) d p.s) else .error .noSuchSlot

/-! ## Elaboration (R500) -/

/-- The checks of R500 that every block makes. -/
def checkShared (p : Config) : Option Refusal :=
  if p.s < 1 then some .zeroObjectSize
  else if p.c < 2 then some .capacityTooSmall
  else if p.strat = .mask ∧ isPow2 p.c = false then some .maskNotPow2
  else if p.storage = .external ∧ p.dSto < p.c then some .storageTooSmall
  else if p.lSto < 1 then some .badLatency
  else none

/-- R500 for the RBC: the refusal of an illegal elaboration. -/
def checkRbc (p : Config) : Option Refusal :=
  match checkShared p with
  | some r => some r
  | none => if p.nw < indexWidth p.c then some .countTooNarrow else none

/-- R500 for SF. -/
def checkSf (p : Config) : Option Refusal :=
  match checkShared p with
  | some r => some r
  | none => if p.storage = .external ∧ p.lSto ≠ 1 then some .sfLatency else none

/-- R500 for AF. -/
def checkAf (p : Config) : Option Refusal :=
  match checkShared p with
  | some r => some r
  | none =>
    if isPow2 p.c = false then some .afNotPow2
    else if p.syncN < 2 then some .afSyncTooShort
    else none

/-- R17: an elaboration outside the legal ranges has no model: every operation of its block answers
the name R500 gives, whatever else holds of it (log entry 17). -/
def legally {α : Type} (check : Option Refusal) (o : Host.Outcome α Fault Refusal) :
    Host.Outcome α Fault Refusal :=
  match check with
  | some r => .refused r
  | none => o

/-! ## Answers (R24, R331) -/

/-- An answer that gives no object: `respond(status, count, —, —, [])`. -/
def answer (st : Status) (count : Nat) : Response where
  status := st
  count := count
  index := none
  data := none
  beats := []

/-- An answer whose final beat carries the object of a slot. -/
def answerObject (count slot : Nat) (d : Nat) : Response where
  status := .ok
  count := count
  index := some slot
  data := some d
  beats := []

/-- R331: data beat `j` of a burst. -/
def dataBeat (j : Nat) (x : Nat × Nat) : RspBeat where
  last := false
  status := .ok
  count := j
  index := some x.1
  data := some x.2

/-- R331: the data beats, numbered from `j`. -/
def dataBeats (j : Nat) : List (Nat × Nat) → List RspBeat
  | [] => []
  | x :: xs => dataBeat j x :: dataBeats (j + 1) xs

/-- R331: the final beat. -/
def Response.final (r : Response) : RspBeat where
  last := true
  status := r.status
  count := r.count
  index := r.index
  data := r.data

/-- R331: every beat of an answer, in order. -/
def Response.toBeats (r : Response) : List RspBeat := dataBeats 0 r.beats ++ [r.final]

/-- Answer a command: its beats go out, the final beat last, and it stands on the response port. -/
def Rbc.respond (b : Rbc) (r : Response) : Rbc :=
  { b with rsp := some r.final, out := b.out ++ r.toBeats }

/-! ## One-object steps and loops (42_rbc_transfer.md) -/

/-- The `else` branch of R600: store at `tail`, then advance `tail` (R211). -/
def Rbc.writeOne (b : Rbc) (d : Nat) : Except Fault Rbc :=
  match memWrite b.cfg b.sto (writeSlot b.tail) d with
  | .error e => .error e
  | .ok m => .ok { b with sto := m, tail := adv b.cfg b.tail }

/-- The `else` branch of R602: advance `head`, reading no storage. -/
def Rbc.dropOne (b : Rbc) : Rbc := { b with head := adv b.cfg b.head }

/-- The `else` branch of R601: copy the head object out, then advance `head`. Gives the slot, the
object and the state after. -/
def Rbc.takeOne (b : Rbc) : Except Fault ((Nat × Nat) × Rbc) :=
  match memRead b.cfg b.sto b.head with
  | .error e => .error e
  | .ok d => .ok ((b.head, d), b.dropOne)

/-- The loop of R610: write objects in order, stopping at full; gives the count written. -/
def writeUntilFull : List Nat → Rbc → Except Fault (Rbc × Nat)
  | [], b => .ok (b, 0)
  | d :: ds, b =>
    if isFull b.cfg b.head b.tail then .ok (b, 0)
    else match b.writeOne d with
      | .error e => .error e
      | .ok b₁ => match writeUntilFull ds b₁ with
        | .error e => .error e
        | .ok (b₂, k) => .ok (b₂, k + 1)

/-- The loop of R612: write every object. -/
def writeEach : List Nat → Rbc → Except Fault Rbc
  | [], b => .ok b
  | d :: ds, b => match b.writeOne d with
    | .error e => .error e
    | .ok b₁ => writeEach ds b₁

/-- The loop of R611: take up to `n` objects, stopping at empty. -/
def takeUntilEmpty : Nat → Rbc → Except Fault (Rbc × List (Nat × Nat))
  | 0, b => .ok (b, [])
  | n + 1, b =>
    if isEmpty b.head b.tail then .ok (b, [])
    else match b.takeOne with
      | .error e => .error e
      | .ok (x, b₁) => match takeUntilEmpty n b₁ with
        | .error e => .error e
        | .ok (b₂, xs) => .ok (b₂, x :: xs)

/-- The loop of R613: take `n` objects. -/
def takeEach : Nat → Rbc → Except Fault (Rbc × List (Nat × Nat))
  | 0, b => .ok (b, [])
  | n + 1, b => match b.takeOne with
    | .error e => .error e
    | .ok (x, b₁) => match takeEach n b₁ with
      | .error e => .error e
      | .ok (b₂, xs) => .ok (b₂, x :: xs)

/-- The loop of R603: remove up to `n` objects one by one, stopping at empty; gives the count. -/
def dropUntilEmpty : Nat → Rbc → Rbc × Nat
  | 0, b => (b, 0)
  | n + 1, b =>
    if isEmpty b.head b.tail then (b, 0)
    else ((dropUntilEmpty n b.dropOne).1, (dropUntilEmpty n b.dropOne).2 + 1)

/-! ## The frames instructions run in -/

/-- R112: no command in progress. -/
def Phase.isIdle : Phase → Bool
  | .idle => true
  | .wdata _ _ _ _ => false
  | .exec _ => false

/-- R7, R112: one RBC command as one atomic transition from `IDLE` to `IDLE`. -/
def transact (s : State) (command : Rbc → Except Fault (Rbc × Response)) :
    Host.Outcome State Fault Refusal :=
  legally (checkRbc s.rbc.cfg) <|
    if s.rbc.phase.isIdle then
      match command s.rbc with
      | .error e => .fault e
      | .ok (b, r) => .next { s with rbc := b.respond r }
    else .refused .commandWhileBusy

/-- One edge of SF's clock (R811). -/
def onSf (s : State) (edge : Sf → Except Fault Sf) : Host.Outcome State Fault Refusal :=
  legally (checkSf s.sf.cfg) <|
    match edge s.sf with
    | .error e => .fault e
    | .ok f => .next { s with sf := f }

/-- One edge of an AF clock, with the draws of this step; the draw counter advances. -/
def onAf (s : State) (edge : Nat → Bool → Af → Except Fault Af) :
    Host.Outcome State Fault Refusal :=
  legally (checkAf s.af.cfg) <|
    match edge (Config.freeSample s.free) (Config.freeRelease s.free) s.af with
    | .error e => .fault e
    | .ok a => .next { s with af := a, free := s.free + 1 }

/-! ## SF edges (44_sync_fifo.md R811) -/

/-- R811, the `if rst` and `elif clr` branches: cursors and acknowledge registers become 0;
`rd_data` and `sto` keep their values. -/
def Sf.cleared (f : Sf) : Sf :=
  { f with head := 0, tail := 0, wrAck := false, wrOvf := false, rdAck := false, rdUnf := false,
           wPort := none, rPort := none }

/-- R207, R208: a storage port with a write of a slot, or with no access. -/
def portWrite (access : Bool) (slot : Nat) (d : Nat) : StoPort :=
  if access then some (.write slot d) else none

/-- R207, R208: a storage port with a read of a slot, or with no access. -/
def portRead (access : Bool) (slot : Nat) : StoPort := if access then some (.read slot) else none

/-- R811, the `else` branch, for requests `wr_en` and `rd_en`: both are judged on the comparators
before the edge, and both read the state before the edge. The push and the pop each have a storage
port of the shape of R208 (log entry 8). -/
def Sf.edge (wrEn rdEn : Bool) (d : Nat) (f : Sf) : Except Fault Sf :=
  let e := isEmpty f.head f.tail
  let u := isFull f.cfg f.head f.tail
  let doW := wrEn && !u
  let doR := rdEn && !e
  match (if doR then memRead f.cfg f.sto f.head else .ok f.rdData),
        (if doW then memWrite f.cfg f.sto (writeSlot f.tail) d else .ok f.sto) with
  | .error x, _ => .error x
  | .ok _, .error x => .error x
  | .ok o, .ok m =>
    .ok { f with
          head := if doR then adv f.cfg f.head else f.head
          tail := if doW then adv f.cfg f.tail else f.tail
          sto := m
          rdData := o
          wrAck := doW
          wrOvf := wrEn && u
          rdAck := doR
          rdUnf := rdEn && e
          wPort := portWrite doW (writeSlot f.tail) d
          rPort := portRead doR f.head }

/-! ## AF edges (45_async_fifo.md) -/

/-- R931: the count a first stage captures: exact when the input has not changed since the previous
edge of this clock, else a free count of the interval `[seen, now]`. -/
def sampleCount (moved : Bool) (seen now draw : Nat) : Nat :=
  if moved then seen + draw % (now - seen + 1) else now

/-- R930, R931: the gray value captured for the count `x`. The current count is the source register
as it stands (R930); an earlier one is the gray code of that count. -/
def sampleGray (p : Config) (src now x : Nat) : Nat := if x = now then src else gray (x % p.c)

/-- R930: shift a chain by one stage, `x` entering stage 1. -/
def shiftIn (x : Nat) (q : List Nat) : List Nat := x :: q.dropLast

/-- R930, R931: the write domain's synchroniser at a `wclk` edge. -/
def Af.shiftW (draw : Nat) (a : Af) : Af :=
  let x := sampleCount a.rMoved (a.wqc.headD 0) a.rc draw
  { a with wq := shiftIn (sampleGray a.cfg a.rgray a.rc x) a.wq
           wqc := shiftIn x a.wqc
           rMoved := false }

/-- R930, R931: the read domain's synchroniser at an `rclk` edge. -/
def Af.shiftR (draw : Nat) (a : Af) : Af :=
  let x := sampleCount a.wMoved (a.rqc.headD 0) a.wc draw
  { a with rq := shiftIn (sampleGray a.cfg a.wgray a.wc x) a.rq
           rqc := shiftIn x a.rqc
           wMoved := false }

/-- R910, the branch `¬f`: store, then advance the pointer pair. -/
def Af.pushOne (d : Nat) (a : Af) : Except Fault Af :=
  match memWrite a.cfg a.sto (writeSlot a.wbin) d with
  | .error e => .error e
  | .ok m => .ok { a with sto := m
                          wbin := adv a.cfg a.wbin
                          wgray := gray (adv a.cfg a.wbin)
                          wc := a.wc + 1
                          wMoved := true }

/-- R920, the branch `¬e`: load `rd_data`, then advance the pointer pair. -/
def Af.popOne (a : Af) : Except Fault Af :=
  match memRead a.cfg a.sto a.rbin with
  | .error e => .error e
  | .ok d => .ok { a with rdData := d
                          rbin := adv a.cfg a.rbin
                          rgray := gray (adv a.cfg a.rbin)
                          rc := a.rc + 1
                          rMoved := true }

/-- R1202: a `wclk` edge before the write domain has left reset: no push. While `arst_n` is 0 every
register holds; once it is 1 the synchroniser shifts (R930: "At every `wclk` edge with `arst_n = 1`",
R140), and the domain leaves reset at this edge if its reset synchroniser releases. -/
def Af.wResetEdge (draw : Nat) (release : Bool) (a : Af) : Af :=
  if a.arstN then Af.shiftW draw { a with wLive := release, wPort := none }
  else { a with wLive := false, wPort := none }

/-- R1202: the same for the read domain. -/
def Af.rResetEdge (draw : Nat) (release : Bool) (a : Af) : Af :=
  if a.arstN then Af.shiftR draw { a with rLive := release, rPort := none }
  else { a with rLive := false, rPort := none }

/-- R910, R911: a `wclk` edge of a live write domain, with `winc`; the storage's write port is enabled
by the push (R207). -/
def Af.wEdge (winc : Bool) (d : Nat) (draw : Nat) (a : Af) : Except Fault Af :=
  let f := a.fullW
  match (if winc && !f then a.pushOne d else .ok a) with
  | .error e => .error e
  | .ok a₁ => .ok (Af.shiftW draw { a₁ with wrAck := winc && !f, wrOvf := winc && f
                                            wPort := portWrite (winc && !f) (writeSlot a.wbin) d })

/-- R920, R921: an `rclk` edge of a live read domain, with `rinc`; the storage's read port reads at
the pop (R207). -/
def Af.rEdge (rinc : Bool) (draw : Nat) (a : Af) : Except Fault Af :=
  let e := a.emptyR
  match (if rinc && !e then a.popOne else .ok a) with
  | .error x => .error x
  | .ok a₁ => .ok (Af.shiftR draw { a₁ with rdAck := rinc && !e, rdUnf := rinc && e
                                            rPort := portRead (rinc && !e) a.rbin })

/-- A `wclk` edge, live or in reset. DESIGN CHOICE (log entry 28): a write domain that has left reset
pushes even while the read domain is still in reset. R1202 bars only "a domain" in reset, yet has the
counts 0 after both have left it. -/
def Af.wclkEdge (winc : Bool) (d : Nat) (draw : Nat) (release : Bool) (a : Af) : Except Fault Af :=
  if a.arstN && a.wLive then a.wEdge winc d draw else .ok (a.wResetEdge draw release)

/-- An `rclk` edge, live or in reset. A read domain that has left reset first sees an empty FIFO until
the write domain pushes (log entry 28). -/
def Af.rclkEdge (rinc : Bool) (draw : Nat) (release : Bool) (a : Af) : Except Fault Af :=
  if a.arstN && a.rLive then a.rEdge rinc draw else .ok (a.rResetEdge draw release)

/-- R1202: `arst_n = 0`: every register of R130 and R131 except `rd_data` is 0, and with it every
ghost count; `rd_data` and `sto` keep their values, and neither storage port makes an access. -/
def Af.assertReset (a : Af) : Af :=
  { Af.reset a.cfg with rdData := a.rdData, sto := a.sto,
                        arstN := false, wLive := false, rLive := false }

/-- R1202: `arst_n` driven to a level. On release each domain stays in reset until an edge of its
own clock. -/
def Af.driveReset (level : Bool) (a : Af) : Af :=
  if level then { a with arstN := true } else a.assertReset

end Sys2Proof.Machine
end

