-- ==== Sys2Proof/Machine/Queries.lean ====
section
/-! DEFINITION. 41_rbc_construction_queries.md: NOP, CLEAR and the four queries. -/

namespace Sys2Proof.Machine

/-- R510. -/
def Rbc.nopCommand (b : Rbc) : Except Fault (Rbc × Response) := .ok (b, answer .ok 0)

/-- R501: both cursors to 0; `sto` is unchanged. -/
def Rbc.clearCommand (b : Rbc) : Except Fault (Rbc × Response) :=
  .ok ({ b with head := 0, tail := 0 }, answer .ok 0)

/-- R520. -/
def Rbc.qEmptyCommand (b : Rbc) : Except Fault (Rbc × Response) :=
  .ok (b, answer .ok (isEmpty b.head b.tail).toNat)

/-- R521. -/
def Rbc.qFullCommand (b : Rbc) : Except Fault (Rbc × Response) :=
  .ok (b, answer .ok (isFull b.cfg b.head b.tail).toNat)

/-- R522. -/
def Rbc.qOccupiedCommand (b : Rbc) : Except Fault (Rbc × Response) :=
  .ok (b, answer .ok (occ b.cfg b.head b.tail))

/-- R523. -/
def Rbc.qFreeCommand (b : Rbc) : Except Fault (Rbc × Response) :=
  .ok (b, answer .ok (freeSlots b.cfg b.head b.tail))

/-- NOP (R510). -/
def execNop (s : State) : Host.Outcome State Fault Refusal := transact s Rbc.nopCommand

/-- CLEAR (R501). -/
def execClear (s : State) : Host.Outcome State Fault Refusal := transact s Rbc.clearCommand

/-- Q_EMPTY (R520). -/
def execQEmpty (s : State) : Host.Outcome State Fault Refusal := transact s Rbc.qEmptyCommand

/-- Q_FULL (R521). -/
def execQFull (s : State) : Host.Outcome State Fault Refusal := transact s Rbc.qFullCommand

/-- Q_OCCUPIED (R522). -/
def execQOccupied (s : State) : Host.Outcome State Fault Refusal :=
  transact s Rbc.qOccupiedCommand

/-- Q_FREE (R523). -/
def execQFree (s : State) : Host.Outcome State Fault Refusal := transact s Rbc.qFreeCommand

end Sys2Proof.Machine
end

