-- ==== Sys2Proof/Machine/RandomAccess.lean ====
section
/-! DEFINITION. 43_rbc_random_access.md: PEEK_NTH and the reserved opcode. -/

namespace Sys2Proof.Machine

/-- R700: `n` is first reduced modulo the occupied count, then added to `head` (90_conflicts.md
C2). -/
def Rbc.peekNthCommand (n : Nat) (b : Rbc) : Except Fault (Rbc × Response) :=
  let m := occ b.cfg b.head b.tail
  if m = 0 then .ok (b, answer .empty 0)
  else match memRead b.cfg b.sto (readSlot b.cfg b.head (n % m)) with
    | .error e => .error e
    | .ok d => .ok (b, answerObject (n % m) (readSlot b.cfg b.head (n % m)) d)

/-- R710. -/
def Rbc.reservedCommand (b : Rbc) : Except Fault (Rbc × Response) := .ok (b, answer .illegal 0)

/-- PEEK_NTH (R700). -/
def execPeekNth (n : Nat) (s : State) : Host.Outcome State Fault Refusal :=
  transact s (Rbc.peekNthCommand n)

/-- The reserved command `cmd_op = 4'hF` (R710). -/
def execReservedF (s : State) : Host.Outcome State Fault Refusal := transact s Rbc.reservedCommand

end Sys2Proof.Machine
end

