-- ==== Sys2Proof/Machine/Transfer.lean ====
section
/-! DEFINITION. 42_rbc_transfer.md: the single-object and bulk transfer commands. -/

namespace Sys2Proof.Machine

/-- R600. -/
def Rbc.writeObjCommand (d : Nat) (b : Rbc) : Except Fault (Rbc × Response) :=
  if isFull b.cfg b.head b.tail then .ok (b, answer .full 0)
  else match b.writeOne d with
    | .error e => .error e
    | .ok b₁ => .ok (b₁, answer .ok 1)

/-- R601. -/
def Rbc.readObjCommand (b : Rbc) : Except Fault (Rbc × Response) :=
  if isEmpty b.head b.tail then .ok (b, answer .empty 0)
  else match b.takeOne with
    | .error e => .error e
    | .ok (x, b₁) => .ok (b₁, answerObject 1 x.1 x.2)

/-- R602. -/
def Rbc.deleteHeadCommand (b : Rbc) : Except Fault (Rbc × Response) :=
  if isEmpty b.head b.tail then .ok (b, answer .empty 0)
  else .ok (b.dropOne, answer .ok 1)

/-- The status of a command that moved `k` of `n` objects and stops with `short` (R603, R610,
R611). -/
def shortfall (short : Status) (n k : Nat) : Status := if k = n then .ok else short

/-- R603. -/
def Rbc.deleteNCommand (n : Nat) (b : Rbc) : Except Fault (Rbc × Response) :=
  .ok ((dropUntilEmpty n b).1,
       answer (shortfall .empty n (dropUntilEmpty n b).2) (dropUntilEmpty n b).2)

/-- R610. The beats after the first failure are consumed and discarded. -/
def Rbc.writeNCommand (n : Nat) (ds : List Nat) (b : Rbc) : Except Fault (Rbc × Response) :=
  match writeUntilFull ds b with
  | .error e => .error e
  | .ok (b₁, k) => .ok (b₁, answer (shortfall .full n k) k)

/-- R611. -/
def Rbc.readNCommand (n : Nat) (b : Rbc) : Except Fault (Rbc × Response) :=
  match takeUntilEmpty n b with
  | .error e => .error e
  | .ok (b₁, xs) =>
    .ok (b₁, { answer (shortfall .empty n xs.length) xs.length with beats := xs })

/-- R612. When the request is refused every beat is consumed and discarded. -/
def Rbc.writeAllCommand (n : Nat) (ds : List Nat) (b : Rbc) : Except Fault (Rbc × Response) :=
  if n ≤ freeSlots b.cfg b.head b.tail then
    match writeEach ds b with
    | .error e => .error e
    | .ok b₁ => .ok (b₁, answer .ok n)
  else .ok (b, answer .full 0)

/-- R613. -/
def Rbc.readAllCommand (n : Nat) (b : Rbc) : Except Fault (Rbc × Response) :=
  if n ≤ occ b.cfg b.head b.tail then
    match takeEach n b with
    | .error e => .error e
    | .ok (b₁, xs) => .ok (b₁, { answer .ok n with beats := xs })
  else .ok (b, answer .empty 0)

/-- WRITE_OBJ (R600). -/
def execWriteObj (d : Nat) (s : State) : Host.Outcome State Fault Refusal :=
  transact s (Rbc.writeObjCommand d)

/-- READ_OBJ (R601). -/
def execReadObj (s : State) : Host.Outcome State Fault Refusal := transact s Rbc.readObjCommand

/-- DELETE_HEAD (R602). -/
def execDeleteHead (s : State) : Host.Outcome State Fault Refusal :=
  transact s Rbc.deleteHeadCommand

/-- DELETE_N (R603). -/
def execDeleteN (n : Nat) (s : State) : Host.Outcome State Fault Refusal :=
  transact s (Rbc.deleteNCommand n)

/-- WRITE_N (R610). -/
def execWriteN (n : Nat) (ds : List Nat) (s : State) : Host.Outcome State Fault Refusal :=
  transact s (Rbc.writeNCommand n ds)

/-- READ_N (R611). -/
def execReadN (n : Nat) (s : State) : Host.Outcome State Fault Refusal :=
  transact s (Rbc.readNCommand n)

/-- WRITE_ALL (R612). -/
def execWriteAll (n : Nat) (ds : List Nat) (s : State) : Host.Outcome State Fault Refusal :=
  transact s (Rbc.writeAllCommand n ds)

/-- READ_ALL (R613). -/
def execReadAll (n : Nat) (s : State) : Host.Outcome State Fault Refusal :=
  transact s (Rbc.readAllCommand n)

end Sys2Proof.Machine
end

