-- ==== Sys2Proof/Machine/Cycle.lean ====
section
/-! DEFINITION. The cycle level of the RBC: the beat protocol of 30_encoding.md R340 to R348, the
reset of R1200 and the storage port of R208, one rising edge of `clk` at a time. It runs the same
one-object steps as the transaction level, which R347 makes normative. -/

namespace Sys2Proof.Machine

/-- R341: a beat that was not accepted stays presented, unchanged. -/
def Rbc.holdsBeat (b : Rbc) (valid : Bool) (beat : CmdBeat) : Bool :=
  match b.held with
  | none => true
  | some h => valid && decide (h = beat)

/-- R1200: the registers at an edge with `rst = 1`; `sto` is unchanged, and a command in progress is
abandoned without a final beat. The edge makes no storage access, and the reads the command still
awaits are dropped with it (DESIGN CHOICE, unsafe: log entry 30). -/
def Rbc.resetEdge (b : Rbc) : Rbc :=
  { b with head := 0, tail := 0, phase := .idle, rsp := none, port := none
           preHead := 0, preTail := 0, waited := 0 }

/-- R343: a command entering `EXEC`, with no access made and no beat sent. -/
def newJob (op : Opcode) (n : Nat) (d : Nat) (k : Nat) : Job where
  op := op
  n := n
  data := d
  k := k
  issued := 0
  sent := 0
  flight := []
  cycles := 0

/-- R343: header decode. `k` is fixed from the state at the header. -/
def Rbc.acceptHeader (w : Nat) (d : Nat) (b : Rbc) : Rbc :=
  let op := Opcode.ofBits (headerOp w)
  let n := headerN w
  let k := plannedSteps b.cfg op n b.head b.tail
  { b with preHead := b.head, preTail := b.tail, waited := 0
           phase := if isBurst op && decide (0 < n) then .wdata op n k 0
                    else .exec (newJob op n d k) }

/-- R344: the phase after data beat `i` of `n`. -/
def afterBeat (op : Opcode) (n k i : Nat) : Phase :=
  if i + 1 = n then .exec (newJob op n 0 k) else .wdata op n k (i + 1)

/-- R344: a data beat. Beats from `k` on are taken and discarded. -/
def Rbc.acceptData (d : Nat) (op : Opcode) (n k i : Nat) (b : Rbc) : Except Fault Rbc :=
  if i < k then
    match b.writeOne d with
    | .error e => .error e
    | .ok b₁ => .ok { b₁ with phase := afterBeat op n k i, waited := 0
                              port := some (.write (writeSlot b.tail) d) }
  else .ok { b with phase := afterBeat op n k i, waited := 0 }

/-! ### Storage accesses in `EXEC` (R208) -/

/-- The job after one more read: its object is awaited for `L_STO` cycles. -/
def Job.awaiting (p : Config) (slot obj : Nat) (job : Job) : Job :=
  { job with issued := job.issued + 1, flight := job.flight ++ [⟨slot, obj, p.lSto⟩] }

/-- One cycle of the storage: every awaited object is a cycle nearer. -/
def Job.tick (job : Job) : Job :=
  { job with cycles := job.cycles + 1
             flight := job.flight.map fun r => { r with left := r.left - 1 } }

/-- How many storage accesses a command in `EXEC` still has to make: one for each object it takes out,
one for PEEK_NTH of a buffer that is not empty, one for a WRITE_OBJ that is not refused. -/
def Rbc.accessesLeft (job : Job) (b : Rbc) : Nat :=
  match job.op with
  | .readObj | .readN | .readAll | .writeObj => job.k - job.issued
  | .peekNth => if occ b.cfg b.head b.tail = 0 then 0 else 1 - job.issued
  | _ => 0

/-- R208, R420: one access of a command in `EXEC`: a read of the slot at `head`, which then advances
(R601), PEEK_NTH's read of the slot `n mod occ` places on (R700), or WRITE_OBJ's write at `tail`
(R600). -/
def Rbc.access (job : Job) (b : Rbc) : Except Fault Rbc :=
  match job.op with
  | .readObj | .readN | .readAll =>
    match b.takeOne with
    | .error e => .error e
    | .ok (x, b₁) => .ok { b₁ with port := some (.read x.1)
                                   phase := .exec (job.awaiting b.cfg x.1 x.2) }
  | .peekNth =>
    let slot := readSlot b.cfg b.head (job.n % occ b.cfg b.head b.tail)
    match memRead b.cfg b.sto slot with
    | .error e => .error e
    | .ok d => .ok { b with port := some (.read slot), phase := .exec (job.awaiting b.cfg slot d) }
  | .writeObj =>
    match b.writeOne job.data with
    | .error e => .error e
    | .ok b₁ => .ok { b₁ with port := some (.write (writeSlot b.tail) job.data)
                              phase := .exec { job with issued := job.issued + 1 } }
  | _ => .ok b

/-! ### Response beats (R345) -/

/-- R345: send one response beat, for one cycle. -/
def Rbc.send (b : Rbc) (r : RspBeat) : Rbc := { b with rsp := some r, out := b.out ++ [r] }

/-- A data beat can be sent: the object of the oldest read has arrived. -/
def Job.dataReady (job : Job) : Bool :=
  isBulkRead job.op && match job.flight with
    | r :: _ => decide (r.left ≤ 1)
    | [] => false

/-- R331, R345: send the data beat of the oldest read, if one is to be sent and can be. -/
def Rbc.sendData (send : Bool) (job : Job) (b : Rbc) : Job × Rbc :=
  if send && job.dataReady then
    match job.flight with
    | r :: rest => ({ job with sent := job.sent + 1, flight := rest },
                    b.send (dataBeat job.sent (r.slot, r.obj)))
    | [] => (job, b)
  else (job, b)

/-- The final beat can be sent: every read is made and its object has arrived, and every data beat of
a bulk read is sent. A write that is still to be made is made at the final beat's edge. -/
def Rbc.lastReady (job : Job) (b : Rbc) : Bool :=
  (decide (job.op = .writeObj) || decide (b.accessesLeft job = 0)) &&
    if isBulkRead job.op then job.flight.isEmpty else job.flight.all fun r => decide (r.left ≤ 1)

/-- The answer of a bulk command whose one-object steps are done (R610 to R613): `k` of `n` objects
were moved. -/
def bulkAnswer (job : Job) : Response :=
  match job.op with
  | .writeN | .writeAll => answer (shortfall .full job.n job.k) job.k
  | _ => answer (shortfall .empty job.n job.k) job.k

/-- The answer of a command that reads one object: the object read, with `count`, or EMPTY where the
buffer held none (R601, R700). -/
def readAnswer (count : Nat) (flight : List StoRead) : Response :=
  match flight with
  | r :: _ => answerObject count r.slot r.obj
  | [] => answer .empty 0

/-- What is left of a command at its final beat: the answer of one that has moved its objects, for any
other command its rule of 41 to 43. DELETE_N removes its objects here, which R603 and U24 allow. -/
def Rbc.lastStep (job : Job) (b : Rbc) : Except Fault (Rbc × Response) :=
  match job.op with
  | .nop => b.nopCommand
  | .clear => b.clearCommand
  | .writeObj => if job.issued = 0 then b.writeObjCommand job.data else .ok (b, answer .ok 1)
  | .readObj => .ok (b, readAnswer 1 job.flight)
  | .deleteHead => b.deleteHeadCommand
  | .deleteN => b.deleteNCommand job.n
  | .peekNth => .ok (b, readAnswer (job.n % occ b.cfg b.head b.tail) job.flight)
  | .qEmpty => b.qEmptyCommand
  | .qFull => b.qFullCommand
  | .qOccupied => b.qOccupiedCommand
  | .qFree => b.qFreeCommand
  | .reservedF => b.reservedCommand
  | .writeN | .readN | .writeAll | .readAll => .ok (b, bulkAnswer job)

/-- The write a final step makes on the storage port (R208): that of a WRITE_OBJ not made before. -/
def Rbc.lastWrite (job : Job) (b : Rbc) : StoPort :=
  portWrite (decide (job.op = .writeObj) && decide (job.issued = 0) &&
    !isFull b.cfg b.head b.tail) (writeSlot b.tail) job.data

/-- R345: the final beat, which sets `phase <- IDLE` at the same edge. -/
def Rbc.finish (job : Job) (b : Rbc) : Except Fault Rbc :=
  match b.lastStep job with
  | .error e => .error e
  | .ok (b₁, r) =>
    .ok (Rbc.send { b₁ with phase := .idle, port := b.lastWrite job } r.final)

/-! ### The pace of a command (R346, R1240) -/

/-- The open choices of one RBC edge: `cmd_ready` is 0 in `WDATA`, a storage access is made in `EXEC`,
a response beat is sent in `EXEC`. -/
structure Pace where
  stall : Bool
  issue : Bool
  send : Bool
  deriving DecidableEq, Repr

/-- What this step draws for them. -/
def State.pace (s : State) : Pace :=
  ⟨Config.freeStall s.free, Config.freeIssue s.free, Config.freeSend s.free⟩

/-- One edge in `EXEC`: the final beat, or at most one data beat and at most one storage access. -/
def Rbc.execMove (issue send : Bool) (job : Job) (b : Rbc) : Except Fault Rbc :=
  if send && b.lastReady job then b.finish job
  else
    let x := b.sendData send job
    if issue && decide (0 < b.accessesLeft job) then x.2.access x.1.tick
    else .ok { x.2 with phase := .exec x.1.tick }

/-- The cycles after which the last of the awaited objects can have been sent, one in each cycle. -/
def flightTime (t : Nat) : List StoRead → Nat
  | [] => t
  | r :: rest => flightTime (max (t + 1) r.left) rest

/-- The fewest edges from here to the final beat, with an access and a beat at every edge that can
have one. -/
def Rbc.soonest (job : Job) (b : Rbc) : Nat :=
  let t := flightTime 0 job.flight
  let reads := if job.op = .writeObj then 0 else b.accessesLeft job
  let all := if 0 < reads then reads + max t b.cfg.lSto else t
  if isBulkRead job.op then all + 1 else max all 1

/-- R1240: the final beat can still come within `LAT_MAX` cycles of the command's last beat. -/
def Rbc.inTime (b : Rbc) : Bool :=
  match b.phase with
  | .idle => true
  | .wdata _ _ _ _ => true
  | .exec job => decide (job.cycles + b.soonest job ≤ b.cfg.latMax)

/-- R345, R346, R1240: an edge in `EXEC`. The pace is free as long as the final beat can still come
within `LAT_MAX` cycles; at the last moment everything that can be done is done (log entry 11). -/
def Rbc.execEdge (pace : Pace) (job : Job) (b : Rbc) : Except Fault Rbc :=
  if b.cfg.latMax ≤ job.cycles + 1 then b.execMove true true job
  else match b.execMove pace.issue pace.send job with
    | .error e => .error e
    | .ok b₁ => if b₁.inTime then .ok b₁ else b.execMove true true job

/-- Carry a result of the RBC to the outcome of an edge. -/
def edgeOutcome (r : Except Fault Rbc) : Host.Outcome Rbc Fault Refusal :=
  match r with
  | .error e => .fault e
  | .ok b => .next b

/-- The RBC at an edge, its one-cycle outputs low again (R345) and the host's beat held if it is not
accepted (R341). -/
def Rbc.startEdge (valid ready : Bool) (beat : CmdBeat) (b : Rbc) : Rbc :=
  { b with rsp := none, port := none, held := if valid && !ready then some beat else none }

/-- One rising edge of the RBC's `clk` with `rst = 0` (R340 to R345). -/
def Rbc.runEdge (valid : Bool) (beat : CmdBeat) (pace : Pace) (b : Rbc) :
    Host.Outcome Rbc Fault Refusal :=
  let ready := b.cmdReady false pace.stall
  let b₀ := b.startEdge valid ready beat
  match b.phase with
  | .idle => .next (if valid then b₀.acceptHeader beat.hdr beat.data else b₀)
  | .wdata op n k i =>
    if !ready then .next { b₀ with waited := b.waited + 1 }
    else if valid then edgeOutcome (b₀.acceptData beat.data op n k i)
    else .next { b₀ with waited := 0 }
  | .exec job => edgeOutcome (b₀.execEdge pace job)

/-- One rising edge of the RBC's `clk`. -/
def Rbc.clkEdge (rst valid : Bool) (beat : CmdBeat) (pace : Pace) (b : Rbc) :
    Host.Outcome Rbc Fault Refusal :=
  legally (checkRbc b.cfg) <|
    if !b.holdsBeat valid beat then .refused .beatWithdrawn
    else if valid && !decide (beat.hdr < 2 ^ (b.cfg.nw + 4)) then
      .refused (.badPortValue .headerTooWide)
    else if valid && !objFits b.cfg beat.data then .refused (.badPortValue .objectTooWide)
    else if rst then .next (b.startEdge valid (b.cmdReady true pace.stall) beat).resetEdge
    else b.runEdge valid beat pace

/-- The edge as an event of the machine: a header accepted in `IDLE` advances the host's command
index (R116), and the draw counter advances. -/
def rbcClock (rst valid : Bool) (beat : CmdBeat) (s : State) : Host.Outcome State Fault Refusal :=
  match s.rbc.clkEdge rst valid beat s.pace with
  | .fault e => .fault e
  | .refused r => .refused r
  | .next b =>
    .next { s with rbc := b, free := s.free + 1
                   pos := if !rst && valid && s.rbc.phase.isIdle then s.pos + 1 else s.pos }

end Sys2Proof.Machine
end

