-- ==== Sys2Proof/Machine/AsyncFifo.lean ====
section
/-! DEFINITION. 45_async_fifo.md: the four operations of AF, each one edge of its own clock, and the
reset pin. -/

namespace Sys2Proof.Machine

/-- AF_WIDLE (R911). -/
def execAfWidle (s : State) : Host.Outcome State Fault Refusal := onAf s (Af.wclkEdge false 0)

/-- AF_PUSH (R910). -/
def execAfPush (d : Nat) (s : State) : Host.Outcome State Fault Refusal :=
  onAf s (Af.wclkEdge true d)

/-- AF_RIDLE (R921). -/
def execAfRidle (s : State) : Host.Outcome State Fault Refusal := onAf s (Af.rclkEdge false)

/-- AF_POP (R920). -/
def execAfPop (s : State) : Host.Outcome State Fault Refusal := onAf s (Af.rclkEdge true)

/-- `arst_n` driven to a level (R1202). -/
def afReset (level : Bool) (s : State) : Host.Outcome State Fault Refusal :=
  legally (checkAf s.af.cfg) (.next { s with af := s.af.driveReset level })

end Sys2Proof.Machine
end

