-- ==== Sys2Proof/Machine/SyncFifo.lean ====
section
/-! DEFINITION. 44_sync_fifo.md: the five operations of SF, each one edge with `rst = 0`. -/

namespace Sys2Proof.Machine

/-- SF_IDLE (R820). -/
def execSfIdle (s : State) : Host.Outcome State Fault Refusal := onSf s (Sf.edge false false 0)

/-- SF_PUSH (R821). -/
def execSfPush (d : Nat) (s : State) : Host.Outcome State Fault Refusal :=
  onSf s (Sf.edge true false d)

/-- SF_POP (R822). -/
def execSfPop (s : State) : Host.Outcome State Fault Refusal := onSf s (Sf.edge false true 0)

/-- SF_PUSH_POP (R823). -/
def execSfPushPop (d : Nat) (s : State) : Host.Outcome State Fault Refusal :=
  onSf s (Sf.edge true true d)

/-- SF_CLEAR (R824). -/
def execSfClear (s : State) : Host.Outcome State Fault Refusal := onSf s fun f => .ok f.cleared

/-- An edge with `rst = 1` (R1201). -/
def sfReset (s : State) : Host.Outcome State Fault Refusal := onSf s fun f => .ok f.cleared

end Sys2Proof.Machine
end

