-- ==== Sys2Proof/Machine/Dispatch.lean ====
section
/-! DEFINITION. One arm per constructor of Instr. -/

namespace Sys2Proof.Machine

def exec (i : Instr) (s : State) : Host.Outcome State Fault Refusal :=
  match i with
  | .nop => Sys2Proof.Machine.execNop s
  | .clear => Sys2Proof.Machine.execClear s
  | .writeObj d => Sys2Proof.Machine.execWriteObj d s
  | .readObj => Sys2Proof.Machine.execReadObj s
  | .deleteHead => Sys2Proof.Machine.execDeleteHead s
  | .deleteN n => Sys2Proof.Machine.execDeleteN n s
  | .writeN n ds => Sys2Proof.Machine.execWriteN n ds s
  | .readN n => Sys2Proof.Machine.execReadN n s
  | .writeAll n ds => Sys2Proof.Machine.execWriteAll n ds s
  | .readAll n => Sys2Proof.Machine.execReadAll n s
  | .peekNth n => Sys2Proof.Machine.execPeekNth n s
  | .qEmpty => Sys2Proof.Machine.execQEmpty s
  | .qFull => Sys2Proof.Machine.execQFull s
  | .qOccupied => Sys2Proof.Machine.execQOccupied s
  | .qFree => Sys2Proof.Machine.execQFree s
  | .reservedF => Sys2Proof.Machine.execReservedF s
  | .sfIdle => Sys2Proof.Machine.execSfIdle s
  | .sfPush d => Sys2Proof.Machine.execSfPush d s
  | .sfPop => Sys2Proof.Machine.execSfPop s
  | .sfPushPop d => Sys2Proof.Machine.execSfPushPop d s
  | .sfClear => Sys2Proof.Machine.execSfClear s
  | .afWidle => Sys2Proof.Machine.execAfWidle s
  | .afPush d => Sys2Proof.Machine.execAfPush d s
  | .afRidle => Sys2Proof.Machine.execAfRidle s
  | .afPop => Sys2Proof.Machine.execAfPop s

end Sys2Proof.Machine
end

