-- ==== Sys2Proof/Machine/Fetch.lean ====
section
/-! DEFINITION. How an instruction reaches the machine: no block fetches (R220); the host's next
event carries a value of one port, which is decoded and executed. -/

namespace Sys2Proof.Machine

/-- Decode a port's value with the parameters of its block, and execute it. `runEvent` asks for a
legal elaboration first. -/
def decodeAndExec (p : Config) (word : PortWord) (s : State) : Host.Outcome State Fault Refusal :=
  match decode p word with
  | .error e => .refused (.badPortValue e)
  | .ok i => exec i s

/-- The state in which a transaction-level command runs: the beat the host may have been holding is
taken, and its command index advances (R116). -/
def State.commandTaken (s : State) : State :=
  { s with pos := s.pos + 1, rbc := { s.rbc with held := none } }

/-- The host sends one whole command: the header, then its data beats. -/
def runCommand (w : Nat) (d : Nat) (ds : List Nat) (s : State) :
    Host.Outcome State Fault Refusal :=
  if s.rbc.holdsBeat true ⟨w, d⟩ then decodeAndExec s.rbc.cfg (.hdr w d ds) s.commandTaken
  else .refused .beatWithdrawn

/-- An edge of SF's clock: `rst` takes precedence over the control vector (R1201). -/
def runSfEdge (rst : Bool) (w : Nat) (d : Nat) (s : State) : Host.Outcome State Fault Refusal :=
  if rst then sfReset s else decodeAndExec s.sf.cfg (.sfCtl w d) s

/-- R17, R500: the check of the block an event drives. It comes first: an event of a block with an
illegal elaboration answers that refusal, whatever the port carries and whatever the host holds (log
entry 17). An event that no model has a move for (R216, R1203) answers its own name. -/
def Event.check (s : State) : Event → Option Refusal
  | .cmd _ _ _ => checkRbc s.rbc.cfg
  | .rbcClk _ _ _ => checkRbc s.rbc.cfg
  | .sfClk _ _ _ => checkSf s.sf.cfg
  | .wclk _ _ => checkAf s.af.cfg
  | .rclk _ => checkAf s.af.cfg
  | .arst _ => checkAf s.af.cfg
  | .secondAgent _ => none
  | .domainReset _ => none

/-- What the machine does on an event of a legally elaborated block. -/
def runLegal (e : Event) (s : State) : Host.Outcome State Fault Refusal :=
  match e with
  | .cmd w d ds => runCommand w d ds s
  | .rbcClk rst valid beat => rbcClock rst valid beat s
  | .sfClk rst w d => runSfEdge rst w d s
  | .wclk w d => decodeAndExec s.af.cfg (.afW w d) s
  | .rclk w => decodeAndExec s.af.cfg (.afR w) s
  | .arst level => afReset level s
  | .secondAgent _ => .refused .secondAgent
  | .domainReset _ => .refused .singleDomainReset

/-- What the machine does on an event. -/
def runEvent (e : Event) (s : State) : Host.Outcome State Fault Refusal :=
  legally (e.check s) (runLegal e s)

/-- The event that presents a port's value. -/
def eventOf : PortWord → Event
  | .hdr w d ds => .cmd w d ds
  | .sfCtl w d => .sfClk false w d
  | .afW w d => .wclk w d
  | .afR w => .rclk w

/-- The machine with a port value as the host's next event. A command needs the RBC in `IDLE` with
no other beat held. -/
def State.present (s : State) (word : PortWord) : State :=
  { s with script := eventOf word :: s.script
           rbc := { s.rbc with phase := .idle, held := none } }

end Sys2Proof.Machine
end

