-- ==== Sys2Proof/Machine/Step.lean ====
section
/-! DEFINITION. One step: the host's next event. -/

namespace Sys2Proof.Machine

/-- One step takes the host's next event. With none left no clock has an edge and no command is sent,
so nothing changes (R1120, R1243). -/
def step (s : State) : Host.Outcome State Fault Refusal :=
  match s.script with
  | [] => .next s
  | e :: rest => runEvent e { s with script := rest }

/-- `s` with the table word `w` as the host's next command, so that the very next step runs it (log
entry 4). -/
def State.withFetchWord (s : State) (nbits w : Nat) : State := s.present (tableWord (w % 2 ^ nbits))

end Sys2Proof.Machine
end

