-- ==== Sys2Proof/Machine/Listing.lean ====
section
/-! DEFINITION. The listing syntax of 30_encoding.md R360 and R362: how a command program and an edge
listing are written. Not observable on the hardware (D41; log entry 23). -/

namespace Sys2Proof.Machine

/-- R360: an object, "written as hexadecimal". -/
def objText (d : Nat) : String := "0x" ++ String.ofList (Nat.toDigits 16 d)

/-- A list of objects, the data beats in order. -/
def listBeats (ds : List Nat) : String := "[" ++ String.intercalate ", " (ds.map objText) ++ "]"

/-- R360: one command of a command program; SF and AF have edge lines instead. -/
def commandLine : Instr → Option String
  | .nop => some "NOP"
  | .clear => some "CLEAR"
  | .writeObj d => some ("WRITE_OBJ " ++ objText d)
  | .readObj => some "READ_OBJ"
  | .deleteHead => some "DELETE_HEAD"
  | .deleteN n => some ("DELETE_N " ++ Nat.repr n)
  | .writeN n ds => some ("WRITE_N " ++ Nat.repr n ++ ", " ++ listBeats ds)
  | .readN n => some ("READ_N " ++ Nat.repr n)
  | .writeAll n ds => some ("WRITE_ALL " ++ Nat.repr n ++ ", " ++ listBeats ds)
  | .readAll n => some ("READ_ALL " ++ Nat.repr n)
  | .peekNth n => some ("PEEK_NTH " ++ Nat.repr n)
  | .qEmpty => some "Q_EMPTY"
  | .qFull => some "Q_FULL"
  | .qOccupied => some "Q_OCCUPIED"
  | .qFree => some "Q_FREE"
  | .reservedF => none
  | .sfIdle => none
  | .sfPush _ => none
  | .sfPop => none
  | .sfPushPop _ => none
  | .sfClear => none
  | .afWidle => none
  | .afPush _ => none
  | .afRidle => none
  | .afPop => none

/-- One pin of an edge line. -/
def pin (name : String) (b : Bool) : String := " " ++ name ++ "=" ++ Nat.repr b.toNat

/-- R362: SF's line for clock edge `k`. -/
def sfLine (k w : Nat) (d : Nat) : String :=
  "@" ++ Nat.repr k ++ pin "wr" (w.testBit 0) ++ " d=" ++ objText d ++ pin "rd" (w.testBit 1) ++
    pin "clr" (w.testBit 2)

/-- R362: AF's line for edge `k` of `wclk`. -/
def wclkLine (k w : Nat) (d : Nat) : String :=
  "@w" ++ Nat.repr k ++ pin "winc" (w.testBit 0) ++ " d=" ++ objText d

/-- R362: AF's line for edge `k` of `rclk`. -/
def rclkLine (k w : Nat) : String := "@r" ++ Nat.repr k ++ pin "rinc" (w.testBit 0)

end Sys2Proof.Machine
end

