-- ==== Sys2Proof/Safety.lean ====
section
/-! DEFINITION. What counts as a safe state and a right run, in the terms the statements use: the
invariants of the three blocks, the objects a block holds, the bounded queue the RBC refines
(20_memory.md R215), and the host that sends one command at the cycle level (30_encoding.md R347). -/

namespace Sys2Proof.Machine

/-! ## Invariants -/

/-- Every byte of a slot has been written. -/
def slotWritten (p : Config) (m : Memory) (slot : Nat) : Prop :=
  (readBytes m (slotAddr p slot) p.s).isSome = true

/-- R206: every slot of the occupied window has been written. -/
def windowWritten (p : Config) (m : Memory) (head tail : Nat) : Prop :=
  ∀ j, j < occ p head tail → slotWritten p m (readSlot p head j)

/-- R330: every field of a response beat fits its port. -/
def RspBeat.fits (p : Config) (r : RspBeat) : Prop :=
  r.count < 2 ^ p.nw ∧ (∀ i, r.index = some i → i < p.c) ∧ ∀ d, r.data = some d → d < 2 ^ (8 * p.s)

/-- R112, R343: what a phase says of the command in progress. -/
def Rbc.phaseOk (b : Rbc) : Prop :=
  match b.phase with
  | .idle => True
  | .wdata op n k i =>
    isBurst op = true ∧ i < n ∧ n < 2 ^ b.cfg.nw ∧ k ≤ n ∧
      k ≤ i + freeSlots b.cfg b.head b.tail
  | .exec job =>
    job.n < 2 ^ b.cfg.nw ∧
      (∀ r ∈ job.flight, r.slot < b.cfg.c ∧ r.obj < 2 ^ (8 * b.cfg.s)) ∧
      match job.op with
      | .readN | .readAll =>
        job.sent + job.flight.length = job.issued ∧ job.issued ≤ job.k ∧ job.k ≤ job.n ∧
          job.k ≤ job.issued + occ b.cfg b.head b.tail
      | .readObj =>
        job.flight.length = job.issued ∧ job.issued ≤ job.k ∧ job.k ≤ 1 ∧
          job.k ≤ job.issued + occ b.cfg b.head b.tail
      | .peekNth => job.flight.length = job.issued ∧ job.issued ≤ 1
      | .writeObj =>
        job.issued ≤ job.k ∧ job.k ≤ 1 ∧ job.k ≤ job.issued + freeSlots b.cfg b.head b.tail
      | .writeN | .writeAll => job.k ≤ job.n
      | _ => True

/-- The RBC's invariant: a legal elaboration, cursors in range (R101 to R103), canonical storage, a
written window (R206), beats that fit the response port, and a phase that agrees with the cursors. -/
structure Rbc.Inv (b : Rbc) : Prop where
  legal : checkRbc b.cfg = none
  head_lt : b.head < b.cfg.c
  tail_lt : b.tail < b.cfg.c
  preHead_lt : b.preHead < b.cfg.c
  preTail_lt : b.preTail < b.cfg.c
  sto_wf : Memory.wf b.sto
  window : windowWritten b.cfg b.sto b.head b.tail
  out_fits : ∀ r ∈ b.out, r.fits b.cfg
  rsp_fits : ∀ r, b.rsp = some r → r.fits b.cfg
  phase_ok : b.phaseOk

/-- SF's invariant: as the RBC's, and R820 to R823 and R1112 of the acknowledge registers. -/
structure Sf.Inv (f : Sf) : Prop where
  legal : checkSf f.cfg = none
  head_lt : f.head < f.cfg.c
  tail_lt : f.tail < f.cfg.c
  sto_wf : Memory.wf f.sto
  window : windowWritten f.cfg f.sto f.head f.tail
  rdData_fits : f.rdData < 2 ^ (8 * f.cfg.s)
  write_once : ¬(f.wrAck = true ∧ f.wrOvf = true)
  read_once : ¬(f.rdAck = true ∧ f.rdUnf = true)
  not_both : ¬(f.wrOvf = true ∧ f.rdUnf = true)

/-- AF's invariant: R133 of the pointers and chains, the lag, no-overflow and no-underflow laws R950
to R952, a written window between the two counts, and the reset of R1202. -/
structure Af.Inv (a : Af) : Prop where
  legal : checkAf a.cfg = none
  sto_wf : Memory.wf a.sto
  wq_length : a.wq.length = a.cfg.syncN
  rq_length : a.rq.length = a.cfg.syncN
  wbin_count : a.wbin = a.wc % a.cfg.c
  rbin_count : a.rbin = a.rc % a.cfg.c
  wgray_code : a.wgray = gray a.wbin
  rgray_code : a.rgray = gray a.rbin
  wq_code : a.wq = a.wqc.map fun x => gray (x % a.cfg.c)
  rq_code : a.rq = a.rqc.map fun x => gray (x % a.cfg.c)
  wqc_order : a.wqc.Pairwise fun x y => y ≤ x
  rqc_order : a.rqc.Pairwise fun x y => y ≤ x
  wqc_le : ∀ x ∈ a.wqc, x ≤ a.rc
  rqc_le : ∀ x ∈ a.rqc, x ≤ a.wc
  no_underflow : a.rc ≤ a.wv
  no_overflow : a.wc + 1 ≤ a.rv + a.cfg.c
  window : ∀ x, a.rc ≤ x → x < a.wc → slotWritten a.cfg a.sto (x % a.cfg.c)
  rdData_fits : a.rdData < 2 ^ (8 * a.cfg.s)
  write_once : ¬(a.wrAck = true ∧ a.wrOvf = true)
  read_once : ¬(a.rdAck = true ∧ a.rdUnf = true)
  in_reset : a.arstN = false → a.wLive = false ∧ a.rLive = false
  write_in_reset : a.wLive = false → a.wc = 0 ∧ a.wrAck = false ∧ a.wrOvf = false
  read_in_reset : a.rLive = false → a.rc = 0 ∧ a.rdAck = false ∧ a.rdUnf = false

/-- The invariant of the whole machine. -/
structure State.Inv (s : State) : Prop where
  rbc : s.rbc.Inv
  sf : s.sf.Inv
  af : s.af.Inv

/-- A command can be sent at the transaction level: a legal elaboration, no command in progress. -/
def State.rbcReady (s : State) : Prop := checkRbc s.rbc.cfg = none ∧ s.rbc.phase = .idle

/-- The AF write domain runs: a legal elaboration, and the domain has left reset. -/
def State.afWriteRuns (s : State) : Prop :=
  checkAf s.af.cfg = none ∧ s.af.arstN = true ∧ s.af.wLive = true

/-- The AF read domain runs. -/
def State.afReadRuns (s : State) : Prop :=
  checkAf s.af.cfg = none ∧ s.af.arstN = true ∧ s.af.rLive = true

/-! ## What a block holds -/

/-- The object in a slot, if all of it has been written. -/
def slotObj (p : Config) (m : Memory) (slot : Nat) : Option Nat :=
  readBytes m (slotAddr p slot) p.s

/-- The objects of the occupied window, oldest first. -/
def windowObjs (p : Config) (m : Memory) (head n : Nat) : List (Option Nat) :=
  (List.range n).map fun j => slotObj p m (readSlot p head j)

/-- The objects the RBC holds, oldest first. -/
def Rbc.contents (b : Rbc) : List (Option Nat) :=
  windowObjs b.cfg b.sto b.head (occ b.cfg b.head b.tail)

/-- The objects SF holds, oldest first. -/
def Sf.contents (f : Sf) : List (Option Nat) :=
  windowObjs f.cfg f.sto f.head (occ f.cfg f.head f.tail)

/-- The objects AF holds, oldest first: pushes `Rc + 1` to `Wc`. -/
def Af.contents (a : Af) : List (Option Nat) :=
  windowObjs a.cfg a.sto a.rbin (a.wc - a.rc)

/-! ## The bounded queue of the source (R4, R215) -/

/-- What a command answers: status, count, the objects of its data beats, the object of its final
beat. -/
structure QueueAnswer where
  status : Status
  count : Nat
  sent : List Nat
  last : Option Nat
  deriving DecidableEq, Repr

/-- The library operation each RBC command carries, on a queue of at most `cap = C − 1` objects,
oldest first. SF and AF rows are no RBC commands. -/
def queueCommand (cap : Nat) (i : Instr) (q : List Nat) : Option (List Nat × QueueAnswer) :=
  let n := q.length
  match i with
  | .nop => some (q, ⟨.ok, 0, [], none⟩)
  | .clear => some ([], ⟨.ok, 0, [], none⟩)
  | .writeObj d =>
    some (if n < cap then (q ++ [d], ⟨.ok, 1, [], none⟩) else (q, ⟨.full, 0, [], none⟩))
  | .readObj =>
    some (match q with
      | [] => (q, ⟨.empty, 0, [], none⟩)
      | x :: xs => (xs, ⟨.ok, 1, [], some x⟩))
  | .deleteHead =>
    some (match q with
      | [] => (q, ⟨.empty, 0, [], none⟩)
      | _ :: xs => (xs, ⟨.ok, 1, [], none⟩))
  | .deleteN k =>
    some (q.drop k, ⟨if k ≤ n then .ok else .empty, min k n, [], none⟩)
  | .writeN k ds =>
    some (q ++ ds.take (cap - n), ⟨if k ≤ cap - n then .ok else .full, min k (cap - n), [], none⟩)
  | .readN k =>
    some (q.drop k, ⟨if k ≤ n then .ok else .empty, min k n, q.take k, none⟩)
  | .writeAll k ds =>
    some (if k ≤ cap - n then (q ++ ds, ⟨.ok, k, [], none⟩) else (q, ⟨.full, 0, [], none⟩))
  | .readAll k =>
    some (if k ≤ n then (q.drop k, ⟨.ok, k, q.take k, none⟩) else (q, ⟨.empty, 0, [], none⟩))
  | .peekNth k =>
    some (if n = 0 then (q, ⟨.empty, 0, [], none⟩) else (q, ⟨.ok, k % n, [], q[k % n]?⟩))
  | .qEmpty => some (q, ⟨.ok, if n = 0 then 1 else 0, [], none⟩)
  | .qFull => some (q, ⟨.ok, if n = cap then 1 else 0, [], none⟩)
  | .qOccupied => some (q, ⟨.ok, n, [], none⟩)
  | .qFree => some (q, ⟨.ok, cap - n, [], none⟩)
  | .reservedF => some (q, ⟨.illegal, 0, [], none⟩)
  | .sfIdle => none
  | .sfPush _ => none
  | .sfPop => none
  | .sfPushPop _ => none
  | .sfClear => none
  | .afWidle => none
  | .afPush _ => none
  | .afRidle => none
  | .afPop => none

/-- The data beats of a burst without their slots, numbered from `j`. -/
def sentBeats (j : Nat) : List Nat → List (Bool × Status × Nat × Option Nat)
  | [] => []
  | x :: xs => (false, .ok, j, some x) :: sentBeats (j + 1) xs

/-- Every beat of an answer without its slots, in order. -/
def QueueAnswer.beats (a : QueueAnswer) : List (Bool × Status × Nat × Option Nat) :=
  sentBeats 0 a.sent ++ [(true, a.status, a.count, a.last)]

/-- A response beat without its slot. -/
def RspBeat.noSlot (r : RspBeat) : Bool × Status × Nat × Option Nat :=
  (r.last, r.status, r.count, r.data)

/-! ## The host at the cycle level -/

/-- The host sends the beats `todo`, one after another, each held until it is accepted (R341), and
then waits for the RBC to be in `IDLE`; at most `fuel` edges. -/
def driveHost : Nat → List CmdBeat → State → Host.Outcome State Fault Refusal
  | 0, _, s => .next s
  | fuel + 1, [], s =>
    if s.rbc.phase.isIdle then .next s
    else match rbcClock false false ⟨0, 0⟩ s with
      | .next t => driveHost fuel [] t
      | .fault e => .fault e
      | .refused r => .refused r
  | fuel + 1, beat :: todo, s =>
    match rbcClock false true beat s with
    | .next t =>
      driveHost fuel (if s.rbc.cmdReady false (Config.freeStall s.free) then todo else beat :: todo) t
    | .fault e => .fault e
    | .refused r => .refused r

/-- R1240, D28: the edges of one command of `n` data beats: its header, `LAT_MAX` at most for each
data beat and `LAT_MAX` at most from the last beat to the final beat. Where `LAT_MAX` is less than
the `C + L_STO` edges the longest command takes at full speed, that counts instead (log entry 11). -/
def edgeBound (p : Config) (n : Nat) : Nat :=
  1 + n * max p.latMax 1 + max p.latMax (p.c + p.lSto)

/-! ## The strategy (40_index_arithmetic.md R404) -/

/-- The same machine with `STRAT = MOD` in every block. -/
def State.asMod (s : State) : State :=
  { s with rbc := { s.rbc with cfg := s.rbc.cfg.asMod }
           sf := { s.sf with cfg := s.sf.cfg.asMod }
           af := { s.af with cfg := s.af.cfg.asMod } }

/-- `STRAT` is legal: `MASK` only with a power of two (R402). -/
def stratLegal (p : Config) : Prop := p.strat = .mask → isPow2 p.c = true

/-- An outcome, with a function applied to its next state. -/
def mapNext (f : State → State) (o : Host.Outcome State Fault Refusal) :
    Host.Outcome State Fault Refusal :=
  match o with
  | .next s => .next (f s)
  | .fault e => .fault e
  | .refused r => .refused r

end Sys2Proof.Machine
end

