-- ==== Sys2Proof/Certificates/Slice0/Obligations.lean ====
section
/-! DEFINITION. The statements about the model, each from a numbered rule of spec/ named in its
docstring. They state and never prove. -/

open Sys2Proof Sys2Proof.Machine

namespace Sys2Proof.Statements

/-! ## Words the statements use -/

/-- A header with `cmd_op = op` is the instruction `i` of its `n`, its `cmd_data` and its data beats,
whatever the fields it does not read hold; `beats n` data beats follow it (R301, R310, R311, R351). -/
def HeaderIs (op : Nat) (beats : Nat → Nat) (i : Nat → Nat → List Nat → Instr) : Prop :=
  ∀ (p : Config) (w d : Nat) (ds : List Nat),
    w < 2 ^ (p.nw + 4) → objFits p d = true → ds.all (objFits p) = true →
    w % 16 = op → ds.length = beats (w / 16) →
    decode p (.hdr w d ds) = .ok (i (w / 16) d ds)

/-- A control vector is the instruction `i` of its `wr_data`, on SF's port (R303). -/
def ControlIs (w : Nat) (i : Nat → Instr) : Prop :=
  ∀ (p : Config) (d : Nat), objFits p d = true → decode p (.sfCtl w d) = .ok (i d)

/-- The RBC after a command that changed nothing and answered `respond(st, k, —, —, [])`. -/
def answered (b : Rbc) (st : Status) (k : Nat) : Rbc :=
  { b with rsp := some ⟨true, st, k, none, none⟩
           out := b.out ++ [⟨true, st, k, none, none⟩] }

/-- A transaction-level command may run and both cursors are in range (R101, R102). -/
def Ready (s : State) : Prop :=
  s.rbcReady ∧ s.rbc.head < s.rbc.cfg.c ∧ s.rbc.tail < s.rbc.cfg.c

/-- SF is legally elaborated and both cursors are in range. -/
def SfReady (s : State) : Prop :=
  checkSf s.sf.cfg = none ∧ s.sf.head < s.sf.cfg.c ∧ s.sf.tail < s.sf.cfg.c

/-- R201, R203: where byte `i` of a slot lies: at offset `slot·S + i`, from `BASE` up in an external
storage. -/
def byteAddr (p : Config) (slot i : Nat) : Nat :=
  (if p.storage = .external then p.base else 0) + slot * p.s + i

/-- R201 to R203: a slot holds the object `d`: byte `i`, the bits `[8·i+7 : 8·i]` of `d`, lies at its
address. -/
def holdsObject (p : Config) (m : Memory) (slot d : Nat) : Prop :=
  ∀ i, i < p.s → readByte m (byteAddr p slot i) = some (BitVec.ofNat 8 (d >>> (8 * i)))

/-- Byte address `a` is none of the bytes of a slot. -/
def outsideSlot (p : Config) (slot a : Nat) : Prop := ∀ i, i < p.s → a ≠ byteAddr p slot i

/-- Every byte outside one slot reads as before. -/
def onlySlotChanged (p : Config) (m m' : Memory) (slot : Nat) : Prop :=
  ∀ a, outsideSlot p slot a → readByte m' a = readByte m a

/-- The instructions of the ring_buffer_controller. -/
def isRbc : Instr → Bool
  | .nop | .clear | .writeObj _ | .readObj | .deleteHead | .deleteN _ | .writeN _ _ | .readN _
  | .writeAll _ _ | .readAll _ | .peekNth _ | .qEmpty | .qFull | .qOccupied | .qFree
  | .reservedF => true
  | _ => false

/-- The instructions of sync_fifo. -/
def isSf : Instr → Bool
  | .sfIdle | .sfPush _ | .sfPop | .sfPushPop _ | .sfClear => true
  | _ => false

/-- The instructions of async_fifo. -/
def isAf : Instr → Bool
  | .afWidle | .afPush _ | .afRidle | .afPop => true
  | _ => false

/-- What a synchroniser's first stage may capture (R930, R931): the count `x` and the gray value `g`,
for an input register `src` that stands for the count `now`, the stage having stood for `seen`. -/
def Captures (p : Config) (moved : Bool) (seen now src x g : Nat) : Prop :=
  (moved = false → x = now) ∧ (seen ≤ now → seen ≤ x ∧ x ≤ now) ∧
    g = if x = now then src else gray (x % p.c)

/-- AF after its write-domain synchroniser shifted `x`, `g` in (R930). -/
def shiftedW (a : Af) (x g : Nat) : Af :=
  { a with wq := g :: a.wq.dropLast, wqc := x :: a.wqc.dropLast, rMoved := false }

/-- AF after its read-domain synchroniser shifted `x`, `g` in (R930). -/
def shiftedR (a : Af) (x g : Nat) : Af :=
  { a with rq := g :: a.rq.dropLast, rqc := x :: a.rqc.dropLast, wMoved := false }

/-- `n` successive WRITE_OBJ commands with the objects of a list, stopped at the first FULL (R614). -/
def writeObjs : List Nat → State → Host.Outcome State Fault Refusal
  | [], s => .next s
  | d :: ds, s =>
    match exec (.writeObj d) s with
    | .next t =>
      if t.rbc.rsp = some ⟨true, .full, 0, none, none⟩ then .next t else writeObjs ds t
    | .fault e => .fault e
    | .refused r => .refused r

/-- `n` successive READ_OBJ commands, stopped at the first EMPTY (R615); gives the objects of their
final beats in order. -/
def readObjs : Nat → State → Option (List Nat × State)
  | 0, s => some ([], s)
  | n + 1, s =>
    match exec .readObj s with
    | .next t =>
      match t.rbc.rsp.bind RspBeat.data with
      | some d => (readObjs n t).map fun r => (d :: r.1, r.2)
      | none => some ([], t)
    | .fault _ => none
    | .refused _ => none

/-- `es` is made of edges of the two AF clocks, whatever `winc`, `wdata` and `rinc` hold. -/
def afEdges (p : Config) (es : List Event) : Prop :=
  ∀ e ∈ es, (∃ w, w < 2 ∧ e = .rclk w) ∨ ∃ w d, w < 2 ∧ objFits p d = true ∧ e = .wclk w d

/-- How many edges of `rclk` a list of events holds. -/
def rclkEdges (es : List Event) : Nat :=
  (es.filter fun e => match e with | .rclk _ => true | _ => false).length

/-- How many edges of `wclk` a list of events holds. -/
def wclkEdges (es : List Event) : Nat :=
  (es.filter fun e => match e with | .wclk _ _ => true | _ => false).length

/-- The RBC's edge with given pins, as the event of the machine. -/
def rbcEdge (s : State) (rst valid : Bool) (beat : CmdBeat) : Host.Outcome State Fault Refusal :=
  runEvent (.rbcClk rst valid beat) s

/-- A beat fits the command port (R300). -/
def beatFits (p : Config) (beat : CmdBeat) : Prop :=
  beat.hdr < 2 ^ (p.nw + 4) ∧ objFits p beat.data = true

/-- The state after an accepted or idle edge of the RBC: its new registers, the draw counter, the
host's command index. -/
def afterRbcEdge (s : State) (b : Rbc) (pos : Nat) : State :=
  { s with rbc := b, free := s.free + 1, pos := pos }

/-- An SF edge answers the state with these registers, whatever its two storage ports show (log entry
8; `SfFrame` says what they show). -/
def sfAnswers (o : Host.Outcome State Fault Refusal) (s : State) (f : Sf) : Prop :=
  ∃ w r, o = .next { s with sf := { f with wPort := w, rPort := r } }

/-- The state after an edge of AF: its new registers and the draw counter. -/
def afterAfEdge (s : State) (a : Af) : State := { s with af := a, free := s.free + 1 }

/-- The number of one-object steps of a command with opcode `op` and count `n`, of a buffer that holds
`m` objects and has `free` slots free: those of DELETE_N and READ_N stop at empty, those of WRITE_N at
full; READ_ALL and WRITE_ALL take all or none; a single-object command one unless it fails, and CLEAR
one. -/
def stepsOf (op n m free : Nat) : Nat :=
  if op = 5 ∨ op = 7 then min n m
  else if op = 6 then min n free
  else if op = 8 then (if n ≤ free then n else 0)
  else if op = 9 then (if n ≤ m then n else 0)
  else if op = 2 then min 1 free
  else if op = 3 ∨ op = 4 then min 1 m
  else if op = 1 then 1
  else 0

/-- How many slots a command stores to, from `tail` on (R600, R610, R612). -/
def storedSlots (i : Instr) (b : Rbc) : Nat :=
  match i with
  | .writeObj _ => plannedSteps b.cfg .writeObj 0 b.head b.tail
  | .writeN n _ => plannedSteps b.cfg .writeN n b.head b.tail
  | .writeAll n _ => plannedSteps b.cfg .writeAll n b.head b.tail
  | _ => 0

end Sys2Proof.Statements

open Sys2Proof.Statements

/-! ## Encoding and the step -/

/-- R301, R303, R304, R320 to R322: words written out from the encodings. `WRITE_N` with `n = 3` is
`12'h036` (R301). -/
def Obligations.TableWordsDecodeToTheirRows : Prop :=
  decode Config.vectors (.hdr 0x000 0 []) = .ok .nop ∧
  decode Config.vectors (.hdr 0x002 0x41 []) = .ok (.writeObj 0x41) ∧
  decode Config.vectors (.hdr 0x036 0 [0x61, 0x62, 0x63]) = .ok (.writeN 3 [0x61, 0x62, 0x63]) ∧
  decode Config.vectors (.hdr 0xFF7 0 []) = .ok (.readN 255) ∧
  decode Config.vectors (.hdr 0x07F 0 []) = .ok .reservedF ∧
  decode Config.vectors (.sfCtl 0b011 0x58) = .ok (.sfPushPop 0x58) ∧
  decode Config.vectors (.sfCtl 0b111 0x45) = .ok .sfClear ∧
  decode Config.vectors (.afW 0b1 0x42) = .ok (.afPush 0x42) ∧
  decode Config.vectors (.afR 0b1) = .ok .afPop

/-- Decoding the encoding of a well-formed instruction gives it back, for every row of the table and
every elaboration (R301 to R304, R320 to R322). -/
def Obligations.DecodeOfEncode : Prop :=
  ∀ (p : Config) (i : Instr), i.wellFormed p = true → decode p (encode i) = .ok i

/-- R350, R321, R322: no value that fits a port is refused, but for a burst with the wrong number of
data beats; every value of the opcode is a command, and SF's vectors `3'b1xx` are all the clear.
Whatever a port presents, an instruction the decoder gives is well formed (R310, R311, R351). -/
def Obligations.EveryPortValueIsAnInstruction : Prop :=
  ((∀ (p : Config) (w d : Nat) (ds : List Nat), w < 2 ^ (p.nw + 4) → objFits p d = true →
     ds.all (objFits p) = true →
     ds.length = (if w % 16 = 6 ∨ w % 16 = 8 then w / 16 else 0) →
     ∃ i, decode p (.hdr w d ds) = .ok i ∧ isRbc i = true) ∧
   (∀ (p : Config) (w d : Nat), w < 8 → objFits p d = true →
     ∃ i, decode p (.sfCtl w d) = .ok i ∧ isSf i = true ∧ (4 ≤ w ↔ i = .sfClear)) ∧
   (∀ (p : Config) (w d : Nat), w < 2 → objFits p d = true →
     (∃ i, decode p (.afW w d) = .ok i ∧ isAf i = true) ∧
     ∃ i, decode p (.afR w) = .ok i ∧ isAf i = true)) ∧
  (∀ (p : Config) (w : PortWord) (i : Instr), decode p w = .ok i → i.wellFormed p = true)

/-- A step runs the decoded instruction: the host's next event is taken off the script, its port's
value is decoded with the parameters of its block, and `exec` runs the instruction. With no event
nothing changes. The model's choices: the script is its form of the host (log entry 5); a
transaction-level command takes and releases the very beat the host holds (log entry 16); and the
host's index advances with that step (log entry 22). -/
def Obligations.StepRunsTheDecodedInstruction : Prop :=
  (∀ (s : State) (w d : Nat) (ds : List Nat) (rest : List Event) (i : Instr),
    s.script = .cmd w d ds :: rest → (s.rbc.held = none ∨ s.rbc.held = some ⟨w, d⟩) →
    decode s.rbc.cfg (.hdr w d ds) = .ok i →
    step s = exec i { s with script := rest, pos := s.pos + 1
                             rbc := { s.rbc with held := none } }) ∧
  (∀ (s : State) (w d : Nat) (rest : List Event) (i : Instr),
    s.script = .sfClk false w d :: rest → decode s.sf.cfg (.sfCtl w d) = .ok i →
    step s = exec i { s with script := rest }) ∧
  (∀ (s : State) (w d : Nat) (rest : List Event) (i : Instr),
    s.script = .wclk w d :: rest → decode s.af.cfg (.afW w d) = .ok i →
    step s = exec i { s with script := rest }) ∧
  (∀ (s : State) (w : Nat) (rest : List Event) (i : Instr),
    s.script = .rclk w :: rest → decode s.af.cfg (.afR w) = .ok i →
    step s = exec i { s with script := rest }) ∧
  ∀ s : State, s.script = [] → step s = .next s

/-! ## The index unit -/

/-- R404: for `C = 2^m` the mask `x & (C − 1)` is `x mod C`; "the two strategies compute the same
`adv` and `addk` for every legal `MASK` configuration"; and "the choice of strategy is never
observable in any result": whatever event comes, a machine and the same machine elaborated with `MOD`
answer alike, and their outputs show the same. R403: `addk` is the index `k` places after `i`, in
either strategy: `(i + k) mod C`, and `adv` applied `k` times. -/
def Obligations.IndexAdvanceLaws : Prop :=
  (∀ (p : Config) (m x : Nat), p.c = 2 ^ m →
     wrap { p with strat := .mask } x = x % p.c ∧ wrap { p with strat := .mod } x = x % p.c) ∧
  (∀ (e : Event) (s : State), stratLegal s.rbc.cfg → stratLegal s.sf.cfg → stratLegal s.af.cfg →
     runEvent e s.asMod = mapNext State.asMod (runEvent e s) ∧
     s.asMod.rbcStatus = s.rbcStatus ∧ s.asMod.sf.status = s.sf.status ∧
     s.asMod.af.fullW = s.af.fullW ∧ s.asMod.af.emptyR = s.af.emptyR ∧
     s.asMod.af.wLevel = s.af.wLevel ∧ s.asMod.af.rLevel = s.af.rLevel) ∧
  (∀ (p : Config) (i k : Nat), isPow2 p.c = true →
     adv { p with strat := .mask } i = adv { p with strat := .mod } i ∧
     addk { p with strat := .mask } i k = addk { p with strat := .mod } i k) ∧
  (∀ (p : Config) (i k : Nat), checkShared p = none → i < p.c →
     addk p i k = (i + k) % p.c ∧ addk p i k = (adv p)^[k] i)

/-- R414, with R412's bound: `occ ≤ C − 1`. -/
def Obligations.ComparatorLaws : Prop :=
  ∀ (p : Config) (head tail : Nat), checkShared p = none → head < p.c → tail < p.c →
    (isEmpty head tail = true ↔ occ p head tail = 0) ∧
    (isFull p head tail = true ↔ occ p head tail = p.c - 1) ∧
    (isFull p head tail = true ↔ freeSlots p head tail = 0) ∧
    ¬(isEmpty head tail = true ∧ isFull p head tail = true) ∧
    occ p head tail ≤ p.c - 1

/-- R26: `gray⁻¹` is the inverse of `gray` on `[0, 2^IW − 1]`, where `gray` is a bijection; R430:
`gray(b)` and `gray(adv(b))` differ in exactly one bit position, the wrap included. -/
def Obligations.GrayCodeLaws : Prop :=
  (∀ w x : Nat, x < 2 ^ w →
     gray x < 2 ^ w ∧ grayInv w (gray x) = x ∧ grayInv w x < 2 ^ w ∧ gray (grayInv w x) = x) ∧
  (∀ (p : Config) (b : Nat), checkAf p = none → b < p.c →
     (∃ j, j < indexWidth p.c ∧ gray b ^^^ gray (adv p b) = 2 ^ j) ∧
     gray (p.c - 1) = 2 ^ (indexWidth p.c - 1) ∧ gray 0 = 0)

/-! ## ring_buffer_controller: single commands -/

/-- R510 and R710: NOP answers OK, the reserved opcode ILLEGAL; both change nothing else. -/
def Obligations.NopAndReservedOnlyAnswer : Prop :=
  HeaderIs 0x0 (fun _ => 0) (fun _ _ _ => .nop) ∧
  HeaderIs 0xF (fun _ => 0) (fun _ _ _ => .reservedF) ∧
  ∀ s : State, s.rbcReady →
    exec .nop s = .next { s with rbc := answered s.rbc .ok 0 } ∧
    exec .reservedF s = .next { s with rbc := answered s.rbc .illegal 0 }

/-- R501 and R502: CLEAR puts both cursors to 0 and leaves storage alone; the flags are then those of
an empty buffer. -/
def Obligations.ClearEmptiesTheBuffer : Prop :=
  HeaderIs 0x1 (fun _ => 0) (fun _ _ _ => .clear) ∧
  ∀ s : State, s.rbcReady →
    exec .clear s = .next { s with rbc := { answered s.rbc .ok 0 with head := 0, tail := 0 } } ∧
    statusOf s.rbc.cfg 0 0 = ⟨true, false, 0, s.rbc.cfg.c - 1⟩

/-- R520 to R523: each query answers its capacity function in the count and changes nothing else. -/
def Obligations.QueriesAnswerTheirCount : Prop :=
  HeaderIs 0xB (fun _ => 0) (fun _ _ _ => .qEmpty) ∧
  HeaderIs 0xC (fun _ => 0) (fun _ _ _ => .qFull) ∧
  HeaderIs 0xD (fun _ => 0) (fun _ _ _ => .qOccupied) ∧
  HeaderIs 0xE (fun _ => 0) (fun _ _ _ => .qFree) ∧
  ∀ s : State, Ready s →
    let p := s.rbc.cfg
    let h := s.rbc.head
    let t := s.rbc.tail
    exec .qEmpty s = .next { s with rbc := answered s.rbc .ok (if h = t then 1 else 0) } ∧
    exec .qFull s = .next { s with rbc := answered s.rbc .ok (if (t + 1) % p.c = h then 1 else 0) } ∧
    exec .qOccupied s = .next { s with rbc := answered s.rbc .ok ((t + p.c - h) % p.c) } ∧
    exec .qFree s = .next { s with rbc := answered s.rbc .ok (p.c - 1 - (t + p.c - h) % p.c) }

/-- R600: WRITE_OBJ stores at `tail` and advances it, or answers FULL and changes nothing.
(`StoragePortShowsEveryWrite` says where the bytes of a slot's object lie.) -/
def Obligations.WriteObjStoresAtTail : Prop :=
  HeaderIs 0x2 (fun _ => 0) (fun _ d _ => .writeObj d) ∧
  ∀ (s : State) (d : Nat), Ready s → objFits s.rbc.cfg d = true →
    let p := s.rbc.cfg
    let b := s.rbc
    ((b.tail + 1) % p.c = b.head →
      exec (.writeObj d) s = .next { s with rbc := answered b .full 0 }) ∧
    ((b.tail + 1) % p.c ≠ b.head → ∃ m,
      exec (.writeObj d) s = .next { s with rbc :=
        { answered b .ok 1 with sto := m, tail := (b.tail + 1) % p.c } } ∧
      slotObj p m b.tail = some d ∧ onlySlotChanged p b.sto m b.tail ∧
      occ p b.head ((b.tail + 1) % p.c) = occ p b.head b.tail + 1 ∧
      freeSlots p b.head ((b.tail + 1) % p.c) + 1 = freeSlots p b.head b.tail ∧
      isEmpty b.head ((b.tail + 1) % p.c) = false ∧
      (isFull p b.head ((b.tail + 1) % p.c) = true ↔ freeSlots p b.head b.tail = 1))

/-- R601: READ_OBJ sends the object at `head` and advances it, or answers EMPTY and changes
nothing. -/
def Obligations.ReadObjTakesTheHead : Prop :=
  HeaderIs 0x3 (fun _ => 0) (fun _ _ _ => .readObj) ∧
  ∀ (s : State), Ready s →
    let p := s.rbc.cfg
    let b := s.rbc
    (b.head = b.tail → exec .readObj s = .next { s with rbc := answered b .empty 0 }) ∧
    (∀ d, b.head ≠ b.tail → slotObj p b.sto b.head = some d →
      exec .readObj s = .next { s with rbc :=
        { b with head := (b.head + 1) % p.c
                 rsp := some ⟨true, .ok, 1, some b.head, some d⟩
                 out := b.out ++ [⟨true, .ok, 1, some b.head, some d⟩] } } ∧
      occ p ((b.head + 1) % p.c) b.tail + 1 = occ p b.head b.tail ∧
      freeSlots p ((b.head + 1) % p.c) b.tail = freeSlots p b.head b.tail + 1 ∧
      isFull p ((b.head + 1) % p.c) b.tail = false ∧
      (isEmpty ((b.head + 1) % p.c) b.tail = true ↔ occ p b.head b.tail = 1))

/-- R602: DELETE_HEAD advances `head` without reading storage, or answers EMPTY. -/
def Obligations.DeleteHeadAdvancesTheHead : Prop :=
  HeaderIs 0x4 (fun _ => 0) (fun _ _ _ => .deleteHead) ∧
  ∀ (s : State), Ready s →
    let p := s.rbc.cfg
    let b := s.rbc
    (b.head = b.tail → exec .deleteHead s = .next { s with rbc := answered b .empty 0 }) ∧
    (b.head ≠ b.tail →
      exec .deleteHead s =
        .next { s with rbc := { answered b .ok 1 with head := (b.head + 1) % p.c } } ∧
      occ p ((b.head + 1) % p.c) b.tail + 1 = occ p b.head b.tail ∧
      freeSlots p ((b.head + 1) % p.c) b.tail = freeSlots p b.head b.tail + 1 ∧
      isFull p ((b.head + 1) % p.c) b.tail = false ∧
      (isEmpty ((b.head + 1) % p.c) b.tail = true ↔ occ p b.head b.tail = 1))

/-- R603 and R604: DELETE_N removes `k = min(n, occ)` objects; OK when all `n` were removed, else
EMPTY. -/
def Obligations.DeleteNRemovesUpToN : Prop :=
  HeaderIs 0x5 (fun _ => 0) (fun n _ _ => .deleteN n) ∧
  ∀ (s : State) (n : Nat), Ready s →
    let p := s.rbc.cfg
    let b := s.rbc
    let k := min n (occ p b.head b.tail)
    exec (.deleteN n) s = .next { s with rbc :=
      { answered b (if k = n then .ok else .empty) k with head := (b.head + k) % p.c } } ∧
    occ p ((b.head + k) % p.c) b.tail + k = occ p b.head b.tail ∧
    freeSlots p ((b.head + k) % p.c) b.tail = freeSlots p b.head b.tail + k

/-- R700: PEEK_NTH sends the object `n mod occ` places after `head` and changes no register, or
answers EMPTY. -/
def Obligations.PeekNthReadsWithoutRemoving : Prop :=
  HeaderIs 0xA (fun _ => 0) (fun n _ _ => .peekNth n) ∧
  ∀ (s : State) (n : Nat), Ready s →
    let p := s.rbc.cfg
    let b := s.rbc
    let m := occ p b.head b.tail
    (m = 0 → exec (.peekNth n) s = .next { s with rbc := answered b .empty 0 }) ∧
    (∀ d, m ≠ 0 → slotObj p b.sto ((b.head + n % m) % p.c) = some d →
      exec (.peekNth n) s = .next { s with rbc :=
        { b with
          rsp := some ⟨true, .ok, n % m, some ((b.head + n % m) % p.c), some d⟩
          out := b.out ++ [⟨true, .ok, n % m, some ((b.head + n % m) % p.c), some d⟩] } })

/-- R701: PEEK_NTH `n` gives the object a READ_OBJ would give after `n mod m` READ_OBJ commands. -/
def Obligations.PeekAgreesWithReading : Prop :=
  ∀ (s : State) (n : Nat), s.rbc.Inv → s.rbc.phase = .idle →
    0 < occ s.rbc.cfg s.rbc.head s.rbc.tail →
    ∃ t u v xs d, exec (.peekNth n) s = .next t ∧
      readObjs (n % occ s.rbc.cfg s.rbc.head s.rbc.tail) s = some (xs, u) ∧
      xs.length = n % occ s.rbc.cfg s.rbc.head s.rbc.tail ∧
      exec .readObj u = .next v ∧
      t.rbc.rsp.bind RspBeat.data = some d ∧ v.rbc.rsp.bind RspBeat.data = some d ∧
      t.rbc.head = s.rbc.head ∧ t.rbc.tail = s.rbc.tail ∧ t.rbc.sto = s.rbc.sto

/-! ## ring_buffer_controller: bulk commands -/

/-- R610: WRITE_N writes the first `k = min(n, freeSlots)` of its beats, in order from `tail`; the
rest are discarded; OK when all `n` were written, else FULL. -/
def Obligations.WriteNWritesUpToFull : Prop :=
  HeaderIs 0x6 (fun n => n) (fun n _ ds => .writeN n ds) ∧
  ∀ (s : State) (n : Nat) (ds : List Nat), Ready s → burstFits s.rbc.cfg n ds = true →
    let p := s.rbc.cfg
    let b := s.rbc
    let k := min n (freeSlots p b.head b.tail)
    ∃ m,
      exec (.writeN n ds) s = .next { s with rbc :=
        { answered b (if k = n then .ok else .full) k with
          sto := m, tail := (b.tail + k) % p.c } } ∧
      (∀ j, j < k → slotObj p m ((b.tail + j) % p.c) = ds[j]?) ∧
      (∀ a, (∀ j, j < k → outsideSlot p ((b.tail + j) % p.c) a) → readByte m a = readByte b.sto a) ∧
      occ p b.head ((b.tail + k) % p.c) = occ p b.head b.tail + k ∧
      freeSlots p b.head ((b.tail + k) % p.c) + k = freeSlots p b.head b.tail ∧
      (k < n → isFull p b.head ((b.tail + k) % p.c) = true)

/-- R611: READ_N sends the first `k = min(n, occ)` objects as data beats, each with its slot, and
advances `head` over them; OK when all `n` were read, else EMPTY. -/
def Obligations.ReadNTakesUpToEmpty : Prop :=
  HeaderIs 0x7 (fun _ => 0) (fun n _ _ => .readN n) ∧
  ∀ (s : State) (n : Nat) (xs : List Nat), Ready s →
    let p := s.rbc.cfg
    let b := s.rbc
    let k := min n (occ p b.head b.tail)
    xs.length = k → (∀ j, j < k → slotObj p b.sto ((b.head + j) % p.c) = xs[j]?) →
    let last : RspBeat := ⟨true, if k = n then .ok else .empty, k, none, none⟩
    exec (.readN n) s = .next { s with rbc :=
      { b with
        head := (b.head + k) % p.c
        rsp := some last
        out := b.out ++ ((List.range k).map fun j =>
          ⟨false, .ok, j, some ((b.head + j) % p.c), xs[j]?⟩) ++ [last] } } ∧
    occ p ((b.head + k) % p.c) b.tail + k = occ p b.head b.tail ∧
    freeSlots p ((b.head + k) % p.c) b.tail = freeSlots p b.head b.tail + k ∧
    (k < n → isEmpty ((b.head + k) % p.c) b.tail = true)

/-- R612: WRITE_ALL writes all `n` beats when `freeSlots ≥ n`, and otherwise changes nothing and
answers FULL with count 0. -/
def Obligations.WriteAllIsAllOrNothing : Prop :=
  HeaderIs 0x8 (fun n => n) (fun n _ ds => .writeAll n ds) ∧
  ∀ (s : State) (n : Nat) (ds : List Nat), Ready s → burstFits s.rbc.cfg n ds = true →
    let p := s.rbc.cfg
    let b := s.rbc
    (freeSlots p b.head b.tail < n →
      exec (.writeAll n ds) s = .next { s with rbc := answered b .full 0 }) ∧
    (n ≤ freeSlots p b.head b.tail → ∃ m,
      exec (.writeAll n ds) s = .next { s with rbc :=
        { answered b .ok n with sto := m, tail := (b.tail + n) % p.c } } ∧
      (∀ j, j < n → slotObj p m ((b.tail + j) % p.c) = ds[j]?) ∧
      (∀ a, (∀ j, j < n → outsideSlot p ((b.tail + j) % p.c) a) → readByte m a = readByte b.sto a) ∧
      occ p b.head ((b.tail + n) % p.c) = occ p b.head b.tail + n)

/-- R613: READ_ALL sends all `n` objects when `occ ≥ n`, and otherwise changes nothing, sends no data
beat and answers EMPTY with count 0. -/
def Obligations.ReadAllIsAllOrNothing : Prop :=
  HeaderIs 0x9 (fun _ => 0) (fun n _ _ => .readAll n) ∧
  ∀ (s : State) (n : Nat) (xs : List Nat), Ready s →
    let p := s.rbc.cfg
    let b := s.rbc
    (occ p b.head b.tail < n → exec (.readAll n) s = .next { s with rbc := answered b .empty 0 }) ∧
    (n ≤ occ p b.head b.tail → xs.length = n →
      (∀ j, j < n → slotObj p b.sto ((b.head + j) % p.c) = xs[j]?) →
      exec (.readAll n) s = .next { s with rbc :=
        { b with
          head := (b.head + n) % p.c
          rsp := some ⟨true, .ok, n, none, none⟩
          out := b.out ++ ((List.range n).map fun j =>
            ⟨false, .ok, j, some ((b.head + j) % p.c), xs[j]?⟩) ++ [⟨true, .ok, n, none, none⟩] } } ∧
      occ p ((b.head + n) % p.c) b.tail + n = occ p b.head b.tail)

/-- R614: WRITE_N leaves the same cursors and storage as `n` successive WRITE_OBJ commands stopped at
the first FULL, and counts the objects written. R615: READ_N sends the same objects in the same order
as `n` successive READ_OBJ commands stopped at the first EMPTY, and leaves the same cursors and
storage. -/
def Obligations.BulkEqualsTheLoop : Prop :=
  (∀ (s : State) (n : Nat) (ds : List Nat), Ready s → burstFits s.rbc.cfg n ds = true →
     ∃ t u, exec (.writeN n ds) s = .next t ∧ writeObjs ds s = .next u ∧
       t.rbc.head = u.rbc.head ∧ t.rbc.tail = u.rbc.tail ∧ t.rbc.sto = u.rbc.sto ∧
       t.rbc.rsp.map RspBeat.count = some (min n (freeSlots s.rbc.cfg s.rbc.head s.rbc.tail)) ∧
       (freeSlots s.rbc.cfg s.rbc.head s.rbc.tail < n →
         isFull t.rbc.cfg t.rbc.head t.rbc.tail = true)) ∧
  (∀ (s : State) (n : Nat), s.rbc.Inv → s.rbc.phase = .idle →
     ∃ t u xs, exec (.readN n) s = .next t ∧ readObjs n s = some (xs, u) ∧
       (t.rbc.out.drop s.rbc.out.length).filterMap RspBeat.data = xs ∧
       t.rbc.head = u.rbc.head ∧ t.rbc.tail = u.rbc.tail ∧ t.rbc.sto = u.rbc.sto ∧
       t.rbc.rsp.map RspBeat.count = some (min n (occ s.rbc.cfg s.rbc.head s.rbc.tail)) ∧
       (occ s.rbc.cfg s.rbc.head s.rbc.tail < n → isEmpty t.rbc.head t.rbc.tail = true))

/-- R616: WRITE_ALL either equals WRITE_N with `count = n`, or changes nothing and answers FULL with
count 0; READ_ALL likewise with READ_N and EMPTY. -/
def Obligations.GuardedBulkEqualsBulkOrNothing : Prop :=
  (∀ (s : State) (n : Nat) (ds : List Nat), Ready s → burstFits s.rbc.cfg n ds = true →
    (exec (.writeAll n ds) s = exec (.writeN n ds) s ∧
      ∃ t, exec (.writeN n ds) s = .next t ∧ t.rbc.rsp.map RspBeat.count = some n) ∨
    exec (.writeAll n ds) s = .next { s with rbc := answered s.rbc .full 0 }) ∧
  (∀ (s : State) (n : Nat), s.rbc.Inv → s.rbc.phase = .idle →
    (exec (.readAll n) s = exec (.readN n) s ∧
      ∃ t, exec (.readN n) s = .next t ∧ t.rbc.rsp.map RspBeat.count = some n) ∨
    exec (.readAll n) s = .next { s with rbc := answered s.rbc .empty 0 })

/-! ## ring_buffer_controller: what holds of every command -/

/-- R320 and R1111: every command ends with exactly one final beat, which stands on the response port
and reports exactly one status: a write command OK or FULL, a read, delete or peek command OK or
EMPTY, the reserved opcode ILLEGAL, any other command OK. -/
def Obligations.EveryCommandEndsWithOneFinalBeat : Prop :=
  ∀ (i : Instr) (s t : State), isRbc i = true → exec i s = .next t →
    ∃ beats last, t.rbc.out = s.rbc.out ++ beats ++ [last] ∧ t.rbc.rsp = some last ∧
      last.last = true ∧ (∀ r ∈ beats, r.last = false ∧ r.status = .ok) ∧
      match i with
      | .writeObj _ | .writeN _ _ | .writeAll _ _ => last.status = .ok ∨ last.status = .full
      | .readObj | .deleteHead | .deleteN _ | .readN _ | .readAll _ | .peekNth _ =>
        last.status = .ok ∨ last.status = .empty
      | .reservedF => last.status = .illegal
      | _ => last.status = .ok

/-- The cursors after an edge of a command in `EXEC` (R110, R208, R420): a command that reads and
removes advances `head` with each access it makes, WRITE_OBJ `tail` with its write; the deletes move
`head`, and CLEAR both cursors, at the edge of the final beat only (log entry 21), which sets the phase
to `IDLE`; no other command moves a cursor. -/
def execCursors (op : Opcode) (b b' : Rbc) : Prop :=
  match op with
  | .readObj | .readN | .readAll =>
    b'.tail = b.tail ∧ b'.head = if b'.stoRe then (b.head + 1) % b.cfg.c else b.head
  | .writeObj =>
    b'.head = b.head ∧ b'.tail = if b'.stoWe then (b.tail + 1) % b.cfg.c else b.tail
  | .deleteHead | .deleteN => b'.tail = b.tail ∧ (b'.phase ≠ .idle → b'.head = b.head)
  | .clear => b'.phase ≠ .idle → b'.head = b.head ∧ b'.tail = b.tail
  | _ => b'.head = b.head ∧ b'.tail = b.tail

/-- The frame of the RBC: a command leaves SF, AF, the parameters, the phase and the host side alone;
only CLEAR and the write commands write `tail`; only CLEAR and the read and delete commands write
`head` (R110); only the write commands write storage, and only the slots they store to from `tail` on
(R210, R420). That a transaction-level command leaves the record of the storage port alone, where R208
has the block drive that port, is the model's choice (log entry 6): the port is driven at the cycle
level. An edge of the RBC's clock, whatever the phase and the pins, leaves SF, AF, the parameters and
the host's script alone; its effect on the command index and the draw counter is the model's (log
entries 22 and 24); in `EXEC` it moves the cursors as `execCursors` says. -/
def Obligations.RbcFrame : Prop :=
  (∀ (i : Instr) (s t : State), isRbc i = true → Ready s → i.wellFormed s.rbc.cfg = true →
    exec i s = .next t →
    t.sf = s.sf ∧ t.af = s.af ∧ t.script = s.script ∧ t.pos = s.pos ∧ t.free = s.free ∧
    t.rbc.cfg = s.rbc.cfg ∧ t.rbc.phase = .idle ∧ t.rbc.port = s.rbc.port ∧
    t.rbc.held = s.rbc.held ∧ t.rbc.preHead = s.rbc.preHead ∧ t.rbc.preTail = s.rbc.preTail ∧
    t.rbc.waited = s.rbc.waited ∧
    (match i with
      | .readObj | .deleteHead | .deleteN _ | .readN _ | .readAll _ | .clear => True
      | _ => t.rbc.head = s.rbc.head) ∧
    (match i with
      | .writeObj _ | .writeN _ _ | .writeAll _ _ | .clear => True
      | _ => t.rbc.tail = s.rbc.tail) ∧
    ∀ a, (∀ j, j < storedSlots i s.rbc →
        outsideSlot s.rbc.cfg (addk s.rbc.cfg s.rbc.tail j) a) →
      readByte t.rbc.sto a = readByte s.rbc.sto a) ∧
  ∀ (s t : State) (rst valid : Bool) (beat : CmdBeat), rbcEdge s rst valid beat = .next t →
    t.sf = s.sf ∧ t.af = s.af ∧ t.script = s.script ∧ t.rbc.cfg = s.rbc.cfg ∧
    t.free = s.free + 1 ∧
    t.pos = (if rst = false ∧ valid = true ∧ s.rbc.phase = .idle then s.pos + 1 else s.pos) ∧
    ∀ job, rst = false → s.rbc.phase = .exec job → execCursors job.op s.rbc t.rbc

/-- R500, R17: which elaborations are refused, and by which name: a block is legal exactly when every
check holds, and a refusal names a check that fails. Where several checks fail the spec does not say
which name is given, and neither does this statement. The model's choices (log entry 17): which checks
SF and AF make (the shared ones, and not that of `NW`); and that every operation and every event of a
refused block answers that refusal, before anything else that would refuse it: an edge of the RBC's
`clk`, an edge of SF with `rst = 1` and a level of `arst_n` among them. -/
def Obligations.IllegalElaborationIsRefused : Prop :=
  let legal := fun p : Config => 1 ≤ p.s ∧ 2 ≤ p.c ∧ (p.strat = .mask → ∃ k, p.c = 2 ^ k) ∧
    (p.storage = .external → p.c ≤ p.dSto) ∧ 1 ≤ p.lSto
  let named := fun (p : Config) (r : Refusal) =>
    (r = .zeroObjectSize ∧ p.s = 0) ∨ (r = .capacityTooSmall ∧ p.c < 2) ∨
    (r = .maskNotPow2 ∧ p.strat = .mask ∧ ¬∃ k, p.c = 2 ^ k) ∨
    (r = .storageTooSmall ∧ p.storage = .external ∧ p.dSto < p.c) ∨
    (r = .badLatency ∧ p.lSto = 0)
  (∀ p : Config,
    (checkRbc p = none ↔ legal p ∧ p.c ≤ 2 ^ p.nw) ∧
    (checkSf p = none ↔ legal p ∧ (p.storage = .external → p.lSto = 1)) ∧
    (checkAf p = none ↔ legal p ∧ (∃ k, p.c = 2 ^ k) ∧ 2 ≤ p.syncN) ∧
    ∀ r : Refusal,
      (checkRbc p = some r → named p r ∨ (r = .countTooNarrow ∧ 2 ^ p.nw < p.c)) ∧
      (checkSf p = some r →
        named p r ∨ (r = .sfLatency ∧ p.storage = .external ∧ p.lSto ≠ 1)) ∧
      (checkAf p = some r → named p r ∨ (r = .afNotPow2 ∧ ¬∃ k, p.c = 2 ^ k) ∨
        (r = .afSyncTooShort ∧ p.syncN < 2))) ∧
  ∀ (i : Instr) (s : State) (r : Refusal),
    (isRbc i = true → checkRbc s.rbc.cfg = some r → exec i s = .refused r) ∧
    (isSf i = true → checkSf s.sf.cfg = some r → exec i s = .refused r) ∧
    (isAf i = true → checkAf s.af.cfg = some r → exec i s = .refused r) ∧
    (checkRbc s.rbc.cfg = some r →
      (∀ w d ds, runEvent (.cmd w d ds) s = .refused r) ∧
      ∀ rst valid beat, runEvent (.rbcClk rst valid beat) s = .refused r) ∧
    (checkSf s.sf.cfg = some r → ∀ rst w d, runEvent (.sfClk rst w d) s = .refused r) ∧
    (checkAf s.af.cfg = some r → (∀ w d, runEvent (.wclk w d) s = .refused r) ∧
      (∀ w, runEvent (.rclk w) s = .refused r) ∧ ∀ level, runEvent (.arst level) s = .refused r)

/-- R524 and R113: while no command is in progress the status outputs equal the counts the four
queries return. R114: the fields of the packed vector `STATUS`, `empty` and `full` never 1 together,
and `occupied + free = C − 1`. -/
def Obligations.StatusOutputsAndVector : Prop :=
  (∀ (s : State) (draw : Nat), s.rbcReady →
     ∃ e f o g, exec .qEmpty s = .next e ∧ exec .qFull s = .next f ∧
       exec .qOccupied s = .next o ∧ exec .qFree s = .next g ∧
       e.rbc.rsp.map RspBeat.count = some (s.rbc.status draw).empty.toNat ∧
       f.rbc.rsp.map RspBeat.count = some (s.rbc.status draw).full.toNat ∧
       o.rbc.rsp.map RspBeat.count = some (s.rbc.status draw).occupied ∧
       g.rbc.rsp.map RspBeat.count = some (s.rbc.status draw).free) ∧
  (∀ (p : Config) (head tail : Nat), checkShared p = none → head < p.c → tail < p.c →
     let o := statusOf p head tail
     let v := o.pack p
     v < 2 ^ (2 * indexWidth p.c + 2) ∧
     v.testBit 0 = o.empty ∧ v.testBit 1 = o.full ∧
     v / 2 ^ 2 % 2 ^ indexWidth p.c = o.occupied ∧
     v / 2 ^ (indexWidth p.c + 2) = o.free ∧
     ¬(o.empty = true ∧ o.full = true) ∧ o.occupied + o.free = p.c - 1)

/-- R25: a read of a storage byte that nothing has written faults, in every instruction that reads
storage and for every slot it reads: the head's in READ_OBJ, any of the `min(n, occ)` slots of
READ_N, any of the `n` of a READ_ALL that is not refused, the one `n mod occ` places on in PEEK_NTH,
that of a pop (log entry 7). -/
def Obligations.UnwrittenReadFaults : Prop :=
  (∀ s : State, Ready s → s.rbc.head ≠ s.rbc.tail →
    slotObj s.rbc.cfg s.rbc.sto s.rbc.head = none → exec .readObj s = .fault .unwrittenStorage) ∧
  (∀ (s : State) (n j : Nat), Ready s →
    j < n → j < occ s.rbc.cfg s.rbc.head s.rbc.tail →
    slotObj s.rbc.cfg s.rbc.sto ((s.rbc.head + j) % s.rbc.cfg.c) = none →
    exec (.readN n) s = .fault .unwrittenStorage ∧
    (n ≤ occ s.rbc.cfg s.rbc.head s.rbc.tail →
      exec (.readAll n) s = .fault .unwrittenStorage)) ∧
  (∀ (s : State) (n : Nat), Ready s → occ s.rbc.cfg s.rbc.head s.rbc.tail ≠ 0 →
    slotObj s.rbc.cfg s.rbc.sto
      ((s.rbc.head + n % occ s.rbc.cfg s.rbc.head s.rbc.tail) % s.rbc.cfg.c) = none →
    exec (.peekNth n) s = .fault .unwrittenStorage) ∧
  (∀ (s : State) (d : Nat), SfReady s → s.sf.head ≠ s.sf.tail →
    slotObj s.sf.cfg s.sf.sto s.sf.head = none →
    exec .sfPop s = .fault .unwrittenStorage ∧
    exec (.sfPushPop d) s = .fault .unwrittenStorage) ∧
  (∀ s : State, s.afReadRuns → s.af.emptyR = false → s.af.rbin < s.af.cfg.c →
    slotObj s.af.cfg s.af.sto s.af.rbin = none → exec .afPop s = .fault .unwrittenStorage)

/-- R215, R4: the RBC refines the bounded queue: from every state that meets the invariant, in
`IDLE`, every well-formed command completes, the objects held become those of the queue, and the
beats sent are the queue's answer. -/
def Obligations.RbcRefinesTheQueue : Prop :=
  ∀ (s : State) (i : Instr) (q q' : List Nat) (a : QueueAnswer),
    s.rbc.Inv → s.rbc.phase = .idle → i.wellFormed s.rbc.cfg = true →
    s.rbc.contents = q.map some → queueCommand (s.rbc.cfg.c - 1) i q = some (q', a) →
    ∃ t, exec i s = .next t ∧ t.rbc.contents = q'.map some ∧
      (t.rbc.out.drop s.rbc.out.length).map RspBeat.noSlot = a.beats

/-! ## ring_buffer_controller: the cycle level -/

/-- R343: a header accepted in `IDLE` fixes `k` and enters `WDATA` for a write burst of `n > 0`,
`EXEC` otherwise; no cursor, no storage and no beat is written. -/
def Obligations.HeaderStartsACommand : Prop :=
  ∀ (s : State) (beat : CmdBeat), s.rbcReady →
    (s.rbc.held = none ∨ s.rbc.held = some beat) → beatFits s.rbc.cfg beat →
    let b := s.rbc
    let n := beat.hdr / 16
    let free := freeSlots b.cfg b.head b.tail
    ∃ t, rbcEdge s false true beat = .next t ∧
      (beat.hdr % 16 = 6 → 0 < n → t.rbc.phase = .wdata .writeN n (min n free) 0) ∧
      (beat.hdr % 16 = 8 → 0 < n →
        t.rbc.phase = .wdata .writeAll n (if n ≤ free then n else 0) 0) ∧
      (¬((beat.hdr % 16 = 6 ∨ beat.hdr % 16 = 8) ∧ 0 < n) →
        ∃ job, t.rbc.phase = .exec job ∧ job.op = Opcode.ofBits (beat.hdr % 16) ∧ job.n = n ∧
          job.data = beat.data ∧ job.issued = 0 ∧ job.sent = 0) ∧
      t.rbc.cfg = b.cfg ∧ t.rbc.head = b.head ∧ t.rbc.tail = b.tail ∧ t.rbc.sto = b.sto ∧
      t.rbc.rsp = none ∧ t.rbc.out = b.out ∧ t.rbc.held = none ∧ t.rbc.port = none ∧
      t.sf = s.sf ∧ t.af = s.af ∧ t.script = s.script

/-- R344: an accepted data beat `i < k` is written at `tail`, which advances; beats from `k` on are
discarded; the last beat enters `EXEC`. The header bits of a data beat are ignored (R302). -/
def Obligations.DataBeatsAreWrittenUpToK : Prop :=
  ∀ (s : State) (beat : CmdBeat) (op : Opcode) (n k i : Nat),
    checkRbc s.rbc.cfg = none → s.rbc.tail < s.rbc.cfg.c →
    (s.rbc.held = none ∨ s.rbc.held = some beat) → beatFits s.rbc.cfg beat →
    s.rbc.phase = .wdata op n k i →
    s.rbc.cmdReady false (Config.freeStall s.free) = true →
    ∃ b, rbcEdge s false true beat = .next (afterRbcEdge s b s.pos) ∧
      b.head = s.rbc.head ∧ b.out = s.rbc.out ∧ b.rsp = none ∧ b.held = none ∧
      (i + 1 = n → ∃ job, b.phase = .exec job ∧ job.op = op ∧ job.n = n ∧ job.k = k ∧
        job.issued = 0 ∧ job.sent = 0) ∧
      (i + 1 ≠ n → b.phase = .wdata op n k (i + 1)) ∧
      (i < k → b.tail = (s.rbc.tail + 1) % s.rbc.cfg.c ∧
        slotObj s.rbc.cfg b.sto s.rbc.tail = some beat.data ∧
        onlySlotChanged s.rbc.cfg s.rbc.sto b.sto s.rbc.tail ∧
        b.port = some (.write s.rbc.tail beat.data)) ∧
      (k ≤ i → b.tail = s.rbc.tail ∧ b.sto = s.rbc.sto ∧ b.port = none)

/-- R342: `cmd_ready` by phase; that in `WDATA` it is 1 at the latest in the `LAT_MAX`-th cycle, so
once it has been 0 for `LAT_MAX − 1`, is the model's reading of R1240 (log entry 11). R341: a beat
that was not accepted is held, and the host may neither withdraw nor change it: it has no such move
(log entries 13 and 20). An edge in `IDLE` or `WDATA` that accepts no beat, because `cmd_valid` or
`cmd_ready` is 0, changes no phase, no cursor and no storage, sends no beat and makes no storage access
(R341, R343, R344); the count of the cycles waited is the model's (log entry 25). -/
def Obligations.HandshakeHoldsBeats : Prop :=
  (∀ (b : Rbc) (rst stall : Bool),
     (rst = true → b.cmdReady rst stall = false) ∧
     (rst = false → b.phase = .idle → b.cmdReady rst stall = true) ∧
     (∀ op n k i, rst = false → b.phase = .wdata op n k i → b.cfg.latMax ≤ b.waited + 1 →
       b.cmdReady rst stall = true) ∧
     (∀ job, b.phase = .exec job → b.cmdReady rst stall = false)) ∧
  ((∀ (s t : State) (rst : Bool) (beat : CmdBeat), rbcEdge s rst true beat = .next t →
     t.rbc.held =
       if s.rbc.cmdReady rst (Config.freeStall s.free) then none else some beat) ∧
   (∀ (s : State) (rst valid : Bool) (beat h : CmdBeat), checkRbc s.rbc.cfg = none →
     s.rbc.held = some h → (valid = false ∨ beat ≠ h) →
     rbcEdge s rst valid beat = .refused .beatWithdrawn)) ∧
  (∀ (s : State) (valid : Bool) (beat : CmdBeat), checkRbc s.rbc.cfg = none →
     (s.rbc.held = none ∨ valid = true ∧ s.rbc.held = some beat) →
     (valid = true → beatFits s.rbc.cfg beat) →
     (s.rbc.phase = .idle ∨ ∃ op n k i, s.rbc.phase = .wdata op n k i) →
     (valid = false ∨ s.rbc.cmdReady false (Config.freeStall s.free) = false) →
     ∃ waited, rbcEdge s false valid beat = .next (afterRbcEdge s
       { s.rbc with rsp := none, port := none, waited := waited
                    held := if valid then some beat else none } s.pos))

/-- R1200: an edge with `rst = 1` puts the cursors to 0 and the phase to `IDLE`, sends no beat, leaves
storage alone, and abandons any command in progress; `cmd_ready` is 0 there, so a beat the host
presents is held (R341; log entry 20); the flags are then those of an empty buffer. That the edge
makes no storage access is the model's choice (log entry 30), and the values of its own bookkeeping
are the model's too (log entry 25). -/
def Obligations.RbcResetAbandonsTheCommand : Prop :=
  ∀ (s : State) (valid stall : Bool) (beat : CmdBeat), checkRbc s.rbc.cfg = none →
    (s.rbc.held = none ∨ valid = true ∧ s.rbc.held = some beat) →
    (valid = true → beatFits s.rbc.cfg beat) →
    rbcEdge s true valid beat = .next (afterRbcEdge s
      { s.rbc with head := 0, tail := 0, phase := .idle, rsp := none, port := none
                   held := if valid then some beat else none
                   preHead := 0, preTail := 0, waited := 0 } s.pos) ∧
    s.rbc.cmdReady true stall = false ∧
    statusOf s.rbc.cfg 0 0 = ⟨true, false, 0, s.rbc.cfg.c - 1⟩

/-- R345: a response beat stands on the port for exactly one cycle, and the final beat sets the phase
to `IDLE` at the same edge: at each edge either no beat is sent, or one is, and it is a final beat
exactly when the phase is then `IDLE`. R340: a command in progress accepts no header: from `EXEC` the
phase is still `EXEC` or, after the final beat, `IDLE`; and what the host presents meanwhile is at
most held, with no other effect. From `WDATA` (R344) it stays in the same burst until its last data
beat: it counts one beat at an edge with `cmd_valid = 1` and `cmd_ready = 1`, enters `EXEC` at the
`n`-th, and stays where it is at every other edge. -/
def Obligations.OneCommandAtATime : Prop :=
  (∀ (s t : State) (rst valid : Bool) (beat : CmdBeat), rbcEdge s rst valid beat = .next t →
     (t.rbc.rsp = none ∧ t.rbc.out = s.rbc.out) ∨
     ∃ r job, s.rbc.phase = .exec job ∧ t.rbc.rsp = some r ∧ t.rbc.out = s.rbc.out ++ [r] ∧
       (r.last = true ↔ t.rbc.phase = .idle)) ∧
  ((∀ (s t : State) (valid : Bool) (beat : CmdBeat) (job : Job), s.rbc.phase = .exec job →
     rbcEdge s false valid beat = .next t →
     ((t.rbc.phase = .idle ∧ ∃ r, t.rbc.rsp = some r ∧ r.last = true) ∨
       ∃ job', t.rbc.phase = .exec job' ∧ job'.op = job.op ∧ job'.n = job.n ∧
         job'.data = job.data ∧ job'.k = job.k)) ∧
   (∀ (s t : State) (beat beat' : CmdBeat) (job : Job), s.rbc.phase = .exec job →
     s.rbc.held = none → rbcEdge s false true beat = .next t →
     t.rbc.held = some beat ∧
     rbcEdge s false false beat' = .next { t with rbc := { t.rbc with held := none } }) ∧
   (∀ (s t : State) (valid : Bool) (beat : CmdBeat) (op : Opcode) (n k i : Nat),
     s.rbc.phase = .wdata op n k i → rbcEdge s false valid beat = .next t →
     let accepted := valid = true ∧ s.rbc.cmdReady false (Config.freeStall s.free) = true
     (accepted → i + 1 = n → ∃ job, t.rbc.phase = .exec job ∧ job.op = op ∧ job.n = n ∧
       job.k = k) ∧
     (accepted → i + 1 ≠ n → t.rbc.phase = .wdata op n k (i + 1)) ∧
     (¬accepted → t.rbc.phase = .wdata op n k i)))

/-- R201 to R203: the byte layout of a slot, written out: byte `i` of its object, the bits `[8·i+7 :
8·i]`, lies at offset `slot·S + i`, from `BASE` up in an external storage; every statement that
speaks of a slot's object (`slotObj`) speaks of those bytes. Each storage is keyed by that address,
which is the model's form of it (log entry 27). R208: at each edge the RBC makes at most one storage
access; storage changes exactly at a write, which is of slot `tail`, with that layout. A read is
awaited for `L_STO` cycles: its object, that of the slot on `sto_addr`, comes one cycle nearer at
each edge of the command, stands on `sto_rdata` in the last of them, and no response beat carries an
object before that. How the awaited reads are kept is the model's (log entry 21). -/
def Obligations.StoragePortShowsEveryWrite : Prop :=
  (∀ (p : Config) (m : Memory) (slot d : Nat), objFits p d = true →
    (slotObj p m slot = some d ↔ holdsObject p m slot d)) ∧
  ∀ (s t : State) (rst valid : Bool) (beat : CmdBeat), rbcEdge s rst valid beat = .next t →
    ¬(t.rbc.stoWe = true ∧ t.rbc.stoRe = true) ∧
    (t.rbc.stoWe = true → ∃ d, t.rbc.stoAddr = some s.rbc.tail ∧ t.rbc.stoWdata = some d ∧
      holdsObject s.rbc.cfg t.rbc.sto s.rbc.tail d ∧
      onlySlotChanged s.rbc.cfg s.rbc.sto t.rbc.sto s.rbc.tail ∧
      t.rbc.sto = writeBytes s.rbc.sto (slotAddr s.rbc.cfg s.rbc.tail) d s.rbc.cfg.s) ∧
    (t.rbc.stoWe = false → t.rbc.sto = s.rbc.sto) ∧
    (t.rbc.stoRe = true → ∃ job slot d, t.rbc.phase = .exec job ∧ t.rbc.stoAddr = some slot ∧
      slotObj s.rbc.cfg s.rbc.sto slot = some d ∧
      job.flight.getLast? = some ⟨slot, d, s.rbc.cfg.lSto⟩) ∧
    (∀ job job', rst = false → s.rbc.phase = .exec job → t.rbc.phase = .exec job' →
      ∀ r ∈ job.flight, 2 ≤ r.left → { r with left := r.left - 1 } ∈ job'.flight) ∧
    (∀ job, t.rbc.phase = .exec job →
      (∀ d, t.rbc.stoRdata = some d → ∃ r ∈ job.flight, r.left = 1 ∧ r.obj = d) ∧
      ((∃ r ∈ job.flight, r.left = 1) → t.rbc.stoRdata ≠ none)) ∧
    (∀ r d, t.rbc.rsp = some r → r.data = some d → ∃ job x, s.rbc.phase = .exec job ∧
      x ∈ job.flight ∧ x.left ≤ 1 ∧ r.index = some x.slot ∧ d = x.obj)

/-- R348: the status outputs `o` are those of the state `j` one-object steps after cursors `(head,
tail)`: `j` places on (R403) at `tail` for the writes and at `head` for the reads and the deletes;
for CLEAR the cursors before it or `(0, 0)`, since it counts as one step (log entry 19); the same
cursors for any other command. -/
def showsAfter (p : Config) (op : Opcode) (head tail j : Nat) (o : StatusOutputs) : Prop :=
  match op with
  | .writeObj | .writeN | .writeAll => o = statusOf p head (addk p tail j)
  | .readObj | .deleteHead | .deleteN | .readN | .readAll =>
    o = statusOf p (addk p head j) tail
  | .clear => (j = 0 ∧ o = statusOf p head tail) ∨ (j = 1 ∧ o = statusOf p 0 0)
  | .nop | .peekNth | .qEmpty | .qFull | .qOccupied | .qFree | .reservedF =>
    o = statusOf p head tail

/-- R348: in `IDLE` the status outputs are exact, and between a header and the final beat they show
the state after some number `j` of the command's one-object steps, whichever prefix the free draw
chooses (log entries 12 and 19): for a write burst the cursors with `tail` up to `k` places on, for a
command in `EXEC` those `showsAfter` writes out by command. The cursors and the `k` they start from are
those of the header: an accepted header sets them to the cursors it finds and to the command's number
of steps, and no edge of the command changes them. -/
def Obligations.StatusShowsAPrefix : Prop :=
  (∀ (s t : State) (beat : CmdBeat), Ready s → rbcEdge s false true beat = .next t →
    t.rbc.preHead = s.rbc.head ∧ t.rbc.preTail = s.rbc.tail ∧
    let k := stepsOf (beat.hdr % 16) (beat.hdr / 16) (occ s.rbc.cfg s.rbc.head s.rbc.tail)
      (freeSlots s.rbc.cfg s.rbc.head s.rbc.tail)
    (∀ job, t.rbc.phase = .exec job → job.k = k) ∧
    ∀ op n k' i, t.rbc.phase = .wdata op n k' i → k' = k) ∧
  (∀ (s t : State) (valid : Bool) (beat : CmdBeat), s.rbc.phase ≠ .idle →
    rbcEdge s false valid beat = .next t →
    t.rbc.preHead = s.rbc.preHead ∧ t.rbc.preTail = s.rbc.preTail ∧
    (∀ job job', s.rbc.phase = .exec job → t.rbc.phase = .exec job' → job'.k = job.k) ∧
    (∀ op n k i, s.rbc.phase = .wdata op n k i →
      (∀ op' n' k' i', t.rbc.phase = .wdata op' n' k' i' → k' = k) ∧
      ∀ job, t.rbc.phase = .exec job → job.k = k)) ∧
  ∀ (b : Rbc) (draw : Nat),
    (b.phase = .idle → b.status draw = statusOf b.cfg b.head b.tail) ∧
    (∀ op n k i, b.phase = .wdata op n k i → isBurst op = true →
      ∃ j, j ≤ k ∧ b.status draw = statusOf b.cfg b.preHead (addk b.cfg b.preTail j)) ∧
    (∀ job, b.phase = .exec job →
      ∃ j, j ≤ job.k ∧ showsAfter b.cfg job.op b.preHead b.preTail j (b.status draw))

/-- R347 and R1240: the cycle level refines the transaction level. From every state that meets the
invariant, in `IDLE` with no beat held, a host that sends a well-formed command beat by beat, whatever
the unused header bits of its data beats, is answered within the bound, and the beats sent, the
cursors and the storage are those of the atomic transition. The bound counts one edge for the header,
`LAT_MAX` at most for each data beat and `LAT_MAX` at most from the last beat to the final beat (D28).
How it is counted, that `C + L_STO` stands for a `LAT_MAX` below that, and the point at which the
command index advances are the model's (log entries 11, 21 and 22). -/
def Obligations.CycleLevelRefinesTransactionLevel : Prop :=
  ∀ (s : State) (w d : Nat) (beats : List CmdBeat) (i : Instr),
    s.rbc.Inv → s.rbc.phase = .idle → s.rbc.held = none →
    (∀ x ∈ beats, beatFits s.rbc.cfg x) →
    decode s.rbc.cfg (.hdr w d (beats.map CmdBeat.data)) = .ok i →
    ∃ t u, exec i s = .next t ∧
      driveHost (edgeBound s.rbc.cfg beats.length) (⟨w, d⟩ :: beats) s = .next u ∧
      u.rbc.phase = .idle ∧ u.rbc.held = none ∧
      u.rbc.head = t.rbc.head ∧ u.rbc.tail = t.rbc.tail ∧ u.rbc.sto = t.rbc.sto ∧
      u.rbc.out = t.rbc.out ∧ u.rbc.rsp = t.rbc.rsp ∧ u.pos = s.pos + 1

/-! ## sync_fifo -/

/-- R820 and R824: an idle edge clears the acknowledge registers; a clear also puts both cursors to
0, whatever `rd_en` and `wr_en` ask for. Nothing else changes. -/
def Obligations.SfIdleAndClear : Prop :=
  ControlIs 0b000 (fun _ => .sfIdle) ∧ ControlIs 0b100 (fun _ => .sfClear) ∧
  ControlIs 0b101 (fun _ => .sfClear) ∧ ControlIs 0b110 (fun _ => .sfClear) ∧
  ControlIs 0b111 (fun _ => .sfClear) ∧
  ∀ s : State, checkSf s.sf.cfg = none →
    let quiet : Sf := { s.sf with wrAck := false, wrOvf := false, rdAck := false, rdUnf := false }
    sfAnswers (exec .sfIdle s) s quiet ∧
    sfAnswers (exec .sfClear s) s { quiet with head := 0, tail := 0 } ∧
    statusOf s.sf.cfg 0 0 = ⟨true, false, 0, s.sf.cfg.c - 1⟩

/-- R821: a push stores at `tail` and advances it, or is refused with `wr_ovf` and changes nothing
else. -/
def Obligations.SfPushStoresAtTail : Prop :=
  ControlIs 0b001 (fun d => .sfPush d) ∧
  ∀ (s : State) (d : Nat), SfReady s → objFits s.sf.cfg d = true →
    let p := s.sf.cfg
    let f := s.sf
    ((f.tail + 1) % p.c = f.head →
      sfAnswers (exec (.sfPush d) s) s
        { f with wrAck := false, wrOvf := true, rdAck := false, rdUnf := false }) ∧
    ((f.tail + 1) % p.c ≠ f.head → ∃ m,
      sfAnswers (exec (.sfPush d) s) s
        { f with sto := m, tail := (f.tail + 1) % p.c, wrAck := true, wrOvf := false
                 rdAck := false, rdUnf := false } ∧
      slotObj p m f.tail = some d ∧ onlySlotChanged p f.sto m f.tail ∧
      occ p f.head ((f.tail + 1) % p.c) = occ p f.head f.tail + 1 ∧
      isEmpty f.head ((f.tail + 1) % p.c) = false ∧
      (isFull p f.head ((f.tail + 1) % p.c) = true ↔ freeSlots p f.head f.tail = 1))

/-- R822: a pop loads `rd_data` from `head` and advances it, or is refused with `rd_unf` and leaves
`rd_data` unchanged. -/
def Obligations.SfPopLoadsRdData : Prop :=
  ControlIs 0b010 (fun _ => .sfPop) ∧
  ∀ s : State, SfReady s →
    let p := s.sf.cfg
    let f := s.sf
    (f.head = f.tail →
      sfAnswers (exec .sfPop s) s
        { f with wrAck := false, wrOvf := false, rdAck := false, rdUnf := true }) ∧
    (∀ d, f.head ≠ f.tail → slotObj p f.sto f.head = some d →
      sfAnswers (exec .sfPop s) s
        { f with head := (f.head + 1) % p.c, rdData := d, wrAck := false, wrOvf := false
                 rdAck := true, rdUnf := false } ∧
      occ p ((f.head + 1) % p.c) f.tail + 1 = occ p f.head f.tail ∧
      isFull p ((f.head + 1) % p.c) f.tail = false ∧
      (isEmpty ((f.head + 1) % p.c) f.tail = true ↔ occ p f.head f.tail = 1))

/-- R823: a push and a pop on one edge, both judged on the comparators before it: full, the pop only;
empty, the push only; otherwise both, on different slots (R825). -/
def Obligations.SfPushPopOnOneEdge : Prop :=
  ControlIs 0b011 (fun d => .sfPushPop d) ∧
  ∀ (s : State) (d : Nat), SfReady s → objFits s.sf.cfg d = true →
    let p := s.sf.cfg
    let f := s.sf
    (∀ o, (f.tail + 1) % p.c = f.head → slotObj p f.sto f.head = some o →
      sfAnswers (exec (.sfPushPop d) s) s
        { f with head := (f.head + 1) % p.c, rdData := o, wrAck := false, wrOvf := true
                 rdAck := true, rdUnf := false } ∧
      occ p ((f.head + 1) % p.c) f.tail + 2 = p.c) ∧
    (f.head = f.tail → ∃ m,
      sfAnswers (exec (.sfPushPop d) s) s
        { f with sto := m, tail := (f.tail + 1) % p.c, wrAck := true, wrOvf := false
                 rdAck := false, rdUnf := true } ∧
      slotObj p m f.tail = some d ∧ onlySlotChanged p f.sto m f.tail ∧
      occ p f.head ((f.tail + 1) % p.c) = 1) ∧
    (∀ o, (f.tail + 1) % p.c ≠ f.head → f.head ≠ f.tail → slotObj p f.sto f.head = some o → ∃ m,
      sfAnswers (exec (.sfPushPop d) s) s
        { f with sto := m, tail := (f.tail + 1) % p.c, head := (f.head + 1) % p.c, rdData := o
                 wrAck := true, wrOvf := false, rdAck := true, rdUnf := false } ∧
      slotObj p m f.tail = some d ∧ onlySlotChanged p f.sto m f.tail ∧
      occ p ((f.head + 1) % p.c) ((f.tail + 1) % p.c) = occ p f.head f.tail)

/-- R811, R1201, R1112: an edge with `rst = 1` clears the cursors and the acknowledge registers
whatever the control vector asks for, `clr` among it; `rd_data` and storage keep their values. -/
def Obligations.SfResetTakesPrecedence : Prop :=
  ∀ (s : State) (w d : Nat), checkSf s.sf.cfg = none →
    sfAnswers (runEvent (.sfClk true w d) s) s
        { s.sf with head := 0, tail := 0, wrAck := false, wrOvf := false, rdAck := false,
                    rdUnf := false }

/-- R826: an edge that pushes and pops has the effect on cursors, storage and `rd_data` of the two
single operations in sequence: when full push then pop, when empty pop then push, otherwise in either
order. -/
def Obligations.SfEdgeIsLinearisable : Prop :=
  ∀ (s : State) (d : Nat), s.sf.Inv → objFits s.sf.cfg d = true →
    let same := fun t u : State => t.sf.head = u.sf.head ∧ t.sf.tail = u.sf.tail ∧
      t.sf.sto = u.sf.sto ∧ t.sf.rdData = u.sf.rdData
    ∃ t u u' v v', exec (.sfPushPop d) s = .next t ∧
      exec (.sfPush d) s = .next u ∧ exec .sfPop u = .next u' ∧
      exec .sfPop s = .next v ∧ exec (.sfPush d) v = .next v' ∧
      (isEmpty s.sf.head s.sf.tail = false → same t u') ∧
      (isFull s.sf.cfg s.sf.head s.sf.tail = false → same t v')

/-- R827 and R828: with `rst = clr = 0` the objects held are those before, less the one a successful
pop removed, which `rd_data` then holds, plus the one a successful push added. -/
def Obligations.SfKeepsFifoOrder : Prop :=
  ∀ (s t : State) (w d : Nat), s.sf.Inv → objFits s.sf.cfg d = true → w < 4 →
    runEvent (.sfClk false w d) s = .next t →
    t.sf.contents = (if t.sf.rdAck then s.sf.contents.tail else s.sf.contents) ++
      (if t.sf.wrAck then [some d] else []) ∧
    (t.sf.rdAck = true → s.sf.contents.head? = some (some t.sf.rdData)) ∧
    (t.sf.rdAck = false → t.sf.rdData = s.sf.rdData) ∧
    occ t.sf.cfg t.sf.head t.sf.tail + t.sf.rdAck.toNat =
      occ s.sf.cfg s.sf.head s.sf.tail + t.sf.wrAck.toNat ∧
    occ t.sf.cfg t.sf.head t.sf.tail ≤ t.sf.cfg.c - 1

/-- The frame of SF: an operation changes nothing of the RBC, AF and the host side, nothing of SF's
parameters, and no byte of storage outside slot `tail`; an operation that pushes nothing changes no
byte; one that pops nothing leaves `head`, unless it clears, and `rd_data`. The storage ports show
exactly those accesses: a push writes its object to slot `tail` on the one, a pop reads slot `head` on
the other, whose `sto_rdata` is then `rd_data`. That there are two ports of the shape of R208 is the
model's choice (log entry 8). -/
def Obligations.SfFrame : Prop :=
  ∀ (i : Instr) (s t : State), isSf i = true → exec i s = .next t →
    t.rbc = s.rbc ∧ t.af = s.af ∧ t.script = s.script ∧ t.pos = s.pos ∧ t.free = s.free ∧
    t.sf.cfg = s.sf.cfg ∧
    (∀ a, outsideSlot s.sf.cfg s.sf.tail a → readByte t.sf.sto a = readByte s.sf.sto a) ∧
    (t.sf.wrAck = false → t.sf.sto = s.sf.sto ∧ (i ≠ .sfClear → t.sf.tail = s.sf.tail)) ∧
    (t.sf.rdAck = false → t.sf.rdData = s.sf.rdData ∧ (i ≠ .sfClear → t.sf.head = s.sf.head)) ∧
    (match i with
      | .sfPush d | .sfPushPop d =>
        t.sf.wPort = if t.sf.wrAck then some (.write s.sf.tail d) else none
      | _ => t.sf.wPort = none) ∧
    t.sf.rPort = (if t.sf.rdAck then some (.read s.sf.head) else none) ∧
    t.sf.stoRdata = if t.sf.rdAck then some t.sf.rdData else none

/-! ## async_fifo -/

/-- R910: a push of a live write domain stores at `wbin` and advances the pointer pair, or is refused
with `wr_ovf` and changes no pointer and no storage; the write-domain synchroniser shifts (R930).
(`AfFrame` says what the storage's write port shows.) -/
def Obligations.AfPushStoresAtWbin : Prop :=
  (∀ (p : Config) (d : Nat), objFits p d = true → decode p (.afW 1 d) = .ok (.afPush d)) ∧
  ∀ (s : State) (d : Nat), s.afWriteRuns → s.af.wbin < s.af.cfg.c →
    objFits s.af.cfg d = true →
    let a := s.af
    let next := (a.wbin + 1) % a.cfg.c
    let refused : StoPort → Af := fun q => { a with wrAck := false, wrOvf := true, wPort := q }
    let pushed : Memory → StoPort → Af := fun m q =>
      { a with sto := m, wbin := next, wgray := gray next, wc := a.wc + 1, wMoved := true
               wrAck := true, wrOvf := false, wPort := q }
    ∃ x g q, Captures a.cfg a.rMoved (a.wqc.headD 0) a.rc a.rgray x g ∧
      (gray next = chainOut a.wq →
        exec (.afPush d) s = .next (afterAfEdge s (shiftedW (refused q) x g))) ∧
      (gray next ≠ chainOut a.wq → ∃ m,
        exec (.afPush d) s = .next (afterAfEdge s (shiftedW (pushed m q) x g)) ∧
        slotObj a.cfg m a.wbin = some d ∧ onlySlotChanged a.cfg a.sto m a.wbin ∧
        (chainOut a.wq < a.cfg.c → (pushed m q).wLevel = a.wLevel + 1))

/-- R911 and R921: an idle edge of a live domain clears its two acknowledge registers and shifts its
synchroniser; nothing else changes. (`AfFrame` says what the storage's ports show.) -/
def Obligations.AfIdleEdgesShift : Prop :=
  (∀ (p : Config) (d : Nat), objFits p d = true → decode p (.afW 0 d) = .ok .afWidle) ∧
  (∀ p : Config, decode p (.afR 0) = .ok .afRidle) ∧
  (∀ s : State, s.afWriteRuns → ∃ x g q,
    Captures s.af.cfg s.af.rMoved (s.af.wqc.headD 0) s.af.rc s.af.rgray x g ∧
    exec .afWidle s = .next (afterAfEdge s
      (shiftedW { s.af with wrAck := false, wrOvf := false, wPort := q } x g))) ∧
  (∀ s : State, s.afReadRuns → ∃ x g q,
    Captures s.af.cfg s.af.wMoved (s.af.rqc.headD 0) s.af.wc s.af.wgray x g ∧
    exec .afRidle s = .next (afterAfEdge s
      (shiftedR { s.af with rdAck := false, rdUnf := false, rPort := q } x g)))

/-- R920: a pop of a live read domain loads `rd_data` from `rbin` and advances the pointer pair, or is
refused with `rd_unf` and changes no pointer and not `rd_data`; the read-domain synchroniser shifts
(R930). (`AfFrame` says what the storage's read port shows.) -/
def Obligations.AfPopLoadsRdData : Prop :=
  (∀ p : Config, decode p (.afR 1) = .ok .afPop) ∧
  ∀ s : State, s.afReadRuns → s.af.rbin < s.af.cfg.c →
    let a := s.af
    let next := (a.rbin + 1) % a.cfg.c
    let refused : StoPort → Af := fun q => { a with rdAck := false, rdUnf := true, rPort := q }
    let popped : Nat → StoPort → Af := fun d q =>
      { a with rdData := d, rbin := next, rgray := gray next, rc := a.rc + 1, rMoved := true
               rdAck := true, rdUnf := false, rPort := q }
    ∃ x g q, Captures a.cfg a.wMoved (a.rqc.headD 0) a.wc a.wgray x g ∧
      (a.rgray = chainOut a.rq →
        exec .afPop s = .next (afterAfEdge s (shiftedR (refused q) x g))) ∧
      (∀ d, a.rgray ≠ chainOut a.rq → slotObj a.cfg a.sto a.rbin = some d →
        exec .afPop s = .next (afterAfEdge s (shiftedR (popped d q) x g)) ∧
        (chainOut a.rq < a.cfg.c → a.rgray = gray a.rbin → (popped d q).rLevel + 1 = a.rLevel))

/-- R940, R941, R957 and R953: `full_w` exactly when `w_level = C − 1`, `empty_r` exactly when
`r_level = 0`, the levels bound the true occupancy, and neither flag is ever 0 when the true state
would make the source's test 1. -/
def Obligations.AfFlagsAndLevelsAreConservative : Prop :=
  (∀ a : Af, a.Inv →
     (a.fullW = true ↔ a.wLevel = a.cfg.c - 1) ∧ (a.emptyR = true ↔ a.rLevel = 0) ∧
     a.rLevel = a.wv - a.rc ∧ a.wLevel = a.wc - a.rv ∧
     a.rLevel ≤ a.wc - a.rc ∧ a.wc - a.rc ≤ a.wLevel ∧ a.wLevel ≤ a.cfg.c - 1) ∧
  (∀ a : Af, a.Inv →
     (a.wc - a.rc = a.cfg.c - 1 → a.fullW = true) ∧ (a.wc = a.rc → a.emptyR = true))

/-- R950: the counts each domain sees never run ahead of the true ones and never decrease, whatever
event happens but a reset. -/
def Obligations.AfCountsLagAndNeverDecrease : Prop :=
  ∀ (s t : State) (e : Event), s.af.Inv → runEvent e s = .next t →
    s.af.rv ≤ s.af.rc ∧ s.af.wv ≤ s.af.wc ∧
    ((∀ l, e ≠ .arst l) → s.af.rv ≤ t.af.rv ∧ s.af.wv ≤ t.af.wv)

/-- R951, R952, R954: the occupancy never exceeds `C − 1`; a successful pop happens only when
`Rc < Wv`; and the slot it reads is not the slot the write domain writes. -/
def Obligations.AfNeverOverflowsOrUnderflows : Prop :=
  (∀ a : Af, a.Inv → a.rc ≤ a.wc ∧ a.wc ≤ a.rc + (a.cfg.c - 1)) ∧
  (∀ s t : State, s.af.Inv → exec .afPop s = .next t → t.af.rc ≠ s.af.rc →
    s.af.rc < s.af.wv ∧ t.af.rc = s.af.rc + 1 ∧ s.af.rbin ≠ s.af.wbin)

/-- R956 and R954: AF keeps FIFO order: a successful push adds its object at the end, a successful pop
takes the oldest object into `rd_data`, and no other edge changes what is held. -/
def Obligations.AfKeepsFifoOrder : Prop :=
  ∀ (s t : State) (i : Instr), s.af.Inv → i.wellFormed s.af.cfg = true → exec i s = .next t →
    match i with
    | .afPush d => (t.af.wrAck = true → t.af.contents = s.af.contents ++ [some d]) ∧
        (t.af.wrAck = false → t.af.contents = s.af.contents)
    | .afPop => (t.af.rdAck = true → s.af.contents = some t.af.rdData :: t.af.contents) ∧
        (t.af.rdAck = false → t.af.contents = s.af.contents ∧ t.af.rdData = s.af.rdData)
    | _ => t.af.contents = s.af.contents ∧ t.af.rdData = s.af.rdData

/-- R955: when no push occurs over a run of edges of both clocks, so when `Wc`, which counts the pushes,
is the same at its end, the read domain sees every push once `SYNC_N + 1` of the edges are its own, and
`empty_r` is then exact; when no pop occurs, likewise the write domain and `full_w`. The partner may
stay idle, and then nothing occurs, or have its requests refused (`winc = 1` while `full_w`, `rinc = 1`
while `empty_r`). A domain's synchroniser shifts at
every edge with `arst_n = 1` (R930), so the domain need not have left reset. -/
def Obligations.AfPointersCatchUp : Prop :=
  (∀ (s : State) (es rest : List Event), s.af.Inv → s.af.arstN = true →
    afEdges s.af.cfg es → s.af.cfg.syncN + 1 ≤ rclkEdges es → s.script = es ++ rest →
    ∃ t, Sys2Proof.core.run es.length s = .next t ∧
      ((∀ w d, .wclk w d ∈ es → w = 0) → t.af.wc = s.af.wc) ∧
      (t.af.wc = s.af.wc → t.af.wv = t.af.wc ∧ (t.af.emptyR = false ↔ t.af.rc < t.af.wc))) ∧
  (∀ (s : State) (es rest : List Event), s.af.Inv → s.af.arstN = true →
    afEdges s.af.cfg es → s.af.cfg.syncN + 1 ≤ wclkEdges es → s.script = es ++ rest →
    ∃ t, Sys2Proof.core.run es.length s = .next t ∧
      ((∀ w, .rclk w ∈ es → w = 0) → t.af.rc = s.af.rc) ∧
      (t.af.rc = s.af.rc → t.af.rv = t.af.rc ∧
        (t.af.fullW = true ↔ t.af.wc - t.af.rc = t.af.cfg.c - 1)))

/-- R1202: `arst_n = 0` puts every register of both domains to 0 but `rd_data`, which it leaves with
storage; the flags are those of an empty FIFO. Driving `arst_n` to 1 changes no register of either
domain. A domain that has not left reset performs no push and no pop: at an edge of its clock it
changes nothing while `arst_n` is 0, and while it is 1 only its synchroniser shifts (R930) and it may
leave reset, at an edge the model draws (log entry 10). A domain leaves reset only at an edge of its
own clock with `arst_n = 1`. -/
def Obligations.AfResetClearsBothDomains : Prop :=
  (∀ s : State, checkAf s.af.cfg = none → ∃ a,
    runEvent (.arst false) s = .next { s with af := a } ∧
    a.cfg = s.af.cfg ∧ a.rdData = s.af.rdData ∧ a.sto = s.af.sto ∧
    a.wbin = 0 ∧ a.wgray = 0 ∧ a.wrAck = false ∧ a.wrOvf = false ∧
    a.rbin = 0 ∧ a.rgray = 0 ∧ a.rdAck = false ∧ a.rdUnf = false ∧
    a.wq = List.replicate s.af.cfg.syncN 0 ∧ a.rq = List.replicate s.af.cfg.syncN 0 ∧
    a.wc = 0 ∧ a.rc = 0 ∧ a.wv = 0 ∧ a.rv = 0 ∧
    a.arstN = false ∧ a.wLive = false ∧ a.rLive = false ∧
    a.wPort = none ∧ a.rPort = none ∧
    a.fullW = false ∧ a.emptyR = true ∧ a.wLevel = 0 ∧ a.rLevel = 0) ∧
  (∀ s : State, checkAf s.af.cfg = none →
    runEvent (.arst true) s = .next { s with af := { s.af with arstN := true } }) ∧
  (∀ (s : State) (d : Nat), checkAf s.af.cfg = none → s.af.wLive = false → ∃ live x g,
    Captures s.af.cfg s.af.rMoved (s.af.wqc.headD 0) s.af.rc s.af.rgray x g ∧
    exec (.afPush d) s = .next (afterAfEdge s
      (if s.af.arstN then shiftedW { s.af with wLive := live, wPort := none } x g
       else { s.af with wPort := none })) ∧
    exec .afWidle s = exec (.afPush d) s) ∧
  (∀ s : State, checkAf s.af.cfg = none → s.af.rLive = false → ∃ live x g,
    Captures s.af.cfg s.af.wMoved (s.af.rqc.headD 0) s.af.wc s.af.wgray x g ∧
    exec .afPop s = .next (afterAfEdge s
      (if s.af.arstN then shiftedR { s.af with rLive := live, rPort := none } x g
       else { s.af with rPort := none })) ∧
    exec .afRidle s = exec .afPop s) ∧
  (∀ (s t : State) (e : Event), runEvent e s = .next t →
    (s.af.wLive = false → s.af.arstN = false ∨ (∀ w d, e ≠ .wclk w d) → t.af.wLive = false) ∧
    (s.af.rLive = false → s.af.arstN = false ∨ (∀ w, e ≠ .rclk w) → t.af.rLive = false))

/-- The frame of AF (R900: "Every write-domain output depends only on write-domain registers"): an
edge of one clock changes no register of the other domain but the ghost mark that its input moved,
nothing of the RBC, SF and the host side, and no byte of storage outside slot `wbin`; an edge of
`rclk` changes no byte. R207: the storage's write port is enabled by a push, at slot `wbin`; its read
port reads slot `rbin` at a pop, and delivers the object into `rd_data`. That both have the shape of
R208 is the model's (log entry 29). -/
def Obligations.AfFrame : Prop :=
  ∀ (i : Instr) (s t : State), isAf i = true → exec i s = .next t →
    t.rbc = s.rbc ∧ t.sf = s.sf ∧ t.script = s.script ∧ t.pos = s.pos ∧ t.free = s.free + 1 ∧
    t.af.cfg = s.af.cfg ∧ t.af.arstN = s.af.arstN ∧
    match i with
    | .afWidle | .afPush _ =>
      t.af.rbin = s.af.rbin ∧ t.af.rgray = s.af.rgray ∧ t.af.rq = s.af.rq ∧
      t.af.rqc = s.af.rqc ∧ t.af.rc = s.af.rc ∧ t.af.rdData = s.af.rdData ∧
      t.af.rdAck = s.af.rdAck ∧ t.af.rdUnf = s.af.rdUnf ∧ t.af.rPort = s.af.rPort ∧
      t.af.rLive = s.af.rLive ∧
      (∀ a, outsideSlot s.af.cfg s.af.wbin a → readByte t.af.sto a = readByte s.af.sto a) ∧
      t.af.wPort = (match i with
        | .afPush d => if s.af.arstN && s.af.wLive && t.af.wrAck then some (.write s.af.wbin d)
          else none
        | _ => none) ∧
      (i = .afWidle ∨ t.af.wrAck = false → t.af.wbin = s.af.wbin ∧ t.af.wgray = s.af.wgray ∧
        ∀ a, readByte t.af.sto a = readByte s.af.sto a)
    | _ =>
      t.af.wbin = s.af.wbin ∧ t.af.wgray = s.af.wgray ∧ t.af.wq = s.af.wq ∧
      t.af.wqc = s.af.wqc ∧ t.af.wc = s.af.wc ∧
      t.af.wrAck = s.af.wrAck ∧ t.af.wrOvf = s.af.wrOvf ∧ t.af.wPort = s.af.wPort ∧
      t.af.wLive = s.af.wLive ∧
      (let popped := s.af.arstN && s.af.rLive && t.af.rdAck
       t.af.rPort = (if popped then some (.read s.af.rbin) else none) ∧
       t.af.stoRdata = if popped then some t.af.rdData else none) ∧
      ∀ a, readByte t.af.sto a = readByte s.af.sto a

/-! ## The whole machine -/

/-- R1204: what reset leaves (the values the spec gives), in every block, for any elaboration. -/
def Obligations.ResetLeavesTheStatedValues : Prop :=
  ∀ p : Config,
    ((Rbc.reset p).head = 0 ∧ (Rbc.reset p).tail = 0 ∧ (Rbc.reset p).phase = .idle ∧
      (Rbc.reset p).rspValid = false) ∧
    ((Sf.reset p).head = 0 ∧ (Sf.reset p).tail = 0 ∧ (Sf.reset p).wrAck = false ∧
      (Sf.reset p).wrOvf = false ∧ (Sf.reset p).rdAck = false ∧ (Sf.reset p).rdUnf = false) ∧
    ((Af.reset p).wbin = 0 ∧ (Af.reset p).wgray = 0 ∧ (∀ x ∈ (Af.reset p).wq, x = 0) ∧
      (Af.reset p).wrAck = false ∧ (Af.reset p).wrOvf = false ∧
      (Af.reset p).rbin = 0 ∧ (Af.reset p).rgray = 0 ∧ (∀ x ∈ (Af.reset p).rq, x = 0) ∧
      (Af.reset p).rdAck = false ∧ (Af.reset p).rdUnf = false) ∧
    ((∀ a, readByte (Rbc.reset p).sto a = none) ∧ (∀ a, readByte (Sf.reset p).sto a = none) ∧
      ∀ a, readByte (Af.reset p).sto a = none)

/-- The invariant holds right after reset, whichever legal parameters the blocks are elaborated
with. -/
def Obligations.ResetMeetsTheInvariant : Prop :=
  State.reset.Inv ∧
  ∀ p : Config, (checkRbc p = none → (Rbc.reset p).Inv) ∧ (checkSf p = none → (Sf.reset p).Inv) ∧
    (checkAf p = none → (Af.reset p).Inv)

/-- Every step keeps the invariant: cursors in range (R101 to R103), canonical storage, a written
window (R206), beats that fit the port (R330), the phase in agreement with the cursors (R343), the
pointer, chain and count laws of AF (R133, R950 to R952). -/
def Obligations.StepKeepsTheInvariant : Prop :=
  ∀ s t : State, s.Inv → step s = .next t → t.Inv

/-- R206 and R1113: from a state that meets the invariant no step faults: no rule reads a byte that
was never written, and none leaves the slots `[0, C − 1]`. -/
def Obligations.NoStepFaults : Prop :=
  ∀ (s : State) (e : Fault), s.Inv → step s ≠ .fault e

/-- R115: every configuration item is fixed for the life of the hardware. -/
def Obligations.ParametersNeverChange : Prop :=
  ∀ s t : State, step s = .next t →
    t.rbc.cfg = s.rbc.cfg ∧ t.sf.cfg = s.sf.cfg ∧ t.af.cfg = s.af.cfg

/-- R216 and R1203: a second agent on RBC or SF, and a reset of one AF domain alone, are refused by
name (log entry 15). -/
def Obligations.ForeignMovesAreRefused : Prop :=
  (∀ (s : State) (b : OneHostBlock) (rest : List Event), s.script = .secondAgent b :: rest →
    step s = .refused .secondAgent) ∧
  (∀ (s : State) (d : Domain) (rest : List Event), s.script = .domainReset d :: rest →
    step s = .refused .singleDomainReset)
end

