-- ==== Sys2Proof/Laws/Index.lean ====
section
/-! SUPPORT. The index unit: what a legal elaboration gives, both strategies as one modulo, and how
the occupancy moves with the cursors. -/

namespace Sys2Proof.Machine

/-- R13: an `IW`-bit field holds every index. -/
theorem le_two_pow_indexWidth {c : Nat} (hc : 2 ≤ c) : c ≤ 2 ^ indexWidth c := by
  have h := Nat.lt_log2_self (n := c - 1)
  unfold indexWidth
  omega

theorem isPow2_spec {c : Nat} (h : isPow2 c = true) : c = 2 ^ indexWidth c := of_decide_eq_true h

/-- What the checks of R500 that every block makes give. -/
theorem checkShared_spec {p : Config} (h : checkShared p = none) :
    1 ≤ p.s ∧ 2 ≤ p.c ∧ (p.strat = .mask → isPow2 p.c = true) ∧
      (p.storage = .external → p.c ≤ p.dSto) ∧ 1 ≤ p.lSto := by
  unfold checkShared at h
  repeat' split at h
  all_goals first | (simp at h; done) | skip
  rename_i h1 h2 h3 h4 h5
  refine ⟨by omega, by omega, fun hm => ?_, fun he => ?_, by omega⟩
  · simpa [hm] using h3
  · by_contra hlt
    exact h4 ⟨he, by omega⟩

theorem checkRbc_shared {p : Config} (h : checkRbc p = none) : checkShared p = none := by
  unfold checkRbc at h
  split at h
  · simp at h
  · assumption

theorem checkRbc_spec {p : Config} (h : checkRbc p = none) : indexWidth p.c ≤ p.nw := by
  unfold checkRbc at h
  split at h
  · simp at h
  · split at h
    · simp at h
    · omega

theorem checkSf_shared {p : Config} (h : checkSf p = none) : checkShared p = none := by
  unfold checkSf at h
  split at h
  · simp at h
  · assumption

theorem checkAf_shared {p : Config} (h : checkAf p = none) : checkShared p = none := by
  unfold checkAf at h
  split at h
  · simp at h
  · assumption

theorem checkAf_spec {p : Config} (h : checkAf p = none) : isPow2 p.c = true ∧ 2 ≤ p.syncN := by
  unfold checkAf at h
  split at h
  · simp at h
  · split at h
    · simp at h
    · split at h
      · simp at h
      · rename_i h1 h2
        exact ⟨by simpa using h1, by omega⟩

/-- The mask of a power of two is a modulo. -/
theorem and_pred_eq_mod {c : Nat} (h : isPow2 c = true) (x : Nat) : x &&& (c - 1) = x % c := by
  rw [isPow2_spec h, Nat.and_two_pow_sub_one_eq_mod]

/-- R404: a legal strategy is a modulo. -/
theorem wrap_eq_mod {p : Config} (h : stratLegal p) (x : Nat) : wrap p x = x % p.c := by
  unfold wrap
  split
  · rfl
  · exact and_pred_eq_mod (h ‹_›) _

theorem stratLegal_of_checkShared {p : Config} (h : checkShared p = none) : stratLegal p :=
  (checkShared_spec h).2.2.1

theorem adv_eq_mod {p : Config} (h : checkShared p = none) (i : Nat) :
    adv p i = (i + 1) % p.c := wrap_eq_mod (stratLegal_of_checkShared h) _

theorem addk_eq_mod {p : Config} (h : checkShared p = none) (i k : Nat) :
    addk p i k = (i + k) % p.c := wrap_eq_mod (stratLegal_of_checkShared h) _

/-! ## R404: `STRAT` is read nowhere else -/

@[simp] theorem asMod_c (p : Config) : p.asMod.c = p.c := rfl
@[simp] theorem asMod_s (p : Config) : p.asMod.s = p.s := rfl
@[simp] theorem asMod_strat (p : Config) : p.asMod.strat = .mod := rfl
@[simp] theorem asMod_nw (p : Config) : p.asMod.nw = p.nw := rfl
@[simp] theorem asMod_storage (p : Config) : p.asMod.storage = p.storage := rfl
@[simp] theorem asMod_dSto (p : Config) : p.asMod.dSto = p.dSto := rfl
@[simp] theorem asMod_lSto (p : Config) : p.asMod.lSto = p.lSto := rfl
@[simp] theorem asMod_syncN (p : Config) : p.asMod.syncN = p.syncN := rfl
@[simp] theorem asMod_latMax (p : Config) : p.asMod.latMax = p.latMax := rfl
@[simp] theorem asMod_base (p : Config) : p.asMod.base = p.base := rfl

theorem wrap_asMod {p : Config} (h : stratLegal p) (x : Nat) : wrap p.asMod x = wrap p x := by
  rw [wrap_eq_mod h]
  rfl

theorem adv_asMod {p : Config} (h : stratLegal p) (i : Nat) : adv p.asMod i = adv p i :=
  wrap_asMod h _

theorem addk_asMod {p : Config} (h : stratLegal p) (i k : Nat) : addk p.asMod i k = addk p i k :=
  wrap_asMod h _

theorem isFull_asMod {p : Config} (h : stratLegal p) (head tail : Nat) :
    isFull p.asMod head tail = isFull p head tail := by
  simp [isFull, adv_asMod h]

theorem checkShared_asMod {p : Config} (h : stratLegal p) :
    checkShared p.asMod = checkShared p := by
  unfold checkShared
  have : ¬(p.strat = .mask ∧ isPow2 p.c = false) := fun ⟨hm, hf⟩ => by simp [h hm] at hf
  simp [this]

theorem adv_lt {p : Config} (h : checkShared p = none) (i : Nat) : adv p i < p.c := by
  obtain ⟨-, hc, -⟩ := checkShared_spec h
  rw [adv_eq_mod h]
  exact Nat.mod_lt _ (by omega)

theorem addk_lt {p : Config} (h : checkShared p = none) (i k : Nat) : addk p i k < p.c := by
  obtain ⟨-, hc, -⟩ := checkShared_spec h
  rw [addk_eq_mod h]
  exact Nat.mod_lt _ (by omega)

/-- R405: the advance without a divider. -/
theorem adv_eq_ite {p : Config} (h : checkShared p = none) {i : Nat} (hi : i < p.c) :
    adv p i = if i + 1 = p.c then 0 else i + 1 := by
  rw [adv_eq_mod h]
  split
  · rename_i he
    rw [he, Nat.mod_self]
  · exact Nat.mod_eq_of_lt (by omega)

theorem addk_eq_ite {p : Config} (h : checkShared p = none) {i k : Nat} (hi : i < p.c)
    (hk : k ≤ p.c) : addk p i k = if p.c ≤ i + k then i + k - p.c else i + k := by
  rw [addk_eq_mod h]
  split
  · rename_i he
    rw [Nat.mod_eq_sub_mod he]
    exact Nat.mod_eq_of_lt (by omega)
  · exact Nat.mod_eq_of_lt (by omega)

theorem addk_zero {p : Config} (h : checkShared p = none) {i : Nat} (hi : i < p.c) :
    addk p i 0 = i := by
  rw [addk_eq_mod h]
  exact Nat.mod_eq_of_lt hi

/-- One place further, after `k` places. -/
theorem addk_succ {p : Config} (h : checkShared p = none) (i k : Nat) :
    addk p i (k + 1) = adv p (addk p i k) := by
  rw [adv_eq_mod h, addk_eq_mod h, addk_eq_mod h, Nat.mod_add_mod, Nat.add_assoc]

theorem addk_adv {p : Config} (h : checkShared p = none) (i k : Nat) :
    addk p (adv p i) k = addk p i (k + 1) := by
  rw [adv_eq_mod h, addk_eq_mod h, addk_eq_mod h, Nat.mod_add_mod, Nat.add_assoc,
    Nat.add_comm 1 k]

theorem occ_lt {p : Config} (h : checkShared p = none) (head tail : Nat) :
    occ p head tail < p.c := by
  obtain ⟨-, hc, -⟩ := checkShared_spec h
  exact Nat.mod_lt _ (by omega)

/-- R415: the occupancy calculator without a divider. -/
theorem occ_eq_ite {p : Config} {head tail : Nat} (hh : head < p.c) (ht : tail < p.c) :
    occ p head tail = if head ≤ tail then tail - head else tail + p.c - head := by
  unfold occ
  split
  · rw [show tail + p.c - head = (tail - head) + p.c by omega, Nat.add_mod_right]
    exact Nat.mod_eq_of_lt (by omega)
  · exact Nat.mod_eq_of_lt (by omega)

/-- The write cursor is `occ` places after the read cursor. -/
theorem addk_occ {p : Config} (h : checkShared p = none) {head tail : Nat} (hh : head < p.c)
    (ht : tail < p.c) : addk p head (occ p head tail) = tail := by
  have ho := occ_lt h head tail
  rw [addk_eq_ite h hh (by omega)]
  rw [occ_eq_ite hh ht] at ho ⊢
  split_ifs at ho ⊢ <;> omega

/-- The occupancy of a cursor `k` places after the other. -/
theorem occ_addk {p : Config} (h : checkShared p = none) {head k : Nat} (hh : head < p.c)
    (hk : k < p.c) : occ p head (addk p head k) = k := by
  rw [occ_eq_ite hh (addk_lt h _ _), addk_eq_ite h hh (by omega)]
  split_ifs <;> omega

/-- A write that does not fill past the sacrificed slot raises the occupancy by one. -/
theorem occ_adv_tail {p : Config} (h : checkShared p = none) {head tail : Nat} (hh : head < p.c)
    (ht : tail < p.c) (hf : isFull p head tail = false) :
    occ p head (adv p tail) = occ p head tail + 1 := by
  have hne : adv p tail ≠ head := of_decide_eq_false hf
  rw [occ_eq_ite hh (adv_lt h _), occ_eq_ite hh ht]
  rw [adv_eq_ite h ht] at hne ⊢
  split_ifs at hne ⊢ <;> omega

/-- A removal lowers the occupancy by one. -/
theorem occ_adv_head {p : Config} (h : checkShared p = none) {head tail : Nat} (hh : head < p.c)
    (ht : tail < p.c) (he : isEmpty head tail = false) :
    occ p (adv p head) tail + 1 = occ p head tail := by
  have hne : head ≠ tail := of_decide_eq_false he
  rw [occ_eq_ite (adv_lt h _) ht, occ_eq_ite hh ht, adv_eq_ite h hh]
  split_ifs <;> omega

/-- Distinct places of the window are distinct slots. -/
theorem addk_injective {p : Config} (h : checkShared p = none) {i j k : Nat} (hi : i < p.c)
    (hj : j < p.c) (hk : k < p.c) (he : addk p i j = addk p i k) : j = k := by
  rw [addk_eq_ite h hi (by omega), addk_eq_ite h hi (by omega)] at he
  split_ifs at he <;> omega

end Sys2Proof.Machine
end

