-- ==== Sys2Proof/Laws/Memory.lean ====
section
/-! SUPPORT. The laws of storage: a read after a write, what a write leaves alone, and that every
memory operation keeps the canonical form. -/

namespace Sys2Proof.Machine

@[simp] theorem readByte_nil (a : Nat) : readByte [] a = none := rfl

@[simp] theorem readByte_writeByte_same (m : Memory) (a : Nat) (v : Byte) :
    readByte (writeByte m a v) a = some v := by
  induction m with
  | nil => simp [writeByte, readByte]
  | cons x m ih =>
    obtain ⟨b, w⟩ := x
    unfold writeByte
    split
    · simp [readByte]
    · split
      · simp [readByte]
      · rename_i h
        simp [readByte, h, ih]

theorem readByte_writeByte_other (m : Memory) {a a' : Nat} (v : Byte) (h : a' ≠ a) :
    readByte (writeByte m a v) a' = readByte m a' := by
  induction m with
  | nil => simp [writeByte, readByte, h]
  | cons x m ih =>
    obtain ⟨b, w⟩ := x
    unfold writeByte
    split
    · simp [readByte, h]
    · split
      · rename_i hab
        subst hab
        simp [readByte, h]
      · simp [readByte, ih]

theorem mem_writeByte {m : Memory} {a : Nat} {v : Byte} {x : Host.Cell}
    (h : x ∈ writeByte m a v) : x = (a, v) ∨ x ∈ m := by
  induction m with
  | nil => simpa [writeByte] using h
  | cons y m ih =>
    obtain ⟨b, w⟩ := y
    unfold writeByte at h
    split at h
    · simpa using h
    · split at h
      · rcases List.mem_cons.1 h with h | h
        · exact .inl h
        · exact .inr (List.mem_cons_of_mem _ h)
      · rcases List.mem_cons.1 h with h | h
        · exact .inr (h ▸ List.mem_cons_self)
        · rcases ih h with h | h
          · exact .inl h
          · exact .inr (List.mem_cons_of_mem _ h)

theorem Memory.wf_nil : Memory.wf [] := List.Pairwise.nil

theorem writeByte_wf {m : Memory} (hm : Memory.wf m) (a : Nat) (v : Byte) :
    Memory.wf (writeByte m a v) := by
  induction m with
  | nil => simp [writeByte, Memory.wf]
  | cons x m ih =>
    obtain ⟨b, w⟩ := x
    obtain ⟨hb, hm'⟩ := List.pairwise_cons.1 hm
    unfold writeByte
    split
    · rename_i hab
      refine List.pairwise_cons.2 ⟨fun y hy => ?_, hm⟩
      rcases List.mem_cons.1 hy with rfl | hy
      · exact hab
      · exact Nat.lt_trans hab (hb y hy)
    · split
      · rename_i hab
        subst hab
        exact List.pairwise_cons.2 ⟨fun y hy => hb y hy, hm'⟩
      · refine List.pairwise_cons.2 ⟨fun y hy => ?_, ih hm'⟩
        rcases mem_writeByte hy with rfl | hy
        · simp only
          omega
        · exact hb y hy

theorem writeBytes_wf {m : Memory} (hm : Memory.wf m) (a : Nat) (d : Nat) (k : Nat) :
    Memory.wf (writeBytes m a d k) := by
  induction k generalizing m a d with
  | zero => exact hm
  | succ k ih => exact ih (writeByte_wf hm _ _) _ _

/-- A write of `k` bytes leaves every byte outside them alone. -/
theorem readByte_writeBytes_outside (m : Memory) {a a' : Nat} (d : Nat) (k : Nat)
    (h : a' < a ∨ a + k ≤ a') : readByte (writeBytes m a d k) a' = readByte m a' := by
  induction k generalizing m a d with
  | zero => rfl
  | succ k ih =>
    unfold writeBytes
    rw [ih _ _ (by omega), readByte_writeByte_other _ _ (by omega)]

theorem readBytes_congr {m m' : Memory} {a : Nat} {k : Nat}
    (h : ∀ i, i < k → readByte m (a + i) = readByte m' (a + i)) :
    readBytes m a k = readBytes m' a k := by
  induction k generalizing a with
  | zero => rfl
  | succ k ih =>
    unfold readBytes
    rw [show readByte m a = readByte m' a from h 0 (by omega),
      ih fun i hi => by
        have := h (i + 1) (by omega)
        rwa [show a + 1 + i = a + (i + 1) by omega]]

/-- A write leaves an object that does not overlap it alone. -/
theorem readBytes_writeBytes_outside (m : Memory) {a b : Nat} (d : Nat) (k l : Nat)
    (h : b + l ≤ a ∨ a + k ≤ b) : readBytes (writeBytes m a d k) b l = readBytes m b l :=
  readBytes_congr fun i hi => readByte_writeBytes_outside m d k (by omega)

/-- The object read back is the one written, on the lanes the bus has. -/
theorem readBytes_writeBytes_same (m : Memory) (a : Nat) (d : Nat) (k : Nat) :
    readBytes (writeBytes m a d k) a k = some (d % 2 ^ (8 * k)) := by
  induction k generalizing m a d with
  | zero => simp [readBytes, Nat.mod_one]
  | succ k ih =>
    have h0 : readByte (writeBytes (writeByte m a (byteLane d 0)) (a + 1) (d >>> 8) k) a =
        some (byteLane d 0) := by
      rw [readByte_writeBytes_outside _ _ _ (by omega), readByte_writeByte_same]
    simp only [writeBytes, readBytes, h0, ih]
    have hb : (byteLane d 0).toNat = d % 256 := by simp [byteLane]
    rw [hb, Nat.shiftRight_eq_div_pow,
      show 2 ^ (8 * (k + 1)) = 256 * 2 ^ (8 * k) by rw [Nat.mul_succ, Nat.pow_add]; ring,
      Nat.mod_mul]

/-- An object read from storage fits its bus. -/
theorem readBytes_lt {m : Memory} {a k : Nat} {d : Nat} (h : readBytes m a k = some d) :
    d < 2 ^ (8 * k) := by
  induction k generalizing a d with
  | zero => simp [readBytes] at h; simp [← h]
  | succ k ih =>
    unfold readBytes at h
    split at h
    · rename_i v e hv he
      have hlt := ih he
      have hv8 := v.isLt
      obtain rfl := Option.some.inj h
      rw [show 2 ^ (8 * (k + 1)) = 256 * 2 ^ (8 * k) by rw [Nat.mul_succ, Nat.pow_add]; ring]
      generalize 2 ^ (8 * k) = q at hlt ⊢
      omega
    · simp at h

/-- A read of one slot either gives the object that lies there, or stops. -/
theorem memRead_ok {p : Config} {m : Memory} {slot : Nat} {d : Nat}
    (h : memRead p m slot = .ok d) : slot < p.c ∧ slotObj p m slot = some d := by
  unfold memRead at h
  split at h
  · rename_i hs
    split at h
    · rename_i e he
      cases h
      exact ⟨hs, he⟩
    · cases h
  · cases h

theorem memRead_of_slotObj {p : Config} {m : Memory} {slot : Nat} {d : Nat} (hs : slot < p.c)
    (h : slotObj p m slot = some d) : memRead p m slot = .ok d := by
  unfold slotObj at h
  simp [memRead, hs, h]

/-- A write of one slot in range always happens. -/
theorem memWrite_of_lt {p : Config} {slot : Nat} (m : Memory) (d : Nat) (hs : slot < p.c) :
    memWrite p m slot d = .ok (writeBytes m (slotAddr p slot) d p.s) := by
  simp [memWrite, hs]

theorem memWrite_ok {p : Config} {m m' : Memory} {slot : Nat} {d : Nat}
    (h : memWrite p m slot d = .ok m') :
    slot < p.c ∧ m' = writeBytes m (slotAddr p slot) d p.s := by
  unfold memWrite at h
  split at h
  · cases h
    exact ⟨‹_›, rfl⟩
  · cases h

theorem memWrite_wf {p : Config} {m m' : Memory} {slot : Nat} {d : Nat} (hm : Memory.wf m)
    (h : memWrite p m slot d = .ok m') : Memory.wf m' := by
  rw [(memWrite_ok h).2]
  exact writeBytes_wf hm _ _ _

/-- Two different slots do not overlap. -/
theorem slotAddr_disjoint (p : Config) {i j : Nat} (h : i ≠ j) :
    slotAddr p i + p.s ≤ slotAddr p j ∨ slotAddr p j + p.s ≤ slotAddr p i := by
  unfold slotAddr
  rcases Nat.lt_or_gt_of_ne h with h | h
  · left
    have := Nat.mul_le_mul_right p.s (Nat.succ_le_of_lt h)
    rw [Nat.succ_mul] at this
    omega
  · right
    have := Nat.mul_le_mul_right p.s (Nat.succ_le_of_lt h)
    rw [Nat.succ_mul] at this
    omega

/-- What a slot holds after a write of that slot. -/
theorem slotObj_write_same {p : Config} {m m' : Memory} {slot : Nat} {d : Nat}
    (h : memWrite p m slot d = .ok m') (hd : d < 2 ^ (8 * p.s)) : slotObj p m' slot = some d := by
  rw [(memWrite_ok h).2, slotObj, readBytes_writeBytes_same, Nat.mod_eq_of_lt hd]

/-- What another slot holds after a write of one. -/
theorem slotObj_write_other {p : Config} {m m' : Memory} {slot j : Nat} {d : Nat}
    (h : memWrite p m slot d = .ok m') (hj : j ≠ slot) : slotObj p m' j = slotObj p m j := by
  rw [(memWrite_ok h).2, slotObj, readBytes_writeBytes_outside _ _ _ _ (slotAddr_disjoint p hj)]
  rfl

/-- `State.reset`'s memories have the canonical form. -/
theorem reset_memories_wf :
    Memory.wf State.reset.rbc.sto ∧ Memory.wf State.reset.sf.sto ∧ Memory.wf State.reset.af.sto :=
  ⟨Memory.wf_nil, Memory.wf_nil, Memory.wf_nil⟩

end Sys2Proof.Machine
end

