-- ==== Sys2Proof/Laws/State.lean ====
section
/-! SUPPORT. What each named update of the state does to each field, so that no proof unfolds a record
update. -/

namespace Sys2Proof.Machine

/-! ### Rbc.respond -/

@[simp] theorem Rbc.respond_cfg (b : Rbc) (r : Response) : (b.respond r).cfg = b.cfg := rfl
@[simp] theorem Rbc.respond_head (b : Rbc) (r : Response) : (b.respond r).head = b.head := rfl
@[simp] theorem Rbc.respond_tail (b : Rbc) (r : Response) : (b.respond r).tail = b.tail := rfl
@[simp] theorem Rbc.respond_sto (b : Rbc) (r : Response) : (b.respond r).sto = b.sto := rfl
@[simp] theorem Rbc.respond_phase (b : Rbc) (r : Response) : (b.respond r).phase = b.phase := rfl
@[simp] theorem Rbc.respond_rsp (b : Rbc) (r : Response) : (b.respond r).rsp = some r.final := rfl
@[simp] theorem Rbc.respond_port (b : Rbc) (r : Response) : (b.respond r).port = b.port := rfl
@[simp] theorem Rbc.respond_held (b : Rbc) (r : Response) : (b.respond r).held = b.held := rfl
@[simp] theorem Rbc.respond_preHead (b : Rbc) (r : Response) :
    (b.respond r).preHead = b.preHead := rfl
@[simp] theorem Rbc.respond_preTail (b : Rbc) (r : Response) :
    (b.respond r).preTail = b.preTail := rfl
@[simp] theorem Rbc.respond_waited (b : Rbc) (r : Response) : (b.respond r).waited = b.waited := rfl
@[simp] theorem Rbc.respond_out (b : Rbc) (r : Response) :
    (b.respond r).out = b.out ++ r.toBeats := rfl

/-! ### Rbc.dropOne -/

@[simp] theorem Rbc.dropOne_cfg (b : Rbc) : (b.dropOne).cfg = b.cfg := rfl
@[simp] theorem Rbc.dropOne_head (b : Rbc) : (b.dropOne).head = adv b.cfg b.head := rfl
@[simp] theorem Rbc.dropOne_tail (b : Rbc) : (b.dropOne).tail = b.tail := rfl
@[simp] theorem Rbc.dropOne_sto (b : Rbc) : (b.dropOne).sto = b.sto := rfl
@[simp] theorem Rbc.dropOne_phase (b : Rbc) : (b.dropOne).phase = b.phase := rfl
@[simp] theorem Rbc.dropOne_rsp (b : Rbc) : (b.dropOne).rsp = b.rsp := rfl
@[simp] theorem Rbc.dropOne_port (b : Rbc) : (b.dropOne).port = b.port := rfl
@[simp] theorem Rbc.dropOne_held (b : Rbc) : (b.dropOne).held = b.held := rfl
@[simp] theorem Rbc.dropOne_preHead (b : Rbc) : (b.dropOne).preHead = b.preHead := rfl
@[simp] theorem Rbc.dropOne_preTail (b : Rbc) : (b.dropOne).preTail = b.preTail := rfl
@[simp] theorem Rbc.dropOne_waited (b : Rbc) : (b.dropOne).waited = b.waited := rfl
@[simp] theorem Rbc.dropOne_out (b : Rbc) : (b.dropOne).out = b.out := rfl

/-! ### Rbc.send -/

@[simp] theorem Rbc.send_cfg (b : Rbc) (r : RspBeat) : (b.send r).cfg = b.cfg := rfl
@[simp] theorem Rbc.send_head (b : Rbc) (r : RspBeat) : (b.send r).head = b.head := rfl
@[simp] theorem Rbc.send_tail (b : Rbc) (r : RspBeat) : (b.send r).tail = b.tail := rfl
@[simp] theorem Rbc.send_sto (b : Rbc) (r : RspBeat) : (b.send r).sto = b.sto := rfl
@[simp] theorem Rbc.send_phase (b : Rbc) (r : RspBeat) : (b.send r).phase = b.phase := rfl
@[simp] theorem Rbc.send_rsp (b : Rbc) (r : RspBeat) : (b.send r).rsp = some r := rfl
@[simp] theorem Rbc.send_port (b : Rbc) (r : RspBeat) : (b.send r).port = b.port := rfl
@[simp] theorem Rbc.send_held (b : Rbc) (r : RspBeat) : (b.send r).held = b.held := rfl
@[simp] theorem Rbc.send_preHead (b : Rbc) (r : RspBeat) : (b.send r).preHead = b.preHead := rfl
@[simp] theorem Rbc.send_preTail (b : Rbc) (r : RspBeat) : (b.send r).preTail = b.preTail := rfl
@[simp] theorem Rbc.send_waited (b : Rbc) (r : RspBeat) : (b.send r).waited = b.waited := rfl
@[simp] theorem Rbc.send_out (b : Rbc) (r : RspBeat) : (b.send r).out = b.out ++ [r] := rfl

/-! ### Rbc.startEdge -/

@[simp] theorem Rbc.startEdge_cfg (v y : Bool) (k : CmdBeat) (b : Rbc) :
    (b.startEdge v y k).cfg = b.cfg := rfl
@[simp] theorem Rbc.startEdge_head (v y : Bool) (k : CmdBeat) (b : Rbc) :
    (b.startEdge v y k).head = b.head := rfl
@[simp] theorem Rbc.startEdge_tail (v y : Bool) (k : CmdBeat) (b : Rbc) :
    (b.startEdge v y k).tail = b.tail := rfl
@[simp] theorem Rbc.startEdge_sto (v y : Bool) (k : CmdBeat) (b : Rbc) :
    (b.startEdge v y k).sto = b.sto := rfl
@[simp] theorem Rbc.startEdge_phase (v y : Bool) (k : CmdBeat) (b : Rbc) :
    (b.startEdge v y k).phase = b.phase := rfl
@[simp] theorem Rbc.startEdge_rsp (v y : Bool) (k : CmdBeat) (b : Rbc) :
    (b.startEdge v y k).rsp = none := rfl
@[simp] theorem Rbc.startEdge_port (v y : Bool) (k : CmdBeat) (b : Rbc) :
    (b.startEdge v y k).port = none := rfl
@[simp] theorem Rbc.startEdge_held (v y : Bool) (k : CmdBeat) (b : Rbc) :
    (b.startEdge v y k).held = if v && !y then some k else none := rfl
@[simp] theorem Rbc.startEdge_preHead (v y : Bool) (k : CmdBeat) (b : Rbc) :
    (b.startEdge v y k).preHead = b.preHead := rfl
@[simp] theorem Rbc.startEdge_preTail (v y : Bool) (k : CmdBeat) (b : Rbc) :
    (b.startEdge v y k).preTail = b.preTail := rfl
@[simp] theorem Rbc.startEdge_waited (v y : Bool) (k : CmdBeat) (b : Rbc) :
    (b.startEdge v y k).waited = b.waited := rfl
@[simp] theorem Rbc.startEdge_out (v y : Bool) (k : CmdBeat) (b : Rbc) :
    (b.startEdge v y k).out = b.out := rfl

/-! ### Rbc.resetEdge -/

@[simp] theorem Rbc.resetEdge_cfg (b : Rbc) : (b.resetEdge).cfg = b.cfg := rfl
@[simp] theorem Rbc.resetEdge_head (b : Rbc) : (b.resetEdge).head = 0 := rfl
@[simp] theorem Rbc.resetEdge_tail (b : Rbc) : (b.resetEdge).tail = 0 := rfl
@[simp] theorem Rbc.resetEdge_sto (b : Rbc) : (b.resetEdge).sto = b.sto := rfl
@[simp] theorem Rbc.resetEdge_phase (b : Rbc) : (b.resetEdge).phase = .idle := rfl
@[simp] theorem Rbc.resetEdge_rsp (b : Rbc) : (b.resetEdge).rsp = none := rfl
@[simp] theorem Rbc.resetEdge_port (b : Rbc) : (b.resetEdge).port = none := rfl
@[simp] theorem Rbc.resetEdge_held (b : Rbc) : (b.resetEdge).held = b.held := rfl
@[simp] theorem Rbc.resetEdge_preHead (b : Rbc) : (b.resetEdge).preHead = 0 := rfl
@[simp] theorem Rbc.resetEdge_preTail (b : Rbc) : (b.resetEdge).preTail = 0 := rfl
@[simp] theorem Rbc.resetEdge_waited (b : Rbc) : (b.resetEdge).waited = 0 := rfl
@[simp] theorem Rbc.resetEdge_out (b : Rbc) : (b.resetEdge).out = b.out := rfl

/-! ### Rbc.acceptHeader -/

@[simp] theorem Rbc.acceptHeader_cfg (w : Nat) (d : Nat) (b : Rbc) :
    (b.acceptHeader w d).cfg = b.cfg := rfl
@[simp] theorem Rbc.acceptHeader_head (w : Nat) (d : Nat) (b : Rbc) :
    (b.acceptHeader w d).head = b.head := rfl
@[simp] theorem Rbc.acceptHeader_tail (w : Nat) (d : Nat) (b : Rbc) :
    (b.acceptHeader w d).tail = b.tail := rfl
@[simp] theorem Rbc.acceptHeader_sto (w : Nat) (d : Nat) (b : Rbc) :
    (b.acceptHeader w d).sto = b.sto := rfl
@[simp] theorem Rbc.acceptHeader_rsp (w : Nat) (d : Nat) (b : Rbc) :
    (b.acceptHeader w d).rsp = b.rsp := rfl
@[simp] theorem Rbc.acceptHeader_port (w : Nat) (d : Nat) (b : Rbc) :
    (b.acceptHeader w d).port = b.port := rfl
@[simp] theorem Rbc.acceptHeader_held (w : Nat) (d : Nat) (b : Rbc) :
    (b.acceptHeader w d).held = b.held := rfl
@[simp] theorem Rbc.acceptHeader_preHead (w : Nat) (d : Nat) (b : Rbc) :
    (b.acceptHeader w d).preHead = b.head := rfl
@[simp] theorem Rbc.acceptHeader_preTail (w : Nat) (d : Nat) (b : Rbc) :
    (b.acceptHeader w d).preTail = b.tail := rfl
@[simp] theorem Rbc.acceptHeader_waited (w : Nat) (d : Nat) (b : Rbc) :
    (b.acceptHeader w d).waited = 0 := rfl
@[simp] theorem Rbc.acceptHeader_out (w : Nat) (d : Nat) (b : Rbc) :
    (b.acceptHeader w d).out = b.out := rfl

/-! ### Job.awaiting -/

@[simp] theorem Job.awaiting_op (p : Config) (x d : Nat) (job : Job) :
    (job.awaiting p x d).op = job.op := rfl
@[simp] theorem Job.awaiting_n (p : Config) (x d : Nat) (job : Job) :
    (job.awaiting p x d).n = job.n := rfl
@[simp] theorem Job.awaiting_data (p : Config) (x d : Nat) (job : Job) :
    (job.awaiting p x d).data = job.data := rfl
@[simp] theorem Job.awaiting_k (p : Config) (x d : Nat) (job : Job) :
    (job.awaiting p x d).k = job.k := rfl
@[simp] theorem Job.awaiting_issued (p : Config) (x d : Nat) (job : Job) :
    (job.awaiting p x d).issued = job.issued + 1 := rfl
@[simp] theorem Job.awaiting_sent (p : Config) (x d : Nat) (job : Job) :
    (job.awaiting p x d).sent = job.sent := rfl
@[simp] theorem Job.awaiting_flight (p : Config) (x d : Nat) (job : Job) :
    (job.awaiting p x d).flight = job.flight ++ [⟨x, d, p.lSto⟩] := rfl
@[simp] theorem Job.awaiting_cycles (p : Config) (x d : Nat) (job : Job) :
    (job.awaiting p x d).cycles = job.cycles := rfl

/-! ### Job.tick -/

@[simp] theorem Job.tick_op (job : Job) : (job.tick).op = job.op := rfl
@[simp] theorem Job.tick_n (job : Job) : (job.tick).n = job.n := rfl
@[simp] theorem Job.tick_data (job : Job) : (job.tick).data = job.data := rfl
@[simp] theorem Job.tick_k (job : Job) : (job.tick).k = job.k := rfl
@[simp] theorem Job.tick_issued (job : Job) : (job.tick).issued = job.issued := rfl
@[simp] theorem Job.tick_sent (job : Job) : (job.tick).sent = job.sent := rfl
@[simp] theorem Job.tick_flight (job : Job) :
    (job.tick).flight = job.flight.map fun r => { r with left := r.left - 1 } := rfl
@[simp] theorem Job.tick_cycles (job : Job) : (job.tick).cycles = job.cycles + 1 := rfl

/-! ### Sf.cleared -/

@[simp] theorem Sf.cleared_cfg (f : Sf) : (f.cleared).cfg = f.cfg := rfl
@[simp] theorem Sf.cleared_head (f : Sf) : (f.cleared).head = 0 := rfl
@[simp] theorem Sf.cleared_tail (f : Sf) : (f.cleared).tail = 0 := rfl
@[simp] theorem Sf.cleared_sto (f : Sf) : (f.cleared).sto = f.sto := rfl
@[simp] theorem Sf.cleared_rdData (f : Sf) : (f.cleared).rdData = f.rdData := rfl
@[simp] theorem Sf.cleared_wrAck (f : Sf) : (f.cleared).wrAck = false := rfl
@[simp] theorem Sf.cleared_wrOvf (f : Sf) : (f.cleared).wrOvf = false := rfl
@[simp] theorem Sf.cleared_rdAck (f : Sf) : (f.cleared).rdAck = false := rfl
@[simp] theorem Sf.cleared_rdUnf (f : Sf) : (f.cleared).rdUnf = false := rfl
@[simp] theorem Sf.cleared_wPort (f : Sf) : (f.cleared).wPort = none := rfl
@[simp] theorem Sf.cleared_rPort (f : Sf) : (f.cleared).rPort = none := rfl

/-! ### Af.shiftW -/

@[simp] theorem Af.shiftW_cfg (k : Nat) (a : Af) : (a.shiftW k).cfg = a.cfg := rfl
@[simp] theorem Af.shiftW_wbin (k : Nat) (a : Af) : (a.shiftW k).wbin = a.wbin := rfl
@[simp] theorem Af.shiftW_wgray (k : Nat) (a : Af) : (a.shiftW k).wgray = a.wgray := rfl
@[simp] theorem Af.shiftW_wrAck (k : Nat) (a : Af) : (a.shiftW k).wrAck = a.wrAck := rfl
@[simp] theorem Af.shiftW_wrOvf (k : Nat) (a : Af) : (a.shiftW k).wrOvf = a.wrOvf := rfl
@[simp] theorem Af.shiftW_wPort (k : Nat) (a : Af) : (a.shiftW k).wPort = a.wPort := rfl
@[simp] theorem Af.shiftW_rbin (k : Nat) (a : Af) : (a.shiftW k).rbin = a.rbin := rfl
@[simp] theorem Af.shiftW_rgray (k : Nat) (a : Af) : (a.shiftW k).rgray = a.rgray := rfl
@[simp] theorem Af.shiftW_rq (k : Nat) (a : Af) : (a.shiftW k).rq = a.rq := rfl
@[simp] theorem Af.shiftW_rdData (k : Nat) (a : Af) : (a.shiftW k).rdData = a.rdData := rfl
@[simp] theorem Af.shiftW_rdAck (k : Nat) (a : Af) : (a.shiftW k).rdAck = a.rdAck := rfl
@[simp] theorem Af.shiftW_rdUnf (k : Nat) (a : Af) : (a.shiftW k).rdUnf = a.rdUnf := rfl
@[simp] theorem Af.shiftW_rPort (k : Nat) (a : Af) : (a.shiftW k).rPort = a.rPort := rfl
@[simp] theorem Af.shiftW_sto (k : Nat) (a : Af) : (a.shiftW k).sto = a.sto := rfl
@[simp] theorem Af.shiftW_arstN (k : Nat) (a : Af) : (a.shiftW k).arstN = a.arstN := rfl
@[simp] theorem Af.shiftW_wLive (k : Nat) (a : Af) : (a.shiftW k).wLive = a.wLive := rfl
@[simp] theorem Af.shiftW_rLive (k : Nat) (a : Af) : (a.shiftW k).rLive = a.rLive := rfl
@[simp] theorem Af.shiftW_wc (k : Nat) (a : Af) : (a.shiftW k).wc = a.wc := rfl
@[simp] theorem Af.shiftW_rc (k : Nat) (a : Af) : (a.shiftW k).rc = a.rc := rfl
@[simp] theorem Af.shiftW_wqc (k : Nat) (a : Af) :
    (a.shiftW k).wqc = shiftIn (sampleCount a.rMoved (a.wqc.headD 0) a.rc k) a.wqc := rfl
@[simp] theorem Af.shiftW_rqc (k : Nat) (a : Af) : (a.shiftW k).rqc = a.rqc := rfl
@[simp] theorem Af.shiftW_rMoved (k : Nat) (a : Af) : (a.shiftW k).rMoved = false := rfl
@[simp] theorem Af.shiftW_wMoved (k : Nat) (a : Af) : (a.shiftW k).wMoved = a.wMoved := rfl

/-! ### Af.shiftR -/

@[simp] theorem Af.shiftR_cfg (k : Nat) (a : Af) : (a.shiftR k).cfg = a.cfg := rfl
@[simp] theorem Af.shiftR_wbin (k : Nat) (a : Af) : (a.shiftR k).wbin = a.wbin := rfl
@[simp] theorem Af.shiftR_wgray (k : Nat) (a : Af) : (a.shiftR k).wgray = a.wgray := rfl
@[simp] theorem Af.shiftR_wq (k : Nat) (a : Af) : (a.shiftR k).wq = a.wq := rfl
@[simp] theorem Af.shiftR_wrAck (k : Nat) (a : Af) : (a.shiftR k).wrAck = a.wrAck := rfl
@[simp] theorem Af.shiftR_wrOvf (k : Nat) (a : Af) : (a.shiftR k).wrOvf = a.wrOvf := rfl
@[simp] theorem Af.shiftR_wPort (k : Nat) (a : Af) : (a.shiftR k).wPort = a.wPort := rfl
@[simp] theorem Af.shiftR_rbin (k : Nat) (a : Af) : (a.shiftR k).rbin = a.rbin := rfl
@[simp] theorem Af.shiftR_rgray (k : Nat) (a : Af) : (a.shiftR k).rgray = a.rgray := rfl
@[simp] theorem Af.shiftR_rdData (k : Nat) (a : Af) : (a.shiftR k).rdData = a.rdData := rfl
@[simp] theorem Af.shiftR_rdAck (k : Nat) (a : Af) : (a.shiftR k).rdAck = a.rdAck := rfl
@[simp] theorem Af.shiftR_rdUnf (k : Nat) (a : Af) : (a.shiftR k).rdUnf = a.rdUnf := rfl
@[simp] theorem Af.shiftR_rPort (k : Nat) (a : Af) : (a.shiftR k).rPort = a.rPort := rfl
@[simp] theorem Af.shiftR_sto (k : Nat) (a : Af) : (a.shiftR k).sto = a.sto := rfl
@[simp] theorem Af.shiftR_arstN (k : Nat) (a : Af) : (a.shiftR k).arstN = a.arstN := rfl
@[simp] theorem Af.shiftR_wLive (k : Nat) (a : Af) : (a.shiftR k).wLive = a.wLive := rfl
@[simp] theorem Af.shiftR_rLive (k : Nat) (a : Af) : (a.shiftR k).rLive = a.rLive := rfl
@[simp] theorem Af.shiftR_wc (k : Nat) (a : Af) : (a.shiftR k).wc = a.wc := rfl
@[simp] theorem Af.shiftR_rc (k : Nat) (a : Af) : (a.shiftR k).rc = a.rc := rfl
@[simp] theorem Af.shiftR_wqc (k : Nat) (a : Af) : (a.shiftR k).wqc = a.wqc := rfl
@[simp] theorem Af.shiftR_rqc (k : Nat) (a : Af) :
    (a.shiftR k).rqc = shiftIn (sampleCount a.wMoved (a.rqc.headD 0) a.wc k) a.rqc := rfl
@[simp] theorem Af.shiftR_rMoved (k : Nat) (a : Af) : (a.shiftR k).rMoved = a.rMoved := rfl
@[simp] theorem Af.shiftR_wMoved (k : Nat) (a : Af) : (a.shiftR k).wMoved = false := rfl

/-! ### Af.assertReset -/

@[simp] theorem Af.assertReset_cfg (a : Af) : (a.assertReset).cfg = a.cfg := rfl
@[simp] theorem Af.assertReset_wbin (a : Af) : (a.assertReset).wbin = 0 := rfl
@[simp] theorem Af.assertReset_wgray (a : Af) : (a.assertReset).wgray = 0 := rfl
@[simp] theorem Af.assertReset_wq (a : Af) :
    (a.assertReset).wq = List.replicate a.cfg.syncN 0 := rfl
@[simp] theorem Af.assertReset_wrAck (a : Af) : (a.assertReset).wrAck = false := rfl
@[simp] theorem Af.assertReset_wrOvf (a : Af) : (a.assertReset).wrOvf = false := rfl
@[simp] theorem Af.assertReset_wPort (a : Af) : (a.assertReset).wPort = none := rfl
@[simp] theorem Af.assertReset_rbin (a : Af) : (a.assertReset).rbin = 0 := rfl
@[simp] theorem Af.assertReset_rgray (a : Af) : (a.assertReset).rgray = 0 := rfl
@[simp] theorem Af.assertReset_rq (a : Af) :
    (a.assertReset).rq = List.replicate a.cfg.syncN 0 := rfl
@[simp] theorem Af.assertReset_rdData (a : Af) : (a.assertReset).rdData = a.rdData := rfl
@[simp] theorem Af.assertReset_rdAck (a : Af) : (a.assertReset).rdAck = false := rfl
@[simp] theorem Af.assertReset_rdUnf (a : Af) : (a.assertReset).rdUnf = false := rfl
@[simp] theorem Af.assertReset_rPort (a : Af) : (a.assertReset).rPort = none := rfl
@[simp] theorem Af.assertReset_sto (a : Af) : (a.assertReset).sto = a.sto := rfl
@[simp] theorem Af.assertReset_arstN (a : Af) : (a.assertReset).arstN = false := rfl
@[simp] theorem Af.assertReset_wLive (a : Af) : (a.assertReset).wLive = false := rfl
@[simp] theorem Af.assertReset_rLive (a : Af) : (a.assertReset).rLive = false := rfl
@[simp] theorem Af.assertReset_wc (a : Af) : (a.assertReset).wc = 0 := rfl
@[simp] theorem Af.assertReset_rc (a : Af) : (a.assertReset).rc = 0 := rfl
@[simp] theorem Af.assertReset_wqc (a : Af) :
    (a.assertReset).wqc = List.replicate a.cfg.syncN 0 := rfl
@[simp] theorem Af.assertReset_rqc (a : Af) :
    (a.assertReset).rqc = List.replicate a.cfg.syncN 0 := rfl
@[simp] theorem Af.assertReset_rMoved (a : Af) : (a.assertReset).rMoved = false := rfl
@[simp] theorem Af.assertReset_wMoved (a : Af) : (a.assertReset).wMoved = false := rfl

/-! ### State.commandTaken -/

@[simp] theorem State.commandTaken_rbc (s : State) :
    (s.commandTaken).rbc = { s.rbc with held := none } := rfl
@[simp] theorem State.commandTaken_sf (s : State) : (s.commandTaken).sf = s.sf := rfl
@[simp] theorem State.commandTaken_af (s : State) : (s.commandTaken).af = s.af := rfl
@[simp] theorem State.commandTaken_script (s : State) : (s.commandTaken).script = s.script := rfl
@[simp] theorem State.commandTaken_pos (s : State) : (s.commandTaken).pos = s.pos + 1 := rfl
@[simp] theorem State.commandTaken_free (s : State) : (s.commandTaken).free = s.free := rfl

/-! ### State.present -/

@[simp] theorem State.present_sf (s : State) (w : PortWord) : (s.present w).sf = s.sf := rfl
@[simp] theorem State.present_af (s : State) (w : PortWord) : (s.present w).af = s.af := rfl
@[simp] theorem State.present_script (s : State) (w : PortWord) :
    (s.present w).script = eventOf w :: s.script := rfl
@[simp] theorem State.present_pos (s : State) (w : PortWord) : (s.present w).pos = s.pos := rfl
@[simp] theorem State.present_free (s : State) (w : PortWord) : (s.present w).free = s.free := rfl

/-! ### Af.wResetEdge: what it never writes -/

@[simp] theorem Af.wResetEdge_cfg (k : Nat) (r : Bool) (a : Af) :
    (a.wResetEdge k r).cfg = a.cfg := by
  unfold Af.wResetEdge; split <;> rfl
@[simp] theorem Af.wResetEdge_wbin (k : Nat) (r : Bool) (a : Af) :
    (a.wResetEdge k r).wbin = a.wbin := by
  unfold Af.wResetEdge; split <;> rfl
@[simp] theorem Af.wResetEdge_wgray (k : Nat) (r : Bool) (a : Af) :
    (a.wResetEdge k r).wgray = a.wgray := by
  unfold Af.wResetEdge; split <;> rfl
@[simp] theorem Af.wResetEdge_wrAck (k : Nat) (r : Bool) (a : Af) :
    (a.wResetEdge k r).wrAck = a.wrAck := by
  unfold Af.wResetEdge; split <;> rfl
@[simp] theorem Af.wResetEdge_wrOvf (k : Nat) (r : Bool) (a : Af) :
    (a.wResetEdge k r).wrOvf = a.wrOvf := by
  unfold Af.wResetEdge; split <;> rfl
@[simp] theorem Af.wResetEdge_rbin (k : Nat) (r : Bool) (a : Af) :
    (a.wResetEdge k r).rbin = a.rbin := by
  unfold Af.wResetEdge; split <;> rfl
@[simp] theorem Af.wResetEdge_rgray (k : Nat) (r : Bool) (a : Af) :
    (a.wResetEdge k r).rgray = a.rgray := by
  unfold Af.wResetEdge; split <;> rfl
@[simp] theorem Af.wResetEdge_rq (k : Nat) (r : Bool) (a : Af) :
    (a.wResetEdge k r).rq = a.rq := by
  unfold Af.wResetEdge; split <;> rfl
@[simp] theorem Af.wResetEdge_rdData (k : Nat) (r : Bool) (a : Af) :
    (a.wResetEdge k r).rdData = a.rdData := by
  unfold Af.wResetEdge; split <;> rfl
@[simp] theorem Af.wResetEdge_rdAck (k : Nat) (r : Bool) (a : Af) :
    (a.wResetEdge k r).rdAck = a.rdAck := by
  unfold Af.wResetEdge; split <;> rfl
@[simp] theorem Af.wResetEdge_rdUnf (k : Nat) (r : Bool) (a : Af) :
    (a.wResetEdge k r).rdUnf = a.rdUnf := by
  unfold Af.wResetEdge; split <;> rfl
@[simp] theorem Af.wResetEdge_rPort (k : Nat) (r : Bool) (a : Af) :
    (a.wResetEdge k r).rPort = a.rPort := by
  unfold Af.wResetEdge; split <;> rfl
@[simp] theorem Af.wResetEdge_sto (k : Nat) (r : Bool) (a : Af) :
    (a.wResetEdge k r).sto = a.sto := by
  unfold Af.wResetEdge; split <;> rfl
@[simp] theorem Af.wResetEdge_arstN (k : Nat) (r : Bool) (a : Af) :
    (a.wResetEdge k r).arstN = a.arstN := by
  unfold Af.wResetEdge; split <;> rfl
@[simp] theorem Af.wResetEdge_rLive (k : Nat) (r : Bool) (a : Af) :
    (a.wResetEdge k r).rLive = a.rLive := by
  unfold Af.wResetEdge; split <;> rfl
@[simp] theorem Af.wResetEdge_wc (k : Nat) (r : Bool) (a : Af) :
    (a.wResetEdge k r).wc = a.wc := by
  unfold Af.wResetEdge; split <;> rfl
@[simp] theorem Af.wResetEdge_rc (k : Nat) (r : Bool) (a : Af) :
    (a.wResetEdge k r).rc = a.rc := by
  unfold Af.wResetEdge; split <;> rfl
@[simp] theorem Af.wResetEdge_rqc (k : Nat) (r : Bool) (a : Af) :
    (a.wResetEdge k r).rqc = a.rqc := by
  unfold Af.wResetEdge; split <;> rfl
@[simp] theorem Af.wResetEdge_wMoved (k : Nat) (r : Bool) (a : Af) :
    (a.wResetEdge k r).wMoved = a.wMoved := by
  unfold Af.wResetEdge; split <;> rfl
@[simp] theorem Af.wResetEdge_wPort (k : Nat) (r : Bool) (a : Af) :
    (a.wResetEdge k r).wPort = none := by
  unfold Af.wResetEdge; split <;> rfl
@[simp] theorem Af.wResetEdge_wLive (k : Nat) (r : Bool) (a : Af) :
    (a.wResetEdge k r).wLive = (a.arstN && r) := by
  unfold Af.wResetEdge; split <;> rename_i h <;> simp [h]

/-! ### Af.rResetEdge: what it never writes -/

@[simp] theorem Af.rResetEdge_cfg (k : Nat) (r : Bool) (a : Af) :
    (a.rResetEdge k r).cfg = a.cfg := by
  unfold Af.rResetEdge; split <;> rfl
@[simp] theorem Af.rResetEdge_wbin (k : Nat) (r : Bool) (a : Af) :
    (a.rResetEdge k r).wbin = a.wbin := by
  unfold Af.rResetEdge; split <;> rfl
@[simp] theorem Af.rResetEdge_wgray (k : Nat) (r : Bool) (a : Af) :
    (a.rResetEdge k r).wgray = a.wgray := by
  unfold Af.rResetEdge; split <;> rfl
@[simp] theorem Af.rResetEdge_wq (k : Nat) (r : Bool) (a : Af) :
    (a.rResetEdge k r).wq = a.wq := by
  unfold Af.rResetEdge; split <;> rfl
@[simp] theorem Af.rResetEdge_wrAck (k : Nat) (r : Bool) (a : Af) :
    (a.rResetEdge k r).wrAck = a.wrAck := by
  unfold Af.rResetEdge; split <;> rfl
@[simp] theorem Af.rResetEdge_wrOvf (k : Nat) (r : Bool) (a : Af) :
    (a.rResetEdge k r).wrOvf = a.wrOvf := by
  unfold Af.rResetEdge; split <;> rfl
@[simp] theorem Af.rResetEdge_wPort (k : Nat) (r : Bool) (a : Af) :
    (a.rResetEdge k r).wPort = a.wPort := by
  unfold Af.rResetEdge; split <;> rfl
@[simp] theorem Af.rResetEdge_rbin (k : Nat) (r : Bool) (a : Af) :
    (a.rResetEdge k r).rbin = a.rbin := by
  unfold Af.rResetEdge; split <;> rfl
@[simp] theorem Af.rResetEdge_rgray (k : Nat) (r : Bool) (a : Af) :
    (a.rResetEdge k r).rgray = a.rgray := by
  unfold Af.rResetEdge; split <;> rfl
@[simp] theorem Af.rResetEdge_rdData (k : Nat) (r : Bool) (a : Af) :
    (a.rResetEdge k r).rdData = a.rdData := by
  unfold Af.rResetEdge; split <;> rfl
@[simp] theorem Af.rResetEdge_rdAck (k : Nat) (r : Bool) (a : Af) :
    (a.rResetEdge k r).rdAck = a.rdAck := by
  unfold Af.rResetEdge; split <;> rfl
@[simp] theorem Af.rResetEdge_rdUnf (k : Nat) (r : Bool) (a : Af) :
    (a.rResetEdge k r).rdUnf = a.rdUnf := by
  unfold Af.rResetEdge; split <;> rfl
@[simp] theorem Af.rResetEdge_sto (k : Nat) (r : Bool) (a : Af) :
    (a.rResetEdge k r).sto = a.sto := by
  unfold Af.rResetEdge; split <;> rfl
@[simp] theorem Af.rResetEdge_arstN (k : Nat) (r : Bool) (a : Af) :
    (a.rResetEdge k r).arstN = a.arstN := by
  unfold Af.rResetEdge; split <;> rfl
@[simp] theorem Af.rResetEdge_wLive (k : Nat) (r : Bool) (a : Af) :
    (a.rResetEdge k r).wLive = a.wLive := by
  unfold Af.rResetEdge; split <;> rfl
@[simp] theorem Af.rResetEdge_wc (k : Nat) (r : Bool) (a : Af) :
    (a.rResetEdge k r).wc = a.wc := by
  unfold Af.rResetEdge; split <;> rfl
@[simp] theorem Af.rResetEdge_rc (k : Nat) (r : Bool) (a : Af) :
    (a.rResetEdge k r).rc = a.rc := by
  unfold Af.rResetEdge; split <;> rfl
@[simp] theorem Af.rResetEdge_wqc (k : Nat) (r : Bool) (a : Af) :
    (a.rResetEdge k r).wqc = a.wqc := by
  unfold Af.rResetEdge; split <;> rfl
@[simp] theorem Af.rResetEdge_rMoved (k : Nat) (r : Bool) (a : Af) :
    (a.rResetEdge k r).rMoved = a.rMoved := by
  unfold Af.rResetEdge; split <;> rfl
@[simp] theorem Af.rResetEdge_rPort (k : Nat) (r : Bool) (a : Af) :
    (a.rResetEdge k r).rPort = none := by
  unfold Af.rResetEdge; split <;> rfl
@[simp] theorem Af.rResetEdge_rLive (k : Nat) (r : Bool) (a : Af) :
    (a.rResetEdge k r).rLive = (a.arstN && r) := by
  unfold Af.rResetEdge; split <;> rename_i h <;> simp [h]

end Sys2Proof.Machine
end

