-- ==== Sys2Proof/Laws/Ops.lean ====
section
/-! SUPPORT. One lemma per shared operation, saying once everything it can do. -/

namespace Sys2Proof.Machine

/-! ## The frames instructions run in -/

theorem Phase.isIdle_iff (f : Phase) : f.isIdle = true ↔ f = .idle := by
  cases f <;> simp [Phase.isIdle]

/-- R17: a block answers a next state only where its elaboration is legal. -/
theorem legally_next {α : Type} {c : Option Refusal} {o : Host.Outcome α Fault Refusal} {t : α} :
    legally c o = .next t ↔ c = none ∧ o = .next t := by
  cases c <;> simp [legally]

@[simp] theorem legally_some {α : Type} (r : Refusal) (o : Host.Outcome α Fault Refusal) :
    legally (some r) o = .refused r := rfl

@[simp] theorem legally_none {α : Type} (o : Host.Outcome α Fault Refusal) :
    legally none o = o := rfl

/-- A transaction answers a next state exactly when its command does, in `IDLE`, on a legal
elaboration. -/
theorem transact_next {s t : State} {f : Rbc → Except Fault (Rbc × Response)} :
    transact s f = .next t ↔
      checkRbc s.rbc.cfg = none ∧ s.rbc.phase = .idle ∧
        ∃ b r, f s.rbc = .ok (b, r) ∧ t = { s with rbc := b.respond r } := by
  unfold transact
  rw [legally_next]
  constructor
  · rintro ⟨hc, h⟩
    split at h
    · rename_i hi
      split at h
      · simp at h
      · rename_i b r hf
        exact ⟨hc, (Phase.isIdle_iff _).1 hi, b, r, hf, (Host.Outcome.next.inj h).symm⟩
    · simp at h
  · rintro ⟨hc, hi, b, r, hf, rfl⟩
    simp [hc, hi, Phase.isIdle, hf]

theorem transact_fault {s : State} {f : Rbc → Except Fault (Rbc × Response)} {e : Fault}
    (h : transact s f = .fault e) : f s.rbc = .error e := by
  unfold transact at h
  cases hc : checkRbc s.rbc.cfg with
  | some r => simp [hc] at h
  | none =>
    rw [hc, legally_none] at h
    split at h
    · split at h
      · rename_i e' he
        rw [he]
        exact congrArg _ (Host.Outcome.fault.inj h)
      · simp at h
    · simp at h

/-- A transaction is refused only for the elaboration or for a command in progress. -/
theorem transact_refused {s : State} {f : Rbc → Except Fault (Rbc × Response)} {r : Refusal}
    (h : transact s f = .refused r) : checkRbc s.rbc.cfg = some r ∨
      (r = .commandWhileBusy ∧ s.rbc.phase ≠ .idle) := by
  unfold transact at h
  cases hc : checkRbc s.rbc.cfg with
  | some r' =>
    rw [hc, legally_some] at h
    exact .inl (congrArg _ (Host.Outcome.refused.inj h))
  | none =>
    rw [hc, legally_none] at h
    split at h
    · split at h <;> simp at h
    · rename_i hi
      exact .inr ⟨(Host.Outcome.refused.inj h).symm, fun hp => hi ((Phase.isIdle_iff _).2 hp)⟩

theorem onSf_next {s t : State} {f : Sf → Except Fault Sf} :
    onSf s f = .next t ↔
      checkSf s.sf.cfg = none ∧ ∃ g, f s.sf = .ok g ∧ t = { s with sf := g } := by
  unfold onSf
  rw [legally_next]
  constructor
  · rintro ⟨hc, h⟩
    split at h
    · simp at h
    · rename_i g hf
      exact ⟨hc, g, hf, (Host.Outcome.next.inj h).symm⟩
  · rintro ⟨hc, g, hf, rfl⟩
    simp [hc, hf]

theorem onAf_next {s t : State} {f : Nat → Bool → Af → Except Fault Af} :
    onAf s f = .next t ↔
      checkAf s.af.cfg = none ∧
        ∃ a, f (Config.freeSample s.free) (Config.freeRelease s.free) s.af = .ok a ∧
          t = { s with af := a, free := s.free + 1 } := by
  unfold onAf
  rw [legally_next]
  constructor
  · rintro ⟨hc, h⟩
    split at h
    · simp at h
    · rename_i a hf
      exact ⟨hc, a, hf, (Host.Outcome.next.inj h).symm⟩
  · rintro ⟨hc, a, hf, rfl⟩
    simp [hc, hf]

/-! ## One-object steps -/

theorem Rbc.writeOne_ok {b b' : Rbc} {d : Nat} (h : b.writeOne d = .ok b') :
    ∃ m, memWrite b.cfg b.sto b.tail d = .ok m ∧
      b' = { b with sto := m, tail := adv b.cfg b.tail } := by
  unfold Rbc.writeOne writeSlot at h
  split at h
  · simp at h
  · rename_i m hm
    exact ⟨m, hm, (Except.ok.inj h).symm⟩

theorem Rbc.writeOne_of_lt {b : Rbc} (d : Nat) (h : b.tail < b.cfg.c) :
    b.writeOne d = .ok { b with sto := writeBytes b.sto (slotAddr b.cfg b.tail) d b.cfg.s
                                tail := adv b.cfg b.tail } := by
  simp [Rbc.writeOne, writeSlot, memWrite_of_lt _ _ h]

theorem Rbc.takeOne_ok {b b' : Rbc} {x : Nat × Nat} (h : b.takeOne = .ok (x, b')) :
    b.head < b.cfg.c ∧ x.1 = b.head ∧ slotObj b.cfg b.sto b.head = some x.2 ∧ b' = b.dropOne := by
  unfold Rbc.takeOne at h
  split at h
  · simp at h
  · rename_i d hd
    obtain ⟨rfl, rfl⟩ := Prod.mk.inj (Except.ok.inj h)
    exact ⟨(memRead_ok hd).1, rfl, (memRead_ok hd).2, rfl⟩

theorem Rbc.takeOne_of_slotObj {b : Rbc} {d : Nat} (hh : b.head < b.cfg.c)
    (hd : slotObj b.cfg b.sto b.head = some d) : b.takeOne = .ok ((b.head, d), b.dropOne) := by
  simp [Rbc.takeOne, memRead_of_slotObj hh hd]

theorem Af.pushOne_ok {a a' : Af} {d : Nat} (h : a.pushOne d = .ok a') :
    ∃ m, memWrite a.cfg a.sto a.wbin d = .ok m ∧
      a' = { a with sto := m, wbin := adv a.cfg a.wbin, wgray := gray (adv a.cfg a.wbin)
                    wc := a.wc + 1, wMoved := true } := by
  unfold Af.pushOne writeSlot at h
  split at h
  · simp at h
  · rename_i m hm
    exact ⟨m, hm, (Except.ok.inj h).symm⟩

theorem Af.popOne_ok {a a' : Af} (h : a.popOne = .ok a') :
    ∃ d, memRead a.cfg a.sto a.rbin = .ok d ∧
      a' = { a with rdData := d, rbin := adv a.cfg a.rbin, rgray := gray (adv a.cfg a.rbin)
                    rc := a.rc + 1, rMoved := true } := by
  unfold Af.popOne at h
  split at h
  · simp at h
  · rename_i d hd
    exact ⟨d, hd, (Except.ok.inj h).symm⟩

/-! ## Answers -/

@[simp] theorem dataBeats_nil (j : Nat) : dataBeats j [] = [] := rfl

@[simp] theorem length_dataBeats (j : Nat) (xs : List (Nat × Nat)) :
    (dataBeats j xs).length = xs.length := by
  induction xs generalizing j with
  | nil => rfl
  | cons x xs ih => simp [dataBeats, ih]

@[simp] theorem answer_toBeats (st : Status) (k : Nat) :
    (answer st k).toBeats = [⟨true, st, k, none, none⟩] := rfl

@[simp] theorem answer_final (st : Status) (k : Nat) :
    (answer st k).final = ⟨true, st, k, none, none⟩ := rfl

@[simp] theorem answerObject_toBeats (k slot d : Nat) :
    (answerObject k slot d).toBeats = [⟨true, .ok, k, some slot, some d⟩] := rfl

@[simp] theorem answerObject_final (k slot d : Nat) :
    (answerObject k slot d).final = ⟨true, .ok, k, some slot, some d⟩ := rfl

/-! ## Storage ports (R207, R208) -/

@[simp] theorem portWrite_true (slot d : Nat) : portWrite true slot d = some (.write slot d) := rfl
@[simp] theorem portWrite_false (slot d : Nat) : portWrite false slot d = none := rfl
@[simp] theorem portRead_true (slot : Nat) : portRead true slot = some (.read slot) := rfl
@[simp] theorem portRead_false (slot : Nat) : portRead false slot = none := rfl

/-- R208: `sto_we` and `sto_re` are never 1 together. -/
theorem StoPort.not_both (q : StoPort) : ¬(q.we = true ∧ q.re = true) := by
  rcases q with _ | _ | _ <;> simp [StoPort.we, StoPort.re]

@[simp] theorem StoPort.we_portWrite (x : Bool) (slot d : Nat) : (portWrite x slot d).we = x := by
  cases x <;> rfl
@[simp] theorem StoPort.re_portWrite (x : Bool) (slot d : Nat) :
    (portWrite x slot d).re = false := by cases x <;> rfl
@[simp] theorem StoPort.we_portRead (x : Bool) (slot : Nat) : (portRead x slot).we = false := by
  cases x <;> rfl
@[simp] theorem StoPort.re_portRead (x : Bool) (slot : Nat) : (portRead x slot).re = x := by
  cases x <;> rfl

/-! ## Synchronisers -/

/-- R1202, R930: an edge of a domain in reset shifts its synchroniser while `arst_n` is 1. -/
theorem Af.wResetEdge_shifts {a : Af} (h : a.arstN = true) (draw : Nat) (release : Bool) :
    a.wResetEdge draw release = Af.shiftW draw { a with wLive := release, wPort := none } := by
  simp [Af.wResetEdge, h]

theorem Af.rResetEdge_shifts {a : Af} (h : a.arstN = true) (draw : Nat) (release : Bool) :
    a.rResetEdge draw release = Af.shiftR draw { a with rLive := release, rPort := none } := by
  simp [Af.rResetEdge, h]

theorem Af.wResetEdge_held {a : Af} (h : a.arstN = false) (draw : Nat) (release : Bool) :
    a.wResetEdge draw release = { a with wLive := false, wPort := none } := by
  simp [Af.wResetEdge, h]

theorem Af.rResetEdge_held {a : Af} (h : a.arstN = false) (draw : Nat) (release : Bool) :
    a.rResetEdge draw release = { a with rLive := false, rPort := none } := by
  simp [Af.rResetEdge, h]

@[simp] theorem length_shiftIn (x : Nat) (q : List Nat) :
    (shiftIn x q).length = q.length - 1 + 1 := by
  simp [shiftIn]

theorem sampleCount_steady (seen now draw : Nat) : sampleCount false seen now draw = now := rfl

/-- A shifted chain holds the captured value and the stages before the last. -/
theorem mem_shiftIn {x y : Nat} {q : List Nat} (h : y ∈ shiftIn x q) : y = x ∨ y ∈ q := by
  rcases List.mem_cons.1 h with h | h
  · exact .inl h
  · exact .inr (List.mem_of_mem_dropLast h)

end Sys2Proof.Machine
end

