-- ==== Sys2Proof/Laws/Loops.lean ====
section
/-! SUPPORT. What the loops of 42_rbc_transfer.md come to, and what an edge of SF and of AF can do. -/

namespace Sys2Proof.Machine

/-! ## The comparators as occupancies -/

theorem isEmpty_eq_occ {p : Config} (h : checkShared p = none) {head tail : Nat} (hh : head < p.c)
    (ht : tail < p.c) : isEmpty head tail = decide (occ p head tail = 0) := by
  obtain ⟨-, hc, -⟩ := checkShared_spec h
  unfold isEmpty
  rw [occ_eq_ite hh ht]
  congr 1
  apply propext
  split_ifs <;> omega

theorem isFull_eq_occ {p : Config} (h : checkShared p = none) {head tail : Nat} (hh : head < p.c)
    (ht : tail < p.c) : isFull p head tail = decide (occ p head tail = p.c - 1) := by
  obtain ⟨-, hc, -⟩ := checkShared_spec h
  unfold isFull
  rw [occ_eq_ite hh ht, adv_eq_ite h ht]
  congr 1
  apply propext
  split_ifs <;> omega

/-! ## Removing -/

/-- `n` removals move `head` by `min(n, occ)`. -/
theorem dropUntilEmpty_eq {b : Rbc} (h : checkShared b.cfg = none) (hh : b.head < b.cfg.c)
    (ht : b.tail < b.cfg.c) (n : Nat) :
    dropUntilEmpty n b =
      ({ b with head := addk b.cfg b.head (min n (occ b.cfg b.head b.tail)) },
        min n (occ b.cfg b.head b.tail)) := by
  induction n generalizing b with
  | zero => simp [dropUntilEmpty, addk_zero h hh]
  | succ n ih =>
    unfold dropUntilEmpty
    split
    · rename_i he
      rw [isEmpty_eq_occ h hh ht, decide_eq_true_eq] at he
      simp [he, addk_zero h hh]
    · rename_i he
      have ho := occ_adv_head h hh ht (Bool.eq_false_of_not_eq_true he)
      have := ih (b := b.dropOne) h (adv_lt h _) ht
      simp only [Rbc.dropOne_cfg, Rbc.dropOne_head, Rbc.dropOne_tail] at this
      rw [this]
      rw [← ho, Nat.succ_min_succ, addk_adv h]
      rfl

/-- The loop that stops at empty is the guarded loop over what there is. -/
theorem takeUntilEmpty_eq {b : Rbc} (h : checkShared b.cfg = none) (hh : b.head < b.cfg.c)
    (ht : b.tail < b.cfg.c) (n : Nat) :
    takeUntilEmpty n b = takeEach (min n (occ b.cfg b.head b.tail)) b := by
  induction n generalizing b with
  | zero => simp [takeUntilEmpty, takeEach]
  | succ n ih =>
    unfold takeUntilEmpty
    split
    · rename_i he
      rw [isEmpty_eq_occ h hh ht, decide_eq_true_eq] at he
      simp [he, takeEach]
    · rename_i he
      have ho := occ_adv_head h hh ht (Bool.eq_false_of_not_eq_true he)
      rw [← ho, Nat.succ_min_succ, takeEach]
      split
      · rfl
      · rename_i x b₁ hx
        obtain ⟨-, -, -, rfl⟩ := Rbc.takeOne_ok hx
        rw [ih (b := b.dropOne) h (adv_lt h _) ht]
        rfl

/-- Taking `n` objects, when each of their slots holds one: `head` moves by `n`, and the objects come
in order, each with its slot. -/
theorem takeEach_of_slots {b : Rbc} (h : checkShared b.cfg = none) (hh : b.head < b.cfg.c)
    (xs : List Nat)
    (hx : ∀ j, j < xs.length → slotObj b.cfg b.sto (addk b.cfg b.head j) = xs[j]?) :
    takeEach xs.length b =
      .ok ({ b with head := addk b.cfg b.head xs.length },
        (List.range xs.length).zipWith (fun j x => (addk b.cfg b.head j, x)) xs) := by
  induction xs generalizing b with
  | nil => simp [takeEach, addk_zero h hh]
  | cons x xs ih =>
    have h0 := hx 0 (by simp)
    rw [addk_zero h hh] at h0
    have := ih (b := b.dropOne) h (adv_lt h _) fun j hj => by
      have := hx (j + 1) (by simpa using hj)
      simpa [addk_adv h] using this
    simp only [List.length_cons, takeEach, Rbc.takeOne_of_slotObj hh (by simpa using h0), this]
    simp [Rbc.dropOne, addk_adv h, List.range_succ_eq_map, List.zipWith_map_left, addk_zero h hh]

/-- What an answered `takeEach` says of the slots it read. -/
theorem takeEach_ok {b b' : Rbc} {n : Nat} {ys : List (Nat × Nat)} (h : checkShared b.cfg = none)
    (hh : b.head < b.cfg.c) (ho : takeEach n b = .ok (b', ys)) :
    b' = { b with head := addk b.cfg b.head n } ∧ ys.length = n ∧
      ∀ j, j < n → ∃ d, ys[j]? = some (addk b.cfg b.head j, d) ∧
        slotObj b.cfg b.sto (addk b.cfg b.head j) = some d := by
  induction n generalizing b b' ys with
  | zero =>
    simp only [takeEach, Except.ok.injEq, Prod.mk.injEq] at ho
    obtain ⟨rfl, rfl⟩ := ho
    simp [addk_zero h hh]
  | succ n ih =>
    unfold takeEach at ho
    split at ho
    · simp at ho
    · rename_i x b₁ hx
      obtain ⟨-, hs, hd, rfl⟩ := Rbc.takeOne_ok hx
      split at ho
      · simp at ho
      · rename_i b₂ zs hz
        simp only [Except.ok.injEq, Prod.mk.injEq] at ho
        obtain ⟨rfl, rfl⟩ := ho
        obtain ⟨rfl, hl, hj⟩ := ih (b := b.dropOne) h (adv_lt h _) hz
        refine ⟨by simp [Rbc.dropOne, addk_adv h], by simp [hl], fun j hjn => ?_⟩
        cases j with
        | zero => exact ⟨x.2, by rw [addk_zero h hh, ← hs]; rfl, by rw [addk_zero h hh]; exact hd⟩
        | succ j =>
          obtain ⟨d, h1, h2⟩ := hj j (by omega)
          simp only [Rbc.dropOne_cfg, Rbc.dropOne_head, Rbc.dropOne_sto, addk_adv h] at h1 h2
          exact ⟨d, by simpa using h1, h2⟩

/-! ## Writing -/

/-- The loop that stops at full writes what fits, and counts it. -/
theorem writeUntilFull_eq {b : Rbc} (h : checkShared b.cfg = none) (hh : b.head < b.cfg.c)
    (ht : b.tail < b.cfg.c) (ds : List Nat) :
    writeUntilFull ds b =
      match writeEach (ds.take (freeSlots b.cfg b.head b.tail)) b with
      | .error e => .error e
      | .ok b' => .ok (b', min ds.length (freeSlots b.cfg b.head b.tail)) := by
  induction ds generalizing b with
  | nil => simp [writeUntilFull, writeEach]
  | cons d ds ih =>
    unfold writeUntilFull
    have hlt := occ_lt h b.head b.tail
    split
    · rename_i hf
      rw [isFull_eq_occ h hh ht, decide_eq_true_eq] at hf
      simp [freeSlots, hf, writeEach]
    · rename_i hf
      have ho := occ_adv_tail h hh ht (Bool.eq_false_of_not_eq_true hf)
      rw [isFull_eq_occ h hh ht, decide_eq_true_eq] at hf
      obtain ⟨k, hk⟩ : ∃ k, freeSlots b.cfg b.head b.tail = k + 1 :=
        ⟨b.cfg.c - 1 - occ b.cfg b.head b.tail - 1, by unfold freeSlots; omega⟩
      rw [hk, List.take_succ_cons, writeEach, Rbc.writeOne_of_lt d ht]
      have hk' : freeSlots b.cfg b.head (adv b.cfg b.tail) = k := by
        unfold freeSlots at hk ⊢
        omega
      have := ih (b := { b with sto := writeBytes b.sto (slotAddr b.cfg b.tail) d b.cfg.s
                                tail := adv b.cfg b.tail }) h hh (adv_lt h _)
      simp only [hk'] at this
      simp only [this, List.length_cons, Nat.succ_min_succ]
      split <;> rename_i hx <;> split at hx <;> simp_all

/-- Writing a list of objects, fewer than the slots: `tail` moves by their number, each lies in its
slot, and every byte outside those slots reads as before. -/
theorem writeEach_ok {b : Rbc} (h : checkShared b.cfg = none) (ht : b.tail < b.cfg.c)
    (ds : List Nat) (hd : ∀ d ∈ ds, d < 2 ^ (8 * b.cfg.s)) (hn : ds.length < b.cfg.c) :
    ∃ m, writeEach ds b = .ok { b with sto := m, tail := addk b.cfg b.tail ds.length } ∧
      (Memory.wf b.sto → Memory.wf m) ∧
      (∀ j, j < ds.length → slotObj b.cfg m (addk b.cfg b.tail j) = ds[j]?) ∧
      ∀ slot, (∀ j, j < ds.length → slot ≠ addk b.cfg b.tail j) →
        slotObj b.cfg m slot = slotObj b.cfg b.sto slot := by
  induction ds generalizing b with
  | nil => exact ⟨b.sto, by simp [writeEach, addk_zero h ht], id, by simp, fun _ _ => rfl⟩
  | cons d ds ih =>
    have hw := memWrite_of_lt b.sto d ht
    obtain ⟨m, hm, hwf, hin, hout⟩ := ih
      (b := { b with sto := writeBytes b.sto (slotAddr b.cfg b.tail) d b.cfg.s
                     tail := adv b.cfg b.tail }) h (adv_lt h _)
      (fun x hx => hd x (List.mem_cons_of_mem _ hx))
      (show ds.length < b.cfg.c by simp at hn; omega)
    simp only [addk_adv h] at hm hin hout
    refine ⟨m, by simp [writeEach, Rbc.writeOne_of_lt d ht, hm], fun hb => hwf (writeBytes_wf hb _ _ _),
      fun j hj => ?_, fun slot hs => ?_⟩
    · cases j with
      | zero =>
        rw [hout _ fun j hj he => ?_, addk_zero h ht]
        · simpa using slotObj_write_same hw (hd d (by simp))
        · have := addk_injective h ht (by omega) (by simp at hn; omega) he
          omega
      | succ j => simpa using hin j (by simpa using hj)
    · rw [hout slot fun j hj => hs (j + 1) (by simpa using hj)]
      exact slotObj_write_other hw (by have := hs 0 (by simp); rwa [addk_zero h ht] at this)

/-! ## Edges of SF and AF -/

/-- An answered SF edge: a push and a pop as R811 judges them, and nothing else. -/
theorem Sf.edge_ok {f g : Sf} {wr rd : Bool} {d : Nat} (h : f.edge wr rd d = .ok g) :
    ∃ m o,
      (if rd && !isEmpty f.head f.tail then memRead f.cfg f.sto f.head = .ok o else o = f.rdData) ∧
      (if wr && !isFull f.cfg f.head f.tail then memWrite f.cfg f.sto f.tail d = .ok m
        else m = f.sto) ∧
      g.cfg = f.cfg ∧ g.sto = m ∧ g.rdData = o ∧
      g.head = (if rd && !isEmpty f.head f.tail then adv f.cfg f.head else f.head) ∧
      g.tail = (if wr && !isFull f.cfg f.head f.tail then adv f.cfg f.tail else f.tail) ∧
      g.wrAck = (wr && !isFull f.cfg f.head f.tail) ∧
      g.wrOvf = (wr && isFull f.cfg f.head f.tail) ∧
      g.rdAck = (rd && !isEmpty f.head f.tail) ∧ g.rdUnf = (rd && isEmpty f.head f.tail) ∧
      g.wPort = portWrite (wr && !isFull f.cfg f.head f.tail) f.tail d ∧
      g.rPort = portRead (rd && !isEmpty f.head f.tail) f.head := by
  unfold Sf.edge writeSlot at h
  simp only at h
  split at h
  · simp at h
  · simp at h
  · rename_i o m ho hm
    obtain rfl := Except.ok.inj h
    refine ⟨m, o, ?_, ?_, rfl, rfl, rfl, rfl, rfl, rfl, rfl, rfl, rfl, rfl, rfl⟩
    · split at ho <;> simp_all
    · split at hm <;> simp_all

/-- An answered edge of a live write domain: a push or a refusal, then the shift. -/
theorem Af.wEdge_ok {a a' : Af} {winc : Bool} {d draw : Nat} (h : a.wEdge winc d draw = .ok a') :
    ∃ a₁, (if winc && !a.fullW then a.pushOne d = .ok a₁ else a₁ = a) ∧
      a' = Af.shiftW draw { a₁ with wrAck := winc && !a.fullW, wrOvf := winc && a.fullW
                                    wPort := portWrite (winc && !a.fullW) a.wbin d } := by
  unfold Af.wEdge writeSlot at h
  simp only at h
  split at h
  · simp at h
  · rename_i a₁ h₁
    refine ⟨a₁, ?_, (Except.ok.inj h).symm⟩
    split at h₁ <;> simp_all

/-- An answered edge of a live read domain: a pop or a refusal, then the shift. -/
theorem Af.rEdge_ok {a a' : Af} {rinc : Bool} {draw : Nat} (h : a.rEdge rinc draw = .ok a') :
    ∃ a₁, (if rinc && !a.emptyR then a.popOne = .ok a₁ else a₁ = a) ∧
      a' = Af.shiftR draw { a₁ with rdAck := rinc && !a.emptyR, rdUnf := rinc && a.emptyR
                                    rPort := portRead (rinc && !a.emptyR) a.rbin } := by
  unfold Af.rEdge at h
  simp only at h
  split at h
  · simp at h
  · rename_i a₁ h₁
    refine ⟨a₁, ?_, (Except.ok.inj h).symm⟩
    split at h₁ <;> simp_all

end Sys2Proof.Machine
end

