-- ==== Sys2Proof/Laws/Cycle.lean ====
section
/-! SUPPORT. What an edge of the RBC's clock can do (30_encoding.md R340 to R345, R1200), and what a
step can do. -/

namespace Sys2Proof.Machine

/-- An answered edge is that of a legal block, a held beat and fitting pins: a reset edge, or one of
the protocol. -/
theorem Rbc.clkEdge_next {b b' : Rbc} {rst valid : Bool} {pace : Pace} {beat : CmdBeat} :
    b.clkEdge rst valid beat pace = .next b' ↔
      checkRbc b.cfg = none ∧ b.holdsBeat valid beat = true ∧
        (valid = true → beat.hdr < 2 ^ (b.cfg.nw + 4) ∧ objFits b.cfg beat.data = true) ∧
        if rst then b' = (b.startEdge valid false beat).resetEdge
        else b.runEdge valid beat pace = .next b' := by
  unfold Rbc.clkEdge
  cases hc : checkRbc b.cfg with
  | some r => simp
  | none =>
    cases hb : b.holdsBeat valid beat with
    | false => simp
    | true =>
      cases valid <;> cases rst <;>
        by_cases hw : beat.hdr < 2 ^ (b.cfg.nw + 4) <;>
        cases hd : objFits b.cfg beat.data <;>
        simp [hw, Rbc.cmdReady, eq_comm]

/-- R341: an edge in `IDLE` or `WDATA` that accepts no beat writes no register of the block but the
response port, the storage port and the count of cycles waited. -/
theorem Rbc.runEdge_unaccepted {b : Rbc} {valid : Bool} {beat : CmdBeat} {pace : Pace}
    (hp : ∀ job, b.phase ≠ .exec job)
    (hn : valid = false ∨ b.cmdReady false pace.stall = false) :
    ∃ w, b.runEdge valid beat pace = .next { b with
      rsp := none, port := none, waited := w, held := if valid then some beat else none } := by
  unfold Rbc.runEdge
  split
  · rename_i hi
    cases valid with
    | false => exact ⟨b.waited, by simp [Rbc.startEdge]⟩
    | true => simp [Rbc.cmdReady, hi] at hn
  · cases hr : b.cmdReady false pace.stall with
    | false => exact ⟨b.waited + 1, by simp [Rbc.startEdge]⟩
    | true =>
      obtain rfl := hn.resolve_right (by simp [hr])
      exact ⟨0, by simp [Rbc.startEdge]⟩
  · rename_i job he
    exact absurd he (hp job)

theorem rbcClock_next {s t : State} {rst valid : Bool} {beat : CmdBeat} :
    rbcClock rst valid beat s = .next t ↔
      ∃ b, s.rbc.clkEdge rst valid beat s.pace = .next b ∧
        t = { s with rbc := b, free := s.free + 1
                     pos := if !rst && valid && s.rbc.phase.isIdle then s.pos + 1 else s.pos } := by
  unfold rbcClock
  constructor
  · intro h
    split at h
    · simp at h
    · simp at h
    · rename_i b hb
      exact ⟨b, hb, (Host.Outcome.next.inj h).symm⟩
  · rintro ⟨b, hb, rfl⟩
    rw [hb]

/-- A data beat below `k` is one object written at `tail`; a later one writes nothing. -/
theorem Rbc.acceptData_ok {b b' : Rbc} {d n k i : Nat} {op : Opcode}
    (h : b.acceptData d op n k i = .ok b') :
    (i < k ∧ ∃ b₁, b.writeOne d = .ok b₁ ∧
      b' = { b₁ with phase := afterBeat op n k i, waited := 0, port := some (.write b.tail d) }) ∨
    (k ≤ i ∧ b' = { b with phase := afterBeat op n k i, waited := 0 }) := by
  unfold Rbc.acceptData writeSlot at h
  split at h
  · rename_i hi
    split at h
    · simp at h
    · rename_i b₁ hb
      exact .inl ⟨hi, b₁, hb, (Except.ok.inj h).symm⟩
  · exact .inr ⟨by omega, (Except.ok.inj h).symm⟩

/-- An access of a command in `EXEC`: a read at `head`, PEEK_NTH's read, a write at `tail`, or none by
a command that makes none. -/
theorem Rbc.access_ok {b b' : Rbc} {job : Job} (h : b.access job = .ok b') :
    ((job.op = .readObj ∨ isBulkRead job.op = true) ∧ ∃ x, b.takeOne = .ok (x, b.dropOne) ∧
      b' = { b.dropOne with port := some (.read x.1)
                            phase := .exec (job.awaiting b.cfg x.1 x.2) }) ∨
    (job.op = .peekNth ∧
      ∃ d, memRead b.cfg b.sto (addk b.cfg b.head (job.n % occ b.cfg b.head b.tail)) = .ok d ∧
        b' = { b with
          port := some (.read (addk b.cfg b.head (job.n % occ b.cfg b.head b.tail)))
          phase := .exec (job.awaiting b.cfg
            (addk b.cfg b.head (job.n % occ b.cfg b.head b.tail)) d) }) ∨
    (job.op = .writeObj ∧ ∃ b₁, b.writeOne job.data = .ok b₁ ∧
      b' = { b₁ with port := some (.write b.tail job.data)
                     phase := .exec { job with issued := job.issued + 1 } }) ∨
    (b.accessesLeft job = 0 ∧ b' = b) := by
  obtain ⟨op, n, data, k, issued, sent, flight, cycles⟩ := job
  cases op
  case readObj | readN | readAll =>
    simp only [Rbc.access] at h
    split at h
    · simp at h
    · rename_i x b₁ hx
      obtain ⟨-, -, -, rfl⟩ := Rbc.takeOne_ok hx
      exact .inl ⟨by simp [isBulkRead], x, hx, (Except.ok.inj h).symm⟩
  case peekNth =>
    simp only [Rbc.access, readSlot] at h
    split at h
    · simp at h
    · rename_i d hd
      exact .inr (.inl ⟨rfl, d, hd, (Except.ok.inj h).symm⟩)
  case writeObj =>
    simp only [Rbc.access, writeSlot] at h
    split at h
    · simp at h
    · rename_i b₁ hb
      exact .inr (.inr (.inl ⟨rfl, b₁, hb, (Except.ok.inj h).symm⟩))
  all_goals exact .inr (.inr (.inr ⟨rfl, (Except.ok.inj h).symm⟩))

/-- The final beat: the answer of the last step, sent with the phase back in `IDLE`. -/
theorem Rbc.finish_ok {b b' : Rbc} {job : Job} (h : b.finish job = .ok b') :
    ∃ b₁ r, b.lastStep job = .ok (b₁, r) ∧
      b' = Rbc.send { b₁ with phase := .idle, port := b.lastWrite job } r.final := by
  unfold Rbc.finish at h
  split at h
  · simp at h
  · rename_i b₁ r hl
    exact ⟨b₁, r, hl, (Except.ok.inj h).symm⟩

/-- At most one data beat, that of the oldest read, once its object has arrived. -/
theorem Rbc.sendData_eq (b : Rbc) (send : Bool) (job : Job) :
    b.sendData send job = (job, b) ∨
    (send = true ∧ isBulkRead job.op = true ∧ ∃ r rest, job.flight = r :: rest ∧ r.left ≤ 1 ∧
      b.sendData send job = ({ job with sent := job.sent + 1, flight := rest },
        b.send (dataBeat job.sent (r.slot, r.obj)))) := by
  unfold Rbc.sendData
  split
  · rename_i hs
    simp only [Bool.and_eq_true] at hs
    obtain ⟨hs, hd⟩ := hs
    cases hq : job.flight with
    | nil => exact .inl rfl
    | cons r rest =>
      simp only [Job.dataReady, hq, Bool.and_eq_true, decide_eq_true_eq] at hd
      exact .inr ⟨hs, hd.1, r, rest, rfl, hd.2, rfl⟩
  · exact .inl rfl

/-- An edge in `EXEC` at a given pace: the final beat; or at most one data beat, and then an access or
none. -/
theorem Rbc.execMove_ok {b b' : Rbc} {issue send : Bool} {job : Job}
    (h : b.execMove issue send job = .ok b') :
    (send = true ∧ b.lastReady job = true ∧ b.finish job = .ok b') ∨
    (0 < b.accessesLeft job ∧
      (b.sendData send job).2.access (b.sendData send job).1.tick = .ok b') ∨
    b' = { (b.sendData send job).2 with phase := .exec (b.sendData send job).1.tick } := by
  unfold Rbc.execMove at h
  split at h
  · rename_i hf
    simp only [Bool.and_eq_true] at hf
    exact .inl ⟨hf.1, hf.2, h⟩
  · dsimp only at h
    split at h
    · rename_i hi
      simp only [Bool.and_eq_true, decide_eq_true_eq] at hi
      exact .inr (.inl ⟨hi.2, h⟩)
    · exact .inr (.inr (Except.ok.inj h).symm)

/-- An edge in `EXEC` is a move at the drawn pace or at full speed. -/
theorem Rbc.execEdge_ok {b b' : Rbc} {pace : Pace} {job : Job} (h : b.execEdge pace job = .ok b') :
    (b.execMove pace.issue pace.send job = .ok b' ∧ b'.inTime = true) ∨
      b.execMove true true job = .ok b' := by
  unfold Rbc.execEdge at h
  split at h
  · exact .inr h
  · split at h
    · simp at h
    · rename_i b₁ hm
      split at h
      · rename_i ht
        obtain rfl := Except.ok.inj h
        exact .inl ⟨hm, ht⟩
      · exact .inr h

/-- R17: an event that is answered is one of a legally elaborated block. -/
theorem runEvent_next {s t : State} {e : Event} :
    runEvent e s = .next t ↔ e.check s = none ∧ runLegal e s = .next t := legally_next

/-- A step is the host's next event, or nothing. -/
theorem step_next {s t : State} (h : step s = .next t) :
    (s.script = [] ∧ t = s) ∨
      ∃ e rest, s.script = e :: rest ∧ runEvent e { s with script := rest } = .next t := by
  unfold step at h
  split at h
  · rename_i hs
    exact .inl ⟨hs, (Host.Outcome.next.inj h).symm⟩
  · rename_i e rest hs
    exact .inr ⟨e, rest, hs, h⟩

end Sys2Proof.Machine
end

