-- ==== Sys2Proof/Laws/PerInstr.lean ====
section
/-! SUPPORT. The statement made of every instruction, one lemma per constructor: a well-formed
instruction's encoding fits the port it stands on (R301 to R304). -/

namespace Sys2Proof.Laws.PortFit

open Sys2Proof

/-- A port value fits the pins of a block with parameters `p`. -/
def fitsPort (p : Config) : PortWord → Prop
  | .hdr w d ds => w < 2 ^ (p.nw + 4) ∧ objFits p d = true ∧ ds.all (objFits p) = true
  | .sfCtl w d => w < 2 ^ 3 ∧ objFits p d = true
  | .afW w d => w < 2 ^ 1 ∧ objFits p d = true
  | .afR w => w < 2 ^ 1

/-- The encoding of a well-formed instruction fits its port. -/
def Statement (i : Instr) : Prop := ∀ p : Config, i.wellFormed p = true → fitsPort p (encode i)

theorem objFits_zero (p : Config) : objFits p 0 = true := by
  simp [objFits]

/-- A header whose count fits `cmd_n` fits the header port. -/
theorem packHeader_lt {p : Config} {op n : Nat} (ho : op < 16) (hn : countFits p n = true) :
    packHeader op n < 2 ^ (p.nw + 4) := by
  have hn' : n < 2 ^ p.nw := of_decide_eq_true hn
  rw [Nat.pow_add]
  unfold packHeader
  omega

theorem countFits_zero (p : Config) : countFits p 0 = true := by
  simp [countFits]

/-- A command that reads no operand. -/
theorem fits_plain (p : Config) {op : Nat} (ho : op < 16) :
    fitsPort p (.hdr (packHeader op 0) 0 []) :=
  ⟨packHeader_lt ho (countFits_zero p), objFits_zero p, rfl⟩

/-- A command that reads `n`. -/
theorem fits_count {p : Config} {op n : Nat} (ho : op < 16) (h : countFits p n = true) :
    fitsPort p (.hdr (packHeader op n) 0 []) :=
  ⟨packHeader_lt ho h, objFits_zero p, rfl⟩

/-- A write burst. -/
theorem fits_burst {p : Config} {op n : Nat} {ds : List Nat} (ho : op < 16)
    (h : burstFits p n ds = true) : fitsPort p (.hdr (packHeader op n) 0 ds) := by
  unfold burstFits at h
  simp only [Bool.and_eq_true] at h
  exact ⟨packHeader_lt ho h.1.1, objFits_zero p, h.1.2⟩

theorem nop : Statement .nop := fun p _ => fits_plain p (by decide)
theorem clear : Statement .clear := fun p _ => fits_plain p (by decide)
theorem writeObj (d : Nat) : Statement (.writeObj d) := fun p h =>
  ⟨packHeader_lt (by decide) (countFits_zero p), h, rfl⟩
theorem readObj : Statement .readObj := fun p _ => fits_plain p (by decide)
theorem deleteHead : Statement .deleteHead := fun p _ => fits_plain p (by decide)
theorem deleteN (n : Nat) : Statement (.deleteN n) := fun _ h => fits_count (by decide) h
theorem writeN (n : Nat) (ds : List Nat) : Statement (.writeN n ds) := fun _ h =>
  fits_burst (by decide) h
theorem readN (n : Nat) : Statement (.readN n) := fun _ h => fits_count (by decide) h
theorem writeAll (n : Nat) (ds : List Nat) : Statement (.writeAll n ds) := fun _ h =>
  fits_burst (by decide) h
theorem readAll (n : Nat) : Statement (.readAll n) := fun _ h => fits_count (by decide) h
theorem peekNth (n : Nat) : Statement (.peekNth n) := fun _ h => fits_count (by decide) h
theorem qEmpty : Statement .qEmpty := fun p _ => fits_plain p (by decide)
theorem qFull : Statement .qFull := fun p _ => fits_plain p (by decide)
theorem qOccupied : Statement .qOccupied := fun p _ => fits_plain p (by decide)
theorem qFree : Statement .qFree := fun p _ => fits_plain p (by decide)
theorem reservedF : Statement .reservedF := fun p _ => fits_plain p (by decide)
theorem sfIdle : Statement .sfIdle := fun p _ => ⟨by decide, objFits_zero p⟩
theorem sfPush (d : Nat) : Statement (.sfPush d) := fun _ h => ⟨by decide, h⟩
theorem sfPop : Statement .sfPop := fun p _ => ⟨by decide, objFits_zero p⟩
theorem sfPushPop (d : Nat) : Statement (.sfPushPop d) := fun _ h => ⟨by decide, h⟩
theorem sfClear : Statement .sfClear := fun p _ => ⟨by decide, objFits_zero p⟩
theorem afWidle : Statement .afWidle := fun p _ => ⟨by decide, objFits_zero p⟩
theorem afPush (d : Nat) : Statement (.afPush d) := fun _ h => ⟨by decide, h⟩
theorem afRidle : Statement .afRidle := fun _ _ => by simp [encode, fitsPort]
theorem afPop : Statement .afPop := fun _ _ => by simp [encode, fitsPort]

end Sys2Proof.Laws.PortFit
end

