-- ==== Sys2Proof/Tests/Slice0.lean ====
section
/-! SUPPORT. Tests. Expected values come from the tables of 95_test_vectors.md (V, S, A and P name
its rows), from the encodings of 30_encoding.md, or from hand calculation on a rule. After them, a
witness for each statement that has hypotheses. -/

open Sys2Proof Sys2Proof.Machine Sys2Proof.Statements

namespace Sys2Proof.Tests

/-! ## Helpers -/

/-- The RBC at given cursors and storage, with `C = 4` (95_test_vectors.md). -/
def rbcAt (h t : Nat) (m : Memory) : State :=
  { State.reset with rbc := { Rbc.reset Config.vectors with head := h, tail := t, sto := m } }

/-- SF at given cursors and storage. -/
def sfAt (h t : Nat) (m : Memory) : State :=
  { State.reset with sf := { Sf.reset Config.vectors with head := h, tail := t, sto := m } }

/-- Storage pictures: `ABC·`, `ABCD`, `AB··`. -/
def mABC : Memory := [(0, 0x41), (1, 0x42), (2, 0x43)]
def mABCD : Memory := [(0, 0x41), (1, 0x42), (2, 0x43), (3, 0x44)]
def mAB : Memory := [(0, 0x41), (1, 0x42)]

/-- A next state with a property. -/
def gives (o : Host.Outcome State Fault Refusal) (p : State → Bool) : Bool :=
  match o with
  | .next s => p s
  | .fault _ => false
  | .refused _ => false

/-- A refusal of a given name. -/
def refusedAs (o : Host.Outcome State Fault Refusal) (r : Refusal) : Bool :=
  match o with
  | .next _ => false
  | .fault _ => false
  | .refused x => decide (x = r)

/-- A decoder's answer. -/
def decodesTo (r : Except DecodeError Instr) (i : Instr) : Bool :=
  match r with
  | .ok x => decide (x = i)
  | .error _ => false

/-- A decoder's rejection. -/
def rejectedAs (r : Except DecodeError Instr) (e : DecodeError) : Bool :=
  match r with
  | .ok _ => false
  | .error x => decide (x = e)

/-- What a command leaves: cursors, storage, and every beat it sends. -/
def leaves (i : Instr) (s : State) (h t : Nat) (m : Memory) (beats : List RspBeat) : Bool :=
  gives (exec i s) fun u =>
    decide (u.rbc.head = h) && decide (u.rbc.tail = t) && decide (u.rbc.sto = m) &&
      decide (u.rbc.out = beats) && decide (u.rbc.rsp = beats.getLast?)

/-- A final beat without an object, and one with its slot and object. -/
def fin (st : Status) (k : Nat) : RspBeat := ⟨true, st, k, none, none⟩
def finObj (k slot d : Nat) : RspBeat := ⟨true, .ok, k, some slot, some d⟩

/-- A data beat. -/
def dat (j slot d : Nat) : RspBeat := ⟨false, .ok, j, some slot, some d⟩

/-- What an SF edge leaves: cursors, `rd_data`, the four acknowledge registers, storage. -/
def sfLeaves (o : Host.Outcome State Fault Refusal) (h t d : Nat) (wa wo ra ru : Bool) (m : Memory) :
    Bool :=
  gives o fun u =>
    decide (u.sf.head = h) && decide (u.sf.tail = t) && decide (u.sf.rdData = d) &&
      decide (u.sf.wrAck = wa) && decide (u.sf.wrOvf = wo) && decide (u.sf.rdAck = ra) &&
      decide (u.sf.rdUnf = ru) && decide (u.sf.sto = m)

/-! ## Decoding (30_encoding.md R301 to R304, R320 to R322) -/

theorem test_decode_queries_and_control :
    (decodesTo (decode Config.vectors (.hdr 0b0000_0000_0000 0 [])) .nop &&
     decodesTo (decode Config.vectors (.hdr 0b0000_0000_0001 0 [])) .clear &&
     decodesTo (decode Config.vectors (.hdr 0b0000_0000_1011 0 [])) .qEmpty &&
     decodesTo (decode Config.vectors (.hdr 0b0000_0000_1100 0 [])) .qFull &&
     decodesTo (decode Config.vectors (.hdr 0b0000_0000_1101 0 [])) .qOccupied &&
     decodesTo (decode Config.vectors (.hdr 0b0000_0000_1110 0 [])) .qFree) = true := by decide

theorem test_decode_single_transfers :
    (decodesTo (decode Config.vectors (.hdr 0b0000_0000_0010 0x41 [])) (.writeObj 0x41) &&
     decodesTo (decode Config.vectors (.hdr 0b0000_0000_0011 0 [])) .readObj &&
     decodesTo (decode Config.vectors (.hdr 0b0000_0000_0100 0 [])) .deleteHead &&
     decodesTo (decode Config.vectors (.hdr 0b0000_0101_0101 0 [])) (.deleteN 5)) = true := by decide

theorem test_decode_bursts :
    (decodesTo (decode Config.vectors (.hdr 0b0000_0011_0110 0 [0x61, 0x62, 0x63]))
       (.writeN 3 [0x61, 0x62, 0x63]) &&
     decodesTo (decode Config.vectors (.hdr 0b1111_1111_0111 0 [])) (.readN 255) &&
     decodesTo (decode Config.vectors (.hdr 0b0000_0010_1000 0 [0x78, 0x79]))
       (.writeAll 2 [0x78, 0x79]) &&
     decodesTo (decode Config.vectors (.hdr 0b0000_0100_1001 0 [])) (.readAll 4)) = true := by decide

theorem test_decode_peek_and_reserved :
    (decodesTo (decode Config.vectors (.hdr 0b0000_0100_1010 0 [])) (.peekNth 4) &&
     decodesTo (decode Config.vectors (.hdr 0b0000_0111_1111 0 [])) .reservedF) = true := by decide

/-- R310, R311, R350: a field a command does not read is ignored. -/
theorem test_decode_ignores_unused_fields :
    (decodesTo (decode Config.vectors (.hdr 0b1010_0101_0001 0xFF [])) .clear &&
     decodesTo (decode Config.vectors (.hdr 0b1010_0101_0010 0x41 [])) (.writeObj 0x41)) = true := by
  decide

theorem test_decode_sf :
    (decodesTo (decode Config.vectors (.sfCtl 0b000 0x58)) .sfIdle &&
     decodesTo (decode Config.vectors (.sfCtl 0b001 0x58)) (.sfPush 0x58) &&
     decodesTo (decode Config.vectors (.sfCtl 0b010 0x58)) .sfPop &&
     decodesTo (decode Config.vectors (.sfCtl 0b011 0x58)) (.sfPushPop 0x58) &&
     decodesTo (decode Config.vectors (.sfCtl 0b100 0)) .sfClear &&
     decodesTo (decode Config.vectors (.sfCtl 0b111 0x45)) .sfClear) = true := by decide

theorem test_decode_af :
    (decodesTo (decode Config.vectors (.afW 0b0 0x42)) .afWidle &&
     decodesTo (decode Config.vectors (.afW 0b1 0x42)) (.afPush 0x42) &&
     decodesTo (decode Config.vectors (.afR 0b0)) .afRidle &&
     decodesTo (decode Config.vectors (.afR 0b1)) .afPop) = true := by decide

/-- R361: the pseudo-instructions, with `NW = 8`. -/
theorem test_pseudo_instructions :
    (Pseudo.push 0x41).expand Config.vectors = .writeObj 0x41 ∧
    Pseudo.pop.expand Config.vectors = .readObj ∧ Pseudo.drop.expand Config.vectors = .deleteHead ∧
    Pseudo.peek.expand Config.vectors = .peekNth 0 ∧ Pseudo.flush.expand Config.vectors = .clear ∧
    Pseudo.drain.expand Config.vectors = .readN 255 := by decide

/-- Values that no port carries, each rejected by its name. -/
theorem test_decode_rejects_by_name :
    (rejectedAs (decode Config.vectors (.hdr 0x1000 0 [])) .headerTooWide &&
     rejectedAs (decode Config.vectors (.hdr 0x002 0x100 [])) .objectTooWide &&
     rejectedAs (decode Config.vectors (.hdr 0x026 0 [0x61])) .beatCount &&
     rejectedAs (decode Config.vectors (.hdr 0x003 0 [0x61])) .beatCount &&
     rejectedAs (decode Config.vectors (.sfCtl 8 0)) .controlTooWide &&
     rejectedAs (decode Config.vectors (.sfCtl 1 0x100)) .objectTooWide &&
     rejectedAs (decode Config.vectors (.afW 2 0)) .controlTooWide &&
     rejectedAs (decode Config.vectors (.afW 1 0x100)) .objectTooWide &&
     rejectedAs (decode Config.vectors (.afR 2)) .controlTooWide) = true := by decide

/-! ## WellFormed: an ill-formed term for each check (R310, R11, R351) -/

theorem test_ill_formed_objects :
    (Instr.writeObj 256).wellFormed Config.vectors = false ∧
    (Instr.sfPush 256).wellFormed Config.vectors = false ∧
    (Instr.sfPushPop 256).wellFormed Config.vectors = false ∧
    (Instr.afPush 256).wellFormed Config.vectors = false := by decide

theorem test_ill_formed_counts :
    (Instr.deleteN 256).wellFormed Config.vectors = false ∧
    (Instr.readN 256).wellFormed Config.vectors = false ∧
    (Instr.readAll 256).wellFormed Config.vectors = false ∧
    (Instr.peekNth 256).wellFormed Config.vectors = false := by decide

theorem test_ill_formed_bursts :
    (Instr.writeN 2 [0x61]).wellFormed Config.vectors = false ∧
    (Instr.writeN 1 [256]).wellFormed Config.vectors = false ∧
    (Instr.writeN 256 (List.replicate 256 0)).wellFormed Config.vectors = false ∧
    (Instr.writeAll 1 []).wellFormed Config.vectors = false ∧
    (Instr.writeAll 1 [256]).wellFormed Config.vectors = false ∧
    (Instr.writeAll 2 [0x61, 0x62]).wellFormed Config.vectors = true := by decide

/-! ## The index unit (95_test_vectors.md 3.1) -/

theorem test_adv_in_both_strategies :
    ((List.range 4).map (adv Config.vectors)) = [1, 2, 3, 0] ∧
    ((List.range 4).map (adv { Config.vectors with strat := .mask })) = [1, 2, 3, 0] ∧
    ((List.range 5).map (adv { Config.vectors with c := 5 })) = [1, 2, 3, 4, 0] ∧
    addk { Config.vectors with c := 5 } 4 3 = 2 := by decide

theorem test_occupancy_table :
    ((List.range 4).map (occ Config.vectors 1)) = [3, 0, 1, 2] ∧
    ((List.range 4).map (freeSlots Config.vectors 3)) = [2, 1, 0, 3] ∧
    occ { Config.vectors with c := 5 } 4 3 = 4 ∧
    isFull { Config.vectors with c := 5 } 4 3 = true := by decide

theorem test_gray_code_table :
    ((List.range 8).map gray) = [0b000, 0b001, 0b011, 0b010, 0b110, 0b111, 0b101, 0b100] ∧
    grayInv 3 0b101 = 6 ∧ grayInv 2 0b10 = 3 := by decide

/-- R500: one refused configuration for each name. -/
theorem test_refused_elaborations :
    checkRbc { Config.vectors with s := 0 } = some .zeroObjectSize ∧
    checkRbc { Config.vectors with c := 1 } = some .capacityTooSmall ∧
    checkRbc { Config.vectors with c := 5, strat := .mask } = some .maskNotPow2 ∧
    checkRbc { Config.vectors with storage := .external, dSto := 3 } = some .storageTooSmall ∧
    checkRbc { Config.vectors with nw := 1 } = some .countTooNarrow ∧
    checkRbc { Config.vectors with lSto := 0 } = some .badLatency ∧
    checkSf { Config.vectors with storage := .external, lSto := 2 } = some .sfLatency ∧
    checkAf { Config.vectors with c := 5 } = some .afNotPow2 ∧
    checkAf { Config.vectors with syncN := 1 } = some .afSyncTooShort := by decide

/-! ## Storage -/

/-- R201, R202, R203: byte 0 of an object lies lowest, on the low lane; slot `s` starts at
`BASE + s·S`. -/
theorem test_object_lanes :
    (match memWrite { Config.vectors with s := 2, storage := .external, base := 16 } [] 3 0x4142 with
      | .ok m => decide (m = [(22, 0x42), (23, 0x41)])
      | .error _ => false) = true := by decide

/-- R25, R212: unwritten storage and a slot that does not exist fault. -/
theorem test_storage_faults :
    (match memRead Config.vectors mABC 3 with
      | .ok _ => false
      | .error e => decide (e = .unwrittenStorage)) = true ∧
    (match memRead Config.vectors mABC 4 with
      | .ok _ => false
      | .error e => decide (e = .noSuchSlot)) = true := by decide

/-! ## ring_buffer_controller (95_test_vectors.md 3.2) -/

/-- V2. -/
theorem test_nop : leaves .nop (rbcAt 1 3 mABC) 1 3 mABC [fin .ok 0] = true := by decide

/-- V3. -/
theorem test_clear : leaves .clear (rbcAt 1 3 mABC) 0 0 mABC [fin .ok 0] = true := by decide

/-- V4. -/
theorem test_clear_empty_moves_cursors :
    leaves .clear (rbcAt 2 2 mABCD) 0 0 mABCD [fin .ok 0] = true := by decide

/-- V7. -/
theorem test_write_obj_wraps :
    leaves (.writeObj 0x44) (rbcAt 1 3 mABC) 1 0 mABCD [fin .ok 1] = true := by decide

/-- V6. -/
theorem test_write_obj_full :
    leaves (.writeObj 0x58) (rbcAt 2 1 mABCD) 2 1 mABCD [fin .full 0] = true := by decide

/-- V10. -/
theorem test_read_obj_wraps :
    leaves .readObj (rbcAt 3 1 mABCD) 0 1 mABCD [finObj 1 3 0x44] = true := by decide

/-- V9. -/
theorem test_read_obj_empty : leaves .readObj (rbcAt 0 0 []) 0 0 [] [fin .empty 0] = true := by decide

/-- V11. -/
theorem test_delete_head : leaves .deleteHead (rbcAt 0 3 mABC) 1 3 mABC [fin .ok 1] = true := by decide

/-- V12. -/
theorem test_delete_head_empty :
    leaves .deleteHead (rbcAt 2 2 mABCD) 2 2 mABCD [fin .empty 0] = true := by decide

/-- V15. -/
theorem test_delete_n_wraps :
    leaves (.deleteN 3) (rbcAt 3 2 mABCD) 2 2 mABCD [fin .ok 3] = true := by decide

/-- V16. -/
theorem test_delete_n_255 :
    leaves (.deleteN 255) (rbcAt 1 3 mABC) 3 3 mABC [fin .empty 2] = true := by decide

/-- V17. -/
theorem test_write_n_short :
    leaves (.writeN 5 [0x61, 0x62, 0x63, 0x64, 0x65]) (rbcAt 0 0 []) 0 3
      [(0, 0x61), (1, 0x62), (2, 0x63)] [fin .full 3] = true := by decide

/-- V19. -/
theorem test_write_n_wraps :
    leaves (.writeN 2 [0x64, 0x65]) (rbcAt 2 3 [(2, 0x63)]) 2 1
      [(0, 0x65), (2, 0x63), (3, 0x64)] [fin .ok 2] = true := by decide

/-- V21. -/
theorem test_read_n_short :
    leaves (.readN 3) (rbcAt 1 3 mABC) 3 3 mABC [dat 0 1 0x42, dat 1 2 0x43, fin .empty 2] = true := by
  decide

/-- V22. -/
theorem test_read_n_wraps :
    leaves (.readN 3) (rbcAt 2 1 mABCD) 1 1 mABCD
      [dat 0 2 0x43, dat 1 3 0x44, dat 2 0 0x41, fin .ok 3] = true := by decide

/-- V24. -/
theorem test_write_all_refused :
    leaves (.writeAll 2 [0x78, 0x79]) (rbcAt 0 2 mAB) 0 2 mAB [fin .full 0] = true := by decide

/-- V25. -/
theorem test_write_all_fills :
    leaves (.writeAll 3 [0x78, 0x79, 0x7A]) (rbcAt 0 0 []) 0 3
      [(0, 0x78), (1, 0x79), (2, 0x7A)] [fin .ok 3] = true := by decide

/-- V28. -/
theorem test_read_all :
    leaves (.readAll 2) (rbcAt 0 3 mABC) 2 3 mABC [dat 0 0 0x41, dat 1 1 0x42, fin .ok 2] = true := by
  decide

/-- V29. -/
theorem test_read_all_refused :
    leaves (.readAll 4) (rbcAt 0 3 mABC) 0 3 mABC [fin .empty 0] = true := by decide

/-- V31, with storage `ABCD`: slot 0 holds `A`. -/
theorem test_peek_nth_wraps :
    leaves (.peekNth 4) (rbcAt 3 2 mABCD) 3 2 mABCD [finObj 1 0 0x41] = true := by decide

/-- V35. -/
theorem test_peek_nth_255 :
    leaves (.peekNth 255) (rbcAt 1 2 mAB) 1 2 mAB [finObj 0 1 0x42] = true := by decide

/-- V37. -/
theorem test_q_empty : leaves .qEmpty (rbcAt 2 2 []) 2 2 [] [fin .ok 1] = true := by decide

/-- V40, V41. -/
theorem test_q_full :
    leaves .qFull (rbcAt 3 2 mABCD) 3 2 mABCD [fin .ok 1] = true ∧
    leaves .qFull (rbcAt 1 3 mABC) 1 3 mABC [fin .ok 0] = true := by decide

/-- V42. -/
theorem test_q_occupied :
    leaves .qOccupied (rbcAt 3 1 mABCD) 3 1 mABCD [fin .ok 2] = true := by decide

/-- V45, V46. -/
theorem test_q_free :
    leaves .qFree (rbcAt 0 0 []) 0 0 [] [fin .ok 3] = true ∧
    leaves .qFree (rbcAt 2 1 mABCD) 2 1 mABCD [fin .ok 0] = true := by decide

/-- V47. -/
theorem test_reserved : leaves .reservedF (rbcAt 1 3 mABC) 1 3 mABC [fin .illegal 0] = true := by decide

/-- R114, R330 and the packed values after V17, V21 and in P2. -/
theorem test_packed_vectors :
    (statusOf Config.vectors 0 3).pack Config.vectors = 0x0E ∧
    (statusOf Config.vectors 3 3).pack Config.vectors = 0x31 ∧
    (fin .full 3).packLow = 0x01B ∧ (fin .illegal 0).packLow = 0x007 ∧
    (finObj 1 1 0x62).pack Config.vectors = some 0x0809 ∧
    (dat 1 3 0x64).pack Config.vectors = some 0x1808 := by decide

/-- R11, U1: a command of a refused elaboration. -/
theorem test_refused_command :
    refusedAs (exec .nop { State.reset with rbc := Rbc.reset { Config.vectors with c := 1 } })
      .capacityTooSmall = true := by decide

/-- R17: the name of R500 comes before that of a port value that does not fit. -/
theorem test_refused_event_order :
    refusedAs (runEvent (.cmd 0x002 0x41 [])
      { State.reset with rbc := Rbc.reset { Config.vectors with s := 0 } }) .zeroObjectSize = true ∧
    refusedAs (runEvent (.wclk 7 0)
      { State.reset with af := Af.reset { Config.vectors with c := 6 } }) .afNotPow2 = true := by
  decide

/-! ## The beat protocol (95_test_vectors.md 3.3) -/

/-- Edge 1 of the run of V17: the header fixes `k = 3`. -/
theorem test_header_edge :
    gives (rbcEdge State.reset false true ⟨0x056, 0⟩) (fun u =>
      decide (u.rbc.phase = .wdata .writeN 5 3 0) && decide (u.pos = 1)) = true := by decide

/-- An RBC in a phase, at the last of the `LAT_MAX` cycles in which `cmd_ready` must rise. -/
def inPhase (s : State) (f : Phase) : State := { s with rbc := { s.rbc with phase := f, waited := 4 } }

/-- A command in `EXEC` at the last moment to go on: nothing is drawn there. -/
def lastMoment (job : Job) : Phase := .exec { job with cycles := 4 }

/-- Edge 5: beat `i = 3 ≥ k` is taken and discarded. -/
theorem test_discarded_beat :
    gives (rbcEdge (inPhase (rbcAt 0 3 mABC) (.wdata .writeN 5 3 3)) false true ⟨0xFFF, 0x64⟩)
      (fun u => decide (u.rbc.phase = .wdata .writeN 5 3 4) && decide (u.rbc.tail = 3) &&
        decide (u.rbc.sto = mABC)) = true := by decide

/-- Edge 7: the final beat, `{FULL, 3}`, with the phase back in `IDLE`. -/
theorem test_final_beat_edge :
    gives (rbcEdge (inPhase (rbcAt 0 3 mABC) (lastMoment (newJob .writeN 5 0 3))) false false ⟨0, 0⟩)
      (fun u => decide (u.rbc.phase = .idle) && decide (u.rbc.rsp = some (fin .full 3))) = true := by
  decide

/-- R208 with `L_STO = 1`: a READ_OBJ drives `sto_re` and `sto_addr`, and the object stands on
`sto_rdata` in the next cycle. -/
theorem test_storage_read :
    gives (rbcEdge (inPhase (rbcAt 1 3 mABC) (lastMoment (newJob .readObj 0 0 1))) false false ⟨0, 0⟩)
      (fun u => u.rbc.stoRe && !u.rbc.stoWe && decide (u.rbc.stoAddr = some 1) &&
        decide (u.rbc.stoRdata = some 0x42) && decide (u.rbc.rsp = none)) = true := by decide

/-- The edge after it sends `{OK, count 1, index 1, data 'B'}` (V8's shape at `head = 1`, R601). -/
theorem test_storage_read_answered :
    gives (rbcEdge (inPhase (rbcAt 2 3 mABC)
        (lastMoment { newJob .readObj 0 0 1 with issued := 1, flight := [⟨1, 0x42, 1⟩] }))
        false false ⟨0, 0⟩)
      (fun u => decide (u.rbc.phase = .idle) && decide (u.rbc.rsp = some (finObj 1 1 0x42)) &&
        decide (u.rbc.stoRdata = none)) = true := by decide

/-- R331, R345: one edge of READ_N 3 from V22 sends data beat 1 and reads the next slot. -/
theorem test_bulk_read_edge :
    gives (rbcEdge (inPhase (rbcAt 0 1 mABCD)
        (lastMoment { newJob .readN 3 0 3 with issued := 2, sent := 1, flight := [⟨3, 0x44, 1⟩] }))
        false false ⟨0, 0⟩)
      (fun u => decide (u.rbc.rsp = some (dat 1 3 0x44)) && decide (u.rbc.head = 1) &&
        decide (u.rbc.stoAddr = some 0) && decide (u.rbc.stoRdata = some 0x41)) = true := by decide

/-! ## sync_fifo (95_test_vectors.md 3.4) -/

/-- S1. -/
theorem test_sf_idle :
    sfLeaves (exec .sfIdle (sfAt 1 2 mAB)) 1 2 0 false false false false mAB = true := by decide

/-- S4, S3. -/
theorem test_sf_push :
    sfLeaves (exec (.sfPush 0x44) (sfAt 1 3 mABC)) 1 0 0 true false false false mABCD = true := by decide
theorem test_sf_push_full :
    sfLeaves (exec (.sfPush 0x44) (sfAt 0 3 mABC)) 0 3 0 false true false false mABC = true := by decide

/-- S5, S6. -/
theorem test_sf_pop :
    sfLeaves (exec .sfPop (sfAt 0 1 mAB)) 1 1 0x41 false false true false mAB = true := by decide
theorem test_sf_pop_empty :
    sfLeaves (exec .sfPop (sfAt 2 2 mABCD)) 2 2 0 false false false true mABCD = true := by decide

/-- S7, S9. -/
theorem test_sf_push_pop_full :
    sfLeaves (exec (.sfPushPop 0x44) (sfAt 0 3 mABC)) 1 3 0x41 false true true false mABC = true := by
  decide
theorem test_sf_push_pop_both :
    sfLeaves (exec (.sfPushPop 0x43) (sfAt 1 2 mAB)) 2 3 0x42 true false true false mABC = true := by
  decide

/-- R208, R810: the two storage ports at the edge of S9. -/
theorem test_sf_storage_ports :
    gives (exec (.sfPushPop 0x43) (sfAt 1 2 mAB)) (fun u =>
      u.sf.wPort.we && decide (u.sf.wPort.addr = some 2) && decide (u.sf.wPort.wdata = some 0x43) &&
      u.sf.rPort.re && decide (u.sf.rPort.addr = some 1) && decide (u.sf.stoRdata = some 0x42)) =
        true := by decide

/-- S10, S11. -/
theorem test_sf_clear :
    sfLeaves (runEvent (.sfClk false 0b111 0x45) (sfAt 2 1 mABCD)) 0 0 0 false false false false
      mABCD = true := by decide
theorem test_sf_reset :
    sfLeaves (runEvent (.sfClk true 0b101 0x45) (sfAt 2 1 mABCD)) 0 0 0 false false false false
      mABCD = true := by decide

/-! ## async_fifo (95_test_vectors.md 3.5 and P4) -/

/-- AF with one object `A` pushed and not yet seen by the read domain. -/
def af1 : State :=
  { State.reset with af := { Af.reset Config.vectors with
      wbin := 1, wgray := 0b01, wc := 1, wMoved := true, sto := [(0, 0x41)] } }

/-- AF with three objects pushed, all seen by the read domain: truly full. -/
def af3 : State :=
  { State.reset with af := { Af.reset Config.vectors with
      wbin := 3, wgray := 0b10, wc := 3, sto := mABC
      rq := [0b10, 0b10], rqc := [3, 3] } }

/-- A1. -/
theorem test_af_push :
    gives (exec (.afPush 0x42) af1) (fun u => decide (u.af.sto = mAB) && decide (u.af.wbin = 2) &&
      decide (u.af.wgray = 0b11) && u.af.wrAck && !u.af.wrOvf) = true := by decide

/-- A2. -/
theorem test_af_push_full :
    gives (exec (.afPush 0x44) af3) (fun u => decide (u.af.sto = mABC) && decide (u.af.wbin = 3) &&
      !u.af.wrAck && u.af.wrOvf) = true := by decide

/-- A3, with `rq[2]` standing for 3. -/
theorem test_af_pop :
    gives (exec .afPop af3) (fun u => decide (u.af.rdData = 0x41) && decide (u.af.rbin = 1) &&
      decide (u.af.rgray = 0b01) && u.af.rdAck && !u.af.rdUnf) = true := by decide

/-- A4: the object in flight is not seen yet. -/
theorem test_af_pop_refused :
    gives (exec .afPop { af1 with af := { af1.af with wMoved := false } }) (fun u =>
      decide (u.af.rdData = 0) && decide (u.af.rbin = 0) && !u.af.rdAck && u.af.rdUnf) = true := by
  decide

/-- A5: `rgray = 01` steady, so `wq` becomes `[01, 01]`. -/
theorem test_af_write_idle :
    gives (exec .afWidle { State.reset with af := { Af.reset Config.vectors with
        rbin := 1, rgray := 0b01, rc := 1, wbin := 1, wgray := 0b01, wc := 1
        wq := [0b01, 0b00], wqc := [1, 0] } })
      (fun u => decide (u.af.wq = [0b01, 0b01]) && !u.af.wrAck && !u.af.wrOvf) = true := by decide

/-- A6: `wgray = 10` steady, so `rq` becomes `[10, 10]` and `Wv = 3`. -/
theorem test_af_read_idle :
    gives (exec .afRidle { af3 with af := { af3.af with rq := [0b10, 0b11], rqc := [3, 2] } })
      (fun u => decide (u.af.rq = [0b10, 0b10]) && decide (u.af.wv = 3)) = true := by decide

/-- A8, R1202. -/
theorem test_af_reset :
    gives (runEvent (.arst false) af3) (fun u => !u.af.fullW && u.af.emptyR &&
      decide (u.af.wbin = 0) && decide (u.af.wgray = 0) && decide (u.af.rq = [0, 0]) &&
      decide (u.af.sto = mABC)) = true := by decide

/-- R207, R15: the write port at the edge of A1, and the read port at that of A3. -/
theorem test_af_storage_ports :
    gives (exec (.afPush 0x42) af1) (fun u => decide (u.af.wPort = some (.write 1 0x42)) &&
      decide (u.af.rPort = none)) = true ∧
    gives (exec .afPop af3) (fun u => decide (u.af.rPort = some (.read 0)) &&
      decide (u.af.stoRdata = some 0x41)) = true := by decide

/-- R930, R140: a read domain that has not left reset shifts while `arst_n = 1`, and pops nothing. -/
theorem test_af_shifts_in_reset :
    gives (exec .afPop { af3 with af := { af3.af with rLive := false, rq := [0, 0], rqc := [0, 0] } })
      (fun u => decide (u.af.rq = [0b10, 0]) && decide (u.af.rqc = [3, 0]) &&
        decide (u.af.rc = 0) && !u.af.rdAck && !u.af.rdUnf) = true := by decide

/-- R1202: while `arst_n = 0` nothing shifts, and the domain stays in reset. -/
theorem test_af_held_in_reset :
    gives (exec (.afPush 0x42) { af3 with af := af3.af.assertReset }) (fun u =>
      decide (u.af = af3.af.assertReset)) = true := by decide

/-- R940, R941: the comparator table of 95_test_vectors.md 3.1. -/
theorem test_af_levels :
    af3.af.fullW = true ∧ af3.af.wLevel = 3 ∧ af3.af.emptyR = false ∧ af3.af.rLevel = 3 ∧
    { af3.af with wq := [0b01, 0b01] }.wLevel = 2 ∧ { af3.af with rbin := 1 }.rLevel = 2 := by decide

/-! ## Fetching -/

/-- The table's word of WRITE_OBJ, with an operand of zeros, runs as the first command after reset. -/
theorem test_with_fetch_word :
    decodeTableWord 8 0x02 = some (.writeObj 0) ∧
    gives (step (State.reset.withFetchWord 8 0x02)) (fun u =>
      decide (u.rbc.tail = 1) && decide (u.pos = 1) && decide (u.script = [])) = true := by decide

/-- R360, R362: a line of P2, one of P3 and two of P4, with objects in hexadecimal. -/
theorem test_listing_lines :
    commandLine (.writeAll 2 [0x64, 0x65]) = some "WRITE_ALL 2, [0x64, 0x65]" ∧
    sfLine 6 0b011 0x45 = "@6 wr=1 d=0x45 rd=1 clr=0" ∧ wclkLine 1 1 0x41 = "@w1 winc=1 d=0x41" ∧
    rclkLine 7 0 = "@r7 rinc=0" := by decide

/-! ## Witnesses: for each statement with hypotheses, a state and operands that meet them all -/

theorem ready_at (h t : Nat) (m : Memory) (hh : h < 4) (ht : t < 4) : Ready (rbcAt h t m) :=
  ⟨⟨show checkRbc Config.vectors = none by decide, rfl⟩, hh, ht⟩

theorem sfReady_at (h t : Nat) (m : Memory) (hh : h < 4) (ht : t < 4) : SfReady (sfAt h t m) :=
  ⟨show checkSf Config.vectors = none by decide, hh, ht⟩

/-- An RBC holding `D` and `A`, with `head > tail`. -/
theorem rbcInv_wrapped : (rbcAt 3 1 mABCD).rbc.Inv where
  legal := by decide
  head_lt := by decide
  tail_lt := by decide
  preHead_lt := by decide
  preTail_lt := by decide
  sto_wf := by decide
  window := by unfold windowWritten slotWritten; decide
  out_fits := nofun
  rsp_fits := nofun
  phase_ok := trivial

/-- SF holding `D` and `A`. -/
theorem sfInv_wrapped : (sfAt 3 1 mABCD).sf.Inv where
  legal := by decide
  head_lt := by decide
  tail_lt := by decide
  sto_wf := by decide
  window := by unfold windowWritten slotWritten; decide
  rdData_fits := by decide
  write_once := by decide
  read_once := by decide
  not_both := by decide

/-- A full SF. -/
theorem sfInv_full : (sfAt 0 3 mABC).sf.Inv where
  legal := by decide
  head_lt := by decide
  tail_lt := by decide
  sto_wf := by decide
  window := by unfold windowWritten slotWritten; decide
  rdData_fits := by decide
  write_once := by decide
  read_once := by decide
  not_both := by decide

/-- A truly full AF, all of it seen by the read domain. -/
theorem afInv_full : af3.af.Inv where
  legal := by decide
  sto_wf := by decide
  wq_length := by decide
  rq_length := by decide
  wbin_count := by decide
  rbin_count := by decide
  wgray_code := by decide
  rgray_code := by decide
  wq_code := by decide
  rq_code := by decide
  wqc_order := by decide
  rqc_order := by decide
  wqc_le := by decide
  rqc_le := by decide
  no_underflow := by decide
  no_overflow := by decide
  window := by
    intro x _ h
    have h : x < 3 := h
    unfold slotWritten
    interval_cases x <;> decide
  rdData_fits := by decide
  write_once := by decide
  read_once := by decide
  in_reset := by decide
  write_in_reset := by decide
  read_in_reset := by decide

/-- An AF with one object in flight, its pointer just changed. -/
theorem afInv_inFlight : af1.af.Inv where
  legal := by decide
  sto_wf := by decide
  wq_length := by decide
  rq_length := by decide
  wbin_count := by decide
  rbin_count := by decide
  wgray_code := by decide
  rgray_code := by decide
  wq_code := by decide
  rq_code := by decide
  wqc_order := by decide
  rqc_order := by decide
  wqc_le := by decide
  rqc_le := by decide
  no_underflow := by decide
  no_overflow := by decide
  window := by
    intro x _ h
    have h : x < 1 := h
    unfold slotWritten
    interval_cases x; decide
  rdData_fits := by decide
  write_once := by decide
  read_once := by decide
  in_reset := by decide
  write_in_reset := by decide
  read_in_reset := by decide

/-- The three blocks at work, with a host that reads next. -/
def atWork : State :=
  { State.reset with rbc := (rbcAt 3 1 mABCD).rbc, sf := (sfAt 3 1 mABCD).sf, af := af3.af
                     script := [.cmd 0x003 0 []] }

theorem atWork_inv : atWork.Inv := ⟨rbcInv_wrapped, sfInv_wrapped, afInv_full⟩

theorem witness_DecodeOfEncode :
    (Instr.writeN 3 [0, 128, 255]).wellFormed Config.vectors = true ∧
    (Instr.peekNth 255).wellFormed Config.vectors = true ∧
    (Instr.afPush 255).wellFormed Config.vectors = true := by decide

theorem witness_EveryPortValueIsAnInstruction :
    (0xFFF < 2 ^ (Config.vectors.nw + 4) ∧ objFits Config.vectors 255 = true ∧
      ([] : List Nat).all (objFits Config.vectors) = true ∧
      ([] : List Nat).length = (if 0xFFF % 16 = 6 ∨ 0xFFF % 16 = 8 then 0xFFF / 16 else 0)) ∧
    (0x016 < 2 ^ (Config.vectors.nw + 4) ∧ [255].all (objFits Config.vectors) = true ∧
      [255].length = (if 0x016 % 16 = 6 ∨ 0x016 % 16 = 8 then 0x016 / 16 else 0)) ∧
    (7 < 8 ∧ 1 < 2) ∧
    decode Config.vectors (.afR 1) = .ok .afPop :=
  ⟨by decide, by decide, by decide, rfl⟩

theorem witness_StepRunsTheDecodedInstruction :
    (atWork.script = [.cmd 0x003 0 []] ∧ atWork.rbc.held = none ∧
      decode atWork.rbc.cfg (.hdr 0x003 0 []) = .ok .readObj) ∧
    decode State.reset.sf.cfg (.sfCtl 3 0x41) = .ok (.sfPushPop 0x41) ∧
    decode State.reset.af.cfg (.afW 1 0x41) = .ok (.afPush 0x41) ∧
    decode State.reset.af.cfg (.afR 1) = .ok .afPop ∧ State.reset.script = [] :=
  ⟨⟨rfl, rfl, rfl⟩, rfl, rfl, rfl, rfl⟩

/-- The held beat of the first clause may also be the one the command starts with. -/
theorem witness_StepRuns_held :
    ({ atWork.rbc with held := some ⟨0x003, 0⟩ } : Rbc).held = some ⟨0x003, 0⟩ := rfl

theorem witness_IndexAdvanceLaws :
    Config.vectors.c = 2 ^ 2 ∧ (stratLegal { Config.vectors with strat := .mask } ∧
      stratLegal { Config.vectors with c := 5 }) ∧
    isPow2 Config.vectors.c = true ∧ checkShared Config.vectors = none ∧ 3 < Config.vectors.c := by
  unfold stratLegal
  decide

theorem witness_ComparatorLaws :
    checkShared Config.vectors = none ∧ 0 < Config.vectors.c ∧ 3 < Config.vectors.c := by decide

theorem witness_GrayCodeLaws : 3 < 2 ^ 2 ∧ checkAf Config.vectors = none ∧ 3 < Config.vectors.c := by
  decide

/-- The hypotheses of `HeaderIs`, for a header whose unused fields are not 0 and for a burst. -/
theorem witness_HeaderIs :
    (0xFF0 < 2 ^ (Config.vectors.nw + 4) ∧ objFits Config.vectors 255 = true ∧
      ([] : List Nat).all (objFits Config.vectors) = true ∧ 0xFF0 % 16 = 0 ∧
      ([] : List Nat).length = (fun _ => 0) (0xFF0 / 16)) ∧
    (0x026 < 2 ^ (Config.vectors.nw + 4) ∧ [1, 255].all (objFits Config.vectors) = true ∧
      0x026 % 16 = 6 ∧ [1, 255].length = (fun n => n) (0x026 / 16)) := by decide

theorem witness_NopAndReservedOnlyAnswer : (rbcAt 3 3 mABCD).rbcReady := ⟨by decide, rfl⟩

theorem witness_ClearEmptiesTheBuffer : (rbcAt 2 2 mABCD).rbcReady := ⟨by decide, rfl⟩

theorem witness_QueriesAnswerTheirCount : Ready (rbcAt 3 2 mABCD) :=
  ready_at 3 2 mABCD (by decide) (by decide)

theorem witness_WriteObjStoresAtTail :
    (Ready (rbcAt 2 1 mABCD) ∧ objFits Config.vectors 255 = true ∧ (1 + 1) % 4 = 2) ∧
    (Ready (rbcAt 1 3 mABC) ∧ objFits Config.vectors 255 = true ∧ (3 + 1) % 4 ≠ 1) :=
  ⟨⟨ready_at 2 1 mABCD (by decide) (by decide), by decide, by decide⟩,
   ⟨ready_at 1 3 mABC (by decide) (by decide), by decide, by decide⟩⟩

theorem witness_ReadObjTakesTheHead :
    Ready (rbcAt 2 2 mABCD) ∧
    (Ready (rbcAt 3 1 mABCD) ∧ 3 ≠ 1 ∧ slotObj Config.vectors mABCD 3 = some 0x44) :=
  ⟨ready_at 2 2 mABCD (by decide) (by decide),
   ready_at 3 1 mABCD (by decide) (by decide), by decide, by decide⟩

theorem witness_DeleteHeadAdvancesTheHead :
    Ready (rbcAt 2 2 mABCD) ∧ (Ready (rbcAt 3 1 []) ∧ 3 ≠ 1) :=
  ⟨ready_at 2 2 mABCD (by decide) (by decide), ready_at 3 1 [] (by decide) (by decide), by decide⟩

theorem witness_DeleteNRemovesUpToN : Ready (rbcAt 1 3 []) := ready_at 1 3 [] (by decide) (by decide)

theorem witness_PeekNthReadsWithoutRemoving :
    (Ready (rbcAt 2 2 []) ∧ occ Config.vectors 2 2 = 0) ∧
    (Ready (rbcAt 3 2 mABCD) ∧ occ Config.vectors 3 2 ≠ 0 ∧
      slotObj Config.vectors mABCD ((3 + 4 % occ Config.vectors 3 2) % 4) = some 0x41) :=
  ⟨⟨ready_at 2 2 [] (by decide) (by decide), by decide⟩,
   ready_at 3 2 mABCD (by decide) (by decide), by decide, by decide⟩

theorem witness_PeekAgreesWithReading :
    (rbcAt 3 1 mABCD).rbc.Inv ∧ (rbcAt 3 1 mABCD).rbc.phase = .idle ∧
    0 < occ (rbcAt 3 1 mABCD).rbc.cfg 3 1 := ⟨rbcInv_wrapped, rfl, by decide⟩

theorem witness_WriteNWritesUpToFull :
    Ready (rbcAt 2 3 []) ∧ burstFits Config.vectors 3 [1, 2, 255] = true ∧
    burstFits Config.vectors 0 [] = true :=
  ⟨ready_at 2 3 [] (by decide) (by decide), by decide, by decide⟩

theorem witness_ReadNTakesUpToEmpty :
    Ready (rbcAt 3 1 mABCD) ∧ [0x44, 0x41].length = min 5 (occ Config.vectors 3 1) ∧
    ∀ j, j < min 5 (occ Config.vectors 3 1) →
      slotObj Config.vectors mABCD ((3 + j) % 4) = [0x44, 0x41][j]? :=
  ⟨ready_at 3 1 mABCD (by decide) (by decide), by decide, by decide⟩

theorem witness_WriteAllIsAllOrNothing :
    (Ready (rbcAt 0 2 mAB) ∧ burstFits Config.vectors 2 [1, 2] = true ∧
      freeSlots Config.vectors 0 2 < 2) ∧
    (Ready (rbcAt 0 0 []) ∧ burstFits Config.vectors 3 [1, 2, 3] = true ∧
      3 ≤ freeSlots Config.vectors 0 0) :=
  ⟨⟨ready_at 0 2 mAB (by decide) (by decide), by decide, by decide⟩,
   ready_at 0 0 [] (by decide) (by decide), by decide, by decide⟩

theorem witness_ReadAllIsAllOrNothing :
    (Ready (rbcAt 0 3 mABC) ∧ occ Config.vectors 0 3 < 4) ∧
    (Ready (rbcAt 3 1 mABCD) ∧ 2 ≤ occ Config.vectors 3 1 ∧ [0x44, 0x41].length = 2 ∧
      ∀ j, j < 2 → slotObj Config.vectors mABCD ((3 + j) % 4) = [0x44, 0x41][j]?) :=
  ⟨⟨ready_at 0 3 mABC (by decide) (by decide), by decide⟩,
   ready_at 3 1 mABCD (by decide) (by decide), by decide, by decide, by decide⟩

theorem witness_BulkEqualsTheLoop :
    (Ready (rbcAt 2 3 []) ∧ burstFits Config.vectors 3 [1, 2, 3] = true) ∧
    ((rbcAt 3 1 mABCD).rbc.Inv ∧ (rbcAt 3 1 mABCD).rbc.phase = .idle) :=
  ⟨⟨ready_at 2 3 [] (by decide) (by decide), by decide⟩, rbcInv_wrapped, rfl⟩

theorem witness_GuardedBulkEqualsBulkOrNothing :
    (Ready (rbcAt 0 2 mAB) ∧ burstFits Config.vectors 1 [1] = true ∧
      burstFits Config.vectors 2 [1, 2] = true) ∧
    ((rbcAt 3 1 mABCD).rbc.Inv ∧ (rbcAt 3 1 mABCD).rbc.phase = .idle) :=
  ⟨⟨ready_at 0 2 mAB (by decide) (by decide), by decide, by decide⟩, rbcInv_wrapped, rfl⟩

theorem witness_EveryCommandEndsWithOneFinalBeat :
    isRbc (.readN 2) = true ∧ ∃ t, exec (.readN 2) (rbcAt 3 1 mABCD) = .next t := ⟨rfl, _, rfl⟩

theorem witness_RbcFrame :
    isRbc (.writeN 2 [1, 2]) = true ∧ Ready (rbcAt 2 3 []) ∧
    (Instr.writeN 2 [1, 2]).wellFormed (rbcAt 2 3 []).rbc.cfg = true ∧
    (∃ t, exec (.writeN 2 [1, 2]) (rbcAt 2 3 []) = .next t) ∧
    (∃ t, rbcEdge (rbcAt 2 3 []) false true ⟨0x001, 0⟩ = .next t ∧ t.pos = 1) ∧
    ∃ t job, (inPhase (rbcAt 3 2 mABCD) (lastMoment (newJob .readN 2 0 2))).rbc.phase = .exec job ∧
      rbcEdge (inPhase (rbcAt 3 2 mABCD) (lastMoment (newJob .readN 2 0 2))) false false ⟨0, 0⟩ =
        .next t ∧ t.rbc.stoRe = true ∧ t.rbc.head = 0 :=
  ⟨rfl, ready_at 2 3 [] (by decide) (by decide), by decide, ⟨_, rfl⟩, ⟨_, rfl, rfl⟩,
   _, _, rfl, rfl, rfl, rfl⟩

theorem witness_IllegalElaborationIsRefused :
    checkRbc { Config.vectors with nw := 1 } = some .countTooNarrow ∧
    checkSf { Config.vectors with storage := .external, lSto := 2 } = some .sfLatency ∧
    checkAf { Config.vectors with syncN := 1 } = some .afSyncTooShort ∧
    isRbc .nop = true ∧ isSf .sfPop = true ∧ isAf .afPop = true := by decide

theorem witness_StatusOutputsAndVector :
    (rbcAt 3 2 mABCD).rbcReady ∧ checkShared Config.vectors = none ∧ 3 < Config.vectors.c :=
  ⟨⟨by decide, rfl⟩, by decide, by decide⟩

theorem witness_UnwrittenReadFaults :
    (Ready (rbcAt 3 1 mABC) ∧ 3 ≠ 1 ∧ slotObj Config.vectors mABC 3 = none) ∧
    (Ready (rbcAt 2 1 mABC) ∧ 1 < 3 ∧ 1 < occ Config.vectors 2 1 ∧
      slotObj Config.vectors mABC ((2 + 1) % 4) = none ∧ 3 ≤ occ Config.vectors 2 1) ∧
    (Ready (rbcAt 2 1 mABC) ∧ occ Config.vectors 2 1 ≠ 0 ∧
      slotObj Config.vectors mABC ((2 + 7 % occ Config.vectors 2 1) % 4) = none) ∧
    (SfReady (sfAt 3 1 mABC) ∧ 3 ≠ 1 ∧ slotObj Config.vectors mABC 3 = none) ∧
    (let s := { af3 with af := { af3.af with sto := [] } }
     s.afReadRuns ∧ s.af.emptyR = false ∧ s.af.rbin < s.af.cfg.c ∧
       slotObj s.af.cfg s.af.sto s.af.rbin = none) :=
  ⟨⟨ready_at 3 1 mABC (by decide) (by decide), by decide, by decide⟩,
   ⟨ready_at 2 1 mABC (by decide) (by decide), by decide, by decide, by decide, by decide⟩,
   ⟨ready_at 2 1 mABC (by decide) (by decide), by decide, by decide⟩,
   ⟨sfReady_at 3 1 mABC (by decide) (by decide), by decide, by decide⟩,
   ⟨by decide, rfl, rfl⟩, by decide, by decide, by decide⟩

theorem witness_RbcRefinesTheQueue :
    (rbcAt 3 1 mABCD).rbc.Inv ∧ (rbcAt 3 1 mABCD).rbc.phase = .idle ∧
    Instr.readObj.wellFormed (rbcAt 3 1 mABCD).rbc.cfg = true ∧
    (rbcAt 3 1 mABCD).rbc.contents = [0x44, 0x41].map some ∧
    queueCommand 3 .readObj [0x44, 0x41] = some ([0x41], ⟨.ok, 1, [], some 0x44⟩) :=
  ⟨rbcInv_wrapped, rfl, rfl, by decide, rfl⟩

/-- A write burst of two, a guarded one, and a header without data beats. -/
theorem witness_HeaderStartsACommand :
    (rbcAt 0 2 mAB).rbcReady ∧ (rbcAt 0 2 mAB).rbc.held = none ∧
    beatFits Config.vectors ⟨0x026, 0⟩ ∧ beatFits Config.vectors ⟨0x028, 0⟩ ∧
    beatFits Config.vectors ⟨0x006, 255⟩ ∧ beatFits Config.vectors ⟨0xFFF, 255⟩ :=
  ⟨⟨by decide, rfl⟩, rfl, ⟨by decide, by decide⟩, ⟨by decide, by decide⟩, ⟨by decide, by decide⟩,
   by decide, by decide⟩

/-- A burst at data beat `i` of `n = 2`, with `k = 1`, in the last of `LAT_MAX` cycles. -/
def inBurst (i : Nat) : State :=
  let s := inPhase (rbcAt 0 2 mAB) (.wdata .writeN 2 1 i)
  { s with rbc := { s.rbc with preTail := 2 } }

/-- Both clauses of the beat's write, and both of the phase after it. -/
theorem witness_DataBeatsAreWrittenUpToK :
    (checkRbc (inBurst 0).rbc.cfg = none ∧ (inBurst 0).rbc.tail < (inBurst 0).rbc.cfg.c ∧
      (inBurst 0).rbc.held = none ∧ beatFits Config.vectors ⟨0xFFF, 255⟩ ∧
      (inBurst 0).rbc.cmdReady false (Config.freeStall 0) = true ∧ 0 + 1 ≠ 2 ∧ 0 < 1) ∧
    ((inBurst 1).rbc.cmdReady false (Config.freeStall 0) = true ∧ 1 + 1 = 2 ∧ 1 ≤ 1) :=
  ⟨⟨by decide, by decide, rfl, ⟨by decide, by decide⟩, rfl, by decide, by decide⟩, rfl, rfl, by decide⟩

/-- A burst's wait that has lasted `LAT_MAX` cycles, and a beat held in `EXEC`. -/
theorem witness_HandshakeHoldsBeats :
    (State.reset.rbc.phase = .idle ∧ (inBurst 0).rbc.phase = .wdata .writeN 2 1 0 ∧
      (inBurst 0).rbc.cfg.latMax ≤ (inBurst 0).rbc.waited + 1) ∧
    (let s := inPhase State.reset (lastMoment (newJob .nop 0 0 0))
     (∃ t, rbcEdge s false true ⟨0x003, 0⟩ = .next t) ∧
     ∃ t, rbcEdge s true true ⟨0x003, 0⟩ = .next t ∧ t.rbc.held = some ⟨0x003, 0⟩ ∧
       checkRbc t.rbc.cfg = none ∧ (⟨0x004, 0⟩ : CmdBeat) ≠ ⟨0x003, 0⟩) ∧
    (checkRbc State.reset.rbc.cfg = none ∧ State.reset.rbc.held = none ∧
      checkRbc (inBurst 1).rbc.cfg = none ∧ (inBurst 1).rbc.held = none ∧
      (inBurst 1).rbc.phase = .wdata .writeN 2 1 1 ∧
      { (inBurst 1).rbc with waited := 0 }.cmdReady false true = false) :=
  ⟨⟨rfl, rfl, by decide⟩, ⟨⟨_, rfl⟩, _, rfl, rfl, by decide, by decide⟩,
   by decide, rfl, by decide, rfl, rfl, rfl⟩

theorem witness_RbcResetAbandonsTheCommand :
    checkRbc (inBurst 1).rbc.cfg = none ∧ (inBurst 1).rbc.held = none ∧
    beatFits Config.vectors ⟨0xFFF, 255⟩ := ⟨by decide, rfl, by decide, by decide⟩

theorem witness_OneCommandAtATime :
    (∃ t, rbcEdge (inBurst 1) false true ⟨0, 1⟩ = .next t ∧ (inBurst 1).rbc.held = none ∧
      (inBurst 1).rbc.phase = .wdata .writeN 2 1 1 ∧
      (inBurst 1).rbc.cmdReady false (Config.freeStall (inBurst 1).free) = true ∧ 1 + 1 = 2) ∧
    (∃ t, rbcEdge (inBurst 0) false true ⟨0, 1⟩ = .next t ∧
      (inBurst 0).rbc.phase = .wdata .writeN 2 1 0 ∧
      (inBurst 0).rbc.cmdReady false (Config.freeStall (inBurst 0).free) = true ∧ 0 + 1 ≠ 2) ∧
    (∃ t, rbcEdge (inBurst 0) false false ⟨0, 0⟩ = .next t) ∧
    let s := inPhase (rbcAt 0 2 mAB) (lastMoment (newJob .readN 2 0 2))
    (∃ t, rbcEdge s false false ⟨0, 0⟩ = .next t) ∧
    s.rbc.held = none ∧ ∃ t, rbcEdge s false true ⟨0x003, 0⟩ = .next t :=
  ⟨⟨_, rfl, rfl, rfl, rfl, rfl⟩, ⟨_, rfl, rfl, rfl, by decide⟩, ⟨_, rfl⟩, ⟨_, rfl⟩, rfl, _, rfl⟩

/-- A READ_N of two, at its first read, and with a read awaited for one more cycle and one for two. -/
def reading : State := inPhase (rbcAt 0 2 mAB) (lastMoment (newJob .readN 2 0 2))
def awaitingTwo : State :=
  inPhase (rbcAt 2 2 mAB) (lastMoment
    { newJob .readN 2 0 2 with issued := 2, flight := [⟨0, 0x41, 1⟩, ⟨1, 0x42, 2⟩] })

theorem witness_StoragePortShowsEveryWrite :
    (objFits Config.vectors 0x44 = true ∧ slotObj Config.vectors mABCD 3 = some 0x44) ∧
    (∃ t, rbcEdge (inBurst 0) false true ⟨0, 1⟩ = .next t ∧ t.rbc.stoWe = true) ∧
    (∃ t, rbcEdge (inBurst 1) false true ⟨0, 1⟩ = .next t ∧ t.rbc.stoWe = false) ∧
    (∃ t, rbcEdge reading false false ⟨0, 0⟩ = .next t ∧ t.rbc.stoRe = true ∧
      t.rbc.stoRdata = some 0x41) ∧
    (∃ job, awaitingTwo.rbc.phase = .exec job ∧ ⟨1, 0x42, 2⟩ ∈ job.flight) ∧
    ∃ t job, rbcEdge awaitingTwo false false ⟨0, 0⟩ = .next t ∧ t.rbc.phase = .exec job ∧
      t.rbc.rsp = some (dat 0 0 0x41) :=
  ⟨by decide, ⟨_, rfl, rfl⟩, ⟨_, rfl, rfl⟩, ⟨_, rfl, rfl, rfl⟩, ⟨_, rfl, by decide⟩, _, _, rfl, rfl, rfl⟩

theorem witness_StatusShowsAPrefix :
    (Ready (rbcAt 0 2 mAB) ∧
      (∃ t, rbcEdge (rbcAt 0 2 mAB) false true ⟨0x026, 0⟩ = .next t) ∧
      ∃ t, rbcEdge (rbcAt 0 2 mAB) false true ⟨0x037, 0⟩ = .next t) ∧
    ((inBurst 0).rbc.phase ≠ .idle ∧ (∃ t, rbcEdge (inBurst 0) false true ⟨0, 1⟩ = .next t) ∧
      reading.rbc.phase ≠ .idle ∧ ∃ t, rbcEdge reading false false ⟨0, 0⟩ = .next t) ∧
    State.reset.rbc.phase = .idle ∧ (inBurst 1).rbc.phase = .wdata .writeN 2 1 1 ∧
    isBurst .writeN = true ∧ ∃ job, reading.rbc.phase = .exec job :=
  ⟨⟨ready_at 0 2 mAB (by decide) (by decide), ⟨_, rfl⟩, _, rfl⟩,
   ⟨by decide, ⟨_, rfl⟩, by decide, _, rfl⟩, rfl, rfl, rfl, _, rfl⟩

theorem witness_CycleLevelRefinesTransactionLevel :
    (rbcAt 3 1 mABCD).rbc.Inv ∧ (rbcAt 3 1 mABCD).rbc.phase = .idle ∧
    (rbcAt 3 1 mABCD).rbc.held = none ∧
    (∀ x ∈ [(⟨0xFFF, 1⟩ : CmdBeat), ⟨0x123, 255⟩], beatFits (rbcAt 3 1 mABCD).rbc.cfg x) ∧
    decode (rbcAt 3 1 mABCD).rbc.cfg (.hdr 0x026 7 ([⟨0xFFF, 1⟩, ⟨0x123, 255⟩].map CmdBeat.data)) =
      .ok (.writeN 2 [1, 255]) :=
  ⟨rbcInv_wrapped, rfl, rfl, by unfold beatFits; decide, rfl⟩

theorem witness_SfIdleAndClear : checkSf (sfAt 2 2 mABCD).sf.cfg = none := by decide

theorem witness_SfPushStoresAtTail :
    (SfReady (sfAt 0 3 mABC) ∧ objFits Config.vectors 255 = true ∧ (3 + 1) % 4 = 0) ∧
    (SfReady (sfAt 1 3 mABC) ∧ (3 + 1) % 4 ≠ 1) :=
  ⟨⟨sfReady_at 0 3 mABC (by decide) (by decide), by decide, by decide⟩,
   sfReady_at 1 3 mABC (by decide) (by decide), by decide⟩

theorem witness_SfPopLoadsRdData :
    SfReady (sfAt 2 2 mABCD) ∧
    (SfReady (sfAt 3 1 mABCD) ∧ 3 ≠ 1 ∧ slotObj Config.vectors mABCD 3 = some 0x44) :=
  ⟨sfReady_at 2 2 mABCD (by decide) (by decide), sfReady_at 3 1 mABCD (by decide) (by decide),
   by decide, by decide⟩

theorem witness_SfPushPopOnOneEdge :
    (SfReady (sfAt 0 3 mABC) ∧ objFits Config.vectors 255 = true ∧ (3 + 1) % 4 = 0 ∧
      slotObj Config.vectors mABC 0 = some 0x41) ∧
    SfReady (sfAt 2 2 mABCD) ∧
    (SfReady (sfAt 3 1 mABCD) ∧ (1 + 1) % 4 ≠ 3 ∧ 3 ≠ 1 ∧
      slotObj Config.vectors mABCD 3 = some 0x44) :=
  ⟨⟨sfReady_at 0 3 mABC (by decide) (by decide), by decide, by decide, by decide⟩,
   sfReady_at 2 2 mABCD (by decide) (by decide), sfReady_at 3 1 mABCD (by decide) (by decide),
   by decide, by decide, by decide⟩

theorem witness_SfResetTakesPrecedence : checkSf (sfAt 2 1 mABCD).sf.cfg = none := by decide

/-- The full case, the empty one, and the one where both orders agree. -/
theorem witness_SfEdgeIsLinearisable :
    (sfAt 0 3 mABC).sf.Inv ∧ (sfAt 3 1 mABCD).sf.Inv ∧ objFits Config.vectors 255 = true ∧
    isEmpty 0 3 = false ∧ isFull Config.vectors 3 1 = false :=
  ⟨sfInv_full, sfInv_wrapped, by decide, by decide, by decide⟩

theorem witness_SfKeepsFifoOrder :
    (sfAt 3 1 mABCD).sf.Inv ∧ objFits (sfAt 3 1 mABCD).sf.cfg 255 = true ∧
    ∃ t, runEvent (.sfClk false 3 255) (sfAt 3 1 mABCD) = .next t ∧ t.sf.rdAck = true ∧
      t.sf.wrAck = true := ⟨sfInv_wrapped, by decide, _, rfl, rfl, rfl⟩

theorem witness_SfFrame :
    isSf (.sfPush 255) = true ∧ ∃ t, exec (.sfPush 255) (sfAt 3 1 mABCD) = .next t ∧
      t.sf.rdAck = false := ⟨rfl, _, rfl, rfl⟩

theorem witness_AfPushStoresAtWbin :
    (af3.afWriteRuns ∧ af3.af.wbin < af3.af.cfg.c ∧ objFits Config.vectors 255 = true ∧
      gray ((af3.af.wbin + 1) % 4) = chainOut af3.af.wq) ∧
    (af1.afWriteRuns ∧ af1.af.wbin < af1.af.cfg.c ∧
      gray ((af1.af.wbin + 1) % 4) ≠ chainOut af1.af.wq ∧ chainOut af1.af.wq < af1.af.cfg.c) :=
  ⟨⟨⟨by decide, rfl, rfl⟩, by decide, by decide, by decide⟩, ⟨by decide, rfl, rfl⟩, by decide,
   by decide, by decide⟩

theorem witness_AfIdleEdgesShift : af1.afWriteRuns ∧ af1.afReadRuns :=
  ⟨⟨by decide, rfl, rfl⟩, by decide, rfl, rfl⟩

theorem witness_AfPopLoadsRdData :
    (af1.afReadRuns ∧ af1.af.rbin < af1.af.cfg.c ∧ af1.af.rgray = chainOut af1.af.rq) ∧
    (af3.afReadRuns ∧ af3.af.rbin < af3.af.cfg.c ∧ af3.af.rgray ≠ chainOut af3.af.rq ∧
      slotObj af3.af.cfg af3.af.sto af3.af.rbin = some 0x41 ∧ chainOut af3.af.rq < af3.af.cfg.c ∧
      af3.af.rgray = gray af3.af.rbin) :=
  ⟨⟨⟨by decide, rfl, rfl⟩, by decide, by decide⟩, ⟨by decide, rfl, rfl⟩, by decide, by decide,
   by decide, by decide, by decide⟩

theorem witness_AfFlagsAndLevelsAreConservative :
    af3.af.Inv ∧ af3.af.wc - af3.af.rc = af3.af.cfg.c - 1 ∧ af1.af.Inv :=
  ⟨afInv_full, by decide, afInv_inFlight⟩

theorem witness_AfCountsLagAndNeverDecrease :
    af3.af.Inv ∧ (∃ t, runEvent (.rclk 1) af3 = .next t) ∧ ∀ l, Event.rclk 1 ≠ .arst l :=
  ⟨afInv_full, ⟨_, rfl⟩, nofun⟩

theorem witness_AfNeverOverflowsOrUnderflows :
    af3.af.Inv ∧ ∃ t, exec .afPop af3 = .next t ∧ t.af.rc ≠ af3.af.rc :=
  ⟨afInv_full, _, rfl, by decide⟩

theorem witness_AfKeepsFifoOrder :
    af3.af.Inv ∧ Instr.afPop.wellFormed af3.af.cfg = true ∧
    ∃ t, exec .afPop af3 = .next t ∧ t.af.rdAck = true :=
  ⟨afInv_full, rfl, _, rfl, rfl⟩

/-- A list of AF edges whose control vectors and objects fit. -/
theorem afEdges_of {p : Config} {es : List Event}
    (h : es.all (fun e => match e with
      | .rclk w => decide (w < 2)
      | .wclk w d => decide (w < 2) && objFits p d
      | _ => false) = true) : afEdges p es := by
  intro e he
  have hf := List.all_eq_true.mp h e he
  split at hf
  · exact .inl ⟨_, of_decide_eq_true hf, rfl⟩
  · simp only [Bool.and_eq_true, decide_eq_true_eq] at hf
    exact .inr ⟨_, _, hf.1, hf.2, rfl⟩
  · exact absurd hf (by decide)

/-- Three `rclk` edges, one of them a pop, among idle `wclk` edges; the other way round; a full FIFO
whose producer asks at every edge and is refused; an empty one whose consumer asks and is refused. -/
theorem witness_AfPointersCatchUp :
    (af1.af.Inv ∧ af1.af.arstN = true ∧
      afEdges af1.af.cfg [.rclk 1, .wclk 0 0, .rclk 0, .rclk 1] ∧
      af1.af.cfg.syncN + 1 ≤ rclkEdges [.rclk 1, .wclk 0 0, .rclk 0, .rclk 1]) ∧
    (af3.af.Inv ∧ af3.af.arstN = true ∧
      afEdges af3.af.cfg [.wclk 1 5, .rclk 0, .wclk 0 0, .wclk 0 0] ∧
      af3.af.cfg.syncN + 1 ≤ wclkEdges [.wclk 1 5, .rclk 0, .wclk 0 0, .wclk 0 0]) ∧
    (let es : List Event := [.wclk 1 5, .rclk 0, .wclk 1 5, .rclk 0, .rclk 0]
     afEdges af3.af.cfg es ∧ af3.af.cfg.syncN + 1 ≤ rclkEdges es ∧
      ∃ t, Sys2Proof.core.run es.length { af3 with script := es } = .next t ∧
        t.af.wrOvf = true ∧ t.af.wc = af3.af.wc) ∧
    (let es : List Event := [.rclk 1, .wclk 0 0, .rclk 1, .wclk 0 0, .wclk 0 0]
     afEdges State.reset.af.cfg es ∧ State.reset.af.cfg.syncN + 1 ≤ wclkEdges es ∧
      ∃ t, Sys2Proof.core.run es.length { State.reset with script := es } = .next t ∧
        t.af.rdUnf = true ∧ t.af.rc = State.reset.af.rc) :=
  ⟨⟨afInv_inFlight, rfl, afEdges_of (by decide), by decide⟩,
   ⟨afInv_full, rfl, afEdges_of (by decide), by decide⟩,
   ⟨afEdges_of (by decide), by decide, _, rfl, rfl, rfl⟩,
   afEdges_of (by decide), by decide, _, rfl, rfl, rfl⟩

theorem witness_AfResetClearsBothDomains :
    checkAf af3.af.cfg = none ∧
    (let s := { State.reset with af := af3.af.assertReset }
     checkAf s.af.cfg = none ∧ s.af.wLive = false ∧ s.af.rLive = false ∧ s.af.arstN = false) ∧
    (let s := { State.reset with af := af3.af.assertReset.driveReset true }
     checkAf s.af.cfg = none ∧ s.af.wLive = false ∧ s.af.rLive = false ∧ s.af.arstN = true) := by
  decide

/-- The last clause: a domain in reset, under `arst_n = 0` and at an edge of the other clock. -/
theorem witness_AfResetClearsBothDomains_stays :
    (∃ t, runEvent (.wclk 1 5) { State.reset with af := af3.af.assertReset } = .next t) ∧
    (∃ t, runEvent (.rclk 1) { State.reset with af := af3.af.assertReset.driveReset true } = .next t) ∧
    ∀ w d, Event.rclk 1 ≠ .wclk w d := ⟨⟨_, rfl⟩, ⟨_, rfl⟩, nofun⟩

theorem witness_AfFrame :
    isAf (.afPush 255) = true ∧ (∃ t, exec (.afPush 255) af3 = .next t ∧ t.af.wrAck = false) ∧
    ∃ t, exec .afPop af3 = .next t := ⟨rfl, ⟨_, rfl, rfl⟩, _, rfl⟩

theorem witness_ResetMeetsTheInvariant :
    checkRbc { Config.vectors with c := 5, s := 2 } = none ∧
    checkSf { Config.vectors with storage := .external } = none ∧
    checkAf { Config.vectors with c := 8, syncN := 3 } = none := by decide

theorem witness_StepKeepsTheInvariant : atWork.Inv ∧ ∃ t, step atWork = .next t :=
  ⟨atWork_inv, _, rfl⟩

theorem witness_NoStepFaults : atWork.Inv := atWork_inv

theorem witness_ParametersNeverChange : ∃ t, step atWork = .next t := ⟨_, rfl⟩

theorem witness_ForeignMovesAreRefused :
    { State.reset with script := [.secondAgent .rbc] }.script = [.secondAgent .rbc] ∧
    { State.reset with script := [.domainReset .write] }.script = [.domainReset .write] := by decide

end Sys2Proof.Tests
end

section
/-! R25: a read of storage that nothing has written faults, in every instruction that reads. -/

namespace Sys2Proof.Machine

/-! ## A fault inside a frame is the frame's fault -/

theorem transact_of_error {s : State} {f : Rbc → Except Fault (Rbc × Response)} {e : Fault}
    (hs : s.rbcReady) (hf : f s.rbc = .error e) : transact s f = .fault e := by
  obtain ⟨hc, hi⟩ := hs
  simp [transact, hc, hi, Phase.isIdle, hf]

theorem onSf_of_error {s : State} {f : Sf → Except Fault Sf} {e : Fault}
    (hc : checkSf s.sf.cfg = none) (hf : f s.sf = .error e) : onSf s f = .fault e := by
  simp [onSf, hc, hf]

theorem onAf_of_error {s : State} {f : Nat → Bool → Af → Except Fault Af} {e : Fault}
    (hc : checkAf s.af.cfg = none)
    (hf : f (Config.freeSample s.free) (Config.freeRelease s.free) s.af = .error e) :
    onAf s f = .fault e := by
  simp [onAf, hc, hf]

/-! ## One-object reads of an unwritten slot -/

theorem memRead_of_unwritten {p : Config} {m : Memory} {slot : Nat} (hs : slot < p.c)
    (h : slotObj p m slot = none) : memRead p m slot = .error .unwrittenStorage := by
  unfold slotObj at h
  simp [memRead, hs, h]

theorem Rbc.takeOne_of_unwritten {b : Rbc} (hh : b.head < b.cfg.c)
    (h : slotObj b.cfg b.sto b.head = none) : b.takeOne = .error .unwrittenStorage := by
  simp [Rbc.takeOne, memRead_of_unwritten hh h]

theorem Af.popOne_of_unwritten {a : Af} (hr : a.rbin < a.cfg.c)
    (h : slotObj a.cfg a.sto a.rbin = none) : a.popOne = .error .unwrittenStorage := by
  simp [Af.popOne, memRead_of_unwritten hr h]

/-- A loop of reads stops at its first unwritten slot, which is the `j`-th or one before it. -/
theorem takeEach_of_unwritten {b : Rbc} {n j : Nat} (hc : checkShared b.cfg = none)
    (hh : b.head < b.cfg.c) (hj : j < n)
    (h : slotObj b.cfg b.sto (addk b.cfg b.head j) = none) :
    takeEach n b = .error .unwrittenStorage := by
  induction n generalizing b j with
  | zero => omega
  | succ n ih =>
    cases hd : slotObj b.cfg b.sto b.head with
    | none => simp [takeEach, Rbc.takeOne_of_unwritten hh hd]
    | some d =>
      cases j with
      | zero => simp [addk_zero hc hh, hd] at h
      | succ j =>
        have hrest : takeEach n b.dropOne = .error .unwrittenStorage :=
          ih (j := j) hc (adv_lt hc _) (by omega) (by simpa [addk_adv hc] using h)
        simp [takeEach, Rbc.takeOne_of_slotObj hh hd, hrest]

/-! ## The instructions that read -/

theorem Rbc.readObjCommand_of_unwritten {b : Rbc} (hh : b.head < b.cfg.c) (hne : b.head ≠ b.tail)
    (h : slotObj b.cfg b.sto b.head = none) : b.readObjCommand = .error .unwrittenStorage := by
  simp [Rbc.readObjCommand, isEmpty, hne, Rbc.takeOne_of_unwritten hh h]

theorem Rbc.readNCommand_of_unwritten {b : Rbc} {n j : Nat} (hc : checkShared b.cfg = none)
    (hh : b.head < b.cfg.c) (ht : b.tail < b.cfg.c) (hn : j < n)
    (ho : j < occ b.cfg b.head b.tail)
    (h : slotObj b.cfg b.sto (addk b.cfg b.head j) = none) :
    b.readNCommand n = .error .unwrittenStorage := by
  have htake := takeEach_of_unwritten hc hh (lt_min hn ho) h
  simp [Rbc.readNCommand, takeUntilEmpty_eq hc hh ht, htake]

theorem Rbc.readAllCommand_of_unwritten {b : Rbc} {n j : Nat} (hc : checkShared b.cfg = none)
    (hh : b.head < b.cfg.c) (hn : j < n) (ho : n ≤ occ b.cfg b.head b.tail)
    (h : slotObj b.cfg b.sto (addk b.cfg b.head j) = none) :
    b.readAllCommand n = .error .unwrittenStorage := by
  simp [Rbc.readAllCommand, ho, takeEach_of_unwritten hc hh hn h]

theorem Rbc.peekNthCommand_of_unwritten {b : Rbc} {n : Nat} (hc : checkShared b.cfg = none)
    (ho : occ b.cfg b.head b.tail ≠ 0)
    (h : slotObj b.cfg b.sto (addk b.cfg b.head (n % occ b.cfg b.head b.tail)) = none) :
    b.peekNthCommand n = .error .unwrittenStorage := by
  simp [Rbc.peekNthCommand, ho, readSlot, memRead_of_unwritten (addk_lt hc _ _) h]

/-- The pop is judged before the push, so its fault stands whatever is pushed at the same edge. -/
theorem Sf.edge_of_unwritten {f : Sf} (wrEn : Bool) (d : Nat) (hh : f.head < f.cfg.c)
    (hne : f.head ≠ f.tail) (h : slotObj f.cfg f.sto f.head = none) :
    f.edge wrEn true d = .error .unwrittenStorage := by
  simp [Sf.edge, isEmpty, hne, memRead_of_unwritten hh h]

theorem Af.rclkEdge_of_unwritten {a : Af} (draw : Nat) (release : Bool) (hn : a.arstN = true)
    (hl : a.rLive = true) (he : a.emptyR = false) (hr : a.rbin < a.cfg.c)
    (h : slotObj a.cfg a.sto a.rbin = none) :
    a.rclkEdge true draw release = .error .unwrittenStorage := by
  simp [Af.rclkEdge, hn, hl, Af.rEdge, he, Af.popOne_of_unwritten hr h]

/-- Settles O27: each reading instruction's unwritten read, through the frame it runs in. -/
theorem unwrittenReadFaults : Obligations.UnwrittenReadFaults := by
  unfold Obligations.UnwrittenReadFaults
  refine ⟨?readObj, ?bulk, ?peekNth, ?sfPop, ?afPop⟩
  case readObj =>
    intro s ⟨hs, hh, _⟩ hne h
    exact transact_of_error hs (Rbc.readObjCommand_of_unwritten hh hne h)
  case bulk =>
    intro s n j ⟨hs, hh, ht⟩ hn ho h
    have hc := checkRbc_shared hs.1
    rw [← addk_eq_mod hc] at h
    exact ⟨transact_of_error hs (Rbc.readNCommand_of_unwritten hc hh ht hn ho h),
      fun hle => transact_of_error hs (Rbc.readAllCommand_of_unwritten hc hh hn hle h)⟩
  case peekNth =>
    intro s n ⟨hs, _, _⟩ ho h
    have hc := checkRbc_shared hs.1
    rw [← addk_eq_mod hc] at h
    exact transact_of_error hs (Rbc.peekNthCommand_of_unwritten hc ho h)
  case sfPop =>
    intro s d ⟨hc, hh, _⟩ hne h
    exact ⟨onSf_of_error hc (Sf.edge_of_unwritten false 0 hh hne h),
      onSf_of_error hc (Sf.edge_of_unwritten true d hh hne h)⟩
  case afPop =>
    intro s ⟨hc, hn, hl⟩ he hr h
    exact onAf_of_error hc (Af.rclkEdge_of_unwritten _ _ hn hl he hr h)

end Sys2Proof.Machine
end

section
/-! Which block an instruction drives, and what the decoder of each port answers. -/

open Sys2Proof.Statements

namespace Sys2Proof.Machine

/-! ## One frame for each block's instructions (41 to 45) -/

/-- The command an RBC instruction runs as one transaction (R112). -/
def commandOf : Instr → Rbc → Except Fault (Rbc × Response)
  | .clear => Rbc.clearCommand
  | .writeObj d => Rbc.writeObjCommand d
  | .readObj => Rbc.readObjCommand
  | .deleteHead => Rbc.deleteHeadCommand
  | .deleteN n => Rbc.deleteNCommand n
  | .writeN n ds => Rbc.writeNCommand n ds
  | .readN n => Rbc.readNCommand n
  | .writeAll n ds => Rbc.writeAllCommand n ds
  | .readAll n => Rbc.readAllCommand n
  | .peekNth n => Rbc.peekNthCommand n
  | .qEmpty => Rbc.qEmptyCommand
  | .qFull => Rbc.qFullCommand
  | .qOccupied => Rbc.qOccupiedCommand
  | .qFree => Rbc.qFreeCommand
  | .reservedF => Rbc.reservedCommand
  | _ => Rbc.nopCommand

/-- Every RBC instruction is its command, run as a transaction. -/
theorem exec_rbc {i : Instr} (h : isRbc i = true) (s : State) :
    exec i s = transact s (commandOf i) := by
  cases i
  case sfIdle | sfPush | sfPop | sfPushPop | sfClear | afWidle | afPush | afRidle | afPop => cases h
  all_goals rfl

/-- Every SF instruction is one edge of SF's clock: a cleared block, or the edge of R811. -/
theorem exec_sf {i : Instr} (h : isSf i = true) (s : State) :
    exec i s = onSf s (fun f => .ok f.cleared) ∨ ∃ wr rd d, exec i s = onSf s (Sf.edge wr rd d) := by
  cases i
  case sfClear => exact .inl rfl
  case sfIdle => exact .inr ⟨false, false, 0, rfl⟩
  case sfPush d => exact .inr ⟨true, false, d, rfl⟩
  case sfPop => exact .inr ⟨false, true, 0, rfl⟩
  case sfPushPop d => exact .inr ⟨true, true, d, rfl⟩
  all_goals cases h

/-- Every AF instruction is one edge of one of AF's clocks. -/
theorem exec_af {i : Instr} (h : isAf i = true) (s : State) :
    (∃ winc d, exec i s = onAf s (Af.wclkEdge winc d)) ∨
      ∃ rinc, exec i s = onAf s (Af.rclkEdge rinc) := by
  cases i
  case afWidle => exact .inl ⟨false, 0, rfl⟩
  case afPush d => exact .inl ⟨true, d, rfl⟩
  case afRidle => exact .inr ⟨false, rfl⟩
  case afPop => exact .inr ⟨true, rfl⟩
  all_goals cases h

/-! ## What each port decodes to -/

theorem isRbc_ofHeader (op : Opcode) (n d : Nat) (ds : List Nat) :
    isRbc (Instr.ofHeader op n d ds) = true := by
  cases op <;> rfl

/-- R310, R351: a header whose fields fit and whose beats are those it asks for is well-formed. -/
theorem wellFormed_ofHeader {p : Config} {op : Opcode} {n d : Nat} {ds : List Nat}
    (hn : countFits p n = true) (hd : objFits p d = true) (hds : ds.all (objFits p) = true)
    (hl : ds.length = burstLength op n) : (Instr.ofHeader op n d ds).wellFormed p = true := by
  cases op
  case writeN | writeAll =>
    have hl : ds.length = n := hl
    simp only [Instr.ofHeader, Instr.wellFormed, burstFits, hn, hds, hl, decide_true, Bool.and_self]
  case writeObj => exact hd
  case deleteN | readN | readAll | peekNth => exact hn
  all_goals rfl

/-- R301: `cmd_n` is the header without its four opcode bits. -/
theorem headerN_lt {w k : Nat} (h : w < 2 ^ (k + 4)) : headerN w < 2 ^ k := by
  rw [Nat.pow_add] at h
  unfold headerN
  omega

theorem decodeHeader_ok {p : Config} {w d : Nat} {ds : List Nat} {i : Instr}
    (h : decode p (.hdr w d ds) = .ok i) : isRbc i = true ∧ i.wellFormed p = true := by
  simp only [decode, decodeHeader] at h
  split at h
  · cases h
  rename_i hw
  split at h
  · cases h
  rename_i ho
  split at h
  · cases h
  rename_i hl
  simp only [Bool.not_eq_true', Bool.not_eq_false, decide_eq_true_eq, Bool.and_eq_true] at hw ho
  obtain rfl := Except.ok.inj h
  exact ⟨isRbc_ofHeader .., wellFormed_ofHeader (decide_eq_true (headerN_lt hw)) ho.1 ho.2
    (not_not.1 hl)⟩

theorem decodeSf_isSf {p : Config} {w d : Nat} {i : Instr} (h : decode p (.sfCtl w d) = .ok i) :
    isSf i = true := by
  simp only [decode, decodeSf] at h
  repeat' split at h
  all_goals cases h
  all_goals rfl

theorem decodeAfW_isAf {p : Config} {w d : Nat} {i : Instr} (h : decode p (.afW w d) = .ok i) :
    isAf i = true := by
  simp only [decode, decodeAfW] at h
  repeat' split at h
  all_goals cases h
  all_goals rfl

theorem decodeAfR_isAf {p : Config} {w : Nat} {i : Instr} (h : decode p (.afR w) = .ok i) :
    isAf i = true := by
  simp only [decode, decodeAfR] at h
  repeat' split at h
  all_goals cases h
  all_goals rfl

/-! ## R17: asking for a legal elaboration twice asks once -/

@[simp] theorem legally_legally {α : Type} (c : Option Refusal)
    (o : Host.Outcome α Fault Refusal) : legally c (legally c o) = legally c o := by
  cases c <;> rfl

theorem legally_exec_rbc {i : Instr} (h : isRbc i = true) (s : State) :
    legally (checkRbc s.rbc.cfg) (exec i s) = exec i s := by
  rw [exec_rbc h, transact, legally_legally]

theorem legally_exec_sf {i : Instr} (h : isSf i = true) (s : State) :
    legally (checkSf s.sf.cfg) (exec i s) = exec i s := by
  obtain he | ⟨wr, rd, d, he⟩ := exec_sf h s <;> rw [he, onSf, legally_legally]

theorem legally_exec_af {i : Instr} (h : isAf i = true) (s : State) :
    legally (checkAf s.af.cfg) (exec i s) = exec i s := by
  obtain ⟨winc, d, he⟩ | ⟨rinc, he⟩ := exec_af h s <;> rw [he, onAf, legally_legally]

/-! ## The step -/

/-- A step with an event left runs it on the rest of the script. -/
theorem step_cons {s : State} {e : Event} {rest : List Event} (h : s.script = e :: rest) :
    step s = runEvent e { s with script := rest } := by
  simp only [step, h]

theorem decodeAndExec_of_ok {p : Config} {word : PortWord} {i : Instr}
    (h : decode p word = .ok i) (s : State) : decodeAndExec p word s = exec i s := by
  simp only [decodeAndExec, h]

/-- R341: the beat the host holds is the one it may present. -/
theorem Rbc.holdsBeat_of_held {b : Rbc} {beat : CmdBeat}
    (h : b.held = none ∨ b.held = some beat) : b.holdsBeat true beat = true := by
  obtain h | h := h <;> simp [Rbc.holdsBeat, h]

/-- Settles O4: the event's own check is the one its instruction makes, so the step is `exec`. -/
theorem stepRunsTheDecodedInstruction : Obligations.StepRunsTheDecodedInstruction := by
  unfold Obligations.StepRunsTheDecodedInstruction
  refine ⟨?cmd, ?sfClk, ?wclk, ?rclk, ?none⟩
  case cmd =>
    intro s w d ds rest i hs hheld hd
    have hb : s.rbc.holdsBeat true ⟨w, d⟩ = true := Rbc.holdsBeat_of_held hheld
    rw [step_cons hs, runEvent, ← legally_exec_rbc (decodeHeader_ok hd).1]
    simp only [Event.check, runLegal, runCommand]
    rw [if_pos hb, decodeAndExec_of_ok hd]
    rfl
  case sfClk =>
    intro s w d rest i hs hd
    rw [step_cons hs, runEvent, ← legally_exec_sf (decodeSf_isSf hd)]
    simp only [Event.check, runLegal, runSfEdge, decodeAndExec_of_ok hd]
    rfl
  case wclk =>
    intro s w d rest i hs hd
    rw [step_cons hs, runEvent, ← legally_exec_af (decodeAfW_isAf hd)]
    simp only [Event.check, runLegal, decodeAndExec_of_ok hd]
  case rclk =>
    intro s w rest i hs hd
    rw [step_cons hs, runEvent, ← legally_exec_af (decodeAfR_isAf hd)]
    simp only [Event.check, runLegal, decodeAndExec_of_ok hd]
  case none =>
    intro s hs
    simp only [step, hs]

end Sys2Proof.Machine
end

section
/-! What an RBC command writes and what it keeps: the read cursor, or the write cursor and storage,
and the part of the invariant that speaks of them. -/

open Sys2Proof.Statements

namespace Sys2Proof.Machine

/-! ## Frames of the one-object steps and their loops (R110, R210) -/

/-- `b'` differs from `b` in the read cursor at most. -/
def Rbc.HeadMoved (b b' : Rbc) : Prop := ∃ h, b' = { b with head := h }

/-- `b'` differs from `b` in the write cursor and in storage at most. -/
def Rbc.Stored (b b' : Rbc) : Prop := ∃ t m, b' = { b with tail := t, sto := m }

/-- `b'` differs from `b` in the cursors and in storage at most. -/
def Rbc.Moved (b b' : Rbc) : Prop := ∃ h t m, b' = { b with head := h, tail := t, sto := m }

theorem Rbc.HeadMoved.refl (b : Rbc) : b.HeadMoved b := ⟨b.head, rfl⟩

theorem Rbc.HeadMoved.dropOne (b : Rbc) : b.HeadMoved b.dropOne := ⟨_, rfl⟩

theorem Rbc.HeadMoved.trans {a b c : Rbc} (h₁ : a.HeadMoved b) (h₂ : b.HeadMoved c) :
    a.HeadMoved c := by
  obtain ⟨_, rfl⟩ := h₁
  obtain ⟨_, rfl⟩ := h₂
  exact ⟨_, rfl⟩

theorem Rbc.HeadMoved.moved {b b' : Rbc} (h : b.HeadMoved b') : b.Moved b' := by
  obtain ⟨x, rfl⟩ := h
  exact ⟨x, b.tail, b.sto, rfl⟩

theorem Rbc.Stored.refl (b : Rbc) : b.Stored b := ⟨b.tail, b.sto, rfl⟩

theorem Rbc.Stored.trans {a b c : Rbc} (h₁ : a.Stored b) (h₂ : b.Stored c) : a.Stored c := by
  obtain ⟨_, _, rfl⟩ := h₁
  obtain ⟨_, _, rfl⟩ := h₂
  exact ⟨_, _, rfl⟩

theorem Rbc.Stored.moved {b b' : Rbc} (h : b.Stored b') : b.Moved b' := by
  obtain ⟨t, m, rfl⟩ := h
  exact ⟨b.head, t, m, rfl⟩

theorem Rbc.Moved.frame {b b' : Rbc} (h : b.Moved b') :
    b'.cfg = b.cfg ∧ b'.phase = b.phase ∧ b'.port = b.port ∧ b'.held = b.held ∧
      b'.preHead = b.preHead ∧ b'.preTail = b.preTail ∧ b'.waited = b.waited ∧ b'.rsp = b.rsp ∧
      b'.out = b.out := by
  obtain ⟨_, _, _, rfl⟩ := h
  exact ⟨rfl, rfl, rfl, rfl, rfl, rfl, rfl, rfl, rfl⟩

theorem Rbc.Moved.refl (b : Rbc) : b.Moved b := (Rbc.HeadMoved.refl b).moved

theorem Rbc.writeOne_stored {b b' : Rbc} {d : Nat} (h : b.writeOne d = .ok b') : b.Stored b' := by
  obtain ⟨m, -, rfl⟩ := Rbc.writeOne_ok h
  exact ⟨_, m, rfl⟩

theorem takeEach_headMoved {n : Nat} {b b' : Rbc} {xs : List (Nat × Nat)}
    (h : takeEach n b = .ok (b', xs)) : b.HeadMoved b' := by
  induction n generalizing b b' xs with
  | zero => cases h; exact .refl _
  | succ n ih =>
    unfold takeEach at h
    split at h
    · cases h
    · rename_i x b₁ hx
      obtain ⟨-, -, -, rfl⟩ := Rbc.takeOne_ok hx
      split at h
      · cases h
      · rename_i hrest
        cases h
        exact (Rbc.HeadMoved.dropOne b).trans (ih hrest)

theorem takeUntilEmpty_headMoved {n : Nat} {b b' : Rbc} {xs : List (Nat × Nat)}
    (h : takeUntilEmpty n b = .ok (b', xs)) : b.HeadMoved b' := by
  induction n generalizing b b' xs with
  | zero => cases h; exact .refl _
  | succ n ih =>
    unfold takeUntilEmpty at h
    split at h
    · cases h; exact .refl _
    · split at h
      · cases h
      · rename_i x b₁ hx
        obtain ⟨-, -, -, rfl⟩ := Rbc.takeOne_ok hx
        split at h
        · cases h
        · rename_i hrest
          cases h
          exact (Rbc.HeadMoved.dropOne b).trans (ih hrest)

theorem dropUntilEmpty_headMoved (n : Nat) (b : Rbc) : b.HeadMoved (dropUntilEmpty n b).1 := by
  induction n generalizing b with
  | zero => exact .refl b
  | succ n ih =>
    unfold dropUntilEmpty
    split
    · exact .refl b
    · exact (Rbc.HeadMoved.dropOne b).trans (ih _)

theorem writeEach_stored {ds : List Nat} {b b' : Rbc} (h : writeEach ds b = .ok b') :
    b.Stored b' := by
  induction ds generalizing b with
  | nil => cases h; exact .refl _
  | cons d ds ih =>
    unfold writeEach at h
    split at h
    · cases h
    · rename_i hd
      exact (Rbc.writeOne_stored hd).trans (ih h)

theorem writeUntilFull_stored {ds : List Nat} {b b' : Rbc} {k : Nat}
    (h : writeUntilFull ds b = .ok (b', k)) : b.Stored b' := by
  induction ds generalizing b b' k with
  | nil => cases h; exact .refl _
  | cons d ds ih =>
    unfold writeUntilFull at h
    split at h
    · cases h; exact .refl _
    · split at h
      · cases h
      · rename_i hd
        split at h
        · cases h
        · rename_i hrest
          cases h
          exact (Rbc.writeOne_stored hd).trans (ih hrest)

/-! ## What each command can answer (R600 to R613, R700) -/

/-- The two answers of WRITE_OBJ (R600). -/
theorem Rbc.writeObjCommand_ok {b b' : Rbc} {d : Nat} {r : Response}
    (h : b.writeObjCommand d = .ok (b', r)) :
    (isFull b.cfg b.head b.tail = true ∧ b' = b ∧ r = answer .full 0) ∨
    (isFull b.cfg b.head b.tail = false ∧ b.writeOne d = .ok b' ∧ r = answer .ok 1) := by
  unfold Rbc.writeObjCommand at h
  split at h
  · rename_i hf
    cases h
    exact .inl ⟨hf, rfl, rfl⟩
  · rename_i hf
    split at h
    · cases h
    · rename_i hd
      cases h
      exact .inr ⟨Bool.eq_false_of_not_eq_true hf, hd, rfl⟩

/-- WRITE_N answers the objects its loop stored (R610). -/
theorem Rbc.writeNCommand_ok {b b' : Rbc} {n : Nat} {ds : List Nat} {r : Response}
    (h : b.writeNCommand n ds = .ok (b', r)) :
    ∃ k, writeUntilFull ds b = .ok (b', k) ∧ r = answer (shortfall .full n k) k := by
  unfold Rbc.writeNCommand at h
  split at h
  · cases h
  · rename_i hds
    cases h
    exact ⟨_, hds, rfl⟩

/-- The loop of WRITE_N stores the objects that fit, one by one, and counts them (R610). -/
theorem writeUntilFull_ok {b b' : Rbc} {ds : List Nat} {k : Nat} (hc : checkShared b.cfg = none)
    (hh : b.head < b.cfg.c) (ht : b.tail < b.cfg.c) (h : writeUntilFull ds b = .ok (b', k)) :
    k = min ds.length (freeSlots b.cfg b.head b.tail) ∧
      writeEach (ds.take (freeSlots b.cfg b.head b.tail)) b = .ok b' := by
  rw [writeUntilFull_eq hc hh ht] at h
  split at h
  · cases h
  · rename_i hds
    cases h
    exact ⟨rfl, hds⟩

/-- The two answers of WRITE_ALL (R612). -/
theorem Rbc.writeAllCommand_ok {b b' : Rbc} {n : Nat} {ds : List Nat} {r : Response}
    (h : b.writeAllCommand n ds = .ok (b', r)) :
    (n ≤ freeSlots b.cfg b.head b.tail ∧ writeEach ds b = .ok b' ∧ r = answer .ok n) ∨
    (¬n ≤ freeSlots b.cfg b.head b.tail ∧ b' = b ∧ r = answer .full 0) := by
  unfold Rbc.writeAllCommand at h
  split at h
  · rename_i hn
    split at h
    · cases h
    · rename_i hw
      cases h
      exact .inl ⟨hn, hw, rfl⟩
  · rename_i hn
    cases h
    exact .inr ⟨hn, rfl, rfl⟩

/-- The two answers of READ_OBJ (R601). -/
theorem Rbc.readObjCommand_ok {b b' : Rbc} {r : Response}
    (h : b.readObjCommand = .ok (b', r)) :
    (isEmpty b.head b.tail = true ∧ b' = b ∧ r = answer .empty 0) ∨
    (isEmpty b.head b.tail = false ∧
      ∃ x, b.takeOne = .ok (x, b.dropOne) ∧ b' = b.dropOne ∧ r = answerObject 1 x.1 x.2) := by
  unfold Rbc.readObjCommand at h
  split at h
  · rename_i he
    cases h
    exact .inl ⟨he, rfl, rfl⟩
  · rename_i he
    split at h
    · cases h
    · rename_i x b₁ hx
      cases h
      obtain ⟨-, -, -, rfl⟩ := Rbc.takeOne_ok hx
      exact .inr ⟨Bool.eq_false_of_not_eq_true he, x, hx, rfl, rfl⟩

/-- The two answers of DELETE_HEAD (R602). -/
theorem Rbc.deleteHeadCommand_ok {b b' : Rbc} {r : Response}
    (h : b.deleteHeadCommand = .ok (b', r)) :
    (isEmpty b.head b.tail = true ∧ b' = b ∧ r = answer .empty 0) ∨
    (isEmpty b.head b.tail = false ∧ b' = b.dropOne ∧ r = answer .ok 1) := by
  unfold Rbc.deleteHeadCommand at h
  split at h
  · rename_i he
    cases h
    exact .inl ⟨he, rfl, rfl⟩
  · rename_i he
    cases h
    exact .inr ⟨Bool.eq_false_of_not_eq_true he, rfl, rfl⟩

/-- READ_N answers the objects its loop took (R611). -/
theorem Rbc.readNCommand_ok {b b' : Rbc} {n : Nat} {r : Response}
    (h : b.readNCommand n = .ok (b', r)) :
    ∃ xs, takeUntilEmpty n b = .ok (b', xs) ∧
      r = { answer (shortfall .empty n xs.length) xs.length with beats := xs } := by
  unfold Rbc.readNCommand at h
  split at h
  · cases h
  · rename_i xs hxs
    cases h
    exact ⟨xs, hxs, rfl⟩

/-- The two answers of READ_ALL (R613). -/
theorem Rbc.readAllCommand_ok {b b' : Rbc} {n : Nat} {r : Response}
    (h : b.readAllCommand n = .ok (b', r)) :
    (n ≤ occ b.cfg b.head b.tail ∧
      ∃ xs, takeEach n b = .ok (b', xs) ∧ r = { answer .ok n with beats := xs }) ∨
    (¬n ≤ occ b.cfg b.head b.tail ∧ b' = b ∧ r = answer .empty 0) := by
  unfold Rbc.readAllCommand at h
  split at h
  · rename_i hn
    split at h
    · cases h
    · rename_i xs hxs
      cases h
      exact .inl ⟨hn, xs, hxs, rfl⟩
  · rename_i hn
    cases h
    exact .inr ⟨hn, rfl, rfl⟩

/-- The two answers of PEEK_NTH, which changes nothing (R700). -/
theorem Rbc.peekNthCommand_ok {b b' : Rbc} {n : Nat} {r : Response}
    (h : b.peekNthCommand n = .ok (b', r)) :
    b' = b ∧ ((occ b.cfg b.head b.tail = 0 ∧ r = answer .empty 0) ∨
      (0 < occ b.cfg b.head b.tail ∧
        ∃ d, memRead b.cfg b.sto (readSlot b.cfg b.head (n % occ b.cfg b.head b.tail)) = .ok d ∧
          r = answerObject (n % occ b.cfg b.head b.tail)
            (readSlot b.cfg b.head (n % occ b.cfg b.head b.tail)) d)) := by
  unfold Rbc.peekNthCommand at h
  dsimp only at h
  split at h
  · rename_i h0
    cases h
    exact ⟨rfl, .inl ⟨h0, rfl⟩⟩
  · rename_i h0
    split at h
    · cases h
    · rename_i d hd
      cases h
      exact ⟨rfl, .inr ⟨Nat.pos_of_ne_zero h0, d, hd, rfl⟩⟩

/-! ## Frame of a command (R110, R210) -/

/-- What the command of an instruction may change: a write command the write cursor and storage, a
read or delete command the read cursor, CLEAR both cursors (R501), any other nothing. -/
def commandFrame (i : Instr) (b b' : Rbc) : Prop :=
  match i with
  | .writeObj _ | .writeN _ _ | .writeAll _ _ => b.Stored b'
  | .readObj | .deleteHead | .deleteN _ | .readN _ | .readAll _ => b.HeadMoved b'
  | .clear => b' = { b with head := 0, tail := 0 }
  | _ => b' = b

theorem commandOf_frame {i : Instr} {b b' : Rbc} {r : Response}
    (h : commandOf i b = .ok (b', r)) : commandFrame i b b' := by
  cases i
  case writeObj d =>
    obtain ⟨-, rfl, -⟩ | ⟨-, hd, -⟩ := Rbc.writeObjCommand_ok h
    · exact .refl _
    · exact Rbc.writeOne_stored hd
  case writeN n ds =>
    obtain ⟨k, hds, -⟩ := Rbc.writeNCommand_ok h
    exact writeUntilFull_stored hds
  case writeAll n ds =>
    obtain ⟨-, hds, -⟩ | ⟨-, rfl, -⟩ := Rbc.writeAllCommand_ok h
    · exact writeEach_stored hds
    · exact .refl _
  case readObj =>
    obtain ⟨-, rfl, -⟩ | ⟨-, x, -, rfl, -⟩ := Rbc.readObjCommand_ok h
    · exact .refl _
    · exact .dropOne b
  case deleteHead =>
    obtain ⟨-, rfl, -⟩ | ⟨-, rfl, -⟩ := Rbc.deleteHeadCommand_ok h
    · exact .refl _
    · exact .dropOne b
  case deleteN n =>
    cases h
    exact dropUntilEmpty_headMoved n b
  case readN n =>
    obtain ⟨xs, hxs, -⟩ := Rbc.readNCommand_ok h
    exact takeUntilEmpty_headMoved hxs
  case readAll n =>
    obtain ⟨-, xs, hxs, -⟩ | ⟨-, rfl, -⟩ := Rbc.readAllCommand_ok h
    · exact takeEach_headMoved hxs
    · exact .refl _
  case peekNth n => exact (Rbc.peekNthCommand_ok h).1
  all_goals cases h; rfl

theorem commandOf_moved {i : Instr} {b b' : Rbc} {r : Response}
    (h : commandOf i b = .ok (b', r)) : b.Moved b' := by
  have hf := commandOf_frame h
  cases i
  case writeObj | writeN | writeAll => exact Rbc.Stored.moved hf
  case readObj | deleteHead | deleteN | readN | readAll => exact Rbc.HeadMoved.moved hf
  case clear => exact ⟨0, 0, b.sto, hf⟩
  all_goals exact hf ▸ Rbc.Moved.refl b

end Sys2Proof.Machine
end

section
/-! Which bytes of storage a command writes, and how an edge of the RBC's clock moves the cursors. -/

open Sys2Proof.Statements

namespace Sys2Proof.Machine

/-! ## Bytes outside the slots stored to (R201, R210) -/

/-- R201, R203: byte `i` of a slot lies `i` above the slot's address. -/
theorem byteAddr_eq (p : Config) (slot i : Nat) : byteAddr p slot i = slotAddr p slot + i := by
  unfold byteAddr slotAddr storageBase
  cases p.storage <;> simp

theorem readByte_memWrite_outside {p : Config} {m m' : Memory} {slot d a : Nat}
    (h : memWrite p m slot d = .ok m') (ha : outsideSlot p slot a) :
    readByte m' a = readByte m a := by
  have hout : a < slotAddr p slot ∨ slotAddr p slot + p.s ≤ a := by
    by_contra hin
    refine ha (a - slotAddr p slot) (by omega) ?_
    rw [byteAddr_eq]
    omega
  rw [(memWrite_ok h).2, readByte_writeBytes_outside _ _ _ hout]

theorem Rbc.writeOne_bytes {b b' : Rbc} {d a : Nat} (h : b.writeOne d = .ok b')
    (ha : outsideSlot b.cfg b.tail a) : readByte b'.sto a = readByte b.sto a := by
  obtain ⟨m, hm, rfl⟩ := Rbc.writeOne_ok h
  exact readByte_memWrite_outside hm ha

theorem writeEach_bytes {ds : List Nat} {b b' : Rbc} {a : Nat} (hc : checkShared b.cfg = none)
    (ht : b.tail < b.cfg.c) (h : writeEach ds b = .ok b')
    (ha : ∀ j, j < ds.length → outsideSlot b.cfg (addk b.cfg b.tail j) a) :
    readByte b'.sto a = readByte b.sto a := by
  induction ds generalizing b with
  | nil => cases h; rfl
  | cons d ds ih =>
    unfold writeEach at h
    split at h
    · cases h
    · rename_i b₁ hd
      have h0 := ha 0 (by simp)
      rw [addk_zero hc ht] at h0
      rw [← Rbc.writeOne_bytes hd h0]
      obtain ⟨m, -, rfl⟩ := Rbc.writeOne_ok hd
      refine ih hc (adv_lt hc _) h fun j hj => ?_
      simpa only [addk_adv hc] using ha (j + 1) (by simpa using hj)

/-- R210, R420: a command changes no byte outside the slots it stores to, from `tail` on. -/
theorem commandOf_bytes {i : Instr} {b b' : Rbc} {r : Response} {a : Nat}
    (hc : checkShared b.cfg = none) (hh : b.head < b.cfg.c) (ht : b.tail < b.cfg.c)
    (hw : i.wellFormed b.cfg = true) (h : commandOf i b = .ok (b', r))
    (ha : ∀ j, j < storedSlots i b → outsideSlot b.cfg (addk b.cfg b.tail j) a) :
    readByte b'.sto a = readByte b.sto a := by
  have hframe := commandOf_frame h
  cases i
  case writeObj d =>
    obtain ⟨-, rfl, -⟩ | ⟨hf, hd, -⟩ := Rbc.writeObjCommand_ok h
    · rfl
    · refine Rbc.writeOne_bytes hd ?_
      simpa only [addk_zero hc ht] using ha 0 (by simp [storedSlots, plannedSteps, hf])
  case writeN n ds =>
    obtain ⟨k, hloop, -⟩ := Rbc.writeNCommand_ok h
    obtain ⟨-, hds⟩ := writeUntilFull_ok hc hh ht hloop
    simp only [Instr.wellFormed, burstFits, Bool.and_eq_true, decide_eq_true_eq] at hw
    obtain ⟨-, hn⟩ := hw
    refine writeEach_bytes hc ht hds fun j hj => ha j ?_
    simp only [storedSlots, plannedSteps, ← hn]
    simpa [and_comm] using hj
  case writeAll n ds =>
    simp only [Instr.wellFormed, burstFits, Bool.and_eq_true, decide_eq_true_eq] at hw
    obtain ⟨-, hn⟩ := hw
    obtain ⟨hle, hds, -⟩ | ⟨-, rfl, -⟩ := Rbc.writeAllCommand_ok h
    · refine writeEach_bytes hc ht hds fun j hj => ha j ?_
      simpa only [storedSlots, plannedSteps, if_pos hle, hn] using hj
    · rfl
  case readObj | deleteHead | deleteN | readN | readAll =>
    obtain ⟨_, rfl⟩ := hframe
    rfl
  case clear =>
    obtain rfl := hframe
    rfl
  all_goals exact congrArg (fun x : Rbc => readByte x.sto a) hframe

/-! ## Cursors at an edge in `EXEC` (R208, R345, R420) -/

theorem isBurst_iff {op : Opcode} : isBurst op = true ↔ op = .writeN ∨ op = .writeAll := by
  cases op <;> simp [isBurst]

theorem isBulkRead_iff {op : Opcode} : isBulkRead op = true ↔ op = .readN ∨ op = .readAll := by
  cases op <;> simp [isBulkRead]

theorem execCursors_of_unmoved (op : Opcode) {b b' : Rbc} (hh : b'.head = b.head)
    (ht : b'.tail = b.tail) (hp : b'.port = none) : execCursors op b b' := by
  cases op
  case readObj | readN | readAll => exact ⟨ht, by simp [Rbc.stoRe, hp, StoPort.re, hh]⟩
  case writeObj => exact ⟨hh, by simp [Rbc.stoWe, hp, StoPort.we, ht]⟩
  case deleteHead | deleteN => exact ⟨ht, fun _ => hh⟩
  case clear => exact fun _ => ⟨hh, ht⟩
  all_goals exact ⟨hh, ht⟩

/-- Sending a data beat touches no more than the job's beats and the response side (R345). -/
theorem Rbc.sendData_frame (b : Rbc) (send : Bool) (job : Job) :
    ∃ sent flight rsp out, b.sendData send job =
      ({ job with sent := sent, flight := flight }, { b with rsp := rsp, out := out }) := by
  obtain h | ⟨-, -, r, rest, -, -, h⟩ := b.sendData_eq send job
  · exact ⟨job.sent, job.flight, b.rsp, b.out, h⟩
  · exact ⟨_, rest, _, _, h⟩

theorem Rbc.access_cursors {b b' : Rbc} {job : Job} (hc : checkShared b.cfg = none)
    (hleft : 0 < b.accessesLeft job) (h : b.access job = .ok b') :
    b'.cfg = b.cfg ∧ execCursors job.op b b' := by
  obtain ⟨hop, x, -, rfl⟩ | ⟨hop, d, -, rfl⟩ | ⟨hop, b₁, hb, rfl⟩ | ⟨h0, -⟩ := Rbc.access_ok h
  · refine ⟨rfl, ?_⟩
    have hread : b.dropOne.head = (b.head + 1) % b.cfg.c := adv_eq_mod hc _
    rw [isBulkRead_iff] at hop
    obtain hop | hop | hop := hop <;> rw [hop] <;> exact ⟨rfl, hread⟩
  · rw [hop]
    exact ⟨rfl, rfl, rfl⟩
  · rw [hop]
    obtain ⟨m, -, rfl⟩ := Rbc.writeOne_ok hb
    exact ⟨rfl, rfl, adv_eq_mod hc _⟩
  · omega

/-- What is left of a command at its final beat: nothing, or its own rule where that still has to
run (R345, U24). -/
theorem Rbc.lastStep_ok {b b' : Rbc} {job : Job} {r : Response}
    (h : b.lastStep job = .ok (b', r)) :
    (b' = b ∧ ((job.op = .writeObj ∧ r = answer .ok 1) ∨
      (job.op = .readObj ∧ r = readAnswer 1 job.flight) ∨
      (job.op = .peekNth ∧ r = readAnswer (job.n % occ b.cfg b.head b.tail) job.flight) ∨
      ((isBurst job.op = true ∨ isBulkRead job.op = true) ∧ r = bulkAnswer job))) ∨
    ((job.op = .writeObj → job.issued = 0) ∧ isBurst job.op = false ∧
      isBulkRead job.op = false ∧ job.op ≠ .readObj ∧
      commandOf (Instr.ofHeader job.op job.n job.data []) b = .ok (b', r)) := by
  obtain ⟨op, n, data, k, issued, sent, flight, cycles⟩ := job
  cases op
  case writeObj =>
    simp only [Rbc.lastStep] at h
    split at h
    · rename_i hi
      exact .inr ⟨fun _ => hi, rfl, rfl, nofun, h⟩
    · cases h
      exact .inl ⟨rfl, .inl ⟨rfl, rfl⟩⟩
  case readObj => cases h; exact .inl ⟨rfl, .inr (.inl ⟨rfl, rfl⟩)⟩
  case peekNth => cases h; exact .inl ⟨rfl, .inr (.inr (.inl ⟨rfl, rfl⟩))⟩
  case writeN | writeAll => cases h; exact .inl ⟨rfl, .inr (.inr (.inr ⟨.inl rfl, rfl⟩))⟩
  case readN | readAll => cases h; exact .inl ⟨rfl, .inr (.inr (.inr ⟨.inr rfl, rfl⟩))⟩
  all_goals exact .inr ⟨nofun, rfl, rfl, nofun, h⟩

theorem Rbc.lastStep_moved {b b' : Rbc} {job : Job} {r : Response}
    (h : b.lastStep job = .ok (b', r)) : b.Moved b' := by
  obtain ⟨rfl, -⟩ | ⟨-, -, -, -, hcmd⟩ := Rbc.lastStep_ok h
  · exact .refl _
  · exact commandOf_moved hcmd

theorem Rbc.finish_cursors {b b' : Rbc} {job : Job} (hc : checkShared b.cfg = none)
    (h : b.finish job = .ok b') : b'.cfg = b.cfg ∧ execCursors job.op b b' := by
  obtain ⟨b₁, r, hl, rfl⟩ := Rbc.finish_ok h
  refine ⟨by obtain ⟨_, _, _, rfl⟩ := Rbc.lastStep_moved hl; rfl, ?_⟩
  obtain ⟨op, n, data, k, issued, sent, flight, cycles⟩ := job
  cases op
  case writeObj =>
    simp only [Rbc.lastStep] at hl
    split at hl
    · rename_i hi
      obtain ⟨hf, rfl, -⟩ | ⟨hf, hd, -⟩ := Rbc.writeObjCommand_ok hl
      · exact execCursors_of_unmoved _ rfl rfl (by simp [Rbc.lastWrite, hf])
      · obtain ⟨m, -, rfl⟩ := Rbc.writeOne_ok hd
        refine ⟨rfl, ?_⟩
        simpa [Rbc.stoWe, StoPort.we, Rbc.lastWrite, hi, hf] using adv_eq_mod hc _
    · rename_i hi
      cases hl
      exact execCursors_of_unmoved _ rfl rfl (by simp [Rbc.lastWrite, hi])
  case deleteHead =>
    obtain ⟨_, rfl⟩ : b.HeadMoved b₁ := commandOf_frame (i := .deleteHead) hl
    exact ⟨rfl, fun hne => absurd rfl hne⟩
  case deleteN =>
    obtain ⟨_, rfl⟩ : b.HeadMoved b₁ := commandOf_frame (i := .deleteN n) hl
    exact ⟨rfl, fun hne => absurd rfl hne⟩
  case clear => exact fun hne => absurd rfl hne
  all_goals
    cases hl
    exact execCursors_of_unmoved _ rfl rfl rfl

/-- R208, R345, R420: an edge in `EXEC` moves the cursors as its opcode says. -/
theorem Rbc.execMove_cursors {b b' : Rbc} {issue send : Bool} {job : Job}
    (hc : checkShared b.cfg = none) (hp : b.port = none)
    (h : b.execMove issue send job = .ok b') : b'.cfg = b.cfg ∧ execCursors job.op b b' := by
  obtain ⟨-, -, hfin⟩ | ⟨hleft, hacc⟩ | hnone := Rbc.execMove_ok h
  · exact Rbc.finish_cursors hc hfin
  · obtain ⟨_, _, _, _, hs⟩ := b.sendData_frame send job
    rw [hs] at hacc
    have hcur := Rbc.access_cursors (by exact hc) (by exact hleft) hacc
    exact hcur
  · obtain ⟨_, _, _, _, hs⟩ := b.sendData_frame send job
    rw [hs] at hnone
    subst hnone
    exact ⟨rfl, execCursors_of_unmoved _ rfl rfl hp⟩

theorem Rbc.execEdge_cursors {b b' : Rbc} {pace : Pace} {job : Job}
    (hc : checkShared b.cfg = none) (hp : b.port = none) (h : b.execEdge pace job = .ok b') :
    b'.cfg = b.cfg ∧ execCursors job.op b b' := by
  obtain ⟨hm, -⟩ | hm := Rbc.execEdge_ok h <;> exact Rbc.execMove_cursors hc hp hm

/-! ## An edge with `rst = 0`, phase by phase (R340 to R345) -/

theorem edgeOutcome_next {r : Except Fault Rbc} {b : Rbc} :
    edgeOutcome r = .next b ↔ r = .ok b := by
  cases r <;> simp [edgeOutcome]

/-- What an answered edge of the protocol is: a header or nothing in `IDLE`, a data beat or nothing in
`WDATA`, an edge in `EXEC`. -/
theorem Rbc.runEdge_next {b b' : Rbc} {valid : Bool} {beat : CmdBeat} {pace : Pace}
    (h : b.runEdge valid beat pace = .next b') :
    ∃ ready, let b₀ := b.startEdge valid ready beat
      (b.phase = .idle ∧ (b' = b₀ ∨ b' = b₀.acceptHeader beat.hdr beat.data ∧ valid = true)) ∨
      (∃ op n k i, b.phase = .wdata op n k i ∧ ((∃ w, b' = { b₀ with waited := w }) ∨
        b₀.acceptData beat.data op n k i = .ok b')) ∨
      ∃ job, b.phase = .exec job ∧ b₀.execEdge pace job = .ok b' := by
  refine ⟨b.cmdReady false pace.stall, ?_⟩
  unfold Rbc.runEdge at h
  dsimp only at h ⊢
  split at h
  · rename_i hp
    refine .inl ⟨hp, ?_⟩
    cases valid <;> cases h
    · exact .inl rfl
    · exact .inr ⟨rfl, rfl⟩
  · rename_i op n k i hp
    refine .inr (.inl ⟨op, n, k, i, hp, ?_⟩)
    split at h
    · cases h
      exact .inl ⟨_, rfl⟩
    · split at h
      · exact .inr (edgeOutcome_next.1 h)
      · cases h
        exact .inl ⟨_, rfl⟩
  · rename_i job hp
    exact .inr (.inr ⟨job, hp, edgeOutcome_next.1 h⟩)

theorem Rbc.runEdge_frame {b b' : Rbc} {valid : Bool} {beat : CmdBeat} {pace : Pace}
    (hc : checkShared b.cfg = none) (h : b.runEdge valid beat pace = .next b') :
    b'.cfg = b.cfg ∧ ∀ job, b.phase = .exec job → execCursors job.op b b' := by
  obtain ⟨ready, ⟨hp, rfl | ⟨rfl, -⟩⟩ | ⟨op, n, k, i, hp, ⟨w, rfl⟩ | hd⟩ | ⟨job, hp, he⟩⟩ :=
    Rbc.runEdge_next h
  · exact ⟨rfl, by simp [hp]⟩
  · exact ⟨rfl, by simp [hp]⟩
  · exact ⟨rfl, by simp [hp]⟩
  · refine ⟨?_, by simp [hp]⟩
    obtain ⟨-, b₁, hw, rfl⟩ | ⟨-, rfl⟩ := Rbc.acceptData_ok hd
    · obtain ⟨_, _, rfl⟩ := Rbc.writeOne_stored hw
      rfl
    · rfl
  · obtain ⟨hcfg, hcur⟩ := Rbc.execEdge_cursors (by exact hc) rfl he
    refine ⟨hcfg, fun job' hj => ?_⟩
    obtain rfl := Phase.exec.inj (hp.symm.trans hj)
    exact hcur

/-- What an edge of the RBC's clock leaves of its block: the parameters; and in `EXEC` the cursors
move as the opcode says. -/
theorem Rbc.clkEdge_frame {b b' : Rbc} {rst valid : Bool} {beat : CmdBeat} {pace : Pace}
    (h : b.clkEdge rst valid beat pace = .next b') :
    b'.cfg = b.cfg ∧ ∀ job, rst = false → b.phase = .exec job → execCursors job.op b b' := by
  obtain ⟨hc, -, -, hedge⟩ := Rbc.clkEdge_next.1 h
  cases rst with
  | true =>
    obtain rfl := hedge
    exact ⟨rfl, nofun⟩
  | false =>
    obtain ⟨hcfg, hcur⟩ := Rbc.runEdge_frame (checkRbc_shared hc) hedge
    exact ⟨hcfg, fun job _ hp => hcur job hp⟩

/-- Settles O24: each command's frame, and an edge's, from what a command or an edge can do. -/
theorem rbcFrame : Obligations.RbcFrame := by
  unfold Obligations.RbcFrame
  refine ⟨fun i s t hi hready hw h => ?command, fun s t rst valid beat h => ?edge⟩
  case command =>
    obtain ⟨⟨hc, hidle⟩, hh, ht⟩ := hready
    rw [exec_rbc hi, transact_next] at h
    obtain ⟨-, -, b, r, hcmd, rfl⟩ := h
    have hbytes := fun a => commandOf_bytes (a := a) (checkRbc_shared hc) hh ht hw hcmd
    have hframe := commandOf_frame hcmd
    obtain ⟨hcfg, hphase, hport, hheld, hpreHead, hpreTail, hwaited, -⟩ :=
      (commandOf_moved hcmd).frame
    refine ⟨rfl, rfl, rfl, rfl, rfl, hcfg, hphase.trans hidle, hport, hheld, hpreHead, hpreTail,
      hwaited, ?head, ?tail, hbytes⟩
    case head =>
      cases i
      case readObj | deleteHead | deleteN | readN | readAll | clear => trivial
      case writeObj | writeN | writeAll =>
        obtain ⟨_, _, hstored⟩ := hframe
        exact (congrArg Rbc.head hstored :)
      all_goals exact (congrArg Rbc.head hframe :)
    case tail =>
      cases i
      case writeObj | writeN | writeAll | clear => trivial
      case readObj | deleteHead | deleteN | readN | readAll =>
        obtain ⟨_, hmoved⟩ := hframe
        exact (congrArg Rbc.tail hmoved :)
      all_goals exact (congrArg Rbc.tail hframe :)
  case edge =>
    obtain ⟨b, hb, rfl⟩ := rbcClock_next.1 (runEvent_next.1 h).2
    obtain ⟨hcfg, hcur⟩ := Rbc.clkEdge_frame hb
    refine ⟨rfl, rfl, rfl, hcfg, rfl, ?_, hcur⟩
    simp only [Bool.and_eq_true, Bool.not_eq_true', Phase.isIdle_iff, and_assoc]

end Sys2Proof.Machine
end

section
/-! What one step of the machine does to each of the three blocks. -/

open Sys2Proof.Statements

namespace Sys2Proof.Machine

/-- What a step can make of the RBC: nothing, the answer of one whole command, or one clock edge. -/
inductive Rbc.Step (b : Rbc) : Rbc → Prop
  | stay : Rbc.Step b b
  | command {i : Instr} {x : Rbc} {r : Response} (hw : i.wellFormed b.cfg = true)
      (hp : b.phase = .idle) (h : commandOf i { b with held := none } = .ok (x, r)) :
      Rbc.Step b (x.respond r)
  | edge {rst valid : Bool} {beat : CmdBeat} {pace : Pace} {b' : Rbc}
      (h : b.clkEdge rst valid beat pace = .next b') : Rbc.Step b b'

/-- What a step can make of SF: nothing, the cleared block, or one edge of R811. -/
inductive Sf.Step (f : Sf) : Sf → Prop
  | stay : Sf.Step f f
  | clear : Sf.Step f f.cleared
  | edge {wr rd : Bool} {d : Nat} {g : Sf} (h : f.edge wr rd d = .ok g) : Sf.Step f g

/-- What a step can make of AF: nothing, one edge of either clock, or a level of `arst_n`. -/
inductive Af.Step (a : Af) : Af → Prop
  | stay : Af.Step a a
  | wclk {winc release : Bool} {d draw : Nat} {a' : Af}
      (h : a.wclkEdge winc d draw release = .ok a') : Af.Step a a'
  | rclk {rinc release : Bool} {draw : Nat} {a' : Af}
      (h : a.rclkEdge rinc draw release = .ok a') : Af.Step a a'
  | arst (level : Bool) : Af.Step a (a.driveReset level)

/-! ## Every event is a step of its block -/

theorem decodeAndExec_next {p : Config} {word : PortWord} {s t : State}
    (h : decodeAndExec p word s = .next t) :
    ∃ i, decode p word = .ok i ∧ exec i s = .next t := by
  unfold decodeAndExec at h
  split at h
  · cases h
  · rename_i i hi
    exact ⟨i, hi, h⟩

theorem runCommand_steps {w d : Nat} {ds : List Nat} {s t : State}
    (h : runCommand w d ds s = .next t) :
    s.rbc.Step t.rbc ∧ t.sf = s.sf ∧ t.af = s.af := by
  unfold runCommand at h
  split at h
  · obtain ⟨i, hdec, hexec⟩ := decodeAndExec_next h
    obtain ⟨hi, hw⟩ := decodeHeader_ok hdec
    rw [exec_rbc hi, transact_next] at hexec
    obtain ⟨-, hp, x, r, hcmd, rfl⟩ := hexec
    exact ⟨.command hw hp hcmd, rfl, rfl⟩
  · cases h

theorem execSf_steps {i : Instr} {s t : State} (hi : isSf i = true) (h : exec i s = .next t) :
    t.rbc = s.rbc ∧ s.sf.Step t.sf ∧ t.af = s.af := by
  obtain he | ⟨wr, rd, d, he⟩ := exec_sf hi s <;> rw [he, onSf_next] at h
  · obtain ⟨-, g, hg, rfl⟩ := h
    obtain rfl := Except.ok.inj hg
    exact ⟨rfl, .clear, rfl⟩
  · obtain ⟨-, g, hg, rfl⟩ := h
    exact ⟨rfl, .edge hg, rfl⟩

theorem execAf_steps {i : Instr} {s t : State} (hi : isAf i = true) (h : exec i s = .next t) :
    t.rbc = s.rbc ∧ t.sf = s.sf ∧ s.af.Step t.af := by
  obtain ⟨winc, d, he⟩ | ⟨rinc, he⟩ := exec_af hi s <;> rw [he, onAf_next] at h
  · obtain ⟨-, a, ha, rfl⟩ := h
    exact ⟨rfl, rfl, .wclk ha⟩
  · obtain ⟨-, a, ha, rfl⟩ := h
    exact ⟨rfl, rfl, .rclk ha⟩

theorem runSfEdge_steps {rst : Bool} {w d : Nat} {s t : State}
    (h : runSfEdge rst w d s = .next t) : t.rbc = s.rbc ∧ s.sf.Step t.sf ∧ t.af = s.af := by
  unfold runSfEdge at h
  split at h
  · obtain ⟨-, g, hg, rfl⟩ := onSf_next.1 h
    obtain rfl := Except.ok.inj hg
    exact ⟨rfl, .clear, rfl⟩
  · obtain ⟨i, hdec, hexec⟩ := decodeAndExec_next h
    exact execSf_steps (decodeSf_isSf hdec) hexec

/-- An event drives one block and leaves the other two alone. -/
theorem runLegal_steps {e : Event} {s t : State} (h : runLegal e s = .next t) :
    s.rbc.Step t.rbc ∧ s.sf.Step t.sf ∧ s.af.Step t.af := by
  cases e with
  | cmd w d ds =>
    obtain ⟨hrbc, hsf, haf⟩ := runCommand_steps h
    exact ⟨hrbc, hsf ▸ .stay, haf ▸ .stay⟩
  | rbcClk rst valid beat =>
    obtain ⟨b, hb, rfl⟩ := rbcClock_next.1 h
    exact ⟨.edge hb, .stay, .stay⟩
  | sfClk rst w d =>
    obtain ⟨hrbc, hsf, haf⟩ := runSfEdge_steps h
    exact ⟨hrbc ▸ .stay, hsf, haf ▸ .stay⟩
  | wclk w d =>
    obtain ⟨i, hdec, hexec⟩ := decodeAndExec_next h
    obtain ⟨hrbc, hsf, haf⟩ := execAf_steps (decodeAfW_isAf hdec) hexec
    exact ⟨hrbc ▸ .stay, hsf ▸ .stay, haf⟩
  | rclk w =>
    obtain ⟨i, hdec, hexec⟩ := decodeAndExec_next h
    obtain ⟨hrbc, hsf, haf⟩ := execAf_steps (decodeAfR_isAf hdec) hexec
    exact ⟨hrbc ▸ .stay, hsf ▸ .stay, haf⟩
  | arst level =>
    obtain ⟨-, ht⟩ := legally_next.1 h
    obtain rfl := Host.Outcome.next.inj ht
    exact ⟨.stay, .stay, .arst level⟩
  | secondAgent | domainReset => cases h

theorem step_steps {s t : State} (h : step s = .next t) :
    s.rbc.Step t.rbc ∧ s.sf.Step t.sf ∧ s.af.Step t.af := by
  obtain ⟨-, rfl⟩ | ⟨e, rest, -, he⟩ := step_next h
  · exact ⟨.stay, .stay, .stay⟩
  · exact (runLegal_steps (runEvent_next.1 he).2 :)

/-! ## R115: no step writes a parameter -/

theorem Rbc.Step.cfg_eq {b b' : Rbc} (h : b.Step b') : b'.cfg = b.cfg := by
  cases h with
  | stay => rfl
  | command _ _ hcmd => exact (commandOf_moved hcmd).frame.1
  | edge hedge => exact (Rbc.clkEdge_frame hedge).1

theorem Sf.Step.cfg_eq {f g : Sf} (h : f.Step g) : g.cfg = f.cfg := by
  cases h with
  | stay | clear => rfl
  | edge hedge =>
    obtain ⟨_, _, -, -, hcfg, -⟩ := Sf.edge_ok hedge
    exact hcfg

theorem Af.wEdge_cfg {a a' : Af} {winc : Bool} {d draw : Nat}
    (h : a.wEdge winc d draw = .ok a') : a'.cfg = a.cfg := by
  obtain ⟨a₁, hpush, rfl⟩ := Af.wEdge_ok h
  split at hpush
  · obtain ⟨m, -, rfl⟩ := Af.pushOne_ok hpush
    rfl
  · obtain rfl := hpush
    rfl

theorem Af.rEdge_cfg {a a' : Af} {rinc : Bool} {draw : Nat}
    (h : a.rEdge rinc draw = .ok a') : a'.cfg = a.cfg := by
  obtain ⟨a₁, hpop, rfl⟩ := Af.rEdge_ok h
  split at hpop
  · obtain ⟨d, -, rfl⟩ := Af.popOne_ok hpop
    rfl
  · obtain rfl := hpop
    rfl

/-- A `wclk` edge is that of a live domain or that of one in reset (R1202). -/
theorem Af.wclkEdge_ok {a a' : Af} {winc release : Bool} {d draw : Nat}
    (h : a.wclkEdge winc d draw release = .ok a') :
    (a.arstN = true ∧ a.wLive = true ∧ a.wEdge winc d draw = .ok a') ∨
      (¬(a.arstN = true ∧ a.wLive = true) ∧ a' = a.wResetEdge draw release) := by
  unfold Af.wclkEdge at h
  rw [← Bool.and_eq_true]
  split at h
  · rename_i hl
    obtain ⟨hn, hw⟩ := Bool.and_eq_true_iff.1 hl
    exact .inl ⟨hn, hw, h⟩
  · exact .inr ⟨‹_›, (Except.ok.inj h).symm⟩

/-- An `rclk` edge is that of a live domain or that of one in reset (R1202). -/
theorem Af.rclkEdge_ok {a a' : Af} {rinc release : Bool} {draw : Nat}
    (h : a.rclkEdge rinc draw release = .ok a') :
    (a.arstN = true ∧ a.rLive = true ∧ a.rEdge rinc draw = .ok a') ∨
      (¬(a.arstN = true ∧ a.rLive = true) ∧ a' = a.rResetEdge draw release) := by
  unfold Af.rclkEdge at h
  rw [← Bool.and_eq_true]
  split at h
  · rename_i hl
    obtain ⟨hn, hr⟩ := Bool.and_eq_true_iff.1 hl
    exact .inl ⟨hn, hr, h⟩
  · exact .inr ⟨‹_›, (Except.ok.inj h).symm⟩

theorem Af.Step.cfg_eq {a a' : Af} (h : a.Step a') : a'.cfg = a.cfg := by
  cases h with
  | stay => rfl
  | wclk hedge =>
    obtain ⟨-, -, hlive⟩ | ⟨-, rfl⟩ := Af.wclkEdge_ok hedge
    · exact Af.wEdge_cfg hlive
    · exact Af.wResetEdge_cfg ..
  | rclk hedge =>
    obtain ⟨-, -, hlive⟩ | ⟨-, rfl⟩ := Af.rclkEdge_ok hedge
    · exact Af.rEdge_cfg hlive
    · exact Af.rResetEdge_cfg ..
  | arst level => cases level <;> rfl

/-- Settles O59: no step of any block writes its parameters. -/
theorem parametersNeverChange : Obligations.ParametersNeverChange := by
  unfold Obligations.ParametersNeverChange
  intro s t h
  obtain ⟨hrbc, hsf, haf⟩ := step_steps h
  exact ⟨hrbc.cfg_eq, hsf.cfg_eq, haf.cfg_eq⟩

end Sys2Proof.Machine
end

section
/-! The invariant of the RBC at the transaction level: the registers a command moves, and the beats of
its answer. -/

namespace Sys2Proof.Machine

/-! ## A written window (R206) -/

/-- A write leaves every written slot written, and its own too. -/
theorem slotWritten_write {p : Config} {m m' : Memory} {slot d j : Nat}
    (h : memWrite p m slot d = .ok m') (hj : slotWritten p m j ∨ j = slot) :
    slotWritten p m' j := by
  change (slotObj p m' j).isSome = true
  by_cases hjs : j = slot
  · rw [hjs, (memWrite_ok h).2, slotObj, readBytes_writeBytes_same]
    rfl
  · rw [slotObj_write_other h hjs]
    exact hj.resolve_right hjs

theorem windowWritten_write {p : Config} {m m' : Memory} {head tail d : Nat}
    (hc : checkShared p = none) (hh : head < p.c) (ht : tail < p.c)
    (hf : isFull p head tail = false) (h : memWrite p m tail d = .ok m')
    (hw : windowWritten p m head tail) : windowWritten p m' head (adv p tail) := by
  intro j hj
  rw [occ_adv_tail hc hh ht hf] at hj
  refine slotWritten_write h ?_
  by_cases hlast : j = occ p head tail
  · exact .inr (hlast ▸ addk_occ hc hh ht)
  · exact .inl (hw j (by omega))

theorem windowWritten_drop {p : Config} {m : Memory} {head tail : Nat}
    (hc : checkShared p = none) (hh : head < p.c) (ht : tail < p.c)
    (he : isEmpty head tail = false) (hw : windowWritten p m head tail) :
    windowWritten p m (adv p head) tail := by
  intro j hj
  have ho := occ_adv_head hc hh ht he
  rw [readSlot, addk_adv hc]
  exact hw (j + 1) (by omega)

/-- An empty window holds no slot. -/
theorem windowWritten_same {p : Config} (m : Memory) (i : Nat) : windowWritten p m i i := by
  intro j hj
  simp [occ] at hj

/-! ## The comparators as counts -/

theorem isEmpty_eq_false {p : Config} (hc : checkShared p = none) {head tail : Nat}
    (hh : head < p.c) (ht : tail < p.c) : isEmpty head tail = false ↔ 0 < occ p head tail := by
  rw [isEmpty_eq_occ hc hh ht, decide_eq_false_iff_not]
  omega

theorem isFull_eq_false {p : Config} (hc : checkShared p = none) {head tail : Nat}
    (hh : head < p.c) (ht : tail < p.c) :
    isFull p head tail = false ↔ 0 < freeSlots p head tail := by
  have := occ_lt hc head tail
  rw [isFull_eq_occ hc hh ht, decide_eq_false_iff_not]
  unfold freeSlots
  omega

theorem freeSlots_adv_tail {p : Config} (hc : checkShared p = none) {head tail : Nat}
    (hh : head < p.c) (ht : tail < p.c) (hf : isFull p head tail = false) :
    freeSlots p head (adv p tail) + 1 = freeSlots p head tail := by
  have hpos := (isFull_eq_false hc hh ht).1 hf
  unfold freeSlots at hpos ⊢
  rw [occ_adv_tail hc hh ht hf]
  omega

/-! ## The registers a command moves -/

/-- The part of the RBC's invariant that speaks of cursors and storage (R101 to R103, R206). -/
structure Rbc.Cursors (b : Rbc) : Prop where
  legal : checkRbc b.cfg = none
  head_lt : b.head < b.cfg.c
  tail_lt : b.tail < b.cfg.c
  sto_wf : Memory.wf b.sto
  window : windowWritten b.cfg b.sto b.head b.tail

theorem Rbc.Inv.cursors {b : Rbc} (h : b.Inv) : b.Cursors :=
  ⟨h.legal, h.head_lt, h.tail_lt, h.sto_wf, h.window⟩

theorem Rbc.Cursors.shared {b : Rbc} (h : b.Cursors) : checkShared b.cfg = none :=
  checkRbc_shared h.legal

theorem Rbc.Cursors.notEmpty {b : Rbc} (h : b.Cursors) :
    isEmpty b.head b.tail = false ↔ 0 < occ b.cfg b.head b.tail :=
  isEmpty_eq_false h.shared h.head_lt h.tail_lt

theorem Rbc.Cursors.notFull {b : Rbc} (h : b.Cursors) :
    isFull b.cfg b.head b.tail = false ↔ 0 < freeSlots b.cfg b.head b.tail :=
  isFull_eq_false h.shared h.head_lt h.tail_lt

theorem Rbc.Cursors.c_pos {b : Rbc} (h : b.Cursors) : 0 < b.cfg.c :=
  Nat.lt_of_le_of_lt (Nat.zero_le _) h.head_lt

theorem Rbc.Cursors.cleared {b : Rbc} (h : b.Cursors) :
    Rbc.Cursors { b with head := 0, tail := 0 } where
  legal := h.legal
  head_lt := h.c_pos
  tail_lt := h.c_pos
  sto_wf := h.sto_wf
  window := windowWritten_same b.sto 0

theorem Rbc.Cursors.dropOne {b : Rbc} (h : b.Cursors) (he : isEmpty b.head b.tail = false) :
    b.dropOne.Cursors where
  legal := h.legal
  head_lt := adv_lt h.shared _
  tail_lt := h.tail_lt
  sto_wf := h.sto_wf
  window := windowWritten_drop h.shared h.head_lt h.tail_lt he h.window

theorem Rbc.Cursors.writeOne {b b' : Rbc} {d : Nat} (h : b.Cursors)
    (hf : isFull b.cfg b.head b.tail = false) (hw : b.writeOne d = .ok b') : b'.Cursors := by
  obtain ⟨m, hm, rfl⟩ := Rbc.writeOne_ok hw
  exact ⟨h.legal, h.head_lt, adv_lt h.shared _, memWrite_wf h.sto_wf hm,
    windowWritten_write h.shared h.head_lt h.tail_lt hf hm h.window⟩

/-! ## The loops -/

theorem Rbc.Cursors.writeEach {ds : List Nat} {b b' : Rbc} (h : b.Cursors)
    (hn : ds.length ≤ freeSlots b.cfg b.head b.tail) (hw : writeEach ds b = .ok b') :
    b'.Cursors := by
  induction ds generalizing b with
  | nil => cases hw; exact h
  | cons d ds ih =>
    rw [List.length_cons] at hn
    unfold Machine.writeEach at hw
    split at hw
    · cases hw
    · rename_i b₁ hd
      have hf := h.notFull.2 (by omega)
      have hfree := freeSlots_adv_tail h.shared h.head_lt h.tail_lt hf
      refine ih (h.writeOne hf hd) ?_ hw
      obtain ⟨m, -, rfl⟩ := Rbc.writeOne_ok hd
      dsimp only
      omega

theorem Rbc.Cursors.dropUntilEmpty {b : Rbc} (h : b.Cursors) (n : Nat) :
    (dropUntilEmpty n b).1.Cursors := by
  induction n generalizing b with
  | zero => exact h
  | succ n ih =>
    unfold Machine.dropUntilEmpty
    split
    · exact h
    · rename_i he
      exact ih (h.dropOne (Bool.eq_false_of_not_eq_true he))

/-- Every beat's slot is in range and every beat's object fits its bus (R330). -/
def beatsFit (p : Config) (xs : List (Nat × Nat)) : Prop :=
  ∀ x ∈ xs, x.1 < p.c ∧ x.2 < 2 ^ (8 * p.s)

theorem Rbc.takeOne_fits {b b' : Rbc} {x : Nat × Nat} (h : b.takeOne = .ok (x, b')) :
    x.1 < b.cfg.c ∧ x.2 < 2 ^ (8 * b.cfg.s) := by
  obtain ⟨hh, hslot, hobj, -⟩ := Rbc.takeOne_ok h
  exact ⟨hslot ▸ hh, readBytes_lt hobj⟩

/-- Taking no more objects than there are keeps the cursors right, and gives that many beats. -/
theorem Rbc.Cursors.takeEach {n : Nat} {b b' : Rbc} {xs : List (Nat × Nat)} (h : b.Cursors)
    (hn : n ≤ occ b.cfg b.head b.tail) (hx : takeEach n b = .ok (b', xs)) :
    b'.Cursors ∧ xs.length = n ∧ beatsFit b.cfg xs := by
  induction n generalizing b b' xs with
  | zero =>
    cases hx
    exact ⟨h, rfl, nofun⟩
  | succ n ih =>
    unfold Machine.takeEach at hx
    split at hx
    · cases hx
    · rename_i x b₁ hone
      obtain ⟨-, -, -, rfl⟩ := Rbc.takeOne_ok hone
      have he := h.notEmpty.2 (by omega)
      have hocc := occ_adv_head h.shared h.head_lt h.tail_lt he
      split at hx
      · cases hx
      · rename_i b₂ ys hrest
        cases hx
        obtain ⟨hb, hlen, hys⟩ := ih (h.dropOne he) (by dsimp only [Rbc.dropOne]; omega) hrest
        refine ⟨hb, by rw [List.length_cons, hlen], fun y hy => ?_⟩
        obtain rfl | hy := List.mem_cons.1 hy
        · exact Rbc.takeOne_fits hone
        · exact hys y hy

/-! ## The beats of an answer (R330) -/

/-- Every beat of an answer fits the response port. -/
def Response.Fits (p : Config) (r : Response) : Prop := ∀ x ∈ r.toBeats, x.fits p

theorem Response.Fits.final {p : Config} {r : Response} (h : r.Fits p) : r.final.fits p :=
  h _ (by simp [Response.toBeats])

theorem dataBeat_fits {p : Config} {j : Nat} {x : Nat × Nat} (hj : j < 2 ^ p.nw)
    (hslot : x.1 < p.c) (hobj : x.2 < 2 ^ (8 * p.s)) : (dataBeat j x).fits p :=
  ⟨hj, fun _ hi => Option.some.inj hi ▸ hslot, fun _ hd => Option.some.inj hd ▸ hobj⟩

theorem dataBeats_fits {p : Config} {j : Nat} {xs : List (Nat × Nat)}
    (hj : j + xs.length ≤ 2 ^ p.nw) (hx : beatsFit p xs) : ∀ y ∈ dataBeats j xs, y.fits p := by
  induction xs generalizing j with
  | nil => nofun
  | cons x xs ih =>
    rw [List.length_cons] at hj
    intro y hy
    obtain rfl | hy := List.mem_cons.1 hy
    · obtain ⟨hslot, hobj⟩ := hx x List.mem_cons_self
      exact dataBeat_fits (by omega) hslot hobj
    · exact ih (by omega) (fun z hz => hx z (List.mem_cons_of_mem _ hz)) y hy

theorem answer_fits {p : Config} (st : Status) {k : Nat} (hk : k < 2 ^ p.nw) :
    (answer st k).Fits p := by
  intro x hx
  obtain rfl := List.mem_singleton.1 hx
  exact ⟨hk, nofun, nofun⟩

theorem answerObject_fits {p : Config} {k slot d : Nat} (hk : k < 2 ^ p.nw) (hslot : slot < p.c)
    (hd : d < 2 ^ (8 * p.s)) : (answerObject k slot d).Fits p := by
  intro x hx
  obtain rfl := List.mem_singleton.1 hx
  exact ⟨hk, fun _ hi => Option.some.inj hi ▸ hslot, fun _ ho => Option.some.inj ho ▸ hd⟩

theorem answerBeats_fits {p : Config} (st : Status) {k : Nat} {xs : List (Nat × Nat)}
    (hk : k < 2 ^ p.nw) (hlen : xs.length < 2 ^ p.nw) (hx : beatsFit p xs) :
    Response.Fits p { answer st k with beats := xs } := by
  intro y hy
  obtain hy | hy := List.mem_append.1 hy
  · exact dataBeats_fits (by omega) hx y hy
  · obtain rfl := List.mem_singleton.1 hy
    exact ⟨hk, nofun, nofun⟩

/-! ## Every command -/

/-- Counts of objects fit `rsp_count`: `NW ≥ IW` (R14, R500). -/
theorem Rbc.Cursors.c_le {b : Rbc} (h : b.Cursors) : b.cfg.c ≤ 2 ^ b.cfg.nw := by
  obtain ⟨-, hc, -⟩ := checkShared_spec h.shared
  exact (le_two_pow_indexWidth hc).trans (Nat.pow_le_pow_right (by omega) (checkRbc_spec h.legal))

theorem Rbc.Cursors.occ_fits {b : Rbc} (h : b.Cursors) :
    occ b.cfg b.head b.tail < 2 ^ b.cfg.nw := (occ_lt h.shared _ _).trans_le h.c_le

theorem Rbc.Cursors.freeSlots_fits {b : Rbc} (h : b.Cursors) :
    freeSlots b.cfg b.head b.tail < 2 ^ b.cfg.nw := by
  have := h.c_le
  have := h.c_pos
  unfold freeSlots
  omega

theorem Rbc.Cursors.one_fits {b : Rbc} (h : b.Cursors) : 1 < 2 ^ b.cfg.nw := by
  obtain ⟨-, hc, -⟩ := checkShared_spec h.shared
  exact Nat.lt_of_lt_of_le hc h.c_le

/-- A WRITE_ALL brings as many beats as its count says (R351). -/
def wholeBurst : Instr → Prop
  | .writeAll n ds => ds.length = n
  | _ => True

theorem wholeBurst_of_wellFormed {p : Config} {i : Instr} (h : i.wellFormed p = true) :
    wholeBurst i := by
  cases i
  case writeAll =>
    simp only [Instr.wellFormed, burstFits, Bool.and_eq_true, decide_eq_true_eq] at h
    exact h.2
  all_goals trivial

/-- Every command keeps the cursors right and answers beats that fit their port. -/
theorem Rbc.Cursors.command {i : Instr} {b b' : Rbc} {r : Response} (hb : b.Cursors)
    (hw : wholeBurst i) (h : commandOf i b = .ok (b', r)) : b'.Cursors ∧ r.Fits b.cfg := by
  have h0 : 0 < 2 ^ b.cfg.nw := Nat.two_pow_pos _
  have h1 := hb.one_fits
  have hocc := hb.occ_fits
  have hfree := hb.freeSlots_fits
  cases i
  case clear =>
    cases h
    exact ⟨hb.cleared, answer_fits _ h0⟩
  case writeObj d =>
    obtain ⟨-, rfl, rfl⟩ | ⟨hf, hd, rfl⟩ := Rbc.writeObjCommand_ok h
    · exact ⟨hb, answer_fits _ h0⟩
    · exact ⟨hb.writeOne hf hd, answer_fits _ h1⟩
  case writeN n ds =>
    obtain ⟨k, hloop, rfl⟩ := Rbc.writeNCommand_ok h
    obtain ⟨rfl, hds⟩ := writeUntilFull_ok hb.shared hb.head_lt hb.tail_lt hloop
    exact ⟨hb.writeEach (by simp) hds, answer_fits _ (by omega)⟩
  case writeAll n ds =>
    obtain ⟨hn, hds, rfl⟩ | ⟨-, rfl, rfl⟩ := Rbc.writeAllCommand_ok h
    · have hlen : ds.length = n := hw
      exact ⟨hb.writeEach (by omega) hds, answer_fits _ (by omega)⟩
    · exact ⟨hb, answer_fits _ h0⟩
  case readObj =>
    obtain ⟨-, rfl, rfl⟩ | ⟨he, x, hx, rfl, rfl⟩ := Rbc.readObjCommand_ok h
    · exact ⟨hb, answer_fits _ h0⟩
    · obtain ⟨hslot, hobj⟩ := Rbc.takeOne_fits hx
      exact ⟨hb.dropOne he, answerObject_fits h1 hslot hobj⟩
  case deleteHead =>
    obtain ⟨-, rfl, rfl⟩ | ⟨he, rfl, rfl⟩ := Rbc.deleteHeadCommand_ok h
    · exact ⟨hb, answer_fits _ h0⟩
    · exact ⟨hb.dropOne he, answer_fits _ h1⟩
  case deleteN n =>
    cases h
    refine ⟨hb.dropUntilEmpty n, answer_fits _ ?_⟩
    rw [dropUntilEmpty_eq hb.shared hb.head_lt hb.tail_lt]
    exact (Nat.min_le_right ..).trans_lt hocc
  case readN n =>
    obtain ⟨xs, hxs, rfl⟩ := Rbc.readNCommand_ok h
    rw [takeUntilEmpty_eq hb.shared hb.head_lt hb.tail_lt] at hxs
    obtain ⟨hb', hlen, hfit⟩ := hb.takeEach (Nat.min_le_right ..) hxs
    exact ⟨hb', answerBeats_fits _ (by omega) (by omega) hfit⟩
  case readAll n =>
    obtain ⟨hn, xs, hxs, rfl⟩ | ⟨-, rfl, rfl⟩ := Rbc.readAllCommand_ok h
    · obtain ⟨hb', hlen, hfit⟩ := hb.takeEach hn hxs
      exact ⟨hb', answerBeats_fits _ (by omega) (by omega) hfit⟩
    · exact ⟨hb, answer_fits _ h0⟩
  case peekNth n =>
    obtain ⟨rfl, ⟨-, rfl⟩ | ⟨hpos, d, hd, rfl⟩⟩ := Rbc.peekNthCommand_ok h
    · exact ⟨hb, answer_fits _ h0⟩
    · obtain ⟨hslot, hobj⟩ := memRead_ok hd
      exact ⟨hb, answerObject_fits ((Nat.mod_lt n hpos).trans hocc) hslot (readBytes_lt hobj)⟩
  case qEmpty | qFull =>
    cases h
    exact ⟨hb, answer_fits _ ((Bool.toNat_le _).trans_lt h1)⟩
  case qOccupied =>
    cases h
    exact ⟨hb, answer_fits _ hocc⟩
  case qFree =>
    cases h
    exact ⟨hb, answer_fits _ hfree⟩
  all_goals
    cases h
    exact ⟨hb, answer_fits _ h0⟩

end Sys2Proof.Machine
end

section
/-! The invariant of the RBC at the cycle level: headers, data beats, accesses and answers
(30_encoding.md R343 to R345). -/

namespace Sys2Proof.Machine

/-! ## Updates that leave the cursors alone -/

/-- The block with a command in `EXEC`. -/
def Rbc.running (b : Rbc) (job : Job) : Rbc := { b with phase := .exec job }

@[simp] theorem Rbc.running_cfg (b : Rbc) (job : Job) : (b.running job).cfg = b.cfg := rfl
@[simp] theorem Rbc.running_head (b : Rbc) (job : Job) : (b.running job).head = b.head := rfl
@[simp] theorem Rbc.running_tail (b : Rbc) (job : Job) : (b.running job).tail = b.tail := rfl

theorem Rbc.running_of_phase {b : Rbc} {job : Job} (h : b.phase = .exec job) :
    b.running job = b := by
  rw [Rbc.running, ← h]

theorem Rbc.Inv.cursors_of_running {b : Rbc} {job : Job} (h : (b.running job).Inv) : b.Cursors :=
  ⟨h.legal, h.head_lt, h.tail_lt, h.sto_wf, h.window⟩

theorem Rbc.Inv.startEdge {b : Rbc} (h : b.Inv) (valid ready : Bool) (beat : CmdBeat) :
    (b.startEdge valid ready beat).Inv :=
  { h with rsp_fits := nofun }

theorem Rbc.Inv.waiting {b : Rbc} (h : b.Inv) (w : Nat) : Rbc.Inv { b with waited := w } :=
  { h with }

theorem Rbc.Inv.resetEdge {b : Rbc} (h : b.Inv) : b.resetEdge.Inv :=
  { h with
    head_lt := h.cursors.c_pos
    tail_lt := h.cursors.c_pos
    preHead_lt := h.cursors.c_pos
    preTail_lt := h.cursors.c_pos
    window := windowWritten_same b.sto 0
    rsp_fits := nofun
    phase_ok := trivial }

theorem outFits_append {p : Config} {xs ys : List RspBeat} (hx : ∀ r ∈ xs, r.fits p)
    (hy : ∀ r ∈ ys, r.fits p) : ∀ r ∈ xs ++ ys, r.fits p := fun r hr =>
  (List.mem_append.1 hr).elim (hx r) (hy r)

theorem Rbc.Inv.send {b : Rbc} {r : RspBeat} (h : b.Inv) (hr : r.fits b.cfg) : (b.send r).Inv :=
  { h with
    out_fits := outFits_append h.out_fits (by simpa using hr)
    rsp_fits := fun _ he => Option.some.inj he ▸ hr }

theorem Rbc.Inv.respond {b : Rbc} {r : Response} (h : b.Inv) (hr : r.Fits b.cfg) :
    (b.respond r).Inv :=
  { h with
    out_fits := outFits_append h.out_fits hr
    rsp_fits := fun _ he => Option.some.inj he ▸ hr.final }

/-- A command that kept the cursors right, back in `IDLE`. -/
theorem Rbc.Inv.settle {b b₁ : Rbc} (h : b.Inv) (hm : b.Moved b₁) (hc : b₁.Cursors)
    (q : StoPort) : Rbc.Inv { b₁ with phase := .idle, port := q } := by
  obtain ⟨_, _, _, rfl⟩ := hm
  exact { h with
    head_lt := hc.head_lt
    tail_lt := hc.tail_lt
    sto_wf := hc.sto_wf
    window := hc.window
    phase_ok := trivial }

/-! ## A header (R343) -/

theorem plannedSteps_burst {p : Config} {op : Opcode} (h : isBurst op = true)
    (n head tail : Nat) : plannedSteps p op n head tail ≤ n ∧
      plannedSteps p op n head tail ≤ freeSlots p head tail := by
  obtain rfl | rfl := isBurst_iff.1 h
  · exact ⟨Nat.min_le_left .., Nat.min_le_right ..⟩
  · simp only [plannedSteps]
    split <;> omega

/-- A command that enters `EXEC` at its header has its steps before it. -/
theorem Rbc.Inv.startJob {b : Rbc} {op : Opcode} {n : Nat} (h : b.Inv)
    (hn : n < 2 ^ b.cfg.nw) (d : Nat) :
    (b.running (newJob op n d (plannedSteps b.cfg op n b.head b.tail))).phaseOk := by
  refine ⟨hn, nofun, ?_⟩
  cases op
  case readN => exact ⟨rfl, Nat.zero_le _, Nat.min_le_left .., by
    rw [newJob, Nat.zero_add]; exact Nat.min_le_right ..⟩
  case readAll =>
    simp only [newJob, plannedSteps]
    refine ⟨rfl, ?_⟩
    dsimp only [Rbc.running]
    split <;> omega
  case readObj =>
    simp only [newJob, plannedSteps]
    refine ⟨rfl, ?_⟩
    dsimp only [Rbc.running]
    split
    · omega
    · rename_i he
      have := h.cursors.notEmpty.1 (Bool.eq_false_of_not_eq_true he)
      omega
  case writeObj =>
    simp only [newJob, plannedSteps]
    dsimp only [Rbc.running]
    split
    · omega
    · rename_i hf
      have := h.cursors.notFull.1 (Bool.eq_false_of_not_eq_true hf)
      omega
  case peekNth => exact ⟨rfl, Nat.zero_le _⟩
  case writeN => exact (plannedSteps_burst (op := .writeN) rfl ..).1
  case writeAll => exact (plannedSteps_burst (op := .writeAll) rfl ..).1
  all_goals trivial

theorem Rbc.Inv.acceptHeader {b : Rbc} {w : Nat} (h : b.Inv) (hw : w < 2 ^ (b.cfg.nw + 4))
    (d : Nat) : (b.acceptHeader w d).Inv := by
  have hn : headerN w < 2 ^ b.cfg.nw := headerN_lt hw
  refine { h with preHead_lt := h.head_lt, preTail_lt := h.tail_lt, phase_ok := ?_ }
  unfold Rbc.acceptHeader
  generalize Opcode.ofBits (headerOp w) = op
  dsimp only
  split
  · rename_i hb
    obtain ⟨hop, hpos⟩ := Bool.and_eq_true_iff.1 hb
    obtain ⟨hk, hfree⟩ := plannedSteps_burst (p := b.cfg) hop (headerN w) b.head b.tail
    exact ⟨hop, of_decide_eq_true hpos, hn, hk, by rw [Nat.zero_add]; exact hfree⟩
  · exact h.startJob hn d

/-! ## A data beat (R344) -/

theorem phaseOk_afterBeat {b : Rbc} {op : Opcode} {n k i : Nat} (hop : isBurst op = true)
    (hi : i < n) (hn : n < 2 ^ b.cfg.nw) (hk : k ≤ n)
    (hfree : k ≤ i + 1 + freeSlots b.cfg b.head b.tail) :
    Rbc.phaseOk { b with phase := afterBeat op n k i } := by
  unfold afterBeat
  split
  · refine ⟨hn, nofun, ?_⟩
    obtain rfl | rfl := isBurst_iff.1 hop <;> exact hk
  · exact ⟨hop, by omega, hn, hk, hfree⟩

theorem Rbc.Inv.acceptData {b b' : Rbc} {d n k i : Nat} {op : Opcode} (h : b.Inv)
    (hp : b.phase = .wdata op n k i) (ha : b.acceptData d op n k i = .ok b') : b'.Inv := by
  have hphase := h.phase_ok
  simp only [Rbc.phaseOk, hp] at hphase
  obtain ⟨hop, hi, hn, hk, hfree⟩ := hphase
  obtain ⟨hik, b₁, hw, rfl⟩ | ⟨hik, rfl⟩ := Rbc.acceptData_ok ha
  · have hf := h.cursors.notFull.2 (by omega)
    have hslots := freeSlots_adv_tail h.cursors.shared h.head_lt h.tail_lt hf
    have hc := h.cursors.writeOne hf hw
    obtain ⟨m, -, rfl⟩ := Rbc.writeOne_ok hw
    exact { h with
      tail_lt := hc.tail_lt
      sto_wf := hc.sto_wf
      window := hc.window
      phase_ok := phaseOk_afterBeat (b := { b with tail := adv b.cfg b.tail }) hop hi hn hk (by
        dsimp only
        omega) }
  · exact { h with phase_ok := phaseOk_afterBeat hop hi hn hk (by omega) }

/-! ## An edge in `EXEC` (R345) -/

/-- Every read on its way is of a slot in range, with an object that fits its bus. -/
def flightFits (p : Config) (flight : List StoRead) : Prop :=
  ∀ r ∈ flight, r.slot < p.c ∧ r.obj < 2 ^ (8 * p.s)

theorem flightFits_awaiting {p : Config} {job : Job} {slot obj : Nat}
    (h : flightFits p job.flight) (hslot : slot < p.c) (hobj : obj < 2 ^ (8 * p.s)) :
    flightFits p (job.awaiting p slot obj).flight := by
  intro r hr
  obtain hr | hr := List.mem_append.1 hr
  · exact h r hr
  · obtain rfl := List.mem_singleton.1 hr
    exact ⟨hslot, hobj⟩

/-- How far READ_N or READ_ALL is: each read made is sent or on its way, and what is left to read is
in the buffer. -/
def Rbc.readProgress (b : Rbc) (job : Job) : Prop :=
  job.sent + job.flight.length = job.issued ∧ job.issued ≤ job.k ∧ job.k ≤ job.n ∧
    job.k ≤ job.issued + occ b.cfg b.head b.tail

theorem phaseOk_bulkRead {b : Rbc} {job : Job} (hop : isBulkRead job.op = true) :
    (b.running job).phaseOk ↔
      job.n < 2 ^ b.cfg.nw ∧ flightFits b.cfg job.flight ∧ b.readProgress job := by
  obtain ⟨op, n, data, k, issued, sent, flight, cycles⟩ := job
  obtain rfl | rfl := isBulkRead_iff.1 hop <;> rfl

theorem Rbc.Inv.tick {b : Rbc} {job : Job} (h : (b.running job).Inv) :
    (b.running job.tick).Inv := by
  refine { h with phase_ok := ?_ }
  obtain ⟨hn, hfit, hprog⟩ := h.phase_ok
  refine ⟨hn, by simpa using hfit, ?_⟩
  obtain ⟨op, n, data, k, issued, sent, flight, cycles⟩ := job
  cases op
  case readN | readAll | readObj | peekNth => simpa [Job.tick] using hprog
  all_goals exact hprog

theorem Rbc.Inv.sendData {b : Rbc} {job : Job} (h : (b.running job).Inv) (send : Bool) :
    ((b.sendData send job).2.running (b.sendData send job).1).Inv := by
  obtain hs | ⟨-, hop, r, rest, hflight, -, hs⟩ := b.sendData_eq send job
  · rw [hs]
    exact h
  · rw [hs]
    obtain ⟨hn, hfit, hsum, hik, hkn, hocc⟩ := (phaseOk_bulkRead hop).1 h.phase_ok
    rw [hflight, List.length_cons] at hsum
    rw [hflight] at hfit
    obtain ⟨hslot, hobj⟩ := hfit r List.mem_cons_self
    have hbeat : (dataBeat job.sent (r.slot, r.obj)).fits b.cfg :=
      dataBeat_fits (by omega) hslot hobj
    refine { h.send hbeat with phase_ok := (phaseOk_bulkRead (by exact hop)).2 ⟨hn, ?_, ?_⟩ }
    · exact fun x hx => hfit x (List.mem_cons_of_mem _ hx)
    · exact ⟨by dsimp only; omega, hik, hkn, hocc⟩

/-- A command that takes objects out and has not taken them all finds the next one in the buffer. -/
theorem Rbc.Inv.readLeft {b : Rbc} {job : Job} (h : (b.running job).Inv)
    (hop : job.op = .readObj ∨ isBulkRead job.op = true) (hleft : 0 < b.accessesLeft job) :
    job.issued < job.k ∧ job.k ≤ job.issued + occ b.cfg b.head b.tail := by
  obtain ⟨-, -, hprog⟩ := h.phase_ok
  obtain ⟨op, n, data, k, issued, sent, flight, cycles⟩ := job
  rw [isBulkRead_iff] at hop
  obtain rfl | rfl | rfl : op = .readObj ∨ op = .readN ∨ op = .readAll := hop
  all_goals
    obtain ⟨-, -, -, hocc⟩ := hprog
    exact ⟨Nat.lt_of_sub_pos hleft, hocc⟩

/-- R601, R208: a read at `head` that then advances. -/
theorem Rbc.Inv.accessHead {b : Rbc} {job : Job} {x : Nat × Nat} (h : (b.running job).Inv)
    (hop : job.op = .readObj ∨ isBulkRead job.op = true) (hleft : 0 < b.accessesLeft job)
    (hx : b.takeOne = .ok (x, b.dropOne)) (q : StoPort) :
    Rbc.Inv { b.dropOne with port := q, phase := .exec (job.awaiting b.cfg x.1 x.2) } := by
  obtain ⟨hik, hocc⟩ := h.readLeft hop hleft
  have hb := h.cursors_of_running
  have he := hb.notEmpty.2 (by omega)
  have hdrop := occ_adv_head hb.shared hb.head_lt hb.tail_lt he
  have hc := hb.dropOne he
  obtain ⟨hslot, hobj⟩ := Rbc.takeOne_fits hx
  obtain ⟨hn, hfit, hprog⟩ := h.phase_ok
  refine { h with
    head_lt := hc.head_lt
    window := hc.window
    phase_ok := ⟨hn, flightFits_awaiting hfit hslot hobj, ?_⟩ }
  obtain ⟨op, n, data, k, issued, sent, flight, cycles⟩ := job
  dsimp only at hik hocc
  rw [isBulkRead_iff] at hop
  obtain rfl | hop : op = .readObj ∨ op = .readN ∨ op = .readAll := hop
  · obtain ⟨hlen, -, hk, -⟩ := hprog
    refine ⟨by simpa using hlen, hik, hk, ?_⟩
    dsimp only [Job.awaiting, Rbc.dropOne]
    omega
  obtain rfl | rfl := hop
  all_goals
    obtain ⟨hlen, -, hkn, -⟩ := hprog
    refine ⟨?_, hik, hkn, ?_⟩
    · dsimp only [Job.awaiting] at hlen ⊢
      rw [List.length_append, ← Nat.add_assoc, hlen]
      rfl
    · dsimp only [Job.awaiting, Rbc.dropOne]
      omega

/-- One access of a command in `EXEC` (R208, R420). -/
theorem Rbc.Inv.access {b b' : Rbc} {job : Job} (h : (b.running job).Inv)
    (hleft : 0 < b.accessesLeft job) (ha : b.access job = .ok b') : b'.Inv := by
  obtain ⟨hop, x, hx, rfl⟩ | ⟨hop, d, hd, rfl⟩ | ⟨hop, b₁, hw, rfl⟩ | ⟨h0, -⟩ := Rbc.access_ok ha
  · exact h.accessHead hop hleft hx _
  · obtain ⟨hn, hfit, hprog⟩ := h.phase_ok
    obtain ⟨hslot, hobj⟩ := memRead_ok hd
    refine { h with
      phase_ok := ⟨hn, flightFits_awaiting hfit hslot (readBytes_lt hobj), ?_⟩ }
    obtain ⟨op, n, data, k, issued, sent, flight, cycles⟩ := job
    obtain rfl : op = .peekNth := hop
    obtain ⟨hlen, -⟩ := hprog
    refine ⟨by simpa using hlen, ?_⟩
    simp only [Rbc.accessesLeft] at hleft
    dsimp only [Job.awaiting]
    split at hleft <;> omega
  · have hb := h.cursors_of_running
    obtain ⟨hn, hfit, hprog⟩ := h.phase_ok
    obtain ⟨op, n, data, k, issued, sent, flight, cycles⟩ := job
    obtain rfl : op = .writeObj := hop
    obtain ⟨-, hk1, hkfree⟩ := hprog
    have hik : issued < k := Nat.lt_of_sub_pos hleft
    dsimp only [Rbc.running] at hk1 hkfree
    have hf := hb.notFull.2 (by omega)
    have hfree := freeSlots_adv_tail hb.shared hb.head_lt hb.tail_lt hf
    have hc := hb.writeOne hf hw
    obtain ⟨m, -, rfl⟩ := Rbc.writeOne_ok hw
    exact { h with
      tail_lt := hc.tail_lt
      sto_wf := hc.sto_wf
      window := hc.window
      phase_ok := ⟨hn, hfit, hik, hk1, by dsimp only; omega⟩ }
  · omega

/-! ## The final beat (R345) -/

theorem readAnswer_fits {p : Config} {k : Nat} {flight : List StoRead} (hk : k < 2 ^ p.nw)
    (h : flightFits p flight) : (readAnswer k flight).Fits p := by
  cases flight with
  | nil => exact answer_fits _ (Nat.two_pow_pos _)
  | cons r rest =>
    obtain ⟨hslot, hobj⟩ := h r List.mem_cons_self
    exact answerObject_fits hk hslot hobj

theorem bulkAnswer_fits {p : Config} {job : Job} (hk : job.k < 2 ^ p.nw) :
    (bulkAnswer job).Fits p := by
  unfold bulkAnswer
  split <;> exact answer_fits _ hk

theorem wholeBurst_ofHeader {op : Opcode} (h : isBurst op = false) (n d : Nat) (ds : List Nat) :
    wholeBurst (Instr.ofHeader op n d ds) := by
  cases op
  case writeAll => cases h
  all_goals trivial

theorem Rbc.Inv.lastStep {b b' : Rbc} {job : Job} {r : Response} (h : (b.running job).Inv)
    (hl : b.lastStep job = .ok (b', r)) : b'.Cursors ∧ r.Fits b.cfg := by
  have hb := h.cursors_of_running
  obtain ⟨hn, hfit, hprog⟩ := h.phase_ok
  obtain ⟨rfl, ⟨-, rfl⟩ | ⟨-, rfl⟩ | ⟨-, rfl⟩ | ⟨hop, rfl⟩⟩ | ⟨-, hop, -, -, hcmd⟩ :=
    Rbc.lastStep_ok hl
  · exact ⟨hb, answer_fits _ hb.one_fits⟩
  · exact ⟨hb, readAnswer_fits hb.one_fits hfit⟩
  · exact ⟨hb, readAnswer_fits ((Nat.mod_le _ _).trans_lt hn) hfit⟩
  · refine ⟨hb, bulkAnswer_fits (Nat.lt_of_le_of_lt ?_ hn)⟩
    obtain ⟨op, n, data, k, issued, sent, flight, cycles⟩ := job
    rw [isBurst_iff, isBulkRead_iff] at hop
    obtain (rfl | rfl) | (rfl | rfl) :
        (op = .writeN ∨ op = .writeAll) ∨ op = .readN ∨ op = .readAll := hop
    · exact hprog
    · exact hprog
    all_goals
      obtain ⟨-, -, hkn, -⟩ := hprog
      exact hkn
  · exact hb.command (wholeBurst_ofHeader hop ..) hcmd

theorem Rbc.Inv.execMove {b b' : Rbc} {issue send : Bool} {job : Job} (h : b.Inv)
    (hp : b.phase = .exec job) (hm : b.execMove issue send job = .ok b') : b'.Inv := by
  have hrun : (b.running job).Inv := by rwa [Rbc.running_of_phase hp]
  obtain ⟨-, -, hfin⟩ | ⟨hleft, hacc⟩ | rfl := Rbc.execMove_ok hm
  · obtain ⟨b₁, r, hl, rfl⟩ := Rbc.finish_ok hfin
    obtain ⟨hc, hr⟩ := hrun.lastStep hl
    have hmoved := Rbc.lastStep_moved hl
    refine (h.settle hmoved hc _).send ?_
    obtain ⟨hcfg, -⟩ := hmoved.frame
    exact hcfg ▸ hr.final
  · refine ((hrun.sendData send).tick).access ?_ hacc
    obtain ⟨_, _, _, _, hs⟩ := b.sendData_frame send job
    rw [hs]
    exact hleft
  · exact (hrun.sendData send).tick

theorem Rbc.Inv.runEdge {b b' : Rbc} {valid : Bool} {beat : CmdBeat} {pace : Pace} (h : b.Inv)
    (hw : valid = true → beat.hdr < 2 ^ (b.cfg.nw + 4))
    (he : b.runEdge valid beat pace = .next b') : b'.Inv := by
  obtain ⟨ready, hcases⟩ := Rbc.runEdge_next he
  have hstart := h.startEdge valid ready beat
  obtain ⟨-, rfl | ⟨rfl, hv⟩⟩ | ⟨op, n, k, i, hp, ⟨w, rfl⟩ | hd⟩ | ⟨job, hp, hexec⟩ := hcases
  · exact hstart
  · exact hstart.acceptHeader (hw hv) _
  · exact hstart.waiting w
  · exact hstart.acceptData hp hd
  · obtain ⟨hm, -⟩ | hm := Rbc.execEdge_ok hexec <;> exact hstart.execMove hp hm

/-- Every step keeps the RBC's invariant. -/
theorem Rbc.Step.inv {b b' : Rbc} (hs : b.Step b') (h : b.Inv) : b'.Inv := by
  cases hs with
  | stay => exact h
  | @command i x r hw hp hcmd =>
    have hheld : Rbc.Inv { b with held := none } := { h with }
    have hmoved := commandOf_moved hcmd
    obtain ⟨hc, hr⟩ := hheld.cursors.command (wholeBurst_of_wellFormed hw) hcmd
    obtain ⟨hcfg, hphase, -⟩ := hmoved.frame
    have hidle : x.phase = .idle := hphase.trans hp
    have hx := hheld.settle hmoved hc x.port
    rw [← hidle] at hx
    exact hx.respond (hcfg ▸ hr)
  | @edge rst valid beat pace b' hedge =>
    obtain ⟨-, -, hfits, hrun⟩ := Rbc.clkEdge_next.1 hedge
    cases rst with
    | true =>
      obtain rfl := hrun
      exact (h.startEdge valid false beat).resetEdge
    | false => exact h.runEdge (fun hv => (hfits hv).1) hrun

end Sys2Proof.Machine
end

section
/-! The invariants of SF and AF, and of the whole machine. -/

namespace Sys2Proof.Machine

/-! ## SF (44_sync_fifo.md) -/

theorem Sf.Inv.shared {f : Sf} (h : f.Inv) : checkShared f.cfg = none := checkSf_shared h.legal

theorem Sf.Inv.cleared {f : Sf} (h : f.Inv) : f.cleared.Inv :=
  have hpos : 0 < f.cfg.c := Nat.lt_of_le_of_lt (Nat.zero_le _) h.head_lt
  { h with
    head_lt := hpos
    tail_lt := hpos
    window := windowWritten_same f.sto 0
    write_once := nofun
    read_once := nofun
    not_both := nofun }

/-- The push half of an edge: an object at `tail` if there is room, and the pop's slot still there. -/
theorem Sf.Inv.push {f : Sf} {doW : Bool} {m : Memory} {d : Nat} (h : f.Inv)
    (hroom : doW = true → isFull f.cfg f.head f.tail = false)
    (hm : if doW then memWrite f.cfg f.sto f.tail d = .ok m else m = f.sto) :
    let tail := if doW then adv f.cfg f.tail else f.tail
    tail < f.cfg.c ∧ Memory.wf m ∧ windowWritten f.cfg m f.head tail ∧
      (isEmpty f.head f.tail = false → isEmpty f.head tail = false) := by
  cases doW with
  | false =>
    obtain rfl := hm
    exact ⟨h.tail_lt, h.sto_wf, h.window, id⟩
  | true =>
    have hf := hroom rfl
    refine ⟨adv_lt h.shared _, memWrite_wf h.sto_wf hm,
      windowWritten_write h.shared h.head_lt h.tail_lt hf hm h.window, fun _ => ?_⟩
    exact decide_eq_false fun he => of_decide_eq_false hf he.symm

/-- A buffer is never full and empty: `C ≥ 2` (R411). -/
theorem not_full_and_empty {p : Config} (hc : checkShared p = none) {head tail : Nat}
    (hh : head < p.c) (ht : tail < p.c) :
    ¬(isFull p head tail = true ∧ isEmpty head tail = true) := by
  rintro ⟨hf, he⟩
  obtain ⟨-, hc2, -⟩ := checkShared_spec hc
  rw [isFull_eq_occ hc hh ht, decide_eq_true_eq] at hf
  rw [isEmpty_eq_occ hc hh ht, decide_eq_true_eq] at he
  omega

theorem Sf.Inv.edge {f g : Sf} {wr rd : Bool} {d : Nat} (h : f.Inv)
    (he : f.edge wr rd d = .ok g) : g.Inv := by
  obtain ⟨m, o, ho, hm, hcfg, hsto, hdata, hhead, htail, hwrAck, hwrOvf, hrdAck, hrdUnf, -, -⟩ :=
    Sf.edge_ok he
  obtain ⟨htail_lt, hwf, hwindow, hstill⟩ := h.push (fun hw => by
    simpa using (Bool.and_eq_true_iff.1 hw).2) hm
  rw [← htail] at htail_lt hwindow hstill
  have hpop : g.head < f.cfg.c ∧ windowWritten f.cfg m g.head g.tail ∧ o < 2 ^ (8 * f.cfg.s) := by
    rw [hhead]
    split at ho
    · rename_i hr
      rw [if_pos hr]
      have hne : isEmpty f.head f.tail = false := by simpa using (Bool.and_eq_true_iff.1 hr).2
      exact ⟨adv_lt h.shared _, windowWritten_drop h.shared h.head_lt htail_lt (hstill hne) hwindow,
        readBytes_lt (memRead_ok ho).2⟩
    · rename_i hr
      rw [if_neg hr, ho]
      exact ⟨h.head_lt, hwindow, h.rdData_fits⟩
  obtain ⟨hhead_lt, hwindow', hfits⟩ := hpop
  refine ⟨hcfg ▸ h.legal, hcfg ▸ hhead_lt, hcfg ▸ htail_lt, hsto ▸ hwf, ?_, ?_, ?_, ?_, ?_⟩
  · rw [hcfg, hsto]
    exact hwindow'
  · rw [hcfg, hdata]
    exact hfits
  · rw [hwrAck, hwrOvf]
    cases isFull f.cfg f.head f.tail <;> simp
  · rw [hrdAck, hrdUnf]
    cases isEmpty f.head f.tail <;> simp
  · rw [hwrOvf, hrdUnf, Bool.and_eq_true, Bool.and_eq_true]
    exact fun ⟨⟨_, hfull⟩, _, hempty⟩ =>
      not_full_and_empty h.shared h.head_lt h.tail_lt ⟨hfull, hempty⟩

/-- Every step keeps SF's invariant. -/
theorem Sf.Step.inv {f g : Sf} (hs : f.Step g) (h : f.Inv) : g.Inv := by
  cases hs with
  | stay => exact h
  | clear => exact h.cleared
  | edge he => exact h.edge he

/-! ## Synchroniser chains (R930, R931) -/

/-- A chain's counts fall from its first stage to its last, and none is past `now` (R950). -/
def chainLags (now : Nat) (q : List Nat) : Prop :=
  (q.Pairwise fun x y => y ≤ x) ∧ ∀ x ∈ q, x ≤ now

theorem chainOut_le_of_mem {q : List Nat} (h : q.Pairwise fun x y => y ≤ x) {x : Nat}
    (hx : x ∈ q) : chainOut q ≤ x := by
  induction q generalizing x with
  | nil => cases hx
  | cons y q ih =>
    obtain ⟨hy, hq⟩ := List.pairwise_cons.1 h
    cases q with
    | nil => exact (List.mem_singleton.1 hx).ge
    | cons z q =>
      have hlast : chainOut (y :: z :: q) = chainOut (z :: q) := rfl
      rw [hlast]
      obtain rfl | hx := List.mem_cons.1 hx
      · exact (ih hq List.mem_cons_self).trans (hy z List.mem_cons_self)
      · exact ih hq hx

theorem chainOut_mem {q : List Nat} (h : q ≠ []) : chainOut q ∈ q := by
  obtain ⟨x, q, rfl⟩ := List.exists_cons_of_ne_nil h
  exact List.getLast_mem (List.cons_ne_nil x q)

theorem chainOut_map (f : Nat → Nat) {q : List Nat} (h : q ≠ []) :
    chainOut (q.map f) = f (chainOut q) := by
  obtain ⟨x, q, rfl⟩ := List.exists_cons_of_ne_nil h
  exact List.getLast_map (f := f) (l := x :: q) (List.cons_ne_nil _ _)

theorem headD_le {now : Nat} {q : List Nat} (h : chainLags now q) : q.headD 0 ≤ now := by
  cases q with
  | nil => exact Nat.zero_le _
  | cons x q => exact h.2 x List.mem_cons_self

theorem le_headD {q : List Nat} (h : q.Pairwise fun x y => y ≤ x) {x : Nat} (hx : x ∈ q) :
    x ≤ q.headD 0 := by
  cases q with
  | nil => cases hx
  | cons y q =>
    obtain rfl | hx := List.mem_cons.1 hx
    · exact le_refl _
    · exact (List.pairwise_cons.1 h).1 x hx

/-- R931: the count captured lies between the stage's and the current one. -/
theorem sampleCount_bounds {seen now : Nat} (h : seen ≤ now) (moved : Bool) (draw : Nat) :
    seen ≤ sampleCount moved seen now draw ∧ sampleCount moved seen now draw ≤ now := by
  have hmod : draw % (now - seen + 1) < now - seen + 1 := Nat.mod_lt _ (Nat.succ_pos _)
  cases moved
  · exact ⟨h, le_refl _⟩
  · simp only [sampleCount, if_true]
    omega

/-- A shift keeps a chain in order and behind its input, and never moves its output back (R950). -/
theorem chainLags_shiftIn {now : Nat} {q : List Nat} (h : chainLags now q) (moved : Bool)
    (draw : Nat) :
    chainLags now (shiftIn (sampleCount moved (q.headD 0) now draw) q) ∧
      chainOut q ≤ chainOut (shiftIn (sampleCount moved (q.headD 0) now draw) q) := by
  obtain ⟨hseen, hnow⟩ := sampleCount_bounds (headD_le h) moved draw
  generalize sampleCount moved (q.headD 0) now draw = x at hseen hnow
  have hx : ∀ y ∈ q, y ≤ x := fun y hy => (le_headD h.1 hy).trans hseen
  refine ⟨⟨List.pairwise_cons.2 ⟨fun y hy => hx y (List.mem_of_mem_dropLast hy),
    h.1.sublist (List.dropLast_sublist q)⟩, fun y hy => ?_⟩, ?_⟩
  · obtain rfl | hy := mem_shiftIn hy
    · exact hnow
    · exact h.2 y hy
  · obtain he | hmem := mem_shiftIn (chainOut_mem (q := shiftIn x q) (List.cons_ne_nil _ _))
    · rw [he]
      cases q with
      | nil => exact Nat.zero_le _
      | cons y q => exact hx _ (chainOut_mem (List.cons_ne_nil y q))
    · exact chainOut_le_of_mem h.1 hmem

/-- A shifted chain still holds the gray codes of the counts its stages stand for. -/
theorem map_shiftIn {p : Config} {src now x : Nat} {q : List Nat}
    (hsrc : src = gray (now % p.c)) :
    shiftIn (sampleGray p src now x) (q.map fun y => gray (y % p.c)) =
      (shiftIn x q).map fun y => gray (y % p.c) := by
  have hx : sampleGray p src now x = gray (x % p.c) := by
    unfold sampleGray
    split
    · rename_i he
      rw [hsrc, he]
    · rfl
  simp [shiftIn, hx]

/-! ## AF (45_async_fifo.md) -/

theorem Af.Inv.shared {a : Af} (h : a.Inv) : checkShared a.cfg = none := checkAf_shared h.legal

theorem Af.Inv.syncN_ge {a : Af} (h : a.Inv) : 2 ≤ a.cfg.syncN := (checkAf_spec h.legal).2

theorem Af.Inv.wqc_ne {a : Af} (h : a.Inv) : a.wqc ≠ [] := by
  have hlen := h.wq_length
  have := h.syncN_ge
  rw [h.wq_code, List.length_map] at hlen
  rintro he
  rw [he, List.length_nil] at hlen
  omega

theorem Af.Inv.rqc_ne {a : Af} (h : a.Inv) : a.rqc ≠ [] := by
  have hlen := h.rq_length
  have := h.syncN_ge
  rw [h.rq_code, List.length_map] at hlen
  rintro he
  rw [he, List.length_nil] at hlen
  omega

/-- R905: a full FIFO as the write domain sees it shows `full_w`, so a push has a slot free. -/
theorem Af.Inv.room {a : Af} (h : a.Inv) (hf : a.fullW = false) : a.wc + 2 ≤ a.rv + a.cfg.c := by
  have hle := h.no_overflow
  by_contra hlt
  have heq : a.wc + 1 = a.rv + a.cfg.c := by omega
  refine of_decide_eq_false hf ?_
  rw [h.wq_code, chainOut_map _ h.wqc_ne, adv_eq_mod h.shared, h.wbin_count, Nat.mod_add_mod, heq,
    Nat.add_mod_right]
  rfl

/-- R906: an empty FIFO as the read domain sees it shows `empty_r`, so a pop has an object. -/
theorem Af.Inv.object {a : Af} (h : a.Inv) (he : a.emptyR = false) : a.rc + 1 ≤ a.wv := by
  have hle := h.no_underflow
  by_contra hlt
  have heq : a.rc = a.wv := by omega
  refine of_decide_eq_false he ?_
  rw [h.rq_code, chainOut_map _ h.rqc_ne, h.rgray_code, h.rbin_count, heq]
  rfl

theorem Af.Inv.rbin_lt {a : Af} (h : a.Inv) : a.rbin < a.cfg.c := by
  obtain ⟨-, hc, -⟩ := checkShared_spec h.shared
  exact h.rbin_count ▸ Nat.mod_lt _ (by omega)

theorem adv_mod {p : Config} (hc : checkShared p = none) (x : Nat) :
    adv p (x % p.c) = (x + 1) % p.c := by
  rw [adv_eq_mod hc, Nat.mod_add_mod]

/-- R910: a push that `full_w` allows. -/
theorem Af.Inv.pushOne {a a' : Af} {d : Nat} (h : a.Inv) (hl : a.wLive = true)
    (hf : a.fullW = false) (hp : a.pushOne d = .ok a') : a'.Inv := by
  obtain ⟨m, hm, rfl⟩ := Af.pushOne_ok hp
  refine { h with
    sto_wf := memWrite_wf h.sto_wf hm
    wbin_count := (congrArg _ h.wbin_count).trans (adv_mod h.shared a.wc)
    wgray_code := rfl
    rqc_le := fun x hx => (h.rqc_le x hx).trans (Nat.le_succ _)
    no_overflow := h.room hf
    window := fun x hrc hwc => slotWritten_write hm ?_
    write_in_reset := fun hn => absurd (hl.symm.trans hn) nofun }
  by_cases hlast : x = a.wc
  · exact .inr (hlast ▸ h.wbin_count.symm)
  · exact .inl (h.window x hrc (by dsimp only at hwc; omega))

/-- R920: a pop that `empty_r` allows. -/
theorem Af.Inv.popOne {a a' : Af} (h : a.Inv) (hl : a.rLive = true) (he : a.emptyR = false)
    (hp : a.popOne = .ok a') : a'.Inv := by
  obtain ⟨d, hd, rfl⟩ := Af.popOne_ok hp
  exact { h with
    rbin_count := (congrArg _ h.rbin_count).trans (adv_mod h.shared a.rc)
    rgray_code := rfl
    wqc_le := fun x hx => (h.wqc_le x hx).trans (Nat.le_succ _)
    no_underflow := h.object he
    window := fun x hrc hwc => h.window x (Nat.le_of_succ_le hrc) hwc
    rdData_fits := readBytes_lt (memRead_ok hd).2
    read_in_reset := fun hn => absurd (hl.symm.trans hn) nofun }

theorem Af.Inv.shiftW {a : Af} (h : a.Inv) (draw : Nat) : (a.shiftW draw).Inv := by
  obtain ⟨⟨horder, hle⟩, hout⟩ := chainLags_shiftIn ⟨h.wqc_order, h.wqc_le⟩ a.rMoved draw
  refine { h with
    wq_length := ?_
    wq_code := ?_
    wqc_order := horder
    wqc_le := hle
    no_overflow := h.no_overflow.trans (Nat.add_le_add_right hout _) }
  · have := h.syncN_ge
    simp only [Af.shiftW, length_shiftIn, h.wq_length]
    omega
  · simp only [Af.shiftW]
    rw [h.wq_code]
    exact map_shiftIn (h.rgray_code.trans (congrArg gray h.rbin_count))

theorem Af.Inv.shiftR {a : Af} (h : a.Inv) (draw : Nat) : (a.shiftR draw).Inv := by
  obtain ⟨⟨horder, hle⟩, hout⟩ := chainLags_shiftIn ⟨h.rqc_order, h.rqc_le⟩ a.wMoved draw
  refine { h with
    rq_length := ?_
    rq_code := ?_
    rqc_order := horder
    rqc_le := hle
    no_underflow := h.no_underflow.trans hout }
  · have := h.syncN_ge
    simp only [Af.shiftR, length_shiftIn, h.rq_length]
    omega
  · simp only [Af.shiftR]
    rw [h.rq_code]
    exact map_shiftIn (h.wgray_code.trans (congrArg gray h.wbin_count))

/-- An edge never acknowledges a request and refuses it (R1112). -/
theorem ack_not_refuse (x y : Bool) : ¬((x && !y) = true ∧ (x && y) = true) := by
  cases y <;> simp

theorem Af.Inv.wEdge {a a' : Af} {winc : Bool} {d draw : Nat} (h : a.Inv) (hl : a.wLive = true)
    (he : a.wEdge winc d draw = .ok a') : a'.Inv := by
  obtain ⟨a₁, hpush, rfl⟩ := Af.wEdge_ok he
  have h₁ : a₁.Inv ∧ a₁.wLive = true := by
    split at hpush
    · rename_i hw
      refine ⟨h.pushOne hl (by simpa using (Bool.and_eq_true_iff.1 hw).2) hpush, ?_⟩
      obtain ⟨m, -, rfl⟩ := Af.pushOne_ok hpush
      exact hl
    · exact hpush ▸ ⟨h, hl⟩
  obtain ⟨hinv, hlive⟩ := h₁
  refine Af.Inv.shiftW ?_ draw
  exact { hinv with
    write_once := ack_not_refuse _ _
    write_in_reset := fun hn => absurd (hlive.symm.trans hn) nofun }

theorem Af.Inv.rEdge {a a' : Af} {rinc : Bool} {draw : Nat} (h : a.Inv) (hl : a.rLive = true)
    (he : a.rEdge rinc draw = .ok a') : a'.Inv := by
  obtain ⟨a₁, hpop, rfl⟩ := Af.rEdge_ok he
  have h₁ : a₁.Inv ∧ a₁.rLive = true := by
    split at hpop
    · rename_i hr
      refine ⟨h.popOne hl (by simpa using (Bool.and_eq_true_iff.1 hr).2) hpop, ?_⟩
      obtain ⟨d, -, rfl⟩ := Af.popOne_ok hpop
      exact hl
    · exact hpop ▸ ⟨h, hl⟩
  obtain ⟨hinv, hlive⟩ := h₁
  refine Af.Inv.shiftR ?_ draw
  exact { hinv with
    read_once := ack_not_refuse _ _
    read_in_reset := fun hn => absurd (hlive.symm.trans hn) nofun }

/-- R1202: a `wclk` edge of a domain in reset. -/
theorem Af.Inv.wResetEdge {a : Af} (h : a.Inv) (hr : ¬(a.arstN = true ∧ a.wLive = true))
    (draw : Nat) (release : Bool) : (a.wResetEdge draw release).Inv := by
  cases hn : a.arstN with
  | true =>
    have hl : a.wLive = false := Bool.eq_false_of_not_eq_true fun hl => hr ⟨hn, hl⟩
    rw [Af.wResetEdge_shifts hn]
    refine Af.Inv.shiftW ?_ draw
    exact { h with
      in_reset := fun hlow => absurd (hn.symm.trans hlow) nofun
      write_in_reset := fun _ => h.write_in_reset hl }
  | false =>
    obtain ⟨hw, hread⟩ := h.in_reset hn
    rw [Af.wResetEdge_held hn]
    exact { h with
      in_reset := fun _ => ⟨rfl, hread⟩
      write_in_reset := fun _ => h.write_in_reset hw }

/-- R1202: an `rclk` edge of a domain in reset. -/
theorem Af.Inv.rResetEdge {a : Af} (h : a.Inv) (hr : ¬(a.arstN = true ∧ a.rLive = true))
    (draw : Nat) (release : Bool) : (a.rResetEdge draw release).Inv := by
  cases hn : a.arstN with
  | true =>
    have hl : a.rLive = false := Bool.eq_false_of_not_eq_true fun hl => hr ⟨hn, hl⟩
    rw [Af.rResetEdge_shifts hn]
    refine Af.Inv.shiftR ?_ draw
    exact { h with
      in_reset := fun hlow => absurd (hn.symm.trans hlow) nofun
      read_in_reset := fun _ => h.read_in_reset hl }
  | false =>
    obtain ⟨hwrite, hl⟩ := h.in_reset hn
    rw [Af.rResetEdge_held hn]
    exact { h with
      in_reset := fun _ => ⟨hwrite, rfl⟩
      read_in_reset := fun _ => h.read_in_reset hl }

/-- A chain of zeros, as reset leaves it. -/
theorem chainLags_replicate (k : Nat) : chainLags 0 (List.replicate k 0) :=
  ⟨List.pairwise_replicate.2 (.inr (le_refl 0)), fun _ hx => (List.eq_of_mem_replicate hx).le⟩

theorem zeros_code (p : Config) :
    List.replicate p.syncN 0 = (List.replicate p.syncN 0).map fun x => gray (x % p.c) := by
  rw [List.map_replicate, Nat.zero_mod]
  rfl

/-- R1202: `arst_n = 0`. -/
theorem Af.Inv.assertReset {a : Af} (h : a.Inv) : a.assertReset.Inv := by
  obtain ⟨-, hc, -⟩ := checkShared_spec h.shared
  obtain ⟨horder, hle⟩ := chainLags_replicate a.cfg.syncN
  exact {
    legal := h.legal
    sto_wf := h.sto_wf
    wq_length := List.length_replicate
    rq_length := List.length_replicate
    wbin_count := (Nat.zero_mod _).symm
    rbin_count := (Nat.zero_mod _).symm
    wgray_code := by simp [gray]
    rgray_code := by simp [gray]
    wq_code := zeros_code a.cfg
    rq_code := zeros_code a.cfg
    wqc_order := horder
    rqc_order := horder
    wqc_le := hle
    rqc_le := hle
    no_underflow := Nat.zero_le _
    no_overflow := by
      rw [Af.assertReset_wc, Af.assertReset_cfg]
      omega
    window := fun _ _ hx => absurd hx (Nat.not_lt_zero _)
    rdData_fits := h.rdData_fits
    write_once := nofun
    read_once := nofun
    in_reset := fun _ => ⟨rfl, rfl⟩
    write_in_reset := fun _ => ⟨rfl, rfl, rfl⟩
    read_in_reset := fun _ => ⟨rfl, rfl, rfl⟩ }

theorem Af.Inv.driveReset {a : Af} (h : a.Inv) (level : Bool) : (a.driveReset level).Inv := by
  cases level with
  | true => exact { h with in_reset := nofun }
  | false => exact h.assertReset

/-- Every step keeps AF's invariant. -/
theorem Af.Step.inv {a a' : Af} (hs : a.Step a') (h : a.Inv) : a'.Inv := by
  cases hs with
  | stay => exact h
  | wclk he =>
    obtain ⟨-, hl, hlive⟩ | ⟨hr, rfl⟩ := Af.wclkEdge_ok he
    · exact h.wEdge hl hlive
    · exact h.wResetEdge hr _ _
  | rclk he =>
    obtain ⟨-, hl, hlive⟩ | ⟨hr, rfl⟩ := Af.rclkEdge_ok he
    · exact h.rEdge hl hlive
    · exact h.rResetEdge hr _ _
  | arst level => exact h.driveReset level

/-! ## The machine -/

/-- Settles O57: a step of the machine is a step of each block, and every block's step keeps that
block's invariant. -/
theorem stepKeepsTheInvariant : Obligations.StepKeepsTheInvariant := by
  unfold Obligations.StepKeepsTheInvariant
  intro s t hinv h
  obtain ⟨hrbc, hsf, haf⟩ := step_steps h
  exact ⟨hrbc.inv hinv.rbc, hsf.inv hinv.sf, haf.inv hinv.af⟩

end Sys2Proof.Machine
end

section
/-! Where the invariant holds every operation of a block is answered: no slot it reads is unwritten,
and none it reads or writes is past `C − 1` (R206, R212, R1113). -/

open Sys2Proof.Statements

namespace Sys2Proof.Machine

/-! ## One-object steps and their loops -/

theorem slotObj_of_written {p : Config} {m : Memory} {slot : Nat} (h : slotWritten p m slot) :
    ∃ d, slotObj p m slot = some d := Option.isSome_iff_exists.1 h

theorem memRead_of_written {p : Config} {m : Memory} {slot : Nat} (hs : slot < p.c)
    (h : slotWritten p m slot) : ∃ d, memRead p m slot = .ok d :=
  (slotObj_of_written h).imp fun _ hd => memRead_of_slotObj hs hd

/-- The oldest object of a window that is not empty lies at `head`. -/
theorem headWritten {p : Config} {m : Memory} {head tail : Nat} (hc : checkShared p = none)
    (hh : head < p.c) (hw : windowWritten p m head tail) (hpos : 0 < occ p head tail) :
    slotWritten p m head := by
  have h0 := hw 0 hpos
  rwa [readSlot, addk_zero hc hh] at h0

theorem Rbc.Cursors.takeOne_answers {b : Rbc} (h : b.Cursors)
    (he : isEmpty b.head b.tail = false) : ∃ x, b.takeOne = .ok (x, b.dropOne) := by
  obtain ⟨d, hd⟩ :=
    slotObj_of_written (headWritten h.shared h.head_lt h.window (h.notEmpty.1 he))
  exact ⟨_, Rbc.takeOne_of_slotObj h.head_lt hd⟩

theorem Rbc.Cursors.takeEach_answers {n : Nat} {b : Rbc} (h : b.Cursors)
    (hn : n ≤ occ b.cfg b.head b.tail) : ∃ x, Machine.takeEach n b = .ok x := by
  induction n generalizing b with
  | zero => exact ⟨_, rfl⟩
  | succ n ih =>
    have he := h.notEmpty.2 (by omega)
    have hocc := occ_adv_head h.shared h.head_lt h.tail_lt he
    obtain ⟨x, hx⟩ := h.takeOne_answers he
    obtain ⟨y, hy⟩ := ih (h.dropOne he) (by dsimp only [Rbc.dropOne]; omega)
    simp only [Machine.takeEach, hx, hy]
    exact ⟨_, rfl⟩

/-- A write at a cursor in range is always made, so a loop of them is. -/
theorem writeEach_answers {b : Rbc} (hc : checkShared b.cfg = none) (ht : b.tail < b.cfg.c)
    (ds : List Nat) : ∃ b', writeEach ds b = .ok b' := by
  induction ds generalizing b with
  | nil => exact ⟨b, rfl⟩
  | cons d ds ih =>
    rw [writeEach, Rbc.writeOne_of_lt d ht]
    exact ih hc (adv_lt hc _)

/-! ## Commands (R600 to R613, R700) -/

/-- From cursors in range and a written window every command is answered, whatever its operands. -/
theorem Rbc.Cursors.command_answers {b : Rbc} (h : b.Cursors) (i : Instr) :
    ∃ x, commandOf i b = .ok x := by
  cases i
  case writeObj d =>
    simp only [commandOf, Rbc.writeObjCommand, Rbc.writeOne_of_lt d h.tail_lt]
    split <;> exact ⟨_, rfl⟩
  case writeN n ds =>
    obtain ⟨b', hb'⟩ :=
      writeEach_answers h.shared h.tail_lt (ds.take (freeSlots b.cfg b.head b.tail))
    simp only [commandOf, Rbc.writeNCommand, writeUntilFull_eq h.shared h.head_lt h.tail_lt, hb']
    exact ⟨_, rfl⟩
  case writeAll n ds =>
    obtain ⟨b', hb'⟩ := writeEach_answers h.shared h.tail_lt ds
    simp only [commandOf, Rbc.writeAllCommand, hb']
    split <;> exact ⟨_, rfl⟩
  case readObj =>
    simp only [commandOf, Rbc.readObjCommand]
    split
    · exact ⟨_, rfl⟩
    · rename_i he
      obtain ⟨x, hx⟩ := h.takeOne_answers (Bool.eq_false_of_not_eq_true he)
      exact ⟨_, by rw [hx]⟩
  case deleteHead =>
    simp only [commandOf, Rbc.deleteHeadCommand]
    split <;> exact ⟨_, rfl⟩
  case readN n =>
    obtain ⟨x, hx⟩ := h.takeEach_answers (Nat.min_le_right n _)
    simp only [commandOf, Rbc.readNCommand, takeUntilEmpty_eq h.shared h.head_lt h.tail_lt, hx]
    exact ⟨_, rfl⟩
  case readAll n =>
    simp only [commandOf, Rbc.readAllCommand]
    split
    · rename_i hn
      obtain ⟨x, hx⟩ := h.takeEach_answers hn
      exact ⟨_, by rw [hx]⟩
    · exact ⟨_, rfl⟩
  case peekNth n =>
    simp only [commandOf, Rbc.peekNthCommand]
    split
    · exact ⟨_, rfl⟩
    · rename_i h0
      obtain ⟨d, hd⟩ := memRead_of_written (addk_lt h.shared b.head _)
        (h.window _ (Nat.mod_lt n (Nat.pos_of_ne_zero h0)))
      exact ⟨_, by rw [readSlot, hd]⟩
  all_goals exact ⟨_, rfl⟩

/-! ## Edges of the RBC's clock (R343 to R345) -/

theorem Rbc.Cursors.lastStep_answers {b : Rbc} (h : b.Cursors) (job : Job) :
    ∃ x, b.lastStep job = .ok x := by
  obtain ⟨op, n, data, k, issued, sent, flight, cycles⟩ := job
  cases op
  case writeObj =>
    simp only [Rbc.lastStep]
    split
    · exact h.command_answers (.writeObj data)
    · exact ⟨_, rfl⟩
  case deleteHead => exact h.command_answers .deleteHead
  all_goals exact ⟨_, rfl⟩

theorem Rbc.Cursors.finish_answers {b : Rbc} (h : b.Cursors) (job : Job) :
    ∃ b', b.finish job = .ok b' := by
  obtain ⟨x, hx⟩ := h.lastStep_answers job
  exact ⟨_, by rw [Rbc.finish, hx]⟩

/-- An access that is still to be made finds its slot: written for a read, in range for a write. -/
theorem Rbc.Inv.access_answers {b : Rbc} {job : Job} (h : (b.running job).Inv)
    (hleft : 0 < b.accessesLeft job) : ∃ b', b.access job = .ok b' := by
  have hb := h.cursors_of_running
  obtain ⟨op, n, data, k, issued, sent, flight, cycles⟩ := job
  cases op
  case readObj | readN | readAll =>
    obtain ⟨hik, hocc⟩ := h.readLeft (by simp [isBulkRead]) hleft
    obtain ⟨x, hx⟩ := hb.takeOne_answers (hb.notEmpty.2 (by omega))
    simp only [Rbc.access, hx]
    exact ⟨_, rfl⟩
  case peekNth =>
    have hpos : 0 < occ b.cfg b.head b.tail := by
      simp only [Rbc.accessesLeft] at hleft
      split at hleft <;> omega
    obtain ⟨d, hd⟩ := memRead_of_written (addk_lt hb.shared b.head _)
      (hb.window _ (Nat.mod_lt n hpos))
    simp only [Rbc.access, readSlot, hd]
    exact ⟨_, rfl⟩
  case writeObj =>
    simp only [Rbc.access, Rbc.writeOne_of_lt data hb.tail_lt]
    exact ⟨_, rfl⟩
  all_goals exact ⟨_, rfl⟩

/-- A data beat sent and a cycle gone leave the accesses still to be made as they were. -/
theorem Rbc.accessesLeft_sendData (b : Rbc) (send : Bool) (job : Job) :
    (b.sendData send job).2.accessesLeft (b.sendData send job).1.tick = b.accessesLeft job := by
  obtain ⟨_, _, _, _, hs⟩ := b.sendData_frame send job
  rw [hs]
  rfl

theorem Rbc.Inv.execMove_answers {b : Rbc} {job : Job} (h : b.Inv) (hp : b.phase = .exec job)
    (issue send : Bool) : ∃ b', b.execMove issue send job = .ok b' := by
  unfold Rbc.execMove
  split
  · exact h.cursors.finish_answers job
  · dsimp only
    split
    · rename_i hi
      have hleft := of_decide_eq_true (Bool.and_eq_true_iff.1 hi).2
      have hrun : (b.running job).Inv := by rwa [Rbc.running_of_phase hp]
      rw [← b.accessesLeft_sendData send] at hleft
      exact ((hrun.sendData send).tick).access_answers hleft
    · exact ⟨_, rfl⟩

theorem Rbc.Inv.execEdge_answers {b : Rbc} {job : Job} (h : b.Inv) (hp : b.phase = .exec job)
    (pace : Pace) : ∃ b', b.execEdge pace job = .ok b' := by
  obtain ⟨x, hx⟩ := h.execMove_answers hp pace.issue pace.send
  unfold Rbc.execEdge
  rw [hx]
  dsimp only
  repeat' split
  · exact h.execMove_answers hp true true
  · exact ⟨_, rfl⟩
  · exact h.execMove_answers hp true true

theorem Rbc.Inv.acceptData_answers {b : Rbc} (h : b.Inv) (d : Nat) (op : Opcode) (n k i : Nat) :
    ∃ b', b.acceptData d op n k i = .ok b' := by
  simp only [Rbc.acceptData, Rbc.writeOne_of_lt d h.tail_lt]
  split <;> exact ⟨_, rfl⟩

theorem edgeOutcome_ne_fault {r : Except Fault Rbc} (h : ∃ b, r = .ok b) (e : Fault) :
    edgeOutcome r ≠ .fault e := by
  obtain ⟨b, rfl⟩ := h
  nofun

theorem Rbc.Inv.runEdge_ne_fault {b : Rbc} (h : b.Inv) (valid : Bool) (beat : CmdBeat)
    (pace : Pace) (e : Fault) : b.runEdge valid beat pace ≠ .fault e := by
  have hstart := h.startEdge valid (b.cmdReady false pace.stall) beat
  unfold Rbc.runEdge
  dsimp only
  split
  · nofun
  · split
    · nofun
    · split
      · exact edgeOutcome_ne_fault (hstart.acceptData_answers ..) e
      · nofun
  · rename_i job hp
    exact edgeOutcome_ne_fault (hstart.execEdge_answers hp pace) e

/-! ## Edges of SF and AF -/

theorem Sf.Inv.edge_answers {f : Sf} (h : f.Inv) (wr rd : Bool) (d : Nat) :
    ∃ g, f.edge wr rd d = .ok g := by
  have hread : ∃ o, (if rd && !isEmpty f.head f.tail then memRead f.cfg f.sto f.head
      else .ok f.rdData) = .ok o := by
    split
    · rename_i hr
      have hne : isEmpty f.head f.tail = false := by simpa using (Bool.and_eq_true_iff.1 hr).2
      exact memRead_of_written h.head_lt (headWritten h.shared h.head_lt h.window
        ((isEmpty_eq_false h.shared h.head_lt h.tail_lt).1 hne))
    · exact ⟨_, rfl⟩
  have hwrite : ∃ m, (if wr && !isFull f.cfg f.head f.tail then memWrite f.cfg f.sto f.tail d
      else .ok f.sto) = .ok m := by
    rw [memWrite_of_lt f.sto d h.tail_lt]
    split <;> exact ⟨_, rfl⟩
  obtain ⟨o, ho⟩ := hread
  obtain ⟨m, hm⟩ := hwrite
  simp only [Sf.edge, writeSlot, ho, hm]
  exact ⟨_, rfl⟩

theorem Af.Inv.wbin_lt {a : Af} (h : a.Inv) : a.wbin < a.cfg.c := by
  obtain ⟨-, hc, -⟩ := checkShared_spec h.shared
  exact h.wbin_count ▸ Nat.mod_lt _ (by omega)

/-- R950: the write count the read domain sees is no later than the count itself. -/
theorem Af.Inv.wv_le {a : Af} (h : a.Inv) : a.wv ≤ a.wc := h.rqc_le _ (chainOut_mem h.rqc_ne)

theorem Af.Inv.wclkEdge_answers {a : Af} (h : a.Inv) (winc : Bool) (d draw : Nat)
    (release : Bool) : ∃ a', a.wclkEdge winc d draw release = .ok a' := by
  have hpush : ∃ a₁, (if winc && !a.fullW then a.pushOne d else .ok a) = .ok a₁ := by
    rw [Af.pushOne, writeSlot, memWrite_of_lt a.sto d h.wbin_lt]
    split <;> exact ⟨_, rfl⟩
  obtain ⟨a₁, ha₁⟩ := hpush
  simp only [Af.wclkEdge, Af.wEdge, ha₁]
  split <;> exact ⟨_, rfl⟩

theorem Af.Inv.popOne_answers {a : Af} (h : a.Inv) (he : a.emptyR = false) :
    ∃ a', a.popOne = .ok a' := by
  have hobj := h.object he
  have hwritten := h.window a.rc le_rfl (hobj.trans h.wv_le)
  rw [← h.rbin_count] at hwritten
  obtain ⟨d, hd⟩ := memRead_of_written h.rbin_lt hwritten
  exact ⟨_, by rw [Af.popOne, hd]⟩

theorem Af.Inv.rclkEdge_answers {a : Af} (h : a.Inv) (rinc : Bool) (draw : Nat)
    (release : Bool) : ∃ a', a.rclkEdge rinc draw release = .ok a' := by
  have hpop : ∃ a₁, (if rinc && !a.emptyR then a.popOne else .ok a) = .ok a₁ := by
    split
    · rename_i hr
      exact h.popOne_answers (by simpa using (Bool.and_eq_true_iff.1 hr).2)
    · exact ⟨_, rfl⟩
  obtain ⟨a₁, ha₁⟩ := hpop
  simp only [Af.rclkEdge, Af.rEdge, ha₁]
  split <;> exact ⟨_, rfl⟩

/-! ## A frame faults only where what it runs does -/

theorem legally_fault {α : Type} {c : Option Refusal} {o : Host.Outcome α Fault Refusal}
    {e : Fault} (h : legally c o = .fault e) : o = .fault e := by
  cases c with
  | none => exact h
  | some r => cases h

theorem decodeAndExec_fault {p : Config} {word : PortWord} {s : State} {e : Fault}
    (h : decodeAndExec p word s = .fault e) :
    ∃ i, decode p word = .ok i ∧ exec i s = .fault e := by
  unfold decodeAndExec at h
  split at h
  · cases h
  · exact ⟨_, ‹_›, h⟩

/-- Only the edge of the protocol can fault: a refused one stops before it, a reset edge reads and
writes no storage (R1200). -/
theorem Rbc.clkEdge_fault {b : Rbc} {rst valid : Bool} {beat : CmdBeat} {pace : Pace} {e : Fault}
    (h : b.clkEdge rst valid beat pace = .fault e) : b.runEdge valid beat pace = .fault e := by
  have hedge := legally_fault h
  repeat' split at hedge
  case isFalse.isFalse.isFalse.isFalse => exact hedge
  all_goals cases hedge

theorem onSf_ne_fault {s : State} {f : Sf → Except Fault Sf} (h : ∃ g, f s.sf = .ok g)
    (e : Fault) : onSf s f ≠ .fault e := by
  obtain ⟨g, hg⟩ := h
  intro hf
  have hf := legally_fault hf
  simp [hg] at hf

theorem onAf_ne_fault {s : State} {f : Nat → Bool → Af → Except Fault Af}
    (h : ∀ draw release, ∃ a, f draw release s.af = .ok a) (e : Fault) : onAf s f ≠ .fault e := by
  obtain ⟨a, ha⟩ := h (Config.freeSample s.free) (Config.freeRelease s.free)
  intro hf
  have hf := legally_fault hf
  simp [ha] at hf

theorem State.Inv.execSf_ne_fault {s : State} (h : s.Inv) {i : Instr} (hi : isSf i = true)
    (e : Fault) : exec i s ≠ .fault e := by
  obtain he | ⟨wr, rd, d, he⟩ := exec_sf hi s <;> rw [he]
  · exact onSf_ne_fault (f := fun f => .ok f.cleared) ⟨_, rfl⟩ e
  · exact onSf_ne_fault (h.sf.edge_answers wr rd d) e

theorem State.Inv.execAf_ne_fault {s : State} (h : s.Inv) {i : Instr} (hi : isAf i = true)
    (e : Fault) : exec i s ≠ .fault e := by
  obtain ⟨winc, d, he⟩ | ⟨rinc, he⟩ := exec_af hi s <;> rw [he]
  · exact onAf_ne_fault (h.af.wclkEdge_answers winc d) e
  · exact onAf_ne_fault (h.af.rclkEdge_answers rinc) e

theorem State.Inv.runCommand_ne_fault {s : State} (h : s.Inv) (w d : Nat) (ds : List Nat)
    (e : Fault) : runCommand w d ds s ≠ .fault e := by
  unfold runCommand
  split
  · intro hf
    obtain ⟨i, hdec, hexec⟩ := decodeAndExec_fault hf
    rw [exec_rbc (decodeHeader_ok hdec).1] at hexec
    have hheld : Rbc.Cursors { s.rbc with held := none } := { h.rbc.cursors with }
    obtain ⟨x, hx⟩ := hheld.command_answers i
    exact nomatch hx.symm.trans (transact_fault hexec)
  · nofun

theorem State.Inv.rbcClock_ne_fault {s : State} (h : s.Inv) (rst valid : Bool) (beat : CmdBeat)
    (e : Fault) : rbcClock rst valid beat s ≠ .fault e := by
  intro hf
  unfold rbcClock at hf
  split at hf
  · exact h.rbc.runEdge_ne_fault _ _ _ _ (Rbc.clkEdge_fault ‹_›)
  · cases hf
  · cases hf

/-- R206, R1113: no event faults where the invariant holds. -/
theorem State.Inv.runLegal_ne_fault {s : State} (h : s.Inv) (ev : Event) (e : Fault) :
    runLegal ev s ≠ .fault e := by
  intro hf
  cases ev with
  | cmd w d ds => exact h.runCommand_ne_fault w d ds e hf
  | rbcClk rst valid beat => exact h.rbcClock_ne_fault rst valid beat e hf
  | sfClk rst w d =>
    simp only [runLegal, runSfEdge] at hf
    split at hf
    · exact onSf_ne_fault (f := fun f => .ok f.cleared) ⟨_, rfl⟩ e hf
    · obtain ⟨i, hdec, hexec⟩ := decodeAndExec_fault hf
      exact h.execSf_ne_fault (decodeSf_isSf hdec) e hexec
  | wclk w d =>
    obtain ⟨i, hdec, hexec⟩ := decodeAndExec_fault hf
    exact h.execAf_ne_fault (decodeAfW_isAf hdec) e hexec
  | rclk w =>
    obtain ⟨i, hdec, hexec⟩ := decodeAndExec_fault hf
    exact h.execAf_ne_fault (decodeAfR_isAf hdec) e hexec
  | arst level => exact nomatch legally_fault hf
  | secondAgent | domainReset => cases hf

/-- Settles O58: the step's event runs a block whose invariant holds, so it is answered or
refused. -/
theorem noStepFaults : Obligations.NoStepFaults := by
  unfold Obligations.NoStepFaults
  intro s e hinv hf
  unfold step at hf
  split at hf
  · cases hf
  · rename_i ev rest hs
    have hrest : State.Inv { s with script := rest } := { hinv with }
    exact hrest.runLegal_ne_fault ev e (legally_fault hf)

/-- Settles O60: both events answer their own name, whatever the elaboration. -/
theorem foreignMovesAreRefused : Obligations.ForeignMovesAreRefused := by
  unfold Obligations.ForeignMovesAreRefused
  exact ⟨fun _ _ _ hs => step_cons hs, fun _ _ _ hs => step_cons hs⟩

end Sys2Proof.Machine
end

section
/-! The RBC as the bounded queue of the source (R4, R215): what each command does to the objects the
buffer holds, oldest first, and the beats it answers. -/

open Sys2Proof.Statements

namespace Sys2Proof.Machine

/-- The buffer holds the objects `q`, oldest first. -/
def Rbc.Holds (b : Rbc) (q : List Nat) : Prop := b.contents = q.map some

/-- Each object of the queue lies in its slot, and nothing else is occupied. -/
theorem Rbc.holds_iff {b : Rbc} {q : List Nat} :
    b.Holds q ↔ occ b.cfg b.head b.tail = q.length ∧
      ∀ j, j < q.length → slotObj b.cfg b.sto (addk b.cfg b.head j) = q[j]? := by
  unfold Rbc.Holds Rbc.contents windowObjs readSlot
  constructor
  · intro h
    have hlen : occ b.cfg b.head b.tail = q.length := by simpa using congrArg List.length h
    refine ⟨hlen, fun j hj => ?_⟩
    have hj' := congrArg (·[j]?) h
    simpa [hlen, hj] using hj'
  · rintro ⟨hlen, hslot⟩
    rw [hlen]
    refine List.ext_getElem (by simp) fun j hj _ => ?_
    have hj : j < q.length := by simpa using hj
    simpa [hj] using hslot j hj

theorem Rbc.Holds.occ_eq {b : Rbc} {q : List Nat} (h : b.Holds q) :
    occ b.cfg b.head b.tail = q.length := (Rbc.holds_iff.1 h).1

theorem Rbc.Holds.freeSlots_eq {b : Rbc} {q : List Nat} (h : b.Holds q) :
    freeSlots b.cfg b.head b.tail = b.cfg.c - 1 - q.length := by
  rw [freeSlots, h.occ_eq]

theorem Rbc.Holds.slotObj_eq {b : Rbc} {q : List Nat} (h : b.Holds q) {j : Nat}
    (hj : j < q.length) : slotObj b.cfg b.sto (addk b.cfg b.head j) = q[j]? :=
  (Rbc.holds_iff.1 h).2 j hj

/-! ## The comparators (R410, R411) -/

theorem Rbc.Cursors.isEmpty_of_holds {b : Rbc} {q : List Nat} (hb : b.Cursors) (h : b.Holds q) :
    isEmpty b.head b.tail = decide (q.length = 0) := by
  rw [isEmpty_eq_occ hb.shared hb.head_lt hb.tail_lt, h.occ_eq]

theorem Rbc.Cursors.isEmpty_of_holds_cons {b : Rbc} {x : Nat} {q : List Nat} (hb : b.Cursors)
    (h : b.Holds (x :: q)) : isEmpty b.head b.tail = false := by
  simp [hb.isEmpty_of_holds h]

theorem Rbc.Cursors.isFull_of_holds {b : Rbc} {q : List Nat} (hb : b.Cursors) (h : b.Holds q) :
    isFull b.cfg b.head b.tail = decide (q.length = b.cfg.c - 1) := by
  rw [isFull_eq_occ hb.shared hb.head_lt hb.tail_lt, h.occ_eq]

/-- R411: the queue never holds more than `C − 1` objects. -/
theorem Rbc.Cursors.length_lt {b : Rbc} {q : List Nat} (hb : b.Cursors) (h : b.Holds q) :
    q.length < b.cfg.c := h.occ_eq ▸ occ_lt hb.shared _ _

/-! ## One-object steps (R600 to R602) -/

theorem Rbc.holds_cleared (b : Rbc) : Rbc.Holds { b with head := 0, tail := 0 } [] :=
  Rbc.holds_iff.2 ⟨by simp [occ], nofun⟩

theorem Rbc.Cursors.holds_dropOne {b : Rbc} {x : Nat} {q : List Nat} (hb : b.Cursors)
    (h : b.Holds (x :: q)) : b.dropOne.Holds q := by
  have hne := hb.isEmpty_of_holds_cons h
  have hocc := occ_adv_head hb.shared hb.head_lt hb.tail_lt hne
  rw [h.occ_eq, List.length_cons] at hocc
  refine Rbc.holds_iff.2 ⟨Nat.succ.inj hocc, fun j hj => ?_⟩
  simpa [addk_adv hb.shared] using h.slotObj_eq (j := j + 1) (by simpa using hj)

theorem Rbc.Cursors.slotObj_head {b : Rbc} {x : Nat} {q : List Nat} (hb : b.Cursors)
    (h : b.Holds (x :: q)) : slotObj b.cfg b.sto b.head = some x := by
  simpa [addk_zero hb.shared hb.head_lt] using h.slotObj_eq (j := 0) (by simp)

theorem Rbc.Cursors.holds_writeOne {b b' : Rbc} {d : Nat} {q : List Nat} (hb : b.Cursors)
    (h : b.Holds q) (hd : d < 2 ^ (8 * b.cfg.s)) (hf : isFull b.cfg b.head b.tail = false)
    (hw : b.writeOne d = .ok b') : b'.Holds (q ++ [d]) := by
  obtain ⟨m, hm, rfl⟩ := Rbc.writeOne_ok hw
  have htail : addk b.cfg b.head q.length = b.tail :=
    h.occ_eq ▸ addk_occ hb.shared hb.head_lt hb.tail_lt
  have hlt := hb.length_lt h
  refine Rbc.holds_iff.2 ⟨?_, fun j hj => ?_⟩
  · rw [List.length_append, ← h.occ_eq]
    exact occ_adv_tail hb.shared hb.head_lt hb.tail_lt hf
  · rw [List.length_append, List.length_singleton] at hj
    dsimp only
    by_cases hlast : j = q.length
    · rw [hlast, htail, slotObj_write_same hm hd]
      simp
    · have hjq : j < q.length := by omega
      have hne : addk b.cfg b.head j ≠ b.tail := fun he =>
        hlast (addk_injective hb.shared hb.head_lt (by omega) hlt (he.trans htail.symm))
      rw [slotObj_write_other hm hne, h.slotObj_eq hjq, List.getElem?_append_left hjq]

/-! ## The loops (R603 to R613) -/

theorem Rbc.Cursors.holds_writeEach {ds : List Nat} {b b' : Rbc} {q : List Nat} (hb : b.Cursors)
    (h : b.Holds q) (hd : ∀ d ∈ ds, d < 2 ^ (8 * b.cfg.s))
    (hn : ds.length ≤ freeSlots b.cfg b.head b.tail) (hw : Machine.writeEach ds b = .ok b') :
    b'.Holds (q ++ ds) := by
  induction ds generalizing b q with
  | nil =>
    cases hw
    rwa [List.append_nil]
  | cons d ds ih =>
    rw [List.length_cons] at hn
    unfold Machine.writeEach at hw
    split at hw
    · cases hw
    · rename_i b₁ hone
      have hf := hb.notFull.2 (by omega)
      have hfree := freeSlots_adv_tail hb.shared hb.head_lt hb.tail_lt hf
      have hb₁ := hb.writeOne hf hone
      have hq₁ := hb.holds_writeOne h (hd d List.mem_cons_self) hf hone
      obtain ⟨m, -, rfl⟩ := Rbc.writeOne_ok hone
      rw [List.append_cons]
      exact ih hb₁ hq₁ (fun x hx => hd x (List.mem_cons_of_mem _ hx)) (by dsimp only; omega) hw

theorem Rbc.Cursors.holds_dropUntilEmpty {b : Rbc} {q : List Nat} (hb : b.Cursors)
    (h : b.Holds q) (n : Nat) :
    (Machine.dropUntilEmpty n b).1.Holds (q.drop n) ∧
      (Machine.dropUntilEmpty n b).2 = min n q.length := by
  induction n generalizing b q with
  | zero => exact ⟨h, (Nat.zero_min _).symm⟩
  | succ n ih =>
    unfold Machine.dropUntilEmpty
    rw [hb.isEmpty_of_holds h]
    cases q with
    | nil => exact ⟨h, rfl⟩
    | cons x q =>
      have hne := hb.isEmpty_of_holds_cons h
      obtain ⟨hrest, hcount⟩ := ih (hb.dropOne hne) (hb.holds_dropOne h)
      exact ⟨hrest, by simp [hcount]⟩

/-- Taking no more objects than there are takes the oldest ones, in order. -/
theorem Rbc.Cursors.holds_takeEach {n : Nat} {b b' : Rbc} {q : List Nat} {xs : List (Nat × Nat)}
    (hb : b.Cursors) (h : b.Holds q) (hn : n ≤ q.length)
    (hx : Machine.takeEach n b = .ok (b', xs)) :
    b'.Holds (q.drop n) ∧ xs.map Prod.snd = q.take n := by
  induction n generalizing b q xs with
  | zero =>
    cases hx
    exact ⟨h, rfl⟩
  | succ n ih =>
    cases q with
    | nil => cases hn
    | cons x q =>
      have hne := hb.isEmpty_of_holds_cons h
      rw [Machine.takeEach, Rbc.takeOne_of_slotObj hb.head_lt (hb.slotObj_head h)] at hx
      dsimp only at hx
      split at hx
      · cases hx
      · rename_i b₂ ys hrest
        cases hx
        obtain ⟨hq, hys⟩ :=
          ih (hb.dropOne hne) (hb.holds_dropOne h) (Nat.le_of_succ_le_succ hn) hrest
        exact ⟨hq, by rw [List.map_cons, hys, List.take_succ_cons]⟩

/-! ## The beats of an answer, without their slots (R331) -/

theorem map_noSlot_dataBeats (j : Nat) (xs : List (Nat × Nat)) :
    (dataBeats j xs).map RspBeat.noSlot = sentBeats j (xs.map Prod.snd) := by
  induction xs generalizing j with
  | nil => rfl
  | cons x xs ih => exact congrArg (_ :: ·) (ih (j + 1))

/-- The answer of a bulk read is the queue's, once the objects of its beats are. -/
theorem map_noSlot_answerBeats (st : Status) (k : Nat) {xs : List (Nat × Nat)} {sent : List Nat}
    (h : xs.map Prod.snd = sent) :
    (Response.toBeats { answer st k with beats := xs }).map RspBeat.noSlot =
      QueueAnswer.beats ⟨st, k, sent, none⟩ := by
  rw [Response.toBeats, List.map_append, map_noSlot_dataBeats, h]
  rfl

/-- R603, R610, R611: a command that moves what it can of `n` objects falls short when there are
fewer. -/
theorem shortfall_min (short : Status) (n m : Nat) :
    shortfall short n (min n m) = if n ≤ m then .ok else short := by
  simp [shortfall, eq_comm]

/-! ## Every command -/

/-- The answer of a command agrees with the queue's: the objects held after it, and the beats. -/
def Rbc.Agrees (b : Rbc) (r : Response) (q : List Nat) (a : QueueAnswer) : Prop :=
  b.Holds q ∧ r.toBeats.map RspBeat.noSlot = a.beats

theorem burstFits_iff {p : Config} {n : Nat} {ds : List Nat} :
    burstFits p n ds = true ↔
      countFits p n = true ∧ (∀ d ∈ ds, d < 2 ^ (8 * p.s)) ∧ ds.length = n := by
  simp [burstFits, objFits, and_assoc]

/-- R215: each command is the queue's operation. -/
theorem Rbc.Cursors.command_agrees {i : Instr} {b b' : Rbc} {r : Response} {q q' : List Nat}
    {a : QueueAnswer} (hb : b.Cursors) (hw : i.wellFormed b.cfg = true) (hq : b.Holds q)
    (ha : queueCommand (b.cfg.c - 1) i q = some (q', a)) (h : commandOf i b = .ok (b', r)) :
    b'.Agrees r q' a := by
  have hlt := hb.length_lt hq
  have hempty := hb.isEmpty_of_holds hq
  have hfull := hb.isFull_of_holds hq
  have hfree := hq.freeSlots_eq
  cases i
  case clear =>
    cases h
    cases ha
    exact ⟨b.holds_cleared, rfl⟩
  case writeObj d =>
    obtain ⟨hf, rfl, rfl⟩ | ⟨hf, hd, rfl⟩ := Rbc.writeObjCommand_ok h
    · rw [hfull, decide_eq_true_eq] at hf
      rw [queueCommand, if_neg (by omega)] at ha
      cases ha
      exact ⟨hq, rfl⟩
    · have hroom := hf
      rw [hfull, decide_eq_false_iff_not] at hroom
      rw [queueCommand, if_pos (by omega)] at ha
      cases ha
      exact ⟨hb.holds_writeOne hq (of_decide_eq_true hw) hf hd, rfl⟩
  case writeN n ds =>
    obtain ⟨k, hloop, rfl⟩ := Rbc.writeNCommand_ok h
    obtain ⟨rfl, hds⟩ := writeUntilFull_ok hb.shared hb.head_lt hb.tail_lt hloop
    obtain ⟨-, hfits, hlen⟩ := burstFits_iff.1 hw
    cases ha
    rw [← hfree, hlen, shortfall_min]
    exact ⟨hb.holds_writeEach hq (fun d hd => hfits d (List.mem_of_mem_take hd)) (by simp) hds, rfl⟩
  case writeAll n ds =>
    obtain ⟨-, hfits, hlen⟩ := burstFits_iff.1 hw
    rw [queueCommand, ← hfree] at ha
    obtain ⟨hn, hds, rfl⟩ | ⟨hn, rfl, rfl⟩ := Rbc.writeAllCommand_ok h
    · rw [if_pos hn] at ha
      cases ha
      exact ⟨hb.holds_writeEach hq hfits (hlen ▸ hn) hds, rfl⟩
    · rw [if_neg hn] at ha
      cases ha
      exact ⟨hq, rfl⟩
  case readObj =>
    cases q with
    | nil =>
      obtain ⟨-, rfl, rfl⟩ | ⟨he, -⟩ := Rbc.readObjCommand_ok h
      · cases ha
        exact ⟨hq, rfl⟩
      · simp [hempty] at he
    | cons x q =>
      obtain ⟨he, -⟩ | ⟨-, y, hy, rfl, rfl⟩ := Rbc.readObjCommand_ok h
      · simp [hempty] at he
      · rw [Rbc.takeOne_of_slotObj hb.head_lt (hb.slotObj_head hq)] at hy
        cases hy
        cases ha
        exact ⟨hb.holds_dropOne hq, rfl⟩
  case deleteHead =>
    cases q with
    | nil =>
      obtain ⟨-, rfl, rfl⟩ | ⟨he, -⟩ := Rbc.deleteHeadCommand_ok h
      · cases ha
        exact ⟨hq, rfl⟩
      · simp [hempty] at he
    | cons x q =>
      obtain ⟨he, -⟩ | ⟨-, rfl, rfl⟩ := Rbc.deleteHeadCommand_ok h
      · simp [hempty] at he
      · cases ha
        exact ⟨hb.holds_dropOne hq, rfl⟩
  case deleteN n =>
    cases h
    cases ha
    obtain ⟨hrest, hcount⟩ := hb.holds_dropUntilEmpty hq n
    rw [hcount, shortfall_min]
    exact ⟨hrest, rfl⟩
  case readN n =>
    obtain ⟨xs, hxs, rfl⟩ := Rbc.readNCommand_ok h
    rw [takeUntilEmpty_eq hb.shared hb.head_lt hb.tail_lt, hq.occ_eq] at hxs
    obtain ⟨hrest, hsent⟩ := hb.holds_takeEach hq (Nat.min_le_right ..) hxs
    rw [← List.drop_eq_drop_min] at hrest
    have hlen : xs.length = min n q.length := by simpa using congrArg List.length hsent
    rw [← List.take_eq_take_min] at hsent
    cases ha
    rw [hlen, shortfall_min]
    exact ⟨hrest, map_noSlot_answerBeats _ _ hsent⟩
  case readAll n =>
    rw [queueCommand, ← hq.occ_eq] at ha
    obtain ⟨hn, xs, hxs, rfl⟩ | ⟨hn, rfl, rfl⟩ := Rbc.readAllCommand_ok h
    · obtain ⟨hrest, hsent⟩ := hb.holds_takeEach hq (hq.occ_eq ▸ hn) hxs
      rw [if_pos hn] at ha
      cases ha
      exact ⟨hrest, map_noSlot_answerBeats _ _ hsent⟩
    · rw [if_neg hn] at ha
      cases ha
      exact ⟨hq, rfl⟩
  case peekNth n =>
    rw [queueCommand, ← hq.occ_eq] at ha
    obtain ⟨rfl, ⟨h0, rfl⟩ | ⟨hpos, d, hd, rfl⟩⟩ := Rbc.peekNthCommand_ok h
    · rw [if_pos h0] at ha
      cases ha
      exact ⟨hq, rfl⟩
    · rw [if_neg hpos.ne'] at ha
      cases ha
      obtain ⟨-, hobj⟩ := memRead_ok hd
      rw [readSlot, hq.slotObj_eq (hq.occ_eq ▸ Nat.mod_lt n hpos)] at hobj
      exact ⟨hq, by rw [hobj]; rfl⟩
  case qEmpty =>
    cases h
    cases ha
    rw [hempty]
    exact ⟨hq, by by_cases h0 : q.length = 0 <;> simp only [h0] <;> rfl⟩
  case qFull =>
    cases h
    cases ha
    rw [hfull]
    exact ⟨hq, by by_cases h0 : q.length = b.cfg.c - 1 <;> simp only [h0] <;> rfl⟩
  case qOccupied =>
    cases h
    cases ha
    rw [hq.occ_eq]
    exact ⟨hq, rfl⟩
  case qFree =>
    cases h
    cases ha
    rw [hfree]
    exact ⟨hq, rfl⟩
  case nop | reservedF =>
    cases h
    cases ha
    exact ⟨hq, rfl⟩
  all_goals cases ha

theorem isRbc_of_queueCommand {cap : Nat} {i : Instr} {q : List Nat} {x : List Nat × QueueAnswer}
    (h : queueCommand cap i q = some x) : isRbc i = true := by
  cases i
  case sfIdle | sfPush | sfPop | sfPushPop | sfClear | afWidle | afPush | afRidle | afPop => cases h
  all_goals rfl

/-- Settles O28: the command is answered where the invariant holds, and its answer is the
queue's. -/
theorem rbcRefinesTheQueue : Obligations.RbcRefinesTheQueue := by
  unfold Obligations.RbcRefinesTheQueue
  intro s i q q' a hinv hidle hw hq ha
  obtain ⟨⟨b, r⟩, hcmd⟩ := hinv.cursors.command_answers i
  obtain ⟨hholds, hbeats⟩ := hinv.cursors.command_agrees hw hq ha hcmd
  obtain ⟨-, -, -, -, -, -, -, -, hout⟩ := (commandOf_moved hcmd).frame
  refine ⟨{ s with rbc := b.respond r }, ?_, hholds, ?_⟩
  · rw [exec_rbc (isRbc_of_queueCommand ha), transact_next]
    exact ⟨hinv.legal, hidle, b, r, hcmd, rfl⟩
  · rw [Rbc.respond_out, hout, List.drop_left]
    exact hbeats

end Sys2Proof.Machine
end

section
/-! The storage port of the RBC (R208): the bytes of a slot, the one access of an edge, and how a
read comes to its response beat. -/

open Sys2Proof.Statements

namespace Sys2Proof.Machine

/-! ## The bytes of a slot (R201 to R203) -/

theorem byteLane_shift (d i : Nat) : byteLane (d >>> 8) i = byteLane d (i + 1) := by
  rw [byteLane, byteLane, ← Nat.shiftRight_add, Nat.mul_succ, Nat.add_comm 8]

/-- A write of `k` bytes puts byte `i` of the object on its lane. -/
theorem readByte_writeBytes_inside (m : Memory) (a d : Nat) {k i : Nat} (hi : i < k) :
    readByte (writeBytes m a d k) (a + i) = some (byteLane d i) := by
  induction k generalizing m a d i with
  | zero => cases hi
  | succ k ih =>
    unfold writeBytes
    cases i with
    | zero => rw [readByte_writeBytes_outside _ _ _ (by omega), Nat.add_zero,
        readByte_writeByte_same]
    | succ i =>
      rw [← byteLane_shift, ← ih (writeByte m a (byteLane d 0)) (a + 1) (d >>> 8)
        (Nat.lt_of_succ_lt_succ hi), Nat.add_assoc, Nat.add_comm 1]

/-- Each byte of an object read lies on its lane. -/
theorem readByte_of_readBytes {m : Memory} {a k d : Nat} (h : readBytes m a k = some d) {i : Nat}
    (hi : i < k) : readByte m (a + i) = some (byteLane d i) := by
  induction k generalizing a d i with
  | zero => cases hi
  | succ k ih =>
    unfold readBytes at h
    split at h
    · rename_i v e hv he
      obtain rfl := Option.some.inj h
      have hlt := v.isLt
      cases i with
      | zero =>
        rw [Nat.add_zero, hv, byteLane, Nat.mul_zero, Nat.shiftRight_zero]
        exact congrArg some (BitVec.eq_of_toNat_eq (by simp; omega))
      | succ i =>
        have hrest : (v.toNat + 256 * e) >>> 8 = e := by
          rw [Nat.shiftRight_eq_div_pow]
          omega
        rw [← byteLane_shift, hrest, ← ih he (Nat.lt_of_succ_lt_succ hi), Nat.add_assoc,
          Nat.add_comm 1]
    · cases h

/-- R201 to R203: the object of a slot, and its bytes. -/
theorem slotObj_iff_holdsObject {p : Config} {m : Memory} {slot d : Nat}
    (hd : objFits p d = true) : slotObj p m slot = some d ↔ holdsObject p m slot d := by
  simp only [holdsObject, byteAddr_eq]
  constructor
  · exact fun h i hi => readByte_of_readBytes h hi
  · intro h
    have hsame : slotObj p m slot =
        readBytes (writeBytes m (slotAddr p slot) d p.s) (slotAddr p slot) p.s :=
      readBytes_congr fun i hi => (h i hi).trans (readByte_writeBytes_inside m _ d hi).symm
    rw [hsame, readBytes_writeBytes_same, Nat.mod_eq_of_lt (of_decide_eq_true hd)]

theorem holdsObject_write {p : Config} {m m' : Memory} {slot d : Nat}
    (h : memWrite p m slot d = .ok m') : holdsObject p m' slot d := by
  intro i hi
  rw [(memWrite_ok h).2, byteAddr_eq]
  exact readByte_writeBytes_inside m _ d hi

/-! ## The access of one edge (R208) -/

/-- What an edge makes of storage `m` and the write cursor, seen on the port after it: no access and
no change, a write at `tail`, or a read whose object is now awaited. -/
inductive StoEdge (p : Config) (m : Memory) (tail : Nat) (b : Rbc) : Prop
  | none (hport : b.port = none) (hsto : b.sto = m)
  | write (d : Nat) (hport : b.port = some (.write tail d))
      (hsto : memWrite p m tail d = .ok b.sto)
  | read (job : Job) (slot d : Nat) (hport : b.port = some (.read slot)) (hsto : b.sto = m)
      (hphase : b.phase = .exec job) (hobj : slotObj p m slot = some d)
      (hlast : job.flight.getLast? = some ⟨slot, d, p.lSto⟩)

theorem Job.awaiting_getLast? (p : Config) (slot obj : Nat) (job : Job) :
    (job.awaiting p slot obj).flight.getLast? = some ⟨slot, obj, p.lSto⟩ := by simp

theorem Rbc.acceptData_stoEdge {b b' : Rbc} {d n k i : Nat} {op : Opcode} (hp : b.port = none)
    (h : b.acceptData d op n k i = .ok b') : StoEdge b.cfg b.sto b.tail b' := by
  obtain ⟨-, b₁, hw, rfl⟩ | ⟨-, rfl⟩ := Rbc.acceptData_ok h
  · obtain ⟨m, hm, rfl⟩ := Rbc.writeOne_ok hw
    exact .write d rfl hm
  · exact .none hp rfl

theorem Rbc.access_stoEdge {b b' : Rbc} {job : Job} (hleft : 0 < b.accessesLeft job)
    (h : b.access job = .ok b') : StoEdge b.cfg b.sto b.tail b' := by
  obtain ⟨-, x, hx, rfl⟩ | ⟨-, d, hd, rfl⟩ | ⟨-, b₁, hw, rfl⟩ | ⟨h0, -⟩ := Rbc.access_ok h
  · obtain ⟨-, hslot, hobj, -⟩ := Rbc.takeOne_ok hx
    exact .read _ x.1 x.2 rfl rfl rfl (hslot ▸ hobj) (Job.awaiting_getLast? ..)
  · exact .read _ _ d rfl rfl rfl (memRead_ok hd).2 (Job.awaiting_getLast? ..)
  · obtain ⟨m, hm, rfl⟩ := Rbc.writeOne_ok hw
    exact .write job.data rfl hm
  · omega

theorem Rbc.finish_stoEdge {b b' : Rbc} {job : Job} (h : b.finish job = .ok b') :
    StoEdge b.cfg b.sto b.tail b' := by
  obtain ⟨b₁, r, hl, rfl⟩ := Rbc.finish_ok h
  obtain ⟨op, n, data, k, issued, sent, flight, cycles⟩ := job
  cases op
  case writeObj =>
    simp only [Rbc.lastStep] at hl
    split at hl
    · rename_i hi
      obtain ⟨hf, rfl, -⟩ | ⟨hf, hd, -⟩ := Rbc.writeObjCommand_ok hl
      · exact .none (by simp [Rbc.lastWrite, hf]) rfl
      · obtain ⟨m, hm, rfl⟩ := Rbc.writeOne_ok hd
        exact .write data (by simp [Rbc.lastWrite, hi, hf, writeSlot]) hm
    · rename_i hi
      cases hl
      exact .none (by simp [Rbc.lastWrite, hi]) rfl
  case deleteHead =>
    obtain ⟨_, rfl⟩ : b.HeadMoved b₁ := commandOf_frame (i := .deleteHead) hl
    exact .none rfl rfl
  case deleteN =>
    obtain ⟨_, rfl⟩ : b.HeadMoved b₁ := commandOf_frame (i := .deleteN n) hl
    exact .none rfl rfl
  all_goals
    cases hl
    exact .none rfl rfl

theorem Rbc.execMove_stoEdge {b b' : Rbc} {issue send : Bool} {job : Job} (hp : b.port = none)
    (h : b.execMove issue send job = .ok b') : StoEdge b.cfg b.sto b.tail b' := by
  obtain ⟨_, _, _, _, hs⟩ := b.sendData_frame send job
  obtain ⟨-, -, hfin⟩ | ⟨hleft, hacc⟩ | hnone := Rbc.execMove_ok h
  · exact Rbc.finish_stoEdge hfin
  · rw [hs] at hacc
    exact (Rbc.access_stoEdge (by exact hleft) hacc :)
  · rw [hs] at hnone
    subst hnone
    exact .none hp rfl

/-- An edge in `EXEC` is a move of the running command, at one pace or the other. -/
theorem Rbc.execEdge_execMove {b b' : Rbc} {pace : Pace} {job : Job}
    (h : b.execEdge pace job = .ok b') : ∃ issue send, b.execMove issue send job = .ok b' := by
  obtain ⟨hm, -⟩ | hm := Rbc.execEdge_ok h
  · exact ⟨_, _, hm⟩
  · exact ⟨_, _, hm⟩

theorem Rbc.clkEdge_stoEdge {b b' : Rbc} {rst valid : Bool} {beat : CmdBeat} {pace : Pace}
    (h : b.clkEdge rst valid beat pace = .next b') : StoEdge b.cfg b.sto b.tail b' := by
  obtain ⟨-, -, -, hedge⟩ := Rbc.clkEdge_next.1 h
  cases rst with
  | true =>
    obtain rfl := hedge
    exact .none rfl rfl
  | false =>
    obtain ⟨ready, ⟨-, rfl | ⟨rfl, -⟩⟩ | ⟨op, n, k, i, -, ⟨w, rfl⟩ | hd⟩ | ⟨job, -, he⟩⟩ :=
      Rbc.runEdge_next hedge
    · exact .none rfl rfl
    · exact .none rfl rfl
    · exact .none rfl rfl
    · exact (Rbc.acceptData_stoEdge rfl hd :)
    · obtain ⟨issue, send, hm⟩ := Rbc.execEdge_execMove he
      exact (Rbc.execMove_stoEdge rfl hm :)

/-! ## Awaited reads (R208) -/

/-- An access sends no beat and drops no awaited read. -/
theorem Rbc.access_keeps {b b' : Rbc} {job : Job} (hleft : 0 < b.accessesLeft job)
    (h : b.access job = .ok b') :
    b'.rsp = b.rsp ∧ ∃ job', b'.phase = .exec job' ∧ job.flight ⊆ job'.flight := by
  obtain ⟨-, x, -, rfl⟩ | ⟨-, d, -, rfl⟩ | ⟨-, b₁, hw, rfl⟩ | ⟨h0, -⟩ := Rbc.access_ok h
  · exact ⟨rfl, _, rfl, List.subset_append_left ..⟩
  · exact ⟨rfl, _, rfl, List.subset_append_left ..⟩
  · obtain ⟨m, -, rfl⟩ := Rbc.writeOne_ok hw
    exact ⟨rfl, _, rfl, List.Subset.refl _⟩
  · omega

/-- A read that has not arrived is not the one whose beat is sent. -/
theorem Rbc.mem_flight_sendData {b : Rbc} {job : Job} {x : StoRead} (send : Bool)
    (hx : x ∈ job.flight) (hleft : 2 ≤ x.left) : x ∈ (b.sendData send job).1.flight := by
  obtain hs | ⟨-, -, r, rest, hflight, hr, hs⟩ := b.sendData_eq send job
  · rwa [hs]
  · rw [hs]
    rw [hflight] at hx
    obtain rfl | hx := List.mem_cons.1 hx
    · omega
    · exact hx

theorem Job.mem_flight_tick {job : Job} {x : StoRead} (hx : x ∈ job.flight) :
    { x with left := x.left - 1 } ∈ job.tick.flight := List.mem_map_of_mem hx

/-- R208: an awaited read comes one cycle nearer at an edge of its command. -/
theorem Rbc.execMove_flight {b b' : Rbc} {issue send : Bool} {job job' : Job} {x : StoRead}
    (h : b.execMove issue send job = .ok b') (hp : b'.phase = .exec job') (hx : x ∈ job.flight)
    (hleft : 2 ≤ x.left) : { x with left := x.left - 1 } ∈ job'.flight := by
  have htick := Job.mem_flight_tick (b.mem_flight_sendData send hx hleft)
  obtain ⟨-, -, hfin⟩ | ⟨hleft', hacc⟩ | rfl := Rbc.execMove_ok h
  · obtain ⟨b₁, r, -, rfl⟩ := Rbc.finish_ok hfin
    cases hp
  · rw [← b.accessesLeft_sendData send] at hleft'
    obtain ⟨-, job₁, hp₁, hsub⟩ := Rbc.access_keeps hleft' hacc
    obtain rfl := Phase.exec.inj (hp₁.symm.trans hp)
    exact hsub htick
  · obtain rfl := Phase.exec.inj hp
    exact htick

theorem flightData_some {flight : List StoRead} {d : Nat} (h : flightData flight = some d) :
    ∃ r ∈ flight, r.left = 1 ∧ r.obj = d := by
  obtain ⟨r, hr, hobj⟩ := Option.map_eq_some_iff.1 h
  exact ⟨r, List.mem_of_find?_eq_some hr, by simpa using List.find?_some hr, hobj⟩

theorem flightData_ne_none {flight : List StoRead} (h : ∃ r ∈ flight, r.left = 1) :
    flightData flight ≠ none := by
  simpa [flightData] using h

/-! ## Objects on response beats (R331, R345) -/

/-- The beat carries no object, or that of a read that has arrived. -/
def beatArrived (flight : List StoRead) (r : RspBeat) : Prop :=
  ∀ d, r.data = some d → ∃ x ∈ flight, x.left ≤ 1 ∧ r.index = some x.slot ∧ d = x.obj

/-- A final beat with an object is that of READ_OBJ or PEEK_NTH, and carries its one read. -/
theorem Rbc.lastStep_data {b b' : Rbc} {job : Job} {r : Response} {d : Nat}
    (h : b.lastStep job = .ok (b', r)) (hd : r.data = some d) :
    isBulkRead job.op = false ∧ ∃ x ∈ job.flight, r.index = some x.slot ∧ d = x.obj := by
  obtain ⟨op, n, data, k, issued, sent, flight, cycles⟩ := job
  cases op
  case readObj | peekNth =>
    cases h
    cases flight with
    | nil => cases hd
    | cons x rest =>
      cases hd
      exact ⟨rfl, x, List.mem_cons_self, rfl, rfl⟩
  case writeObj =>
    simp only [Rbc.lastStep] at h
    split at h
    · obtain ⟨-, -, rfl⟩ | ⟨-, -, rfl⟩ := Rbc.writeObjCommand_ok h <;> cases hd
    · cases h
      cases hd
  case deleteHead =>
    obtain ⟨-, -, rfl⟩ | ⟨-, -, rfl⟩ := Rbc.deleteHeadCommand_ok h <;> cases hd
  all_goals
    cases h
    cases hd

theorem Rbc.finish_arrived {b b' : Rbc} {job : Job} (hready : b.lastReady job = true)
    (h : b.finish job = .ok b') : ∀ r, b'.rsp = some r → beatArrived job.flight r := by
  obtain ⟨b₁, r, hl, rfl⟩ := Rbc.finish_ok h
  intro r' hr d hd
  obtain rfl := Option.some.inj hr
  obtain ⟨hop, x, hx, hindex, hobj⟩ := Rbc.lastStep_data hl hd
  have hall : job.flight.all (fun y => decide (y.left ≤ 1)) = true := by
    simpa [hop] using (Bool.and_eq_true_iff.1 hready).2
  exact ⟨x, hx, of_decide_eq_true (List.all_eq_true.1 hall x hx), hindex, hobj⟩

theorem Rbc.sendData_arrived {b : Rbc} (hr : b.rsp = none) (send : Bool) (job : Job) :
    ∀ r, (b.sendData send job).2.rsp = some r → beatArrived job.flight r := by
  intro r' hr'
  obtain hs | ⟨-, -, x, rest, hflight, hx, hs⟩ := b.sendData_eq send job
  · rw [hs, hr] at hr'
    cases hr'
  · rw [hs] at hr'
    obtain rfl := Option.some.inj hr'
    intro d hd
    exact ⟨x, hflight ▸ List.mem_cons_self, hx, rfl, (Option.some.inj hd).symm⟩

/-- R208, R345: no beat carries an object before `sto_rdata` has held it. -/
theorem Rbc.execMove_arrived {b b' : Rbc} {issue send : Bool} {job : Job} (hr : b.rsp = none)
    (h : b.execMove issue send job = .ok b') :
    ∀ r, b'.rsp = some r → beatArrived job.flight r := by
  have hsent := b.sendData_arrived hr send job
  obtain ⟨-, hready, hfin⟩ | ⟨hleft, hacc⟩ | rfl := Rbc.execMove_ok h
  · exact Rbc.finish_arrived hready hfin
  · rw [← b.accessesLeft_sendData send] at hleft
    obtain ⟨hrsp, -⟩ := Rbc.access_keeps hleft hacc
    rwa [hrsp]
  · exact hsent

/-! ## From the edge of a command to the edge of the clock -/

/-- An edge of a running command, without reset, is a move of it from registers with no beat and no
access standing. -/
theorem Rbc.clkEdge_execMove {b b' : Rbc} {valid : Bool} {beat : CmdBeat} {pace : Pace}
    {job : Job} (h : b.clkEdge false valid beat pace = .next b') (hp : b.phase = .exec job) :
    ∃ (b₀ : Rbc) (issue send : Bool), b₀.rsp = none ∧ b₀.execMove issue send job = .ok b' := by
  obtain ⟨-, -, -, hedge⟩ := Rbc.clkEdge_next.1 h
  obtain ⟨ready, ⟨hp', -⟩ | ⟨op, n, k, i, hp', -⟩ | ⟨job', hp', he⟩⟩ := Rbc.runEdge_next hedge
  · simp [hp] at hp'
  · simp [hp] at hp'
  · obtain rfl := Phase.exec.inj (hp'.symm.trans hp)
    obtain ⟨issue, send, hm⟩ := Rbc.execEdge_execMove he
    exact ⟨_, issue, send, rfl, hm⟩

/-- R345: only a command in `EXEC` sends a beat. -/
theorem Rbc.clkEdge_rsp {b b' : Rbc} {rst valid : Bool} {beat : CmdBeat} {pace : Pace}
    {r : RspBeat} (h : b.clkEdge rst valid beat pace = .next b') (hr : b'.rsp = some r) :
    rst = false ∧ ∃ job, b.phase = .exec job := by
  obtain ⟨-, -, -, hedge⟩ := Rbc.clkEdge_next.1 h
  cases rst with
  | true =>
    obtain rfl := hedge
    cases hr
  | false =>
    obtain ⟨ready, ⟨-, rfl | ⟨rfl, -⟩⟩ | ⟨op, n, k, i, -, ⟨w, rfl⟩ | hd⟩ | ⟨job, hp, -⟩⟩ :=
      Rbc.runEdge_next hedge
    · cases hr
    · cases hr
    · cases hr
    · obtain ⟨-, b₁, hw, rfl⟩ | ⟨-, rfl⟩ := Rbc.acceptData_ok hd
      · obtain ⟨m, -, rfl⟩ := Rbc.writeOne_ok hw
        cases hr
      · cases hr
    · exact ⟨rfl, job, hp⟩

/-- Settles O34: the edge's one access decides what the port shows and what storage becomes; the
awaited reads and the beats follow from the move of the command in `EXEC`. -/
theorem storagePortShowsEveryWrite : Obligations.StoragePortShowsEveryWrite := by
  unfold Obligations.StoragePortShowsEveryWrite
  refine ⟨fun p m slot d hd => slotObj_iff_holdsObject hd, ?_⟩
  intro s t rst valid beat h
  obtain ⟨b, hb, rfl⟩ := rbcClock_next.1 (runEvent_next.1 h).2
  have hsto := Rbc.clkEdge_stoEdge hb
  refine ⟨StoPort.not_both _, ?write, ?still, ?read, ?await, ?rdata, ?rsp⟩
  case write =>
    intro hwe
    cases hsto with
    | none hport => simp [Rbc.stoWe, hport, StoPort.we] at hwe
    | read _ _ _ hport => simp [Rbc.stoWe, hport, StoPort.we] at hwe
    | write d hport hm =>
      exact ⟨d, by simp [Rbc.stoAddr, hport, StoPort.addr],
        by simp [Rbc.stoWdata, hport, StoPort.wdata], holdsObject_write hm,
        fun _ ha => readByte_memWrite_outside hm ha, (memWrite_ok hm).2⟩
  case still =>
    intro hwe
    cases hsto with
    | none _ hm => exact hm
    | read _ _ _ _ hm => exact hm
    | write d hport => simp [Rbc.stoWe, hport, StoPort.we] at hwe
  case read =>
    intro hre
    cases hsto with
    | none hport => simp [Rbc.stoRe, hport, StoPort.re] at hre
    | write d hport => simp [Rbc.stoRe, hport, StoPort.re] at hre
    | read job slot d hport _ hphase hobj hlast =>
      exact ⟨job, slot, d, hphase, by simp [Rbc.stoAddr, hport, StoPort.addr], hobj, hlast⟩
  case await =>
    rintro job job' rfl hp hp' r hr hleft
    obtain ⟨_, _, _, -, hm⟩ := Rbc.clkEdge_execMove hb hp
    exact Rbc.execMove_flight hm hp' hr hleft
  case rdata =>
    intro job hp
    have hrdata : b.stoRdata = flightData job.flight := by
      simp only [Rbc.stoRdata, show b.phase = .exec job from hp]
    exact ⟨fun d hd => flightData_some (hrdata ▸ hd), fun hr => hrdata ▸ flightData_ne_none hr⟩
  case rsp =>
    intro r d hr hd
    obtain ⟨rfl, job, hp⟩ := Rbc.clkEdge_rsp hb hr
    obtain ⟨_, _, _, hnone, hm⟩ := Rbc.clkEdge_execMove hb hp
    obtain ⟨x, hx, hleft, hindex, hobj⟩ := Rbc.execMove_arrived hnone hm r hr d hd
    exact ⟨job, x, hp, hx, hleft, hindex, hobj⟩

end Sys2Proof.Machine
end

section
/-! The decoder as the inverse of the encoder, and total on every port (30_encoding.md R301 to R304,
R320 to R322, R350). -/

open Sys2Proof.Statements

namespace Sys2Proof.Machine

/-! ## The header port (R301, R302) -/

@[simp] theorem headerOp_packHeader {op : Nat} (h : op < 16) (n : Nat) :
    headerOp (packHeader op n) = op := by
  unfold headerOp packHeader
  omega

@[simp] theorem headerN_packHeader {op : Nat} (h : op < 16) (n : Nat) :
    headerN (packHeader op n) = n := by
  unfold headerN packHeader
  omega

/-- What the header port decodes, and to what: a header, objects that fit and as many data beats as
it asks for. -/
theorem decode_hdr_iff {p : Config} {w d : Nat} {ds : List Nat} {i : Instr} :
    decode p (.hdr w d ds) = .ok i ↔
      w < 2 ^ (p.nw + 4) ∧ objFits p d = true ∧ ds.all (objFits p) = true ∧
        ds.length = burstLength (Opcode.ofBits (headerOp w)) (headerN w) ∧
        i = Instr.ofHeader (Opcode.ofBits (headerOp w)) (headerN w) d ds := by
  simp only [decode, decodeHeader]
  by_cases hw : w < 2 ^ (p.nw + 4)
  · cases hd : objFits p d
    · simp [hw]
    · cases hds : ds.all (objFits p)
      · simp [hw]
      · by_cases hl : ds.length = burstLength (Opcode.ofBits (headerOp w)) (headerN w)
        · simp [hw, hl, eq_comm]
        · simp [hw, hl]
  · simp [hw]

/-- R301: a packed header that fits decodes to the row of its opcode. -/
theorem decode_packHeader {p : Config} {op n d : Nat} {ds : List Nat} (ho : op < 16)
    (hn : countFits p n = true) (hd : objFits p d = true) (hds : ds.all (objFits p) = true)
    (hl : ds.length = burstLength (Opcode.ofBits op) n) :
    decode p (.hdr (packHeader op n) d ds) = .ok (Instr.ofHeader (Opcode.ofBits op) n d ds) := by
  rw [decode_hdr_iff, headerOp_packHeader ho, headerN_packHeader ho]
  exact ⟨Laws.PortFit.packHeader_lt ho hn, hd, hds, hl, rfl⟩

/-- A row that reads at most its count. -/
theorem decode_countRow {p : Config} {op n : Nat} (ho : op < 16) (hn : countFits p n = true)
    (hl : 0 = burstLength (Opcode.ofBits op) n) :
    decode p (.hdr (packHeader op n) 0 []) = .ok (Instr.ofHeader (Opcode.ofBits op) n 0 []) :=
  decode_packHeader ho hn (Laws.PortFit.objFits_zero p) rfl hl

/-- A write burst. -/
theorem decode_burstRow {p : Config} {op n : Nat} {ds : List Nat} (ho : op < 16)
    (h : burstFits p n ds = true) (hl : burstLength (Opcode.ofBits op) n = n) :
    decode p (.hdr (packHeader op n) 0 ds) = .ok (Instr.ofHeader (Opcode.ofBits op) n 0 ds) := by
  obtain ⟨⟨hn, hds⟩, hlen⟩ : (countFits p n = true ∧ ds.all (objFits p) = true) ∧ ds.length = n := by
    simpa [burstFits] using h
  exact decode_packHeader ho hn (Laws.PortFit.objFits_zero p) hds (hlen.trans hl.symm)

/-! ## The ports of SF and AF (R303, R304, R321, R322) -/

/-- R321: on SF's port an object that fits is refused by no vector of three bits. -/
theorem decode_sfCtl_of_fits {p : Config} {w d : Nat} (hw : w < 8) (hd : objFits p d = true) :
    decode p (.sfCtl w d) = .ok (if w.testBit 2 then .sfClear
      else match w.testBit 1, w.testBit 0 with
        | false, false => .sfIdle
        | false, true => .sfPush d
        | true, false => .sfPop
        | true, true => .sfPushPop d) := by
  simp only [decode, decodeSf, hw, hd, decide_true, Bool.not_true, Bool.false_eq_true, if_false]
  cases w.testBit 2 <;> cases w.testBit 1 <;> cases w.testBit 0 <;> rfl

theorem decode_afW_of_fits {p : Config} {w d : Nat} (hw : w < 2) (hd : objFits p d = true) :
    decode p (.afW w d) = .ok (if w.testBit 0 then .afPush d else .afWidle) := by
  simp only [decode, decodeAfW, hw, hd, decide_true, Bool.not_true, Bool.false_eq_true, if_false]
  cases w.testBit 0 <;> rfl

theorem decode_afR_of_fits {p : Config} {w : Nat} (hw : w < 2) :
    decode p (.afR w) = .ok (if w.testBit 0 then .afPop else .afRidle) := by
  simp only [decode, decodeAfR, hw, decide_true, Bool.not_true, Bool.false_eq_true, if_false]
  cases w.testBit 0 <;> rfl

theorem testBit_two_iff {w : Nat} (hw : w < 8) : w.testBit 2 = true ↔ 4 ≤ w := by
  interval_cases w <;> decide

theorem decode_sfCtl_wellFormed {p : Config} {w d : Nat} {i : Instr}
    (h : decode p (.sfCtl w d) = .ok i) : i.wellFormed p = true := by
  simp only [decode, decodeSf] at h
  repeat' split at h
  all_goals cases h
  all_goals simp_all [Instr.wellFormed]

theorem decode_afW_wellFormed {p : Config} {w d : Nat} {i : Instr}
    (h : decode p (.afW w d) = .ok i) : i.wellFormed p = true := by
  simp only [decode, decodeAfW] at h
  repeat' split at h
  all_goals cases h
  all_goals simp_all [Instr.wellFormed]

theorem decode_afR_wellFormed {p : Config} {w : Nat} {i : Instr}
    (h : decode p (.afR w) = .ok i) : i.wellFormed p = true := by
  simp only [decode, decodeAfR] at h
  repeat' split at h
  all_goals cases h
  all_goals rfl

/-! ## The opcode map (R320) -/

theorem burstLength_ofBits (op n : Nat) :
    burstLength (Opcode.ofBits op) n = if op = 6 ∨ op = 8 then n else 0 := by
  unfold Opcode.ofBits
  split <;> simp_all [burstLength]

/-- Settles O1: each word written out, decoded. -/
theorem tableWordsDecodeToTheirRows : Obligations.TableWordsDecodeToTheirRows := by
  unfold Obligations.TableWordsDecodeToTheirRows
  decide

/-- Settles O2: an encoded header unpacks to its opcode and count, and the row's operands fit. -/
theorem decodeOfEncode : Obligations.DecodeOfEncode := by
  unfold Obligations.DecodeOfEncode
  intro p i h
  have h0 : objFits p 0 = true := Laws.PortFit.objFits_zero p
  cases i
  case writeObj d =>
    exact decode_packHeader (op := 2) (by decide) (Laws.PortFit.countFits_zero p) h rfl rfl
  case writeN n ds => exact decode_burstRow (op := 6) (by decide) h rfl
  case writeAll n ds => exact decode_burstRow (op := 8) (by decide) h rfl
  case deleteN n => exact decode_countRow (op := 5) (by decide) h rfl
  case readN n => exact decode_countRow (op := 7) (by decide) h rfl
  case readAll n => exact decode_countRow (op := 9) (by decide) h rfl
  case peekNth n => exact decode_countRow (op := 10) (by decide) h rfl
  case sfPush d => exact decode_sfCtl_of_fits (w := 1) (by decide) h
  case sfPushPop d => exact decode_sfCtl_of_fits (w := 3) (by decide) h
  case sfIdle | sfPop | sfClear => exact decode_sfCtl_of_fits (by decide) h0
  case afPush d => exact decode_afW_of_fits (w := 1) (by decide) h
  case afWidle => exact decode_afW_of_fits (by decide) h0
  case afRidle | afPop => exact decode_afR_of_fits (by decide)
  all_goals exact decode_countRow (by decide) (Laws.PortFit.countFits_zero p) rfl

/-- Settles O3: each port's decoder is total on what fits, and gives its operands as they fit. -/
theorem everyPortValueIsAnInstruction : Obligations.EveryPortValueIsAnInstruction := by
  unfold Obligations.EveryPortValueIsAnInstruction
  refine ⟨⟨?hdr, ?sf, ?af⟩, ?wellFormed⟩
  case hdr =>
    intro p w d ds hw hd hds hl
    rw [← burstLength_ofBits] at hl
    exact ⟨_, decode_hdr_iff.2 ⟨hw, hd, hds, hl, rfl⟩, isRbc_ofHeader ..⟩
  case sf =>
    intro p w d hw hd
    have hdec := decode_sfCtl_of_fits hw hd
    refine ⟨_, hdec, decodeSf_isSf hdec, ?_⟩
    rw [← testBit_two_iff hw]
    cases w.testBit 2 <;> cases w.testBit 1 <;> cases w.testBit 0 <;> simp
  case af =>
    intro p w d hw hd
    have hdecW := decode_afW_of_fits hw hd
    have hdecR := decode_afR_of_fits (p := p) hw
    exact ⟨⟨_, hdecW, decodeAfW_isAf hdecW⟩, _, hdecR, decodeAfR_isAf hdecR⟩
  case wellFormed =>
    intro p word i h
    cases word with
    | hdr w d ds => exact (decodeHeader_ok h).2
    | sfCtl w d => exact decode_sfCtl_wellFormed h
    | afW w d => exact decode_afW_wellFormed h
    | afR w => exact decode_afR_wellFormed h

end Sys2Proof.Machine
end

section
/-! What an edge of the RBC's clock is in each phase: a header, a data beat, or a beat held
(30_encoding.md R341 to R344). -/

open Sys2Proof.Statements

namespace Sys2Proof.Machine

/-! ## From the event to the edge (R300, R341) -/

/-- R341: the host may present what it holds, and anything where it holds nothing. -/
theorem Rbc.holdsBeat_iff {b : Rbc} {valid : Bool} {beat : CmdBeat} :
    b.holdsBeat valid beat = true ↔ b.held = none ∨ valid = true ∧ b.held = some beat := by
  cases h : b.held <;> simp [Rbc.holdsBeat, h]

/-- Where the host's index stands after an edge: past a header accepted in `IDLE` (R116). -/
def State.posAfter (s : State) (rst valid : Bool) : Nat :=
  if !rst && valid && s.rbc.phase.isIdle then s.pos + 1 else s.pos

theorem State.posAfter_of_busy {s : State} (h : s.rbc.phase ≠ .idle) (rst valid : Bool) :
    s.posAfter rst valid = s.pos := by
  have hi : s.rbc.phase.isIdle = false := Bool.eq_false_of_not_eq_true (mt (Phase.isIdle_iff _).1 h)
  simp [State.posAfter, hi]

@[simp] theorem State.posAfter_of_invalid (s : State) (rst : Bool) :
    s.posAfter rst false = s.pos := by
  simp [State.posAfter]

/-- An answered event of the RBC's clock is an answered edge of the block. -/
theorem rbcEdge_next {s t : State} {rst valid : Bool} {beat : CmdBeat} :
    rbcEdge s rst valid beat = .next t ↔ ∃ b, s.rbc.clkEdge rst valid beat s.pace = .next b ∧
      t = afterRbcEdge s b (s.posAfter rst valid) := by
  rw [rbcEdge, runEvent_next]
  constructor
  · rintro ⟨-, h⟩
    exact rbcClock_next.1 h
  · rintro ⟨b, hb, rfl⟩
    exact ⟨(Rbc.clkEdge_next.1 hb).1, rbcClock_next.2 ⟨b, hb, rfl⟩⟩

/-- During a command no edge moves the host's index. -/
theorem rbcEdge_of_busy {s : State} {rst valid : Bool} {beat : CmdBeat} {b : Rbc}
    (hp : s.rbc.phase ≠ .idle) (h : s.rbc.clkEdge rst valid beat s.pace = .next b) :
    rbcEdge s rst valid beat = .next (afterRbcEdge s b s.pos) :=
  rbcEdge_next.2 ⟨b, h, by rw [State.posAfter_of_busy hp]⟩

/-- An edge without reset of a legal block, with a beat the host may present, is one of the
protocol. -/
theorem Rbc.clkEdge_of_fits {b : Rbc} {valid : Bool} {beat : CmdBeat} (hc : checkRbc b.cfg = none)
    (hheld : b.held = none ∨ valid = true ∧ b.held = some beat)
    (hfits : valid = true → beatFits b.cfg beat) (pace : Pace) :
    b.clkEdge false valid beat pace = b.runEdge valid beat pace := by
  have hb := Rbc.holdsBeat_iff.2 hheld
  cases valid with
  | false => simp [Rbc.clkEdge, hc, hb]
  | true =>
    obtain ⟨hw, hd⟩ := hfits rfl
    simp [Rbc.clkEdge, hc, hb, hw, hd]

/-! ## An edge of the protocol, phase by phase -/

theorem Rbc.runEdge_header {b : Rbc} (hp : b.phase = .idle) (beat : CmdBeat) (pace : Pace) :
    b.runEdge true beat pace =
      .next ((b.startEdge true true beat).acceptHeader beat.hdr beat.data) := by
  simp [Rbc.runEdge, hp, Rbc.cmdReady]

theorem Rbc.runEdge_data {b : Rbc} {op : Opcode} {n k i : Nat} {beat : CmdBeat} {pace : Pace}
    (hp : b.phase = .wdata op n k i) (hr : b.cmdReady false pace.stall = true) :
    b.runEdge true beat pace =
      edgeOutcome ((b.startEdge true true beat).acceptData beat.data op n k i) := by
  simp [Rbc.runEdge, hp, hr]

theorem Rbc.runEdge_exec {b : Rbc} {job : Job} (hp : b.phase = .exec job) (valid : Bool)
    (beat : CmdBeat) (pace : Pace) :
    b.runEdge valid beat pace = edgeOutcome ((b.startEdge valid false beat).execEdge pace job) := by
  simp [Rbc.runEdge, hp, Rbc.cmdReady]

/-! ## A header (R343) -/

theorem isBurst_ofBits (op : Nat) : isBurst (Opcode.ofBits op) = true ↔ op = 6 ∨ op = 8 := by
  unfold Opcode.ofBits
  split <;> simp_all [isBurst]

theorem Rbc.acceptHeader_phase_wdata {b : Rbc} {w : Nat} (d : Nat)
    (hop : isBurst (Opcode.ofBits (headerOp w)) = true) (hn : 0 < headerN w) :
    (b.acceptHeader w d).phase = .wdata (Opcode.ofBits (headerOp w)) (headerN w)
      (plannedSteps b.cfg (Opcode.ofBits (headerOp w)) (headerN w) b.head b.tail) 0 := by
  simp [Rbc.acceptHeader, hop, hn]

theorem Rbc.acceptHeader_phase_exec {b : Rbc} {w : Nat} (d : Nat)
    (h : ¬(isBurst (Opcode.ofBits (headerOp w)) = true ∧ 0 < headerN w)) :
    (b.acceptHeader w d).phase = .exec (newJob (Opcode.ofBits (headerOp w)) (headerN w) d
      (plannedSteps b.cfg (Opcode.ofBits (headerOp w)) (headerN w) b.head b.tail)) := by
  simp only [Rbc.acceptHeader, Bool.and_eq_true, decide_eq_true_eq, if_neg h]

/-- Settles O29: the edge is the header's, and its phase is that of the opcode and the count. -/
theorem headerStartsACommand : Obligations.HeaderStartsACommand := by
  unfold Obligations.HeaderStartsACommand
  rintro s beat ⟨hc, hp⟩ hheld hfits
  have hedge := (Rbc.clkEdge_of_fits hc (hheld.imp id (⟨rfl, ·⟩)) (fun _ => hfits) s.pace).trans
    (Rbc.runEdge_header hp beat s.pace)
  have hburst : isBurst (Opcode.ofBits (headerOp beat.hdr)) = true ↔
      beat.hdr % 16 = 6 ∨ beat.hdr % 16 = 8 := isBurst_ofBits _
  refine ⟨_, rbcEdge_next.2 ⟨_, hedge, rfl⟩, fun h6 hn => ?_, fun h8 hn => ?_, fun hx => ?_,
    rfl, rfl, rfl, rfl, rfl, rfl, rfl, rfl, rfl, rfl, rfl⟩
  · refine (Rbc.acceptHeader_phase_wdata _ (hburst.2 (.inl h6)) hn).trans ?_
    simp only [headerOp, h6]
    rfl
  · refine (Rbc.acceptHeader_phase_wdata _ (hburst.2 (.inr h8)) hn).trans ?_
    simp only [headerOp, h8]
    rfl
  · exact ⟨_, Rbc.acceptHeader_phase_exec _ fun h => hx ⟨hburst.1 h.1, h.2⟩,
      rfl, rfl, rfl, rfl, rfl⟩

/-! ## A data beat (R344) -/

theorem afterBeat_last {op : Opcode} {n i : Nat} (h : i + 1 = n) (k : Nat) :
    afterBeat op n k i = .exec (newJob op n 0 k) := if_pos h

theorem afterBeat_next {op : Opcode} {n i : Nat} (h : i + 1 ≠ n) (k : Nat) :
    afterBeat op n k i = .wdata op n k (i + 1) := if_neg h

theorem Rbc.acceptData_written {b : Rbc} {n k i : Nat} {op : Opcode} (d : Nat)
    (ht : b.tail < b.cfg.c) (hi : i < k) :
    b.acceptData d op n k i = .ok { b with
      sto := writeBytes b.sto (slotAddr b.cfg b.tail) d b.cfg.s, tail := adv b.cfg b.tail
      phase := afterBeat op n k i, waited := 0, port := some (.write b.tail d) } := by
  simp [Rbc.acceptData, hi, Rbc.writeOne_of_lt d ht, writeSlot]

theorem Rbc.acceptData_discarded {b : Rbc} {n k i : Nat} {op : Opcode} (d : Nat) (hi : k ≤ i) :
    b.acceptData d op n k i = .ok { b with phase := afterBeat op n k i, waited := 0 } := by
  simp [Rbc.acceptData, Nat.not_lt.2 hi]

theorem onlySlotChanged_write {p : Config} {m : Memory} {slot : Nat} (d : Nat)
    (hs : slot < p.c) :
    onlySlotChanged p m (writeBytes m (slotAddr p slot) d p.s) slot := fun _ ha =>
  readByte_memWrite_outside (memWrite_of_lt m d hs) ha

/-- Settles O30: an accepted data beat is one object written at `tail`, or nothing. -/
theorem dataBeatsAreWrittenUpToK : Obligations.DataBeatsAreWrittenUpToK := by
  unfold Obligations.DataBeatsAreWrittenUpToK
  intro s beat op n k i hc ht hheld hfits hp hr
  have hrun := (Rbc.clkEdge_of_fits hc (hheld.imp id (⟨rfl, ·⟩)) (fun _ => hfits) s.pace).trans
    (Rbc.runEdge_data hp hr)
  have hbusy : s.rbc.phase ≠ .idle := by simp [hp]
  have hlast : i + 1 = n → ∃ job, afterBeat op n k i = .exec job ∧ job.op = op ∧ job.n = n ∧
      job.k = k ∧ job.issued = 0 ∧ job.sent = 0 := fun h =>
    ⟨_, afterBeat_last h k, rfl, rfl, rfl, rfl, rfl⟩
  obtain hi | hi := Nat.lt_or_ge i k
  · rw [Rbc.acceptData_written _ (by exact ht) hi] at hrun
    refine ⟨_, rbcEdge_of_busy hbusy hrun, rfl, rfl, rfl, rfl, hlast,
      fun h => afterBeat_next h k, fun _ => ⟨adv_eq_mod (checkRbc_shared hc) _, ?_,
        onlySlotChanged_write _ ht, rfl⟩, fun h => by omega⟩
    exact slotObj_write_same (memWrite_of_lt s.rbc.sto beat.data ht) (of_decide_eq_true hfits.2)
  · rw [Rbc.acceptData_discarded _ hi] at hrun
    exact ⟨_, rbcEdge_of_busy hbusy hrun, rfl, rfl, rfl, rfl, hlast,
      fun h => afterBeat_next h k, fun h => by omega, fun _ => ⟨rfl, rfl, rfl⟩⟩

/-! ## What no edge of a command writes (R341, R343) -/

/-- `b'` has the parameters of `b`, the beat the host holds and the cursors of the header. -/
def Rbc.SideKept (b b' : Rbc) : Prop :=
  b'.cfg = b.cfg ∧ b'.held = b.held ∧ b'.preHead = b.preHead ∧ b'.preTail = b.preTail

theorem Rbc.Moved.sideKept {b b' : Rbc} (h : b.Moved b') : b.SideKept b' := by
  obtain ⟨_, _, _, rfl⟩ := h
  exact ⟨rfl, rfl, rfl, rfl⟩

theorem Rbc.acceptData_sideKept {b b' : Rbc} {d n k i : Nat} {op : Opcode}
    (h : b.acceptData d op n k i = .ok b') : b.SideKept b' := by
  obtain ⟨-, b₁, hw, rfl⟩ | ⟨-, rfl⟩ := Rbc.acceptData_ok h
  · exact (Rbc.writeOne_stored hw).moved.sideKept
  · exact ⟨rfl, rfl, rfl, rfl⟩

theorem Rbc.access_sideKept {b b' : Rbc} {job : Job} (h : b.access job = .ok b') :
    b.SideKept b' := by
  obtain ⟨-, x, -, rfl⟩ | ⟨-, d, -, rfl⟩ | ⟨-, b₁, hw, rfl⟩ | ⟨-, rfl⟩ := Rbc.access_ok h
  · exact ⟨rfl, rfl, rfl, rfl⟩
  · exact ⟨rfl, rfl, rfl, rfl⟩
  · exact (Rbc.writeOne_stored hw).moved.sideKept
  · exact ⟨rfl, rfl, rfl, rfl⟩

theorem Rbc.execMove_sideKept {b b' : Rbc} {issue send : Bool} {job : Job}
    (h : b.execMove issue send job = .ok b') : b.SideKept b' := by
  obtain ⟨_, _, _, _, hs⟩ := b.sendData_frame send job
  obtain ⟨-, -, hfin⟩ | ⟨-, hacc⟩ | hnone := Rbc.execMove_ok h
  · obtain ⟨b₁, r, hl, rfl⟩ := Rbc.finish_ok hfin
    exact (Rbc.lastStep_moved hl).sideKept
  · rw [hs] at hacc
    exact (Rbc.access_sideKept hacc :)
  · rw [hs] at hnone
    subst hnone
    exact ⟨rfl, rfl, rfl, rfl⟩

theorem Rbc.execEdge_sideKept {b b' : Rbc} {pace : Pace} {job : Job}
    (h : b.execEdge pace job = .ok b') : b.SideKept b' := by
  obtain ⟨issue, send, hm⟩ := Rbc.execEdge_execMove h
  exact Rbc.execMove_sideKept hm

/-! ## The handshake (R341, R342) -/

/-- R341: after an edge the host holds the beat it presented, unless it was accepted. -/
theorem Rbc.runEdge_held {b b' : Rbc} {beat : CmdBeat} {pace : Pace}
    (h : b.runEdge true beat pace = .next b') :
    b'.held = if b.cmdReady false pace.stall then none else some beat := by
  cases hp : b.phase with
  | idle =>
    rw [Rbc.runEdge_header hp] at h
    cases h
    simp [Rbc.cmdReady, hp]
  | wdata op n k i =>
    cases hr : b.cmdReady false pace.stall with
    | true =>
      rw [Rbc.runEdge_data hp hr, edgeOutcome_next] at h
      obtain ⟨-, hheld, -⟩ := Rbc.acceptData_sideKept h
      exact hheld
    | false =>
      obtain ⟨w, hw⟩ := Rbc.runEdge_unaccepted (b := b) (valid := true) (beat := beat)
        (pace := pace) (by simp [hp]) (.inr hr)
      cases hw.symm.trans h
      rfl
  | exec job =>
    rw [Rbc.runEdge_exec hp, edgeOutcome_next] at h
    obtain ⟨-, hheld, -⟩ := Rbc.execEdge_sideKept h
    simpa [Rbc.cmdReady, hp] using hheld

/-- Settles O31: `cmd_ready` by phase; what the host holds after an edge; and the edge that accepts
no beat. -/
theorem handshakeHoldsBeats : Obligations.HandshakeHoldsBeats := by
  unfold Obligations.HandshakeHoldsBeats
  refine ⟨?ready, ⟨?held, ?withdrawn⟩, ?unaccepted⟩
  case ready =>
    refine fun b rst stall => ⟨?_, ?_, ?_, ?_⟩
    · rintro rfl
      rfl
    · rintro rfl hp
      simp [Rbc.cmdReady, hp]
    · rintro op n k i rfl hp hw
      simp [Rbc.cmdReady, hp, Nat.not_lt.2 hw]
    · intro job hp
      simp [Rbc.cmdReady, hp]
  case held =>
    intro s t rst beat h
    obtain ⟨b, hb, rfl⟩ := rbcEdge_next.1 h
    obtain ⟨-, -, -, hedge⟩ := Rbc.clkEdge_next.1 hb
    cases rst with
    | true =>
      obtain rfl := hedge
      rfl
    | false => exact Rbc.runEdge_held hedge
  case withdrawn =>
    intro s rst valid beat x hc hheld hx
    have hb : s.rbc.holdsBeat valid beat = false := by
      rw [Bool.eq_false_iff, ne_eq, Rbc.holdsBeat_iff, hheld]
      rintro (h | ⟨rfl, h⟩)
      · cases h
      · exact hx.elim nofun (· (Option.some.inj h).symm)
    simp [rbcEdge, runEvent, Event.check, hc, runLegal, rbcClock, Rbc.clkEdge, hb]
  case unaccepted =>
    intro s valid beat hc hheld hfits hp hn
    have hexec : ∀ job, s.rbc.phase ≠ .exec job := by
      obtain hp | ⟨op, n, k, i, hp⟩ := hp <;> simp [hp]
    obtain ⟨w, hw⟩ := Rbc.runEdge_unaccepted (beat := beat) (pace := s.pace) hexec hn
    have hpos : s.posAfter false valid = s.pos := by
      obtain rfl | hr := hn
      · exact State.posAfter_of_invalid s false
      · refine State.posAfter_of_busy (fun hi => ?_) ..
        simp [Rbc.cmdReady, hi] at hr
    exact ⟨w, rbcEdge_next.2 ⟨_, (Rbc.clkEdge_of_fits hc hheld hfits s.pace).trans hw,
      by rw [hpos]⟩⟩

end Sys2Proof.Machine
end

section
/-! The status outputs from a header to its final beat, and what an edge in `EXEC` makes of the phase
and the response port (30_encoding.md R345, R348). -/

open Sys2Proof.Statements

namespace Sys2Proof.Machine

/-! ## The steps of a header (R343) -/

/-- A single-object command takes one step unless its comparator refuses it. -/
theorem oneStep_eq {refuse : Bool} {m : Nat} (h : refuse = false ↔ 0 < m) :
    (if refuse = true then 0 else 1) = min 1 m := by
  cases refuse with
  | true =>
    rw [if_pos rfl]
    have : ¬0 < m := fun hm => nomatch h.2 hm
    omega
  | false =>
    have := h.1 rfl
    rw [if_neg nofun]
    omega

/-- The model's number of one-object steps is the one the statements write out. -/
theorem plannedSteps_ofBits {p : Config} (hc : checkShared p = none) {head tail : Nat}
    (hh : head < p.c) (ht : tail < p.c) (op n : Nat) :
    plannedSteps p (Opcode.ofBits op) n head tail =
      stepsOf op n (occ p head tail) (freeSlots p head tail) := by
  unfold Opcode.ofBits
  split
  case h_3 => exact oneStep_eq (isFull_eq_false hc hh ht)
  case h_4 | h_5 => exact oneStep_eq (isEmpty_eq_false hc hh ht)
  case h_16 => simp_all [plannedSteps, stepsOf]
  all_goals rfl

/-! ## The phase after an edge (R340, R344, R345) -/

/-- `job'` is the same command as `job`, further on. -/
def Job.SameCommand (job job' : Job) : Prop :=
  job'.op = job.op ∧ job'.n = job.n ∧ job'.data = job.data ∧ job'.k = job.k

/-- R344: a data beat sends nothing. -/
theorem Rbc.acceptData_phase {b b' : Rbc} {d n k i : Nat} {op : Opcode}
    (h : b.acceptData d op n k i = .ok b') :
    b'.phase = afterBeat op n k i ∧ b'.rsp = b.rsp ∧ b'.out = b.out := by
  obtain ⟨-, b₁, hw, rfl⟩ | ⟨-, rfl⟩ := Rbc.acceptData_ok h
  · obtain ⟨m, -, rfl⟩ := Rbc.writeOne_ok hw
    exact ⟨rfl, rfl, rfl⟩
  · exact ⟨rfl, rfl, rfl⟩

/-- An access sends nothing, and its command goes on. -/
theorem Rbc.access_phase {b b' : Rbc} {job : Job} (hleft : 0 < b.accessesLeft job)
    (h : b.access job = .ok b') :
    b'.rsp = b.rsp ∧ b'.out = b.out ∧ ∃ job', b'.phase = .exec job' ∧ job.SameCommand job' := by
  obtain ⟨-, x, -, rfl⟩ | ⟨-, d, -, rfl⟩ | ⟨-, b₁, hw, rfl⟩ | ⟨h0, -⟩ := Rbc.access_ok h
  · exact ⟨rfl, rfl, _, rfl, rfl, rfl, rfl, rfl⟩
  · exact ⟨rfl, rfl, _, rfl, rfl, rfl, rfl, rfl⟩
  · obtain ⟨m, -, rfl⟩ := Rbc.writeOne_ok hw
    exact ⟨rfl, rfl, _, rfl, rfl, rfl, rfl, rfl⟩
  · omega

/-- At most the data beat of the oldest read, which is no final beat. -/
theorem Rbc.sendData_beat (b : Rbc) (send : Bool) (job : Job) :
    ((b.sendData send job).2.rsp = b.rsp ∧ (b.sendData send job).2.out = b.out) ∨
      ∃ r, r.last = false ∧ (b.sendData send job).2.rsp = some r ∧
        (b.sendData send job).2.out = b.out ++ [r] := by
  obtain h | ⟨-, -, r, rest, -, -, h⟩ := b.sendData_eq send job <;> rw [h]
  · exact .inl ⟨rfl, rfl⟩
  · exact .inr ⟨_, rfl, rfl, rfl⟩

/-- R345: an edge in `EXEC` sends the final beat and enters `IDLE`, or sends at most one data beat and
stays in its command. -/
theorem Rbc.execMove_phase {b b' : Rbc} {issue send : Bool} {job : Job}
    (h : b.execMove issue send job = .ok b') :
    (b'.phase = .idle ∧ ∃ r, r.last = true ∧ b'.rsp = some r ∧ b'.out = b.out ++ [r]) ∨
    ((∃ job', b'.phase = .exec job' ∧ job.SameCommand job') ∧
      ((b'.rsp = b.rsp ∧ b'.out = b.out) ∨
        ∃ r, r.last = false ∧ b'.rsp = some r ∧ b'.out = b.out ++ [r])) := by
  have hbeat := b.sendData_beat send job
  have hsame : job.SameCommand (b.sendData send job).1.tick := by
    obtain ⟨_, _, _, _, hs⟩ := b.sendData_frame send job
    rw [hs]
    exact ⟨rfl, rfl, rfl, rfl⟩
  obtain ⟨-, -, hfin⟩ | ⟨hleft, hacc⟩ | rfl := Rbc.execMove_ok h
  · obtain ⟨b₁, r, hl, rfl⟩ := Rbc.finish_ok hfin
    obtain ⟨-, -, -, -, -, -, -, -, hout⟩ := (Rbc.lastStep_moved hl).frame
    exact .inl ⟨rfl, r.final, rfl, rfl, congrArg (· ++ [r.final]) hout⟩
  · rw [← b.accessesLeft_sendData send] at hleft
    obtain ⟨hrsp, hout, job', hp, hop, hn, hd, hk⟩ := Rbc.access_phase hleft hacc
    obtain ⟨hop₁, hn₁, hd₁, hk₁⟩ := hsame
    rw [hrsp, hout]
    exact .inr ⟨⟨job', hp, hop.trans hop₁, hn.trans hn₁, hd.trans hd₁, hk.trans hk₁⟩, hbeat⟩
  · exact .inr ⟨⟨_, rfl, hsame⟩, hbeat⟩

/-- The same of an edge of the clock, before which no beat stands on the port. -/
theorem Rbc.runEdge_exec_phase {b b' : Rbc} {job : Job} {valid : Bool} {beat : CmdBeat}
    {pace : Pace} (hp : b.phase = .exec job) (h : b.runEdge valid beat pace = .next b') :
    (b'.phase = .idle ∧ ∃ r, r.last = true ∧ b'.rsp = some r ∧ b'.out = b.out ++ [r]) ∨
    ((∃ job', b'.phase = .exec job' ∧ job.SameCommand job') ∧
      ((b'.rsp = none ∧ b'.out = b.out) ∨
        ∃ r, r.last = false ∧ b'.rsp = some r ∧ b'.out = b.out ++ [r])) := by
  rw [Rbc.runEdge_exec hp, edgeOutcome_next] at h
  obtain ⟨issue, send, hm⟩ := Rbc.execEdge_execMove h
  exact Rbc.execMove_phase hm

/-- R344: in `WDATA` an edge counts the beat it accepts, and stays where it is without one. -/
theorem Rbc.runEdge_wdata_phase {b b' : Rbc} {op : Opcode} {n k i : Nat} {valid : Bool}
    {beat : CmdBeat} {pace : Pace} (hp : b.phase = .wdata op n k i)
    (h : b.runEdge valid beat pace = .next b') :
    b'.phase = (if valid = true ∧ b.cmdReady false pace.stall = true then afterBeat op n k i
      else .wdata op n k i) := by
  split
  · rename_i ha
    obtain ⟨rfl, hr⟩ := ha
    rw [Rbc.runEdge_data hp hr, edgeOutcome_next] at h
    exact (Rbc.acceptData_phase h).1
  · rename_i ha
    have hn : valid = false ∨ b.cmdReady false pace.stall = false := by
      simpa only [not_and_or, Bool.not_eq_true] using ha
    obtain ⟨w, hw⟩ := Rbc.runEdge_unaccepted (beat := beat) (pace := pace) (by simp [hp]) hn
    cases hw.symm.trans h
    exact hp

/-- R345: only an edge in `EXEC` sends a beat. -/
theorem Rbc.runEdge_silent {b b' : Rbc} {valid : Bool} {beat : CmdBeat} {pace : Pace}
    (hp : ∀ job, b.phase ≠ .exec job) (h : b.runEdge valid beat pace = .next b') :
    b'.rsp = none ∧ b'.out = b.out := by
  obtain ⟨ready, ⟨-, rfl | ⟨rfl, -⟩⟩ | ⟨op, n, k, i, -, ⟨w, rfl⟩ | hd⟩ | ⟨job, hj, -⟩⟩ :=
    Rbc.runEdge_next h
  · exact ⟨rfl, rfl⟩
  · exact ⟨rfl, rfl⟩
  · exact ⟨rfl, rfl⟩
  · exact (Rbc.acceptData_phase hd).2
  · exact absurd hj (hp job)

/-- No edge of a command in progress writes the cursors of its header. -/
theorem Rbc.runEdge_header_kept {b b' : Rbc} {valid : Bool} {beat : CmdBeat} {pace : Pace}
    (hp : b.phase ≠ .idle) (h : b.runEdge valid beat pace = .next b') :
    b'.preHead = b.preHead ∧ b'.preTail = b.preTail := by
  obtain ⟨ready, ⟨hi, -⟩ | ⟨op, n, k, i, -, ⟨w, rfl⟩ | hd⟩ | ⟨job, -, he⟩⟩ := Rbc.runEdge_next h
  · exact absurd hi hp
  · exact ⟨rfl, rfl⟩
  · exact (Rbc.acceptData_sideKept hd).2.2
  · exact (Rbc.execEdge_sideKept he).2.2

/-! ## The cursors the status outputs show (R348) -/

theorem showsAfter_prefixCursors (p : Config) (op : Opcode) (head tail k j : Nat) (hj : j ≤ k) :
    ∃ j', j' ≤ k ∧ showsAfter p op head tail j' (statusOf p (prefixCursors p op head tail j).1
      (prefixCursors p op head tail j).2) := by
  cases op
  case clear =>
    by_cases h0 : j = 0
    · exact ⟨0, Nat.zero_le k, .inl ⟨rfl, by simp [prefixCursors, h0]⟩⟩
    · exact ⟨1, by omega, .inr ⟨rfl, by simp [prefixCursors, h0]⟩⟩
  all_goals exact ⟨j, hj, rfl⟩

/-- Settles O35: the header sets the cursors shown and `k`, the edges after it keep them, and the draw
picks after how many steps. -/
theorem statusShowsAPrefix : Obligations.StatusShowsAPrefix := by
  unfold Obligations.StatusShowsAPrefix
  refine ⟨?header, ?running, ?shown⟩
  case header =>
    rintro s t beat ⟨⟨hc, hp⟩, hh, ht⟩ h
    obtain ⟨b, hb, rfl⟩ := rbcEdge_next.1 h
    obtain ⟨-, -, -, hedge⟩ := Rbc.clkEdge_next.1 hb
    cases (Rbc.runEdge_header hp beat s.pace).symm.trans hedge
    have hk := plannedSteps_ofBits (checkRbc_shared hc) hh ht (headerOp beat.hdr) (headerN beat.hdr)
    by_cases hburst : isBurst (Opcode.ofBits (headerOp beat.hdr)) = true ∧ 0 < headerN beat.hdr
    · have hphase := Rbc.acceptHeader_phase_wdata (b := s.rbc.startEdge true true beat) beat.data
        hburst.1 hburst.2
      refine ⟨rfl, rfl, fun job hj => ?_, fun op n k' i hw => ?_⟩
      · cases hphase.symm.trans hj
      · cases hphase.symm.trans hw
        exact hk
    · have hphase := Rbc.acceptHeader_phase_exec (b := s.rbc.startEdge true true beat) beat.data
        hburst
      refine ⟨rfl, rfl, fun job hj => ?_, fun op n k' i hw => ?_⟩
      · cases hphase.symm.trans hj
        exact hk
      · cases hphase.symm.trans hw
  case running =>
    intro s t valid beat hp h
    obtain ⟨b, hb, rfl⟩ := rbcEdge_next.1 h
    obtain ⟨-, -, -, hedge⟩ := Rbc.clkEdge_next.1 hb
    obtain ⟨hhead, htail⟩ := Rbc.runEdge_header_kept hp hedge
    refine ⟨hhead, htail, fun job job' hj hj' => ?_, fun op n k i hw => ?_⟩
    · obtain ⟨hidle, -⟩ | ⟨⟨job₁, hj₁, -, -, -, hk⟩, -⟩ := Rbc.runEdge_exec_phase hj hedge
      · cases hidle.symm.trans hj'
      · cases hj₁.symm.trans hj'
        exact hk
    · have hphase := Rbc.runEdge_wdata_phase hw hedge
      unfold afterBeat at hphase
      split_ifs at hphase
      all_goals
        refine ⟨fun op' n' k' i' hw' => ?_, fun job hj => ?_⟩
        · cases hphase.symm.trans hw' <;> rfl
        · cases hphase.symm.trans hj <;> rfl
  case shown =>
    refine fun b draw => ⟨fun hp => ?_, fun op n k i hp hop => ?_, fun job hp => ?_⟩
    · simp [Rbc.status, Rbc.shownCursors, hp]
    · refine ⟨draw % (k + 1), Nat.le_of_lt_succ (Nat.mod_lt _ k.succ_pos), ?_⟩
      obtain rfl | rfl := isBurst_iff.1 hop <;>
        simp [Rbc.status, Rbc.shownCursors, hp, prefixCursors]
    · simp only [Rbc.status, Rbc.shownCursors, hp]
      exact showsAfter_prefixCursors _ _ _ _ _ _ (Nat.le_of_lt_succ (Nat.mod_lt _ job.k.succ_pos))

end Sys2Proof.Machine
end

section
/-! What a command does depends on the buffer alone, that is on the parameters, the cursors and storage;
so what the host presents during a command has no effect but to be held (30_encoding.md R340, R341). -/

open Sys2Proof.Statements

namespace Sys2Proof.Machine

/-! ## The buffer of one block among the registers of another -/

/-- The buffer of `b`, its parameters, cursors and storage, among the other registers of `c`. -/
def Rbc.onto (c b : Rbc) : Rbc :=
  { c with cfg := b.cfg, head := b.head, tail := b.tail, sto := b.sto }

@[simp] theorem Rbc.onto_cfg (c b : Rbc) : (c.onto b).cfg = b.cfg := rfl
@[simp] theorem Rbc.onto_head (c b : Rbc) : (c.onto b).head = b.head := rfl
@[simp] theorem Rbc.onto_tail (c b : Rbc) : (c.onto b).tail = b.tail := rfl
@[simp] theorem Rbc.onto_sto (c b : Rbc) : (c.onto b).sto = b.sto := rfl
@[simp] theorem Rbc.onto_dropOne (c b : Rbc) : (c.onto b).dropOne = c.onto b.dropOne := rfl

/-! ## One-object steps and loops -/

theorem Rbc.writeOne_onto (c b : Rbc) (d : Nat) :
    (c.onto b).writeOne d = (b.writeOne d).map c.onto := by
  simp only [Rbc.writeOne, Rbc.onto]
  cases memWrite b.cfg b.sto (writeSlot b.tail) d <;> rfl

theorem Rbc.takeOne_onto (c b : Rbc) :
    (c.onto b).takeOne = b.takeOne.map (Prod.map id c.onto) := by
  simp only [Rbc.takeOne, Rbc.onto]
  cases memRead b.cfg b.sto b.head <;> rfl

theorem writeEach_onto (c b : Rbc) (ds : List Nat) :
    writeEach ds (c.onto b) = (writeEach ds b).map c.onto := by
  induction ds generalizing b with
  | nil => rfl
  | cons d ds ih =>
    rw [writeEach, writeEach, Rbc.writeOne_onto]
    cases b.writeOne d with
    | error e => rfl
    | ok b₁ => exact ih b₁

theorem writeUntilFull_onto (c b : Rbc) (ds : List Nat) :
    writeUntilFull ds (c.onto b) = (writeUntilFull ds b).map (Prod.map c.onto id) := by
  induction ds generalizing b with
  | nil => rfl
  | cons d ds ih =>
    simp only [writeUntilFull, Rbc.writeOne_onto, Rbc.onto_cfg, Rbc.onto_head, Rbc.onto_tail]
    split
    · rfl
    · cases b.writeOne d with
      | error e => rfl
      | ok b₁ =>
        simp only [Except.map, ih]
        cases writeUntilFull ds b₁ <;> rfl

theorem takeEach_onto (c b : Rbc) (n : Nat) :
    takeEach n (c.onto b) = (takeEach n b).map (Prod.map c.onto id) := by
  induction n generalizing b with
  | zero => rfl
  | succ n ih =>
    simp only [takeEach, Rbc.takeOne_onto]
    cases b.takeOne with
    | error e => rfl
    | ok x =>
      simp only [Except.map, Prod.map, ih]
      cases takeEach n x.2 <;> rfl

theorem takeUntilEmpty_onto (c b : Rbc) (n : Nat) :
    takeUntilEmpty n (c.onto b) = (takeUntilEmpty n b).map (Prod.map c.onto id) := by
  induction n generalizing b with
  | zero => rfl
  | succ n ih =>
    simp only [takeUntilEmpty, Rbc.takeOne_onto, Rbc.onto_head, Rbc.onto_tail]
    split
    · rfl
    · cases b.takeOne with
      | error e => rfl
      | ok x =>
        simp only [Except.map, Prod.map, ih]
        cases takeUntilEmpty n x.2 <;> rfl

theorem dropUntilEmpty_onto (c b : Rbc) (n : Nat) :
    dropUntilEmpty n (c.onto b) = Prod.map c.onto id (dropUntilEmpty n b) := by
  induction n generalizing b with
  | zero => rfl
  | succ n ih =>
    simp only [dropUntilEmpty, Rbc.onto_head, Rbc.onto_tail, Rbc.onto_dropOne, ih]
    split <;> rfl

/-! ## Commands -/

/-- A command does to a buffer what it does to the same buffer among other registers. -/
theorem commandOf_onto (c b : Rbc) (i : Instr) :
    commandOf i (c.onto b) = (commandOf i b).map (Prod.map c.onto id) := by
  cases i
  case writeObj d =>
    simp only [commandOf, Rbc.writeObjCommand, Rbc.writeOne_onto, Rbc.onto_cfg, Rbc.onto_head,
      Rbc.onto_tail]
    split
    · rfl
    · cases b.writeOne d <;> rfl
  case readObj =>
    simp only [commandOf, Rbc.readObjCommand, Rbc.takeOne_onto, Rbc.onto_head, Rbc.onto_tail]
    split
    · rfl
    · cases b.takeOne <;> rfl
  case deleteHead =>
    cases he : isEmpty b.head b.tail <;> simp [commandOf, Rbc.deleteHeadCommand, he, Except.map]
  case deleteN n =>
    simp only [commandOf, Rbc.deleteNCommand, dropUntilEmpty_onto]
    rfl
  case writeN n ds =>
    simp only [commandOf, Rbc.writeNCommand, writeUntilFull_onto]
    cases writeUntilFull ds b <;> rfl
  case readN n =>
    simp only [commandOf, Rbc.readNCommand, takeUntilEmpty_onto]
    cases takeUntilEmpty n b <;> rfl
  case writeAll n ds =>
    simp only [commandOf, Rbc.writeAllCommand, writeEach_onto, Rbc.onto_cfg, Rbc.onto_head,
      Rbc.onto_tail]
    split
    · cases writeEach ds b <;> rfl
    · rfl
  case readAll n =>
    simp only [commandOf, Rbc.readAllCommand, takeEach_onto, Rbc.onto_cfg, Rbc.onto_head,
      Rbc.onto_tail]
    split
    · cases takeEach n b <;> rfl
    · rfl
  case peekNth n =>
    by_cases h0 : occ b.cfg b.head b.tail = 0
    · simp [commandOf, Rbc.peekNthCommand, h0, Except.map]
    · simp only [commandOf, Rbc.peekNthCommand, Rbc.onto_cfg, Rbc.onto_head, Rbc.onto_tail,
        Rbc.onto_sto, h0, ↓reduceIte]
      cases memRead b.cfg b.sto (readSlot b.cfg b.head (n % occ b.cfg b.head b.tail)) <;> rfl
  all_goals rfl

/-- So does what is left of a command at its final beat. -/
theorem Rbc.lastStep_onto (c b : Rbc) (job : Job) :
    (c.onto b).lastStep job = (b.lastStep job).map (Prod.map c.onto id) := by
  obtain ⟨op, n, data, k, issued, sent, flight, cycles⟩ := job
  cases op
  case writeObj =>
    simp only [Rbc.lastStep]
    split
    · exact commandOf_onto c b (.writeObj data)
    · rfl
  case deleteHead => exact commandOf_onto c b .deleteHead
  case deleteN => exact commandOf_onto c b (.deleteN n)
  all_goals rfl

/-! ## An edge does not see the beat the host holds (R340) -/

/-- The block with the host holding `h`. -/
def Rbc.holding (h : Option CmdBeat) (b : Rbc) : Rbc := { b with held := h }

theorem Rbc.finish_holding (h : Option CmdBeat) (b : Rbc) (job : Job) :
    (b.holding h).finish job = (b.finish job).map (Rbc.holding h) := by
  have hl : (b.holding h).lastStep job = _ := Rbc.lastStep_onto (b.holding h) b job
  simp only [Rbc.finish, hl]
  cases hb : b.lastStep job with
  | error e => rfl
  | ok x =>
    obtain ⟨_, _, _, hx⟩ := Rbc.lastStep_moved hb
    simp only [Except.map, Prod.map, hx]
    rfl

theorem Rbc.access_holding (h : Option CmdBeat) (b : Rbc) (job : Job) :
    (b.holding h).access job = (b.access job).map (Rbc.holding h) := by
  obtain ⟨op, n, data, k, issued, sent, flight, cycles⟩ := job
  cases op
  case readObj | readN | readAll =>
    simp only [Rbc.access, Rbc.takeOne, Rbc.holding]
    cases memRead b.cfg b.sto b.head <;> rfl
  case peekNth =>
    simp only [Rbc.access, Rbc.holding]
    cases memRead b.cfg b.sto (readSlot b.cfg b.head (n % occ b.cfg b.head b.tail)) <;> rfl
  case writeObj =>
    simp only [Rbc.access, Rbc.writeOne, Rbc.holding]
    cases memWrite b.cfg b.sto (writeSlot b.tail) data <;> rfl
  all_goals rfl

theorem Rbc.sendData_holding (h : Option CmdBeat) (b : Rbc) (send : Bool) (job : Job) :
    (b.holding h).sendData send job = Prod.map id (Rbc.holding h) (b.sendData send job) := by
  unfold Rbc.sendData
  split
  · cases job.flight <;> rfl
  · rfl

theorem Rbc.execMove_holding (h : Option CmdBeat) (b : Rbc) (issue send : Bool) (job : Job) :
    (b.holding h).execMove issue send job = (b.execMove issue send job).map (Rbc.holding h) := by
  simp only [Rbc.execMove, Rbc.finish_holding, Rbc.sendData_holding, Prod.map, Rbc.access_holding,
    show (b.holding h).lastReady job = b.lastReady job from rfl,
    show (b.holding h).accessesLeft job = b.accessesLeft job from rfl, id]
  split
  · rfl
  · split <;> rfl

theorem Rbc.execEdge_holding (h : Option CmdBeat) (b : Rbc) (pace : Pace) (job : Job) :
    (b.holding h).execEdge pace job = (b.execEdge pace job).map (Rbc.holding h) := by
  simp only [Rbc.execEdge, Rbc.execMove_holding, show (b.holding h).cfg = b.cfg from rfl]
  split
  · rfl
  · cases b.execMove pace.issue pace.send job with
    | error e => rfl
    | ok b₁ =>
      simp only [Except.map, show (b₁.holding h).inTime = b₁.inTime from rfl]
      split <;> rfl

/-- Settles O33: what an edge in each phase makes of the phase and the response port. -/
theorem oneCommandAtATime : Obligations.OneCommandAtATime := by
  unfold Obligations.OneCommandAtATime
  refine ⟨?oneBeat, ?exec, ?held, ?wdata⟩
  case oneBeat =>
    intro s t rst valid beat h
    obtain ⟨b, hb, rfl⟩ := rbcEdge_next.1 h
    obtain ⟨-, -, -, hedge⟩ := Rbc.clkEdge_next.1 hb
    cases rst with
    | true =>
      obtain rfl := hedge
      exact .inl ⟨rfl, rfl⟩
    | false =>
      by_cases hp : ∃ job, s.rbc.phase = .exec job
      · obtain ⟨job, hp⟩ := hp
        obtain ⟨hidle, r, hlast, hr, hout⟩ | ⟨⟨job', hexec, -⟩, hsilent | ⟨r, hlast, hr, hout⟩⟩ :=
          Rbc.runEdge_exec_phase hp hedge
        · exact .inr ⟨r, job, hp, hr, hout, by simp [hlast, afterRbcEdge, hidle]⟩
        · exact .inl hsilent
        · exact .inr ⟨r, job, hp, hr, hout, by simp [hlast, afterRbcEdge, hexec]⟩
      · exact .inl (Rbc.runEdge_silent (not_exists.1 hp) hedge)
  case exec =>
    intro s t valid beat job hp h
    obtain ⟨b, hb, rfl⟩ := rbcEdge_next.1 h
    obtain ⟨-, -, -, hedge⟩ := Rbc.clkEdge_next.1 hb
    obtain ⟨hidle, r, hlast, hr, -⟩ | ⟨hexec, -⟩ := Rbc.runEdge_exec_phase hp hedge
    · exact .inl ⟨hidle, r, hr, hlast⟩
    · exact .inr hexec
  case held =>
    intro s t beat beat' job hp hheld h
    have hbusy : s.rbc.phase ≠ .idle := by simp [hp]
    obtain ⟨b, hb, rfl⟩ := rbcEdge_next.1 h
    obtain ⟨hc, -, -, hedge⟩ := Rbc.clkEdge_next.1 hb
    have hb' : b.held = some beat := by
      simpa [Rbc.cmdReady, hp] using Rbc.runEdge_held hedge
    have hrun : s.rbc.clkEdge false false beat' s.pace = .next (b.holding none) := by
      rw [if_neg Bool.false_ne_true, Rbc.runEdge_exec hp, edgeOutcome_next] at hedge
      rw [Rbc.clkEdge_of_fits hc (.inl hheld) (fun hv => absurd hv Bool.false_ne_true),
        Rbc.runEdge_exec hp, edgeOutcome_next]
      have hnone := Rbc.execEdge_holding none (s.rbc.startEdge true false beat) s.pace job
      rw [hedge] at hnone
      exact hnone
    rw [State.posAfter_of_busy hbusy]
    exact ⟨hb', rbcEdge_of_busy hbusy hrun⟩
  case wdata =>
    intro s t valid beat op n k i hp h
    obtain ⟨b, hb, rfl⟩ := rbcEdge_next.1 h
    obtain ⟨-, -, -, hedge⟩ := Rbc.clkEdge_next.1 hb
    have hphase : b.phase =
        if valid = true ∧ s.rbc.cmdReady false (Config.freeStall s.free) = true
          then afterBeat op n k i else .wdata op n k i := Rbc.runEdge_wdata_phase hp hedge
    refine ⟨fun ha hn => ?_, fun ha hn => ?_, fun ha => ?_⟩
    · rw [if_pos ha, afterBeat_last hn] at hphase
      exact ⟨_, hphase, rfl, rfl, rfl⟩
    · rw [if_pos ha, afterBeat_next hn] at hphase
      exact hphase
    · rw [if_neg ha] at hphase
      exact hphase

end Sys2Proof.Machine
end

section
/-! What is left of a command in `EXEC`, as one transition of its buffer, and that each edge does a part
of it (30_encoding.md R345, R347). -/

open Sys2Proof.Statements

namespace Sys2Proof.Machine

/-! ## The rest of a command -/

/-- The objects of the reads whose beats are not yet sent, each with its slot. -/
def Job.pending (job : Job) : List (Nat × Nat) := job.flight.map fun r => (r.slot, r.obj)

/-- The answer of a command that reads one object, the first of a list (R601, R700). -/
def firstAnswer (count : Nat) : List (Nat × Nat) → Response
  | x :: _ => answerObject count x.1 x.2
  | [] => answer .empty 0

/-- What is left of a command in `EXEC`, in one transition: the objects still to be taken, or its final
step. -/
def Rbc.rest (job : Job) (b : Rbc) : Except Fault (Rbc × Response) :=
  match job.op with
  | .readN | .readAll => (takeEach (job.k - job.issued) b).map fun x =>
      (x.1, { bulkAnswer job with beats := job.pending ++ x.2 })
  | .readObj => (takeEach (job.k - job.issued) b).map fun x =>
      (x.1, firstAnswer 1 (job.pending ++ x.2))
  | .peekNth => if job.issued = 0 then b.peekNthCommand job.n else b.lastStep job
  | _ => b.lastStep job

/-- The buffer of a block alone: its other registers are at fixed values. -/
def Rbc.buffer (b : Rbc) : Rbc := (Rbc.reset Config.vectors).onto b

/-- The block `g` is where `b` comes to when its command `job` is done: in its buffer, in the beats sent
and in the beat on the response port. -/
def Rbc.Owes (b : Rbc) (job : Job) (g : Rbc) : Prop :=
  ∃ r, b.buffer.rest job = .ok (g.buffer, r) ∧
    g.out = b.out ++ (dataBeats job.sent r.beats ++ [r.final]) ∧ g.rsp = some r.final

/-- The command is done, as `g` has it. -/
def Rbc.Answered (b g : Rbc) : Prop :=
  b.phase = .idle ∧ b.buffer = g.buffer ∧ b.out = g.out ∧ b.rsp = g.rsp

theorem readAnswer_eq_firstAnswer (count : Nat) (job : Job) :
    readAnswer count job.flight = firstAnswer count job.pending := by
  unfold Job.pending
  cases job.flight <;> rfl

/-! ## Commands on the buffer alone -/

theorem commandOf_buffer {b b' : Rbc} {i : Instr} {r : Response}
    (h : commandOf i b = .ok (b', r)) : commandOf i b.buffer = .ok (b'.buffer, r) := by
  rw [Rbc.buffer, commandOf_onto, h]
  rfl

theorem Rbc.lastStep_buffer {b b' : Rbc} {job : Job} {r : Response}
    (h : b.lastStep job = .ok (b', r)) : b.buffer.lastStep job = .ok (b'.buffer, r) := by
  rw [Rbc.buffer, Rbc.lastStep_onto, h]
  rfl

theorem Rbc.takeOne_buffer {b b' : Rbc} {x : Nat × Nat} (h : b.takeOne = .ok (x, b')) :
    b.buffer.takeOne = .ok (x, b'.buffer) := by
  rw [Rbc.buffer, Rbc.takeOne_onto, h]
  rfl

theorem Rbc.writeOne_buffer {b b' : Rbc} {d : Nat} (h : b.writeOne d = .ok b') :
    b.buffer.writeOne d = .ok b'.buffer := by
  rw [Rbc.buffer, Rbc.writeOne_onto, h]
  rfl

theorem Rbc.Cursors.buffer {b : Rbc} (h : b.Cursors) : b.buffer.Cursors :=
  ⟨h.legal, h.head_lt, h.tail_lt, h.sto_wf, h.window⟩

/-! ## The reads of what is left -/

theorem Rbc.rest_bulk {b b' : Rbc} {job : Job} {r : Response} (hop : isBulkRead job.op = true) :
    b.rest job = .ok (b', r) ↔ ∃ xs, takeEach (job.k - job.issued) b = .ok (b', xs) ∧
      r = { bulkAnswer job with beats := job.pending ++ xs } := by
  obtain ⟨op, n, data, k, issued, sent, flight, cycles⟩ := job
  obtain rfl | rfl := isBulkRead_iff.1 hop
  all_goals
    simp only [Rbc.rest]
    cases takeEach (k - issued) b <;> simp [Except.map, Prod.ext_iff, eq_comm]

theorem Rbc.rest_readObj {b b' : Rbc} {job : Job} {r : Response} (hop : job.op = .readObj) :
    b.rest job = .ok (b', r) ↔ ∃ xs, takeEach (job.k - job.issued) b = .ok (b', xs) ∧
      r = firstAnswer 1 (job.pending ++ xs) := by
  simp only [Rbc.rest, hop]
  cases takeEach (job.k - job.issued) b <;> simp [Except.map, Prod.ext_iff, eq_comm]

/-! ## At the header the whole command is left -/

/-- A write burst stores its first `k` objects, and answers `k` (R610, R612). -/
theorem commandOf_burst {b b' : Rbc} {op : Opcode} {n d : Nat} {ds : List Nat} {r : Response}
    (hb : b.Cursors) (hop : isBurst op = true) (hds : ds.length = n)
    (h : commandOf (Instr.ofHeader op n d ds) b = .ok (b', r)) :
    writeEach (ds.take (plannedSteps b.cfg op n b.head b.tail)) b = .ok b' ∧
      r = answer (shortfall .full n (plannedSteps b.cfg op n b.head b.tail))
        (plannedSteps b.cfg op n b.head b.tail) := by
  obtain rfl | rfl := isBurst_iff.1 hop
  · obtain ⟨k, hloop, rfl⟩ := Rbc.writeNCommand_ok h
    obtain ⟨rfl, hw⟩ := writeUntilFull_ok hb.shared hb.head_lt hb.tail_lt hloop
    subst hds
    refine ⟨?_, rfl⟩
    rwa [List.take_eq_take_min, Nat.min_comm] at hw
  · obtain ⟨hn, hw, rfl⟩ | ⟨hn, rfl, rfl⟩ := Rbc.writeAllCommand_ok h
    · subst hds
      simp only [plannedSteps, if_pos hn, List.take_length]
      exact ⟨hw, by simp [shortfall]⟩
    · simp only [plannedSteps, if_neg hn]
      exact ⟨rfl, by simp [shortfall, show ¬0 = n by omega]⟩

/-- A command that enters `EXEC` at its header is all left. -/
theorem Rbc.rest_newJob {b b' : Rbc} {op : Opcode} {n d : Nat} {ds : List Nat} {r : Response}
    (hb : b.Cursors) (hop : isBurst op = true → n = 0) (hds : ds.length = burstLength op n)
    (h : commandOf (Instr.ofHeader op n d ds) b = .ok (b', r)) :
    b.rest (newJob op n d (plannedSteps b.cfg op n b.head b.tail)) = .ok (b', r) := by
  cases op
  case writeN | writeAll =>
    obtain rfl := hop rfl
    obtain ⟨hw, rfl⟩ := commandOf_burst hb rfl hds h
    obtain rfl := List.eq_nil_of_length_eq_zero hds
    cases hw
    rfl
  case readN =>
    obtain ⟨xs, hxs, rfl⟩ := Rbc.readNCommand_ok h
    rw [takeUntilEmpty_eq hb.shared hb.head_lt hb.tail_lt] at hxs
    obtain ⟨-, hlen, -⟩ := hb.takeEach (Nat.min_le_right ..) hxs
    rw [hlen]
    exact (Rbc.rest_bulk rfl).2 ⟨xs, hxs, rfl⟩
  case readAll =>
    obtain ⟨hn, xs, hxs, rfl⟩ | ⟨hn, rfl, rfl⟩ := Rbc.readAllCommand_ok h
    · refine (Rbc.rest_bulk rfl).2 ⟨xs, ?_, ?_⟩ <;>
        simp [newJob, plannedSteps, hn, hxs, bulkAnswer, shortfall, Job.pending]
    · refine (Rbc.rest_bulk rfl).2 ⟨[], ?_, ?_⟩
      · simp [newJob, plannedSteps, hn, takeEach]
      · simp [newJob, plannedSteps, hn, bulkAnswer, shortfall, show ¬0 = n by omega, answer,
          Job.pending]
  case readObj =>
    obtain ⟨he, rfl, rfl⟩ | ⟨he, x, hx, rfl, rfl⟩ := Rbc.readObjCommand_ok h
    · exact (Rbc.rest_readObj rfl).2 ⟨[], by simp [newJob, plannedSteps, he, takeEach], rfl⟩
    · exact (Rbc.rest_readObj rfl).2 ⟨[x], by simp [newJob, plannedSteps, he, takeEach, hx], rfl⟩
  all_goals exact h

/-! ## A cycle gone, a beat sent, an access made -/

@[simp] theorem Job.pending_tick (job : Job) : job.tick.pending = job.pending := by
  simp [Job.pending, Function.comp_def]

theorem readAnswer_tick (count : Nat) (job : Job) :
    readAnswer count job.tick.flight = readAnswer count job.flight := by
  rw [readAnswer_eq_firstAnswer, Job.pending_tick, readAnswer_eq_firstAnswer]

theorem bulkAnswer_tick (job : Job) : bulkAnswer job.tick = bulkAnswer job := rfl

theorem Rbc.lastStep_tick (b : Rbc) (job : Job) : b.lastStep job.tick = b.lastStep job := by
  have hread := fun count => readAnswer_tick count job
  obtain ⟨op, n, data, k, issued, sent, flight, cycles⟩ := job
  cases op
  case readObj | peekNth => exact congrArg (fun r => Except.ok (b, r)) (hread _)
  all_goals rfl

theorem Rbc.rest_tick (b : Rbc) (job : Job) : b.rest job.tick = b.rest job := by
  simp only [Rbc.rest, Job.tick_op, Job.tick_n, Job.tick_k, Job.tick_issued, Job.pending_tick,
    bulkAnswer_tick, Rbc.lastStep_tick]

theorem Rbc.Owes.tick {b g : Rbc} {job : Job} (h : b.Owes job g) : b.Owes job.tick g := by
  obtain ⟨r, hr, hout, hrsp⟩ := h
  exact ⟨r, by rw [Rbc.rest_tick, hr], hout, hrsp⟩

/-- R331: the beat sent is the first of those left. -/
theorem Rbc.Owes.sendData {b g : Rbc} {job : Job} (h : b.Owes job g) (send : Bool) :
    (b.sendData send job).2.Owes (b.sendData send job).1 g := by
  obtain hs | ⟨-, hop, x, flight, hflight, -, hs⟩ := b.sendData_eq send job
  · rwa [hs]
  · rw [hs]
    obtain ⟨r, hr, hout, hrsp⟩ := h
    obtain ⟨xs, htake, rfl⟩ := (Rbc.rest_bulk hop).1 hr
    refine ⟨_, (Rbc.rest_bulk (by exact hop)).2 ⟨xs, htake, rfl⟩, ?_, hrsp⟩
    have hans : bulkAnswer { job with sent := job.sent + 1, flight := flight } = bulkAnswer job := rfl
    simpa [Job.pending, hflight, dataBeats, hans, Response.final] using hout

/-- The next object taken is the first of those left to take. -/
theorem takeEach_buffer_succ {b g : Rbc} {x : Nat × Nat} {xs : List (Nat × Nat)} {m : Nat}
    (hx : b.takeOne = .ok (x, b.dropOne)) (h : takeEach (m + 1) b.buffer = .ok (g, xs)) :
    ∃ ys, xs = x :: ys ∧ takeEach m b.dropOne.buffer = .ok (g, ys) := by
  rw [takeEach, Rbc.takeOne_buffer hx] at h
  dsimp only at h
  split at h
  · cases h
  · rename_i ys hys
    cases h
    exact ⟨ys, rfl, hys⟩

theorem Rbc.accessesLeft_peekNth {job : Job} (hop : job.op = .peekNth) (b : Rbc) :
    b.accessesLeft job = if occ b.cfg b.head b.tail = 0 then 0 else 1 - job.issued := by
  simp only [Rbc.accessesLeft, hop]

theorem Rbc.Inv.peekProgress {b : Rbc} {job : Job} (h : (b.running job).Inv)
    (hop : job.op = .peekNth) : job.flight.length = job.issued ∧ job.issued ≤ 1 := by
  obtain ⟨op, n, data, k, issued, sent, flight, cycles⟩ := job
  obtain rfl : op = .peekNth := hop
  exact h.phase_ok.2.2

theorem Rbc.Inv.writeProgress {b : Rbc} {job : Job} (h : (b.running job).Inv)
    (hop : job.op = .writeObj) : job.issued ≤ job.k ∧ job.k ≤ 1 ∧
      job.k ≤ job.issued + freeSlots b.cfg b.head b.tail := by
  obtain ⟨op, n, data, k, issued, sent, flight, cycles⟩ := job
  obtain rfl : op = .writeObj := hop
  exact h.phase_ok.2.2

/-- READ_OBJ, READ_N, READ_ALL: the object read is the next one left. -/
theorem Rbc.Owes.accessHead {b g : Rbc} {job : Job} {x : Nat × Nat} (h : b.Owes job g)
    (hop : job.op = .readObj ∨ isBulkRead job.op = true) (hik : job.issued < job.k)
    (hx : b.takeOne = .ok (x, b.dropOne)) (q : StoPort) (f : Phase) :
    Rbc.Owes { b.dropOne with port := q, phase := f } (job.awaiting b.cfg x.1 x.2) g := by
  obtain ⟨r, hr, hout, hrsp⟩ := h
  have hm : job.k - job.issued = job.k - (job.issued + 1) + 1 := by omega
  obtain hop | hop := hop
  · obtain ⟨xs, htake, rfl⟩ := (Rbc.rest_readObj hop).1 hr
    rw [hm] at htake
    obtain ⟨ys, rfl, hys⟩ := takeEach_buffer_succ hx htake
    refine ⟨_, (Rbc.rest_readObj (by exact hop)).2 ⟨ys, hys, rfl⟩, ?_⟩
    simpa [Job.pending] using ⟨hout, hrsp⟩
  · obtain ⟨xs, htake, rfl⟩ := (Rbc.rest_bulk hop).1 hr
    rw [hm] at htake
    obtain ⟨ys, rfl, hys⟩ := takeEach_buffer_succ hx htake
    refine ⟨_, (Rbc.rest_bulk (by exact hop)).2 ⟨ys, hys, rfl⟩, ?_⟩
    simpa [Job.pending] using ⟨hout, hrsp⟩

/-- PEEK_NTH: what it reads is its answer. -/
theorem Rbc.Owes.accessPeek {b g : Rbc} {job : Job} {d : Nat} (h : b.Owes job g)
    (hinv : (b.running job).Inv) (hop : job.op = .peekNth) (hleft : 0 < b.accessesLeft job)
    (hd : memRead b.cfg b.sto (addk b.cfg b.head (job.n % occ b.cfg b.head b.tail)) = .ok d)
    (q : StoPort) (f : Phase) : Rbc.Owes { b with port := q, phase := f }
      (job.awaiting b.cfg (addk b.cfg b.head (job.n % occ b.cfg b.head b.tail)) d) g := by
  obtain ⟨r, hr, hout, hrsp⟩ := h
  rw [Rbc.accessesLeft_peekNth hop] at hleft
  have hocc : occ b.cfg b.head b.tail ≠ 0 := fun h0 => by simp [h0] at hleft
  have hi : job.issued = 0 := by
    rw [if_neg hocc] at hleft
    omega
  have hflight : job.flight = [] := by
    have := (hinv.peekProgress hop).1
    exact List.eq_nil_of_length_eq_zero (by omega)
  simp only [Rbc.rest, hop, hi, if_true] at hr
  obtain ⟨hg, ⟨h0, -⟩ | ⟨-, d', hd', rfl⟩⟩ := Rbc.peekNthCommand_ok hr
  · exact absurd h0 hocc
  · cases hd.symm.trans hd'
    refine ⟨_, ?_, hout, hrsp⟩
    rw [hg]
    simp only [Rbc.rest, Job.awaiting_op, hop, Job.awaiting_issued, Nat.add_eq_zero_iff,
      Nat.one_ne_zero, and_false, if_false, Rbc.lastStep, Job.awaiting_flight, hflight]
    rfl

/-- WRITE_OBJ: its write is done, its answer left. -/
theorem Rbc.Owes.accessWrite {b b₁ g : Rbc} {job : Job} (h : b.Owes job g)
    (hinv : (b.running job).Inv) (hop : job.op = .writeObj) (hleft : 0 < b.accessesLeft job)
    (hw : b.writeOne job.data = .ok b₁) (q : StoPort) (f : Phase) :
    Rbc.Owes { b₁ with port := q, phase := f } { job with issued := job.issued + 1 } g := by
  obtain ⟨r, hr, hout, hrsp⟩ := h
  obtain ⟨-, hk, hfree⟩ := hinv.writeProgress hop
  have hik : job.issued < job.k := by
    simp only [Rbc.accessesLeft, hop] at hleft
    omega
  have hi : job.issued = 0 := by omega
  have hf := hinv.cursors_of_running.notFull.2 (by omega)
  simp only [Rbc.rest, hop, Rbc.lastStep, hi, if_true] at hr
  obtain ⟨hfull, -⟩ | ⟨-, hw', rfl⟩ := Rbc.writeObjCommand_ok hr
  · cases hf.symm.trans hfull
  · have hg : b₁.buffer = g.buffer := Except.ok.inj ((Rbc.writeOne_buffer hw).symm.trans hw')
    obtain ⟨m, -, rfl⟩ := Rbc.writeOne_ok hw
    refine ⟨_, ?_, hout, hrsp⟩
    rw [← hg]
    simp only [Rbc.rest, hop, Rbc.lastStep, Nat.add_eq_zero_iff, Nat.one_ne_zero, and_false, if_false]
    rfl

/-- An access does one of the steps left. -/
theorem Rbc.Owes.access {b b' g : Rbc} {job : Job} (h : b.Owes job g)
    (hinv : (b.running job).Inv) (hleft : 0 < b.accessesLeft job) (ha : b.access job = .ok b') :
    ∃ job', b'.phase = .exec job' ∧ b'.Owes job' g := by
  obtain ⟨hop, x, hx, rfl⟩ | ⟨hop, d, hd, rfl⟩ | ⟨hop, b₁, hw, rfl⟩ | ⟨h0, -⟩ := Rbc.access_ok ha
  · exact ⟨_, rfl, h.accessHead hop (hinv.readLeft hop hleft).1 hx _ _⟩
  · exact ⟨_, rfl, h.accessPeek hinv hop hleft hd _ _⟩
  · exact ⟨_, rfl, h.accessWrite hinv hop hleft hw _ _⟩
  · omega

/-! ## The final beat -/

/-- Once the final beat can be sent, the final step is all that is left. -/
theorem Rbc.rest_of_lastReady {b : Rbc} {job : Job}
    (hpeek : job.op = .peekNth → job.flight.length = job.issued) (h : b.lastReady job = true) :
    b.rest job = b.lastStep job := by
  obtain ⟨op, n, data, k, issued, sent, flight, cycles⟩ := job
  simp only [Rbc.lastReady, Bool.and_eq_true, Bool.or_eq_true, decide_eq_true_eq] at h
  obtain ⟨hleft, hflight⟩ := h
  cases op
  case readN | readAll =>
    have h0 : k - issued = 0 := hleft.resolve_left nofun
    obtain rfl : flight = [] := List.isEmpty_iff.1 hflight
    simp only [Rbc.rest, h0]
    rfl
  case readObj =>
    have h0 : k - issued = 0 := hleft.resolve_left nofun
    simp only [Rbc.rest, h0, Rbc.lastStep, takeEach, Except.map, List.append_nil]
    exact congrArg (fun r => Except.ok (b, r)) (readAnswer_eq_firstAnswer 1 _).symm
  case peekNth =>
    have h0 : (if occ b.cfg b.head b.tail = 0 then 0 else 1 - issued) = 0 :=
      hleft.resolve_left nofun
    have hlen : flight.length = issued := hpeek rfl
    simp only [Rbc.rest]
    split
    · rename_i hi
      have hocc : occ b.cfg b.head b.tail = 0 := by
        by_contra hne
        rw [if_neg hne] at h0
        omega
      obtain rfl : flight = [] := List.eq_nil_of_length_eq_zero (by omega)
      simp [Rbc.peekNthCommand, hocc, Rbc.lastStep, readAnswer]
    · rfl
  all_goals rfl

/-- A final step answers no data beats: those of a bulk read are sent. -/
theorem Rbc.lastStep_beats {b b' : Rbc} {job : Job} {r : Response}
    (h : b.lastStep job = .ok (b', r)) : r.beats = [] := by
  obtain ⟨op, n, data, k, issued, sent, flight, cycles⟩ := job
  cases op
  case readObj | peekNth =>
    cases h
    cases flight <;> rfl
  case writeObj =>
    simp only [Rbc.lastStep] at h
    split at h
    · obtain ⟨-, -, rfl⟩ | ⟨-, -, rfl⟩ := Rbc.writeObjCommand_ok h <;> rfl
    · cases h
      rfl
  case deleteHead =>
    obtain ⟨-, -, rfl⟩ | ⟨-, -, rfl⟩ := Rbc.deleteHeadCommand_ok h <;> rfl
  all_goals
    cases h
    rfl

theorem Rbc.Owes.finish {b b' g : Rbc} {job : Job} (h : b.Owes job g)
    (hinv : (b.running job).Inv) (hready : b.lastReady job = true) (hf : b.finish job = .ok b') :
    b'.Answered g := by
  obtain ⟨r, hr, hout, hrsp⟩ := h
  obtain ⟨b₁, r₁, hl, rfl⟩ := Rbc.finish_ok hf
  rw [Rbc.rest_of_lastReady (fun hop => (hinv.peekProgress hop).1) (by exact hready),
    Rbc.lastStep_buffer hl] at hr
  obtain ⟨hg, rfl⟩ := Prod.mk.inj (Except.ok.inj hr)
  obtain ⟨-, -, -, -, -, -, -, -, hout₁⟩ := (Rbc.lastStep_moved hl).frame
  refine ⟨rfl, hg, ?_, hrsp.symm⟩
  rw [hout, Rbc.lastStep_beats hl]
  exact congrArg (· ++ [r₁.final]) hout₁

/-- R347: an edge in `EXEC` answers the command as a whole, or leaves the rest of it. -/
theorem Rbc.Owes.execMove {b b' g : Rbc} {issue send : Bool} {job : Job} (h : b.Owes job g)
    (hinv : (b.running job).Inv) (hm : b.execMove issue send job = .ok b') :
    b'.Answered g ∨ ∃ job', b'.phase = .exec job' ∧ b'.Owes job' g := by
  have hsent := (h.sendData send).tick
  obtain ⟨-, hready, hfin⟩ | ⟨hleft, hacc⟩ | rfl := Rbc.execMove_ok hm
  · exact .inl (h.finish hinv hready hfin)
  · rw [← b.accessesLeft_sendData send] at hleft
    exact .inr (hsent.access (hinv.sendData send).tick hleft hacc)
  · exact .inr ⟨_, rfl, hsent⟩

end Sys2Proof.Machine
end

section
/-! The pace of a command in `EXEC`: at full speed every edge brings its final beat one edge nearer, so
no command takes longer than `LAT_MAX` or, where that is less, than its reads need (30_encoding.md R346,
70_reset_and_hazards.md R1240). -/

namespace Sys2Proof.Machine

/-! ## The time the awaited reads take -/

theorem flightTime_tick (t : Nat) (flight : List StoRead) :
    flightTime t (flight.map fun r => { r with left := r.left - 1 }) + 1 =
      flightTime (t + 1) flight := by
  induction flight generalizing t with
  | nil => rfl
  | cons r rest ih =>
    simp only [List.map_cons, flightTime, ih]
    congr 1
    omega

theorem flightTime_append (t : Nat) (flight : List StoRead) (r : StoRead) :
    flightTime t (flight ++ [r]) = max (flightTime t flight + 1) r.left := by
  induction flight generalizing t with
  | nil => rfl
  | cons x rest ih => exact ih _

theorem le_flightTime (t : Nat) (flight : List StoRead) : t ≤ flightTime t flight := by
  induction flight generalizing t with
  | nil => exact Nat.le_refl t
  | cons r rest ih =>
    have := ih (max (t + 1) r.left)
    simp only [flightTime]
    omega

theorem flightTime_pos {flight : List StoRead} (h : flight ≠ []) : 0 < flightTime 0 flight := by
  obtain ⟨r, rest, rfl⟩ := List.exists_cons_of_ne_nil h
  have := le_flightTime (max (0 + 1) r.left) rest
  simp only [flightTime]
  omega

/-- An edge of a bulk read that sends what it can brings its awaited beats one edge nearer. -/
theorem Rbc.flightTime_sendData (b : Rbc) {job : Job} (hop : isBulkRead job.op = true) :
    flightTime 0 (b.sendData true job).1.tick.flight = flightTime 0 job.flight - 1 := by
  cases hflight : job.flight with
  | nil => simp [Rbc.sendData, Job.dataReady, hflight, flightTime]
  | cons r rest =>
    by_cases hr : r.left ≤ 1
    · have hnext := flightTime_tick 0 rest
      have h1 : max (0 + 1) r.left = 0 + 1 := by omega
      simp only [Rbc.sendData, Job.dataReady, hop, hflight, hr, decide_true, Bool.and_self, if_true,
        Job.tick_flight, flightTime, h1]
      omega
    · have hnext := flightTime_tick (r.left - 1) rest
      have h1 : max (0 + 1) r.left = r.left - 1 + 1 := by omega
      have h2 : max (0 + 1) (r.left - 1) = r.left - 1 := by omega
      simp only [Rbc.sendData, Job.dataReady, hop, hflight, hr, decide_false, Bool.and_false,
        Bool.false_eq_true, if_false, Job.tick_flight, List.map_cons, flightTime, h1, h2]
      omega

/-! ## The fewest edges to the final beat -/

/-- The commands that read storage in `EXEC` (R208). -/
def isRead : Opcode → Bool
  | .readObj | .readN | .readAll | .peekNth => true
  | _ => false

theorem isRead_iff {op : Opcode} :
    isRead op = true ↔ isBulkRead op = true ∨ op = .readObj ∨ op = .peekNth := by
  cases op <;> simp [isRead, isBulkRead]

theorem Rbc.soonest_bulk {b : Rbc} {job : Job} (hop : isBulkRead job.op = true) :
    b.soonest job = (if 0 < b.accessesLeft job
      then b.accessesLeft job + max (flightTime 0 job.flight) b.cfg.lSto
      else flightTime 0 job.flight) + 1 := by
  have hw : job.op ≠ .writeObj := fun h => by simp [h, isBulkRead] at hop
  simp only [Rbc.soonest, hop, if_neg hw, if_true]

theorem Rbc.soonest_single {b : Rbc} {job : Job} (hop : job.op = .readObj ∨ job.op = .peekNth) :
    b.soonest job = max (if 0 < b.accessesLeft job
      then b.accessesLeft job + max (flightTime 0 job.flight) b.cfg.lSto
      else flightTime 0 job.flight) 1 := by
  obtain hop | hop := hop <;> simp [Rbc.soonest, hop, isBulkRead]

/-- A command that reads nothing can send its final beat at once. -/
theorem Rbc.soonest_quiet {b : Rbc} {job : Job} (hop : isRead job.op = false)
    (hflight : job.flight = []) : b.soonest job = 1 := by
  cases h : job.op <;>
    simp_all [Rbc.soonest, isRead, isBulkRead, Rbc.accessesLeft, flightTime]

theorem Rbc.lastReady_quiet {b : Rbc} {job : Job} (hop : isRead job.op = false)
    (hflight : job.flight = []) : b.lastReady job = true := by
  cases h : job.op <;>
    simp_all [Rbc.lastReady, isRead, isBulkRead, Rbc.accessesLeft]

theorem Rbc.soonest_pos (b : Rbc) (job : Job) : 1 ≤ b.soonest job := by
  unfold Rbc.soonest
  dsimp only
  split <;> omega

/-- READ_OBJ and PEEK_NTH make one read at most. -/
theorem Rbc.Inv.singleProgress {b : Rbc} {job : Job} (h : (b.running job).Inv)
    (hop : job.op = .readObj ∨ job.op = .peekNth) :
    job.flight.length + b.accessesLeft job ≤ 1 := by
  obtain ⟨op, n, data, k, issued, sent, flight, cycles⟩ := job
  have hphase := h.phase_ok.2.2
  obtain rfl | rfl : op = .readObj ∨ op = .peekNth := hop
  · obtain ⟨hlen, hik, hk, -⟩ := hphase
    simp only [Rbc.accessesLeft]
    dsimp only at hlen hik hk ⊢
    omega
  · obtain ⟨hlen, hi⟩ := hphase
    simp only [Rbc.accessesLeft]
    dsimp only at hlen hi ⊢
    split <;> omega

/-! ## One edge -/

/-- An access of a reading command awaits one more object and leaves one access less to make. -/
theorem Rbc.access_job {b b' : Rbc} {job : Job} (hleft : 0 < b.accessesLeft job)
    (h : b.access job = .ok b') :
    (isRead job.op = true ∧ ∃ slot obj, b'.phase = .exec (job.awaiting b.cfg slot obj) ∧
      b'.accessesLeft (job.awaiting b.cfg slot obj) + 1 = b.accessesLeft job) ∨
    (job.op = .writeObj ∧ b'.phase = .exec { job with issued := job.issued + 1 }) := by
  obtain ⟨hop, x, -, rfl⟩ | ⟨hop, d, -, rfl⟩ | ⟨hop, b₁, -, rfl⟩ | ⟨h0, -⟩ := Rbc.access_ok h
  · refine .inl ⟨isRead_iff.2 (hop.symm.imp id .inl), x.1, x.2, rfl, ?_⟩
    rw [isBulkRead_iff] at hop
    obtain hop | hop | hop := hop <;>
      · simp only [Rbc.accessesLeft, Job.awaiting_op, hop, Job.awaiting_k,
          Job.awaiting_issued] at hleft ⊢
        omega
  · refine .inl ⟨isRead_iff.2 (.inr (.inr hop)), _, d, rfl, ?_⟩
    simp only [Rbc.accessesLeft, Job.awaiting_op, hop, Job.awaiting_issued] at hleft ⊢
    by_cases hocc : occ b.cfg b.head b.tail = 0
    · simp [hocc] at hleft
    · simp only [hocc, if_false] at hleft ⊢
      omega
  · exact .inr ⟨hop, rfl⟩
  · omega

/-- At full speed: the final beat if it can be sent; else the access that is to be made, if one is. -/
theorem Rbc.execMove_fullSpeed {b b' : Rbc} {job : Job} (h : b.execMove true true job = .ok b') :
    b.finish job = .ok b' ∨ (b.lastReady job = false ∧
      ((0 < b.accessesLeft job ∧
        (b.sendData true job).2.access (b.sendData true job).1.tick = .ok b') ∨
      (b.accessesLeft job = 0 ∧
        b' = { (b.sendData true job).2 with phase := .exec (b.sendData true job).1.tick }))) := by
  unfold Rbc.execMove at h
  cases hready : b.lastReady job with
  | true =>
    simp only [hready, Bool.and_self, if_true] at h
    exact .inl h
  | false =>
    simp only [hready, Bool.and_false, Bool.false_eq_true, if_false, Bool.true_and,
      decide_eq_true_eq] at h
    split at h
    · rename_i hleft
      exact .inr ⟨rfl, .inl ⟨hleft, h⟩⟩
    · rename_i hleft
      exact .inr ⟨rfl, .inr ⟨by omega, (Except.ok.inj h).symm⟩⟩

/-- Only a bulk read sends data beats. -/
theorem Rbc.sendData_of_not_bulk {job : Job} (hop : isBulkRead job.op = false) (b : Rbc)
    (send : Bool) : b.sendData send job = (job, b) := by
  simp [Rbc.sendData, Job.dataReady, hop]

/-- A bulk read at full speed. -/
theorem Rbc.soonest_fullSpeed_bulk {b b' : Rbc} {job job' : Job} (hl : 1 ≤ b.cfg.lSto)
    (hop : isBulkRead job.op = true) (h : b.execMove true true job = .ok b')
    (hp : b'.phase = .exec job') : b'.soonest job' + 1 ≤ b.soonest job := by
  have htime := b.flightTime_sendData hop
  have hleft := b.accessesLeft_sendData true job
  obtain ⟨_, _, _, _, hs⟩ := b.sendData_frame true job
  rw [Rbc.soonest_bulk hop]
  obtain hfin | ⟨hready, ⟨hpos, hacc⟩ | ⟨h0, rfl⟩⟩ := Rbc.execMove_fullSpeed h
  · obtain ⟨b₁, r, -, rfl⟩ := Rbc.finish_ok hfin
    cases hp
  · obtain ⟨hcfg, -⟩ := Rbc.access_sideKept hacc
    obtain ⟨-, slot, obj, hp', hone⟩ | ⟨hw, -⟩ := Rbc.access_job (by omega) hacc
    · cases hp'.symm.trans hp
      rw [Rbc.soonest_bulk (by rw [hs]; exact hop), hcfg, Job.awaiting_flight, flightTime_append,
        htime]
      have hcfg' : (b.sendData true job).2.cfg = b.cfg := by rw [hs]
      rw [hcfg'] at hone ⊢
      dsimp only
      split_ifs <;> omega
    · rw [hs] at hw
      simp [show job.op = .writeObj from hw, isBulkRead] at hop
  · cases hp
    have hflight : job.flight ≠ [] := by
      rintro hnil
      simp [Rbc.lastReady, h0, hop, hnil] at hready
    have := flightTime_pos hflight
    rw [Rbc.soonest_bulk (by rw [hs]; exact hop), htime]
    rw [show Rbc.accessesLeft (b.sendData true job).1.tick
      { (b.sendData true job).2 with phase := .exec (b.sendData true job).1.tick } = 0 from
        hleft.trans h0, h0]
    simp only [Nat.lt_irrefl, if_false]
    omega

/-- READ_OBJ and PEEK_NTH at full speed: they make their read, then wait for it. -/
theorem Rbc.Inv.soonest_fullSpeed_single {b b' : Rbc} {job job' : Job}
    (hinv : (b.running job).Inv) (hl : 1 ≤ b.cfg.lSto)
    (hop : job.op = .readObj ∨ job.op = .peekNth) (h : b.execMove true true job = .ok b')
    (hp : b'.phase = .exec job') : b'.soonest job' + 1 ≤ b.soonest job := by
  have hone := hinv.singleProgress hop
  have hbulk : isBulkRead job.op = false := by obtain hop | hop := hop <;> rw [hop] <;> rfl
  rw [Rbc.soonest_single hop]
  obtain hfin | ⟨hready, hmove⟩ := Rbc.execMove_fullSpeed h
  · obtain ⟨b₁, r, -, rfl⟩ := Rbc.finish_ok hfin
    cases hp
  rw [Rbc.sendData_of_not_bulk hbulk] at hmove
  dsimp only at hmove
  obtain ⟨hpos, hacc⟩ | ⟨h0, rfl⟩ := hmove
  · have hnil : job.flight = [] := List.eq_nil_of_length_eq_zero (by omega)
    obtain ⟨hcfg, -⟩ := Rbc.access_sideKept hacc
    obtain ⟨-, slot, obj, hp', hleft⟩ | ⟨hw, -⟩ := Rbc.access_job (by exact hpos) hacc
    · cases hp'.symm.trans hp
      have htick : b.accessesLeft job.tick = b.accessesLeft job := rfl
      rw [htick] at hleft
      rw [Rbc.soonest_single (by exact hop), hcfg, Job.awaiting_flight, flightTime_append]
      simp only [Job.tick_flight, hnil, List.map_nil, flightTime]
      split_ifs <;> omega
    · obtain hop | hop := hop <;> cases hop.symm.trans hw
  · cases hp
    obtain ⟨r, hflight, hr⟩ : ∃ r, job.flight = [r] ∧ 2 ≤ r.left := by
      obtain ⟨x, hx, hx1⟩ : ∃ x ∈ job.flight, 1 < x.left := by
        simpa [Rbc.lastReady, h0, hbulk] using hready
      obtain ⟨r, hflight⟩ := List.length_eq_one_iff.1
        (show job.flight.length = 1 by have := List.length_pos_of_mem hx; omega)
      rw [hflight, List.mem_singleton] at hx
      exact ⟨r, hflight, hx ▸ hx1⟩
    rw [Rbc.soonest_single (by exact hop)]
    rw [show Rbc.accessesLeft job.tick { b with phase := .exec job.tick } = 0 from h0, h0]
    simp only [Job.tick_flight, hflight, List.map_cons, List.map_nil, flightTime, Nat.lt_irrefl,
      if_false]
    omega

/-- R346, R1240: an edge at full speed that is not the last brings the final beat one edge nearer. -/
theorem Rbc.Inv.soonest_fullSpeed {b b' : Rbc} {job job' : Job} (hinv : (b.running job).Inv)
    (hquiet : isRead job.op = false → job.flight = []) (h : b.execMove true true job = .ok b')
    (hp : b'.phase = .exec job') : b'.soonest job' + 1 ≤ b.soonest job := by
  obtain ⟨-, -, -, -, hl⟩ := checkShared_spec hinv.cursors_of_running.shared
  cases hread : isRead job.op with
  | true =>
    obtain hop | hop := isRead_iff.1 hread
    · exact Rbc.soonest_fullSpeed_bulk hl hop h hp
    · exact hinv.soonest_fullSpeed_single hl hop h hp
  | false =>
    obtain hfin | ⟨hready, -⟩ := Rbc.execMove_fullSpeed h
    · obtain ⟨b₁, r, -, rfl⟩ := Rbc.finish_ok hfin
      cases hp
    · rw [Rbc.lastReady_quiet hread (hquiet hread)] at hready
      cases hready

/-! ## Within the bound -/

/-- The most edges from a command's last beat to its final beat: `LAT_MAX`, or those the longest
command takes at full speed where `LAT_MAX` is less (log entry 11). -/
def execBound (p : Config) : Nat := max p.latMax (p.c + p.lSto)

/-- The running command can still be answered in time, and awaits an object only if it reads one. -/
structure Rbc.OnTime (b : Rbc) (job : Job) : Prop where
  inBound : job.cycles + b.soonest job ≤ execBound b.cfg
  quiet : isRead job.op = false → job.flight = []

theorem Rbc.OnTime.cycles_lt {b : Rbc} {job : Job} (h : b.OnTime job) :
    job.cycles < execBound b.cfg := by
  have := b.soonest_pos job
  have := h.inBound
  omega

/-- An edge in `EXEC` that is not the last is one cycle, and awaits an object only for a read. -/
theorem Rbc.execMove_cycle {b b' : Rbc} {issue send : Bool} {job job' : Job}
    (hquiet : isRead job.op = false → job.flight = []) (h : b.execMove issue send job = .ok b')
    (hp : b'.phase = .exec job') :
    job'.cycles = job.cycles + 1 ∧ (isRead job'.op = false → job'.flight = []) := by
  have hsent : (b.sendData send job).1.cycles = job.cycles ∧
      (isRead (b.sendData send job).1.op = false → (b.sendData send job).1.flight = []) := by
    obtain hs | ⟨-, hop, r, rest, -, -, hs⟩ := b.sendData_eq send job <;> rw [hs]
    · exact ⟨rfl, hquiet⟩
    · exact ⟨rfl, fun hn => by simp [isRead_iff.2 (.inl hop)] at hn⟩
  obtain ⟨hcycles, hflight⟩ := hsent
  have htick : isRead (b.sendData send job).1.tick.op = false →
      (b.sendData send job).1.tick.flight = [] := fun hn => by simp [hflight hn]
  obtain ⟨-, -, hfin⟩ | ⟨hleft, hacc⟩ | rfl := Rbc.execMove_ok h
  · obtain ⟨b₁, r, -, rfl⟩ := Rbc.finish_ok hfin
    cases hp
  · rw [← b.accessesLeft_sendData send] at hleft
    obtain ⟨hread, slot, obj, hp', -⟩ | ⟨-, hp'⟩ := Rbc.access_job hleft hacc
    · cases hp'.symm.trans hp
      exact ⟨congrArg (· + 1) hcycles, fun hn => by rw [Job.awaiting_op, hread] at hn; cases hn⟩
    · cases hp'.symm.trans hp
      exact ⟨congrArg (· + 1) hcycles, htick⟩
  · cases hp
    exact ⟨congrArg (· + 1) hcycles, htick⟩

/-- R1240: whatever pace is drawn, an edge in `EXEC` that is not the last leaves the command on
time. -/
theorem Rbc.OnTime.execEdge {b b' : Rbc} {pace : Pace} {job job' : Job} (h : b.OnTime job)
    (hinv : (b.running job).Inv) (he : b.execEdge pace job = .ok b') (hp : b'.phase = .exec job') :
    b'.OnTime job' ∧ job'.cycles = job.cycles + 1 := by
  obtain ⟨hcfg, -⟩ := Rbc.execEdge_sideKept he
  have hbound := h.inBound
  obtain ⟨hm, ht⟩ | hm := Rbc.execEdge_ok he
  · obtain ⟨hcycles, hquiet⟩ := Rbc.execMove_cycle h.quiet hm hp
    have hlat : job'.cycles + b'.soonest job' ≤ b'.cfg.latMax := by
      simpa [Rbc.inTime, hp] using ht
    exact ⟨⟨hlat.trans (Nat.le_max_left ..), hquiet⟩, hcycles⟩
  · obtain ⟨hcycles, hquiet⟩ := Rbc.execMove_cycle h.quiet hm hp
    have hnear := hinv.soonest_fullSpeed h.quiet hm hp
    exact ⟨⟨by rw [hcfg]; omega, hquiet⟩, hcycles⟩

/-- A command makes fewer accesses than there are slots. -/
theorem Rbc.Cursors.accessesLeft_newJob_lt {b : Rbc} (h : b.Cursors) (op : Opcode) (n d : Nat) :
    b.accessesLeft (newJob op n d (plannedSteps b.cfg op n b.head b.tail)) < b.cfg.c := by
  obtain ⟨-, hc, -⟩ := checkShared_spec h.shared
  have hocc := occ_lt h.shared b.head b.tail
  cases op
  case readN => exact Nat.lt_of_le_of_lt (Nat.min_le_right ..) hocc
  case readAll | readObj | writeObj | peekNth =>
    simp only [Rbc.accessesLeft, newJob, plannedSteps]
    split <;> omega
  all_goals exact h.c_pos

theorem Rbc.soonest_newJob_le (b : Rbc) (op : Opcode) (n d k : Nat) :
    b.soonest (newJob op n d k) ≤ b.accessesLeft (newJob op n d k) + b.cfg.lSto + 1 := by
  have htime : flightTime 0 (newJob op n d k).flight = 0 := rfl
  cases hread : isRead op with
  | true =>
    obtain hop | hop := isRead_iff.1 hread
    · rw [Rbc.soonest_bulk (by exact hop), htime]
      split <;> omega
    · rw [Rbc.soonest_single (by exact hop), htime]
      split <;> omega
  | false =>
    rw [Rbc.soonest_quiet (by exact hread) rfl]
    omega

/-- A command is on time at its header, or at the last beat of its burst. -/
theorem Rbc.onTime_newJob {b : Rbc} {op : Opcode} {n d k : Nat}
    (h : b.accessesLeft (newJob op n d k) < b.cfg.c) : b.OnTime (newJob op n d k) where
  inBound := by
    have := b.soonest_newJob_le op n d k
    have : (newJob op n d k).cycles = 0 := rfl
    unfold execBound
    omega
  quiet := fun _ => rfl

end Sys2Proof.Machine
end

section
/-! The cycle level refines the transaction level: a host that sends a command beat by beat is answered
as the atomic transition answers, within the bound (30_encoding.md R347, 70_reset_and_hazards.md
R1240). -/

open Sys2Proof.Statements

namespace Sys2Proof.Machine

/-! ## An edge of a command in `EXEC` -/

/-- The block runs `job`, on time, and comes to where `g` is. -/
structure Rbc.Running (b : Rbc) (job : Job) (g : Rbc) : Prop where
  inv : b.Inv
  phase : b.phase = .exec job
  held : b.held = none
  onTime : b.OnTime job
  owes : b.Owes job g

/-- An edge without a beat presented answers the command, or is one cycle of it. -/
theorem Rbc.Running.runEdge {b g : Rbc} {job : Job} (h : b.Running job g) (beat : CmdBeat)
    (pace : Pace) : ∃ b', b.runEdge false beat pace = .next b' ∧ b'.cfg = b.cfg ∧
      b'.held = none ∧ (b'.Answered g ∨ ∃ job', b'.Running job' g ∧ job'.cycles = job.cycles + 1) := by
  have hinv := h.inv.startEdge false false beat
  have hrun : ((b.startEdge false false beat).running job).Inv := by
    rwa [Rbc.running_of_phase (by exact h.phase)]
  obtain ⟨b', he⟩ := hinv.execEdge_answers h.phase pace
  obtain ⟨hcfg, hheld, -⟩ := Rbc.execEdge_sideKept he
  have hinBound := h.onTime.inBound
  have honTime : (b.startEdge false false beat).OnTime job := ⟨hinBound, h.onTime.quiet⟩
  have howes : (b.startEdge false false beat).Owes job g := h.owes
  obtain ⟨issue, send, hm⟩ := Rbc.execEdge_execMove he
  refine ⟨b', by rw [Rbc.runEdge_exec h.phase, he, edgeOutcome], hcfg, hheld, ?_⟩
  obtain hdone | ⟨job', hp', howes'⟩ := howes.execMove hrun hm
  · exact .inl hdone
  · obtain ⟨honTime', hcycles⟩ := honTime.execEdge hrun he hp'
    exact .inr ⟨job', ⟨hinv.execMove h.phase hm, hp', hheld, honTime', howes'⟩, hcycles⟩

/-! ## An edge of a write burst in `WDATA` -/

/-- The block takes the data beats `todo` of a write burst, the `i`-th of `n` first, of which it stores
those before `k`, and comes to where `g` is. -/
structure Rbc.Filling (b : Rbc) (op : Opcode) (n k i : Nat) (todo : List CmdBeat) (g : Rbc) :
    Prop where
  inv : b.Inv
  phase : b.phase = .wdata op n k i
  held : b.held = none ∨ b.held = todo.head?
  count : i + todo.length = n
  waited : b.waited + 1 ≤ max b.cfg.latMax 1
  fits : ∀ x ∈ todo, beatFits b.cfg x
  stores : writeEach ((todo.map CmdBeat.data).take (k - i)) b.buffer = .ok g.buffer
  out : g.out = b.out ++ [(answer (shortfall .full n k) k).final]
  rsp : g.rsp = some (answer (shortfall .full n k) k).final

/-- R344: a beat below `k` is the first of those to store, and later ones are none. -/
theorem Rbc.acceptData_stores {b b' c : Rbc} {d n k i : Nat} {op : Opcode} {ds : List Nat}
    (ha : b.acceptData d op n k i = .ok b')
    (h : writeEach ((d :: ds).take (k - i)) b.buffer = .ok c) :
    writeEach (ds.take (k - (i + 1))) b'.buffer = .ok c := by
  obtain ⟨hi, b₁, hw, rfl⟩ | ⟨hi, rfl⟩ := Rbc.acceptData_ok ha
  · rw [show k - i = k - (i + 1) + 1 by omega, List.take_succ_cons, writeEach,
      Rbc.writeOne_buffer hw] at h
    exact h
  · rw [show k - i = 0 by omega] at h
    rw [show k - (i + 1) = 0 by omega]
    exact h

/-- At its last beat a burst has its answer left. -/
theorem Rbc.rest_burst {op : Opcode} (hop : isBurst op = true) (n k : Nat) (b : Rbc) :
    b.rest (newJob op n 0 k) = .ok (b, answer (shortfall .full n k) k) := by
  obtain rfl | rfl := isBurst_iff.1 hop <;> rfl

theorem Rbc.accessesLeft_burst {op : Opcode} (hop : isBurst op = true) (n d k : Nat) (b : Rbc) :
    b.accessesLeft (newJob op n d k) = 0 := by
  obtain rfl | rfl := isBurst_iff.1 hop <;> rfl

/-- R341, R342: a beat not accepted leaves the burst where it is, one cycle of the wait gone. -/
theorem Rbc.Filling.stalled {b g : Rbc} {op : Opcode} {n k i : Nat} {beat : CmdBeat}
    {todo : List CmdBeat} {pace : Pace} (h : b.Filling op n k i (beat :: todo) g)
    (hr : b.cmdReady false pace.stall = false) :
    ∃ b', b.runEdge true beat pace = .next b' ∧ b'.cfg = b.cfg ∧ b'.waited = b.waited + 1 ∧
      b'.Filling op n k i (beat :: todo) g := by
  have hwait : b.waited + 1 < b.cfg.latMax := by
    simp only [Rbc.cmdReady, h.phase, Bool.not_false, Bool.true_and, Bool.not_eq_false',
      Bool.and_eq_true, decide_eq_true_eq] at hr
    exact hr.1
  refine ⟨{ b.startEdge true false beat with waited := b.waited + 1 }, ?_, rfl, rfl, ?_⟩
  · simp [Rbc.runEdge, h.phase, hr]
  · exact { h with
      inv := (h.inv.startEdge true false beat).waiting _
      held := .inr rfl
      waited := by dsimp only [Rbc.startEdge]; omega }

/-- R344: a beat accepted is taken off those to send; with the last the burst enters `EXEC`. -/
theorem Rbc.Filling.accepted {b g : Rbc} {op : Opcode} {n k i : Nat} {beat : CmdBeat}
    {todo : List CmdBeat} {pace : Pace} (h : b.Filling op n k i (beat :: todo) g)
    (hr : b.cmdReady false pace.stall = true) :
    ∃ b', b.runEdge true beat pace = .next b' ∧ b'.cfg = b.cfg ∧
      ((todo = [] ∧ b'.Running (newJob op n 0 k) g) ∨
        (todo ≠ [] ∧ b'.waited = 0 ∧ b'.Filling op n k (i + 1) todo g)) := by
  have hinv := h.inv.startEdge true true beat
  obtain ⟨b', ha⟩ := hinv.acceptData_answers beat.data op n k i
  have hinv' := hinv.acceptData h.phase ha
  obtain ⟨hcfg, hheld, -⟩ := Rbc.acceptData_sideKept ha
  obtain ⟨hphase, -, hout⟩ := Rbc.acceptData_phase ha
  have hop : isBurst op = true := by
    have := h.inv.phase_ok
    simp only [Rbc.phaseOk, h.phase] at this
    exact this.1
  have hstores := Rbc.acceptData_stores ha h.stores
  have hcount := h.count
  rw [List.length_cons] at hcount
  refine ⟨b', by rw [Rbc.runEdge_data h.phase hr, ha, edgeOutcome], hcfg, ?_⟩
  cases todo with
  | nil =>
    rw [List.map_nil, List.take_nil] at hstores
    have hbuffer : b'.buffer = g.buffer := Except.ok.inj hstores
    have hleft : b'.accessesLeft (newJob op n 0 k) < b'.cfg.c := by
      rw [Rbc.accessesLeft_burst hop]
      exact hinv'.cursors.c_pos
    refine .inl ⟨rfl, hinv', hphase.trans (afterBeat_last (by simpa using hcount) k), hheld,
      Rbc.onTime_newJob hleft, _, by rw [← hbuffer]; exact Rbc.rest_burst hop .., ?_, h.rsp⟩
    rw [hout]
    exact h.out
  | cons next rest =>
    have hwaited : b'.waited = 0 := by
      obtain ⟨-, b₁, -, rfl⟩ | ⟨-, rfl⟩ := Rbc.acceptData_ok ha <;> rfl
    refine .inr ⟨List.cons_ne_nil next rest, hwaited, ?_⟩
    exact {
      inv := hinv'
      phase := hphase.trans (afterBeat_next (by simp at hcount; omega) k)
      held := .inl hheld
      count := by omega
      waited := by rw [hwaited]; omega
      fits := fun x hx => by
        rw [hcfg]
        exact h.fits x (List.mem_cons_of_mem _ hx)
      stores := hstores
      out := by rw [hout]; exact h.out
      rsp := h.rsp }

/-! ## The host -/

/-- The host's edges end with the command answered as `g` has it, at index `pos`. -/
def EndsAt (o : Host.Outcome State Fault Refusal) (g : Rbc) (pos : Nat) : Prop :=
  ∃ u, o = .next u ∧ u.rbc.Answered g ∧ u.rbc.held = none ∧ u.pos = pos

/-- An edge the host makes with a beat it may present. -/
theorem rbcClock_of_runEdge {s : State} {valid : Bool} {beat : CmdBeat} {b : Rbc}
    (hc : checkRbc s.rbc.cfg = none) (hheld : s.rbc.held = none ∨ valid = true ∧ s.rbc.held = some beat)
    (hfits : valid = true → beatFits s.rbc.cfg beat)
    (h : s.rbc.runEdge valid beat s.pace = .next b) :
    rbcClock false valid beat s = .next (afterRbcEdge s b (s.posAfter false valid)) :=
  rbcClock_next.2 ⟨b, (Rbc.clkEdge_of_fits hc hheld hfits s.pace).trans h, rfl⟩

theorem driveHost_idle {s : State} (h : s.rbc.phase = .idle) (fuel : Nat) :
    driveHost fuel [] s = .next s := by
  cases fuel <;> simp [driveHost, h, Phase.isIdle]

theorem driveHost_wait {s t : State} (hp : s.rbc.phase ≠ .idle)
    (h : rbcClock false false ⟨0, 0⟩ s = .next t) (fuel : Nat) :
    driveHost (fuel + 1) [] s = driveHost fuel [] t := by
  have hi : s.rbc.phase.isIdle = false := Bool.eq_false_of_not_eq_true (mt (Phase.isIdle_iff _).1 hp)
  simp [driveHost, hi, h]

theorem driveHost_beat {s t : State} {beat : CmdBeat} (h : rbcClock false true beat s = .next t)
    (fuel : Nat) (todo : List CmdBeat) :
    driveHost (fuel + 1) (beat :: todo) s =
      driveHost fuel (if s.rbc.cmdReady false s.pace.stall then todo else beat :: todo) t := by
  simp only [driveHost, h]
  rfl

/-- A command in `EXEC` is answered within its bound. -/
theorem Rbc.Running.driveHost {g : Rbc} (fuel : Nat) {s : State} {job : Job}
    (h : s.rbc.Running job g) (hfuel : execBound s.rbc.cfg ≤ fuel + job.cycles) :
    EndsAt (driveHost fuel [] s) g s.pos := by
  induction fuel generalizing s job with
  | zero =>
    have := h.onTime.cycles_lt
    omega
  | succ fuel ih =>
    have hbusy : s.rbc.phase ≠ .idle := by simp [h.phase]
    obtain ⟨b, hb, hcfg, hheld, hnext⟩ := h.runEdge ⟨0, 0⟩ s.pace
    rw [driveHost_wait hbusy (rbcClock_of_runEdge h.inv.legal (.inl h.held)
      (fun hv => absurd hv Bool.false_ne_true) hb), State.posAfter_of_busy hbusy]
    obtain hdone | ⟨job', hrun, hcycles⟩ := hnext
    · exact ⟨_, driveHost_idle hdone.1 fuel, hdone, hheld, rfl⟩
    · refine ih (s := afterRbcEdge s b s.pos) hrun ?_
      rw [hcycles, show (afterRbcEdge s b s.pos).rbc.cfg = s.rbc.cfg from hcfg]
      omega

theorem Rbc.Filling.exists_cons {b g : Rbc} {op : Opcode} {n k i : Nat} {todo : List CmdBeat}
    (h : b.Filling op n k i todo g) : ∃ beat rest, todo = beat :: rest := by
  have hphase := h.inv.phase_ok
  simp only [Rbc.phaseOk, h.phase] at hphase
  obtain ⟨-, hi, -⟩ := hphase
  have hcount := h.count
  exact List.exists_cons_of_length_pos (by omega)

/-- A write burst is answered within its bound: `LAT_MAX` edges for each data beat, and those of the
command in `EXEC`. -/
theorem Rbc.Filling.driveHost {g : Rbc} {op : Opcode} {n k : Nat} (fuel : Nat) {s : State} {i : Nat}
    {todo : List CmdBeat} (h : s.rbc.Filling op n k i todo g)
    (hfuel : todo.length * max s.rbc.cfg.latMax 1 + execBound s.rbc.cfg ≤ fuel + s.rbc.waited) :
    EndsAt (driveHost fuel todo s) g s.pos := by
  induction fuel generalizing s i todo with
  | zero =>
    obtain ⟨beat, rest, rfl⟩ := h.exists_cons
    have hwaited := h.waited
    rw [List.length_cons, Nat.succ_mul] at hfuel
    omega
  | succ fuel ih =>
    obtain ⟨beat, rest, rfl⟩ := h.exists_cons
    have hwaited := h.waited
    have hclock {b : Rbc} (hb : s.rbc.runEdge true beat s.pace = .next b) :
        rbcClock false true beat s = .next (afterRbcEdge s b s.pos) := by
      rw [rbcClock_of_runEdge h.inv.legal (h.held.imp id (⟨rfl, ·⟩))
        (fun _ => h.fits beat List.mem_cons_self) hb, State.posAfter_of_busy (by simp [h.phase])]
    cases hr : s.rbc.cmdReady false s.pace.stall with
    | false =>
      obtain ⟨b, hb, hcfg, hw, hfill⟩ := h.stalled hr
      rw [driveHost_beat (hclock hb), hr, if_neg Bool.false_ne_true]
      refine ih (s := afterRbcEdge s b s.pos) hfill ?_
      dsimp only [afterRbcEdge]
      rw [hcfg, hw]
      omega
    | true =>
      obtain ⟨b, hb, hcfg, hnext⟩ := h.accepted hr
      rw [driveHost_beat (hclock hb), hr, if_pos rfl]
      rw [List.length_cons, Nat.succ_mul] at hfuel
      obtain ⟨rfl, hrun⟩ | ⟨-, hw, hfill⟩ := hnext
      · refine Rbc.Running.driveHost fuel (s := afterRbcEdge s b s.pos) hrun ?_
        dsimp only [afterRbcEdge]
        rw [hcfg]
        omega
      · refine ih (s := afterRbcEdge s b s.pos) hfill ?_
        dsimp only [afterRbcEdge]
        rw [hcfg, hw]
        omega

/-! ## From the header -/

theorem burstLength_eq (op : Opcode) (n : Nat) :
    burstLength op n = if isBurst op then n else 0 := by
  cases op <;> rfl

/-- The block right after the header `w`, `d` of a command. -/
def Rbc.atHeader (b : Rbc) (w d : Nat) : Rbc :=
  (b.startEdge true true ⟨w, d⟩).acceptHeader w d

/-- An answered transaction in terms of its beats, from any block with the beats sent before. -/
theorem respond_out_of_command {b b₁ : Rbc} {i : Instr} {r : Response}
    (h : commandOf i b = .ok (b₁, r)) : (b₁.respond r).out = b.out ++ r.toBeats := by
  obtain ⟨-, -, -, -, -, -, -, -, hout⟩ := (commandOf_moved h).frame
  rw [Rbc.respond_out, hout]

/-- R343: the header of a write burst with data beats. -/
theorem Rbc.Inv.header_fills {b b₁ : Rbc} {w d : Nat} {beats : List CmdBeat} {r : Response}
    (h : b.Inv) (hw : w < 2 ^ (b.cfg.nw + 4)) (hfits : ∀ x ∈ beats, beatFits b.cfg x)
    (hop : isBurst (Opcode.ofBits (headerOp w)) = true) (hn : 0 < headerN w)
    (hlen : beats.length = headerN w)
    (hcmd : commandOf (Instr.ofHeader (Opcode.ofBits (headerOp w)) (headerN w) d
      (beats.map CmdBeat.data)) b = .ok (b₁, r)) :
    (b.atHeader w d).Filling (Opcode.ofBits (headerOp w)) (headerN w)
      (plannedSteps b.cfg (Opcode.ofBits (headerOp w)) (headerN w) b.head b.tail) 0 beats
      (b₁.respond r) := by
  have hout := respond_out_of_command hcmd
  obtain ⟨hstores, rfl⟩ := commandOf_burst h.cursors.buffer hop (by rw [List.length_map, hlen])
    (commandOf_buffer hcmd)
  exact {
    inv := (h.startEdge true true ⟨w, d⟩).acceptHeader hw d
    phase := Rbc.acceptHeader_phase_wdata d hop hn
    held := .inl rfl
    count := by rw [Nat.zero_add, hlen]
    waited := Nat.le_max_right ..
    fits := hfits
    stores := hstores
    out := hout
    rsp := rfl }

/-- R343: the header of any other command. -/
theorem Rbc.Inv.header_runs {b b₁ : Rbc} {w d : Nat} {ds : List Nat} {r : Response}
    (h : b.Inv) (hw : w < 2 ^ (b.cfg.nw + 4))
    (hop : ¬(isBurst (Opcode.ofBits (headerOp w)) = true ∧ 0 < headerN w))
    (hlen : ds.length = burstLength (Opcode.ofBits (headerOp w)) (headerN w))
    (hcmd : commandOf (Instr.ofHeader (Opcode.ofBits (headerOp w)) (headerN w) d ds) b =
      .ok (b₁, r)) :
    (b.atHeader w d).Running (newJob (Opcode.ofBits (headerOp w)) (headerN w) d
      (plannedSteps b.cfg (Opcode.ofBits (headerOp w)) (headerN w) b.head b.tail))
      (b₁.respond r) := by
  have hn : isBurst (Opcode.ofBits (headerOp w)) = true → headerN w = 0 := fun hb => by
    by_contra hn
    exact hop ⟨hb, Nat.pos_of_ne_zero hn⟩
  have hrest := Rbc.rest_newJob h.cursors.buffer hn hlen (commandOf_buffer hcmd)
  have hout := respond_out_of_command hcmd
  exact {
    inv := (h.startEdge true true ⟨w, d⟩).acceptHeader hw d
    phase := Rbc.acceptHeader_phase_exec d hop
    held := rfl
    onTime := Rbc.onTime_newJob (h.cursors.accessesLeft_newJob_lt _ _ d)
    owes := ⟨r, hrest, hout, rfl⟩ }

/-- A host that sends the beats of a command from `IDLE` is answered within the bound. -/
theorem Rbc.Inv.driveHost_command {s : State} {b₁ : Rbc} {w d : Nat} {beats : List CmdBeat}
    {r : Response} (h : s.rbc.Inv) (hp : s.rbc.phase = .idle) (hheld : s.rbc.held = none)
    (hw : w < 2 ^ (s.rbc.cfg.nw + 4)) (hd : objFits s.rbc.cfg d = true)
    (hfits : ∀ x ∈ beats, beatFits s.rbc.cfg x)
    (hlen : beats.length = burstLength (Opcode.ofBits (headerOp w)) (headerN w))
    (hcmd : commandOf (Instr.ofHeader (Opcode.ofBits (headerOp w)) (headerN w) d
      (beats.map CmdBeat.data)) s.rbc = .ok (b₁, r)) :
    EndsAt (driveHost (edgeBound s.rbc.cfg beats.length) (⟨w, d⟩ :: beats) s) (b₁.respond r)
      (s.pos + 1) := by
  have hpos : s.posAfter false true = s.pos + 1 := by simp [State.posAfter, hp, Phase.isIdle]
  have hready : s.rbc.cmdReady false s.pace.stall = true := by simp [Rbc.cmdReady, hp]
  have hclock : rbcClock false true ⟨w, d⟩ s =
      .next (afterRbcEdge s (s.rbc.atHeader w d) (s.pos + 1)) := by
    rw [← hpos]
    exact rbcClock_of_runEdge h.legal (.inl hheld) (fun _ => ⟨hw, hd⟩)
      (Rbc.runEdge_header hp ⟨w, d⟩ s.pace)
  have hbound : edgeBound s.rbc.cfg beats.length =
      beats.length * max s.rbc.cfg.latMax 1 + execBound s.rbc.cfg + 1 := by
    unfold edgeBound execBound
    omega
  rw [hbound, driveHost_beat hclock, hready, if_pos rfl]
  by_cases hop : isBurst (Opcode.ofBits (headerOp w)) = true ∧ 0 < headerN w
  · obtain ⟨hop, hn⟩ := hop
    rw [burstLength_eq, if_pos hop] at hlen
    exact (h.header_fills hw hfits hop hn hlen hcmd).driveHost
      (s := afterRbcEdge s (s.rbc.atHeader w d) (s.pos + 1)) _ (Nat.le_refl _)
  · have hrun := h.header_runs hw hop (by rw [List.length_map, hlen]) hcmd
    have hnil : beats.length = 0 := by
      rw [hlen, burstLength_eq]
      split
      · rename_i hb
        exact Nat.eq_zero_of_not_pos fun hn => hop ⟨hb, hn⟩
      · rfl
    obtain rfl := List.eq_nil_of_length_eq_zero hnil
    exact hrun.driveHost (s := afterRbcEdge s (s.rbc.atHeader w d) (s.pos + 1)) _
      (by rw [List.length_nil, Nat.zero_mul, Nat.zero_add]; exact Nat.le_refl _)

theorem Rbc.buffer_inj {b c : Rbc} (h : b.buffer = c.buffer) :
    b.head = c.head ∧ b.tail = c.tail ∧ b.sto = c.sto :=
  ⟨(congrArg Rbc.head h :), (congrArg Rbc.tail h :), (congrArg Rbc.sto h :)⟩

/-- Settles O36: the atomic transition answers, and the host's edges come to the same buffer and the
same beats within the bound. -/
theorem cycleLevelRefinesTransactionLevel : Obligations.CycleLevelRefinesTransactionLevel := by
  unfold Obligations.CycleLevelRefinesTransactionLevel
  intro s w d beats i hinv hp hheld hfits hdec
  obtain ⟨hw, hd, -, hlen, rfl⟩ := decode_hdr_iff.1 hdec
  rw [List.length_map] at hlen
  obtain ⟨⟨b₁, r⟩, hcmd⟩ := hinv.cursors.command_answers
    (Instr.ofHeader (Opcode.ofBits (headerOp w)) (headerN w) d (beats.map CmdBeat.data))
  have hexec := transact_next.2 ⟨hinv.legal, hp, b₁, r, hcmd, rfl⟩
  obtain ⟨u, hu, ⟨hidle, hbuffer, hout, hrsp⟩, hheld', hpos⟩ :=
    hinv.driveHost_command hp hheld hw hd hfits hlen hcmd
  obtain ⟨hhead, htail, hsto⟩ := Rbc.buffer_inj hbuffer
  exact ⟨_, u, (exec_rbc (isRbc_ofHeader ..) s).trans hexec, hu, hidle, hheld', hhead, htail, hsto,
    hout, hrsp, hpos⟩

end Sys2Proof.Machine
end

section
/-! The comparators and the gray code of the index unit (40_index_arithmetic.md R410 to R430,
R26). -/

namespace Sys2Proof.Machine

/-! ## The comparators (R414) -/

/-- Settles O6: the comparators and the free slots are tests of the occupancy, which is less than
`C`. -/
theorem comparatorLaws : Obligations.ComparatorLaws := by
  unfold Obligations.ComparatorLaws
  intro p head tail hp hh ht
  obtain ⟨-, hc, -⟩ := checkShared_spec hp
  have ho := occ_lt hp head tail
  rw [isEmpty_eq_occ hp hh ht, isFull_eq_occ hp hh ht, freeSlots]
  simp only [decide_eq_true_eq, true_and]
  refine ⟨?_, ?_, ?_⟩ <;> omega

/-! ## The gray code and its inverse (R26) -/

@[simp] theorem gray_zero : gray 0 = 0 := rfl

theorem gray_xor (x y : Nat) : gray (x ^^^ y) = gray x ^^^ gray y := by
  simp only [gray, Nat.shiftRight_xor_distrib]
  ac_rfl

theorem gray_shiftRight (x : Nat) : gray x >>> 1 = gray (x >>> 1) := by
  simp only [gray, Nat.shiftRight_xor_distrib]

theorem shiftRight_one_lt {w x : Nat} (h : x < 2 ^ (w + 1)) : x >>> 1 < 2 ^ w := by
  rw [Nat.shiftRight_eq_div_pow]
  omega

theorem gray_lt {w x : Nat} (h : x < 2 ^ w) : gray x < 2 ^ w :=
  Nat.xor_lt_two_pow h (Nat.lt_of_le_of_lt (Nat.shiftRight_le x 1) h)

theorem grayInv_lt {w x : Nat} (h : x < 2 ^ w) : grayInv w x < 2 ^ w := by
  induction w generalizing x with
  | zero => exact Nat.one_pos
  | succ w ih =>
    have hrest := ih (shiftRight_one_lt h)
    exact Nat.xor_lt_two_pow h (by omega)

theorem grayInv_gray {w x : Nat} (h : x < 2 ^ w) : grayInv w (gray x) = x := by
  induction w generalizing x with
  | zero => exact (Nat.lt_one_iff.1 h).symm
  | succ w ih =>
    rw [grayInv, gray_shiftRight, ih (shiftRight_one_lt h), gray, Nat.xor_xor_cancel_right]

theorem gray_grayInv {w x : Nat} (h : x < 2 ^ w) : gray (grayInv w x) = x := by
  induction w generalizing x with
  | zero =>
    obtain rfl := Nat.lt_one_iff.1 h
    rfl
  | succ w ih =>
    rw [grayInv, gray_xor, ih (shiftRight_one_lt h), gray, Nat.xor_xor_cancel_right]

/-! ## One bit per advance (R430) -/

/-- The ones of `k + 1` low bits keep only the top one. -/
theorem gray_two_pow_sub_one (k : Nat) : gray (2 ^ (k + 1) - 1) = 2 ^ k := by
  apply Nat.eq_of_testBit_eq
  intro i
  rw [gray, Nat.testBit_xor, Nat.testBit_shiftRight, Nat.testBit_two_pow_sub_one,
    Nat.testBit_two_pow_sub_one, Nat.testBit_two_pow]
  rcases Nat.lt_trichotomy i k with h | rfl | h
  · simp [h.ne', show i < k + 1 by omega, show 1 + i < k + 1 by omega]
  · simp
  · simp [h.ne, show ¬i < k + 1 by omega, show ¬1 + i < k + 1 by omega]

/-- An increment changes the low bits up to the lowest 0. -/
theorem exists_xor_succ (b : Nat) : ∃ k, b ^^^ (b + 1) = 2 ^ (k + 1) - 1 := by
  induction b using Nat.binaryRec with
  | zero => exact ⟨0, rfl⟩
  | bit c m ih =>
    cases c with
    | false =>
      refine ⟨0, ?_⟩
      have hbit : Nat.bit false m ^^^ (Nat.bit false m + 1) = Nat.bit true (m ^^^ m) :=
        Nat.xor_bit false m true m
      rw [hbit, Nat.xor_self]
      rfl
    | true =>
      obtain ⟨k, hk⟩ := ih
      refine ⟨k + 1, ?_⟩
      have hbit : Nat.bit true m ^^^ (Nat.bit true m + 1) = Nat.bit true (m ^^^ (m + 1)) :=
        Nat.xor_bit true m false (m + 1)
      have hpos := Nat.one_le_two_pow (n := k + 1)
      rw [hbit, hk, Nat.bit_true_apply, Nat.pow_succ 2 (k + 1)]
      omega

theorem exists_gray_xor_succ (b : Nat) : ∃ j, gray b ^^^ gray (b + 1) = 2 ^ j := by
  obtain ⟨k, hk⟩ := exists_xor_succ b
  exact ⟨k, by rw [← gray_xor, hk, gray_two_pow_sub_one]⟩

/-- The last index of a power of two has the top bit alone, so the wrap to 0 changes that bit. -/
theorem gray_last {c : Nat} (h : isPow2 c = true) : gray (c - 1) = 2 ^ (indexWidth c - 1) := by
  conv_lhs => rw [isPow2_spec h]
  exact gray_two_pow_sub_one _

theorem exists_gray_xor_adv {p : Config} (h : checkAf p = none) {b : Nat} (hb : b < p.c) :
    ∃ j, gray b ^^^ gray (adv p b) = 2 ^ j := by
  rw [adv_eq_ite (checkAf_shared h) hb]
  split
  · rename_i hlast
    obtain rfl : b = p.c - 1 := by omega
    exact ⟨_, by rw [gray_last (checkAf_spec h).1, gray_zero, Nat.xor_zero]⟩
  · exact exists_gray_xor_succ b

/-- Settles O7: `gray` is linear over `^^^`, an advance changes a run of low bits, and the gray code
of such a run is one bit. -/
theorem grayCodeLaws : Obligations.GrayCodeLaws := by
  unfold Obligations.GrayCodeLaws
  refine ⟨fun w x hx => ⟨gray_lt hx, grayInv_gray hx, grayInv_lt hx, gray_grayInv hx⟩, ?_⟩
  intro p b hp hb
  have hs := checkAf_shared hp
  obtain ⟨-, hc, -⟩ := checkShared_spec hs
  have hIW := le_two_pow_indexWidth hc
  obtain ⟨j, hj⟩ := exists_gray_xor_adv hp hb
  have hlt : 2 ^ j < 2 ^ indexWidth p.c :=
    hj ▸ Nat.xor_lt_two_pow (gray_lt (Nat.lt_of_lt_of_le hb hIW))
      (gray_lt (Nat.lt_of_lt_of_le (adv_lt hs b) hIW))
  exact ⟨⟨j, (Nat.pow_lt_pow_iff_right Nat.one_lt_two).1 hlt, hj⟩, gray_last (checkAf_spec hp).1,
    gray_zero⟩

end Sys2Proof.Machine
end

section
/-! R404: the strategy is read by `wrap` and by the elaboration checks alone, so no event and no
output tells a machine from the same machine elaborated with `MOD`. -/

namespace Sys2Proof

/-- The same elaboration with `MOD` for `MASK` wherever the two agree. Unlike `Config.asMod` it
computes what the given one computes in every elaboration, legal or not. -/
def Config.modIfPow2 (p : Config) : Config :=
  { p with strat := if Machine.isPow2 p.c then .mod else p.strat }

end Sys2Proof

namespace Sys2Proof.Machine

/-! ## The index unit -/

theorem modIfPow2_of_stratLegal {p : Config} (h : stratLegal p) : p.modIfPow2 = p.asMod := by
  cases hs : p.strat with
  | mod => simp [Config.modIfPow2, Config.asMod, hs]
  | mask => simp [Config.modIfPow2, Config.asMod, h hs]

theorem modIfPow2_cases (p : Config) :
    p.modIfPow2 = p ∨ stratLegal p ∧ p.modIfPow2 = p.asMod := by
  cases hpow : isPow2 p.c with
  | false => exact .inl (by simp [Config.modIfPow2, hpow])
  | true => exact .inr ⟨fun _ => hpow, modIfPow2_of_stratLegal fun _ => hpow⟩

@[simp] theorem wrap_modIfPow2 (p : Config) : wrap p.modIfPow2 = wrap p := by
  funext x
  obtain h | ⟨hl, h⟩ := modIfPow2_cases p
  · rw [h]
  · rw [h, wrap_asMod hl]

@[simp] theorem checkShared_modIfPow2 (p : Config) : checkShared p.modIfPow2 = checkShared p := by
  obtain h | ⟨hl, h⟩ := modIfPow2_cases p
  · rw [h]
  · rw [h, checkShared_asMod hl]

@[simp] theorem checkRbc_modIfPow2 (p : Config) : checkRbc p.modIfPow2 = checkRbc p := by
  unfold checkRbc
  rw [checkShared_modIfPow2]
  rfl

@[simp] theorem checkSf_modIfPow2 (p : Config) : checkSf p.modIfPow2 = checkSf p := by
  unfold checkSf
  rw [checkShared_modIfPow2]
  rfl

@[simp] theorem checkAf_modIfPow2 (p : Config) : checkAf p.modIfPow2 = checkAf p := by
  unfold checkAf
  rw [checkShared_modIfPow2]
  rfl

@[simp] theorem adv_modIfPow2 (p : Config) : adv p.modIfPow2 = adv p := by
  funext i
  simp only [adv, wrap_modIfPow2]

@[simp] theorem addk_modIfPow2 (p : Config) : addk p.modIfPow2 = addk p := by
  funext i k
  simp only [addk, wrap_modIfPow2]

@[simp] theorem isFull_modIfPow2 (p : Config) : isFull p.modIfPow2 = isFull p := by
  funext head tail
  simp only [isFull, adv_modIfPow2]

@[simp] theorem readSlot_modIfPow2 (p : Config) : readSlot p.modIfPow2 = readSlot p := by
  funext head j
  simp only [readSlot, addk_modIfPow2]

@[simp] theorem occ_modIfPow2 (p : Config) : occ p.modIfPow2 = occ p := rfl
@[simp] theorem freeSlots_modIfPow2 (p : Config) : freeSlots p.modIfPow2 = freeSlots p := rfl
@[simp] theorem memRead_modIfPow2 (p : Config) : memRead p.modIfPow2 = memRead p := rfl
@[simp] theorem memWrite_modIfPow2 (p : Config) : memWrite p.modIfPow2 = memWrite p := rfl
@[simp] theorem decode_modIfPow2 (p : Config) : decode p.modIfPow2 = decode p := rfl

@[simp] theorem plannedSteps_modIfPow2 (p : Config) :
    plannedSteps p.modIfPow2 = plannedSteps p := by
  funext op n head tail
  cases op
  case writeObj => simp only [plannedSteps, isFull_modIfPow2]
  all_goals rfl

@[simp] theorem statusOf_modIfPow2 (p : Config) : statusOf p.modIfPow2 = statusOf p := by
  funext head tail
  simp only [statusOf, isFull_modIfPow2, occ_modIfPow2, freeSlots_modIfPow2]

@[simp] theorem prefixCursors_modIfPow2 (p : Config) :
    prefixCursors p.modIfPow2 = prefixCursors p := by
  funext op head tail j
  simp only [prefixCursors, addk_modIfPow2]

/-! ## The RBC: one-object steps and loops -/

/-- The same block with `MOD` for `MASK` wherever the two agree. -/
def Rbc.modIfPow2 (b : Rbc) : Rbc := { b with cfg := b.cfg.modIfPow2 }

@[simp] theorem Rbc.modIfPow2_cfg (b : Rbc) : b.modIfPow2.cfg = b.cfg.modIfPow2 := rfl
@[simp] theorem Rbc.modIfPow2_head (b : Rbc) : b.modIfPow2.head = b.head := rfl
@[simp] theorem Rbc.modIfPow2_tail (b : Rbc) : b.modIfPow2.tail = b.tail := rfl
@[simp] theorem Rbc.modIfPow2_sto (b : Rbc) : b.modIfPow2.sto = b.sto := rfl
@[simp] theorem Rbc.modIfPow2_phase (b : Rbc) : b.modIfPow2.phase = b.phase := rfl

@[simp] theorem Rbc.dropOne_modIfPow2 (b : Rbc) : b.modIfPow2.dropOne = b.dropOne.modIfPow2 := by
  simp only [Rbc.dropOne, Rbc.modIfPow2, adv_modIfPow2]

theorem Rbc.writeOne_modIfPow2 (b : Rbc) (d : Nat) :
    b.modIfPow2.writeOne d = (b.writeOne d).map Rbc.modIfPow2 := by
  simp only [Rbc.writeOne, Rbc.modIfPow2, memWrite_modIfPow2, adv_modIfPow2]
  cases memWrite b.cfg b.sto (writeSlot b.tail) d <;> rfl

theorem Rbc.takeOne_modIfPow2 (b : Rbc) :
    b.modIfPow2.takeOne = b.takeOne.map (Prod.map id Rbc.modIfPow2) := by
  simp only [Rbc.takeOne, Rbc.dropOne_modIfPow2, Rbc.modIfPow2_cfg, Rbc.modIfPow2_sto,
    Rbc.modIfPow2_head, memRead_modIfPow2]
  cases memRead b.cfg b.sto b.head <;> rfl

theorem writeEach_modIfPow2 (ds : List Nat) (b : Rbc) :
    writeEach ds b.modIfPow2 = (writeEach ds b).map Rbc.modIfPow2 := by
  induction ds generalizing b with
  | nil => rfl
  | cons d ds ih =>
    rw [writeEach, writeEach, Rbc.writeOne_modIfPow2]
    cases b.writeOne d with
    | error e => rfl
    | ok b₁ => exact ih b₁

theorem writeUntilFull_modIfPow2 (ds : List Nat) (b : Rbc) :
    writeUntilFull ds b.modIfPow2 = (writeUntilFull ds b).map (Prod.map Rbc.modIfPow2 id) := by
  induction ds generalizing b with
  | nil => rfl
  | cons d ds ih =>
    simp only [writeUntilFull, Rbc.writeOne_modIfPow2, Rbc.modIfPow2_cfg, Rbc.modIfPow2_head,
      Rbc.modIfPow2_tail, isFull_modIfPow2]
    split
    · rfl
    · cases b.writeOne d with
      | error e => rfl
      | ok b₁ =>
        simp only [Except.map, ih]
        cases writeUntilFull ds b₁ <;> rfl

theorem takeEach_modIfPow2 (n : Nat) (b : Rbc) :
    takeEach n b.modIfPow2 = (takeEach n b).map (Prod.map Rbc.modIfPow2 id) := by
  induction n generalizing b with
  | zero => rfl
  | succ n ih =>
    simp only [takeEach, Rbc.takeOne_modIfPow2]
    cases b.takeOne with
    | error e => rfl
    | ok x =>
      simp only [Except.map, Prod.map, ih]
      cases takeEach n x.2 <;> rfl

theorem takeUntilEmpty_modIfPow2 (n : Nat) (b : Rbc) :
    takeUntilEmpty n b.modIfPow2 = (takeUntilEmpty n b).map (Prod.map Rbc.modIfPow2 id) := by
  induction n generalizing b with
  | zero => rfl
  | succ n ih =>
    simp only [takeUntilEmpty, Rbc.takeOne_modIfPow2, Rbc.modIfPow2_head, Rbc.modIfPow2_tail]
    split
    · rfl
    · cases b.takeOne with
      | error e => rfl
      | ok x =>
        simp only [Except.map, Prod.map, ih]
        cases takeUntilEmpty n x.2 <;> rfl

theorem dropUntilEmpty_modIfPow2 (n : Nat) (b : Rbc) :
    dropUntilEmpty n b.modIfPow2 = Prod.map Rbc.modIfPow2 id (dropUntilEmpty n b) := by
  induction n generalizing b with
  | zero => rfl
  | succ n ih =>
    simp only [dropUntilEmpty, Rbc.modIfPow2_head, Rbc.modIfPow2_tail, Rbc.dropOne_modIfPow2, ih]
    split <;> rfl

/-! ## The RBC: commands -/

theorem commandOf_modIfPow2 (i : Instr) (b : Rbc) :
    commandOf i b.modIfPow2 = (commandOf i b).map (Prod.map Rbc.modIfPow2 id) := by
  cases i
  case writeObj d =>
    simp only [commandOf, Rbc.writeObjCommand, Rbc.writeOne_modIfPow2, Rbc.modIfPow2_cfg,
      Rbc.modIfPow2_head, Rbc.modIfPow2_tail, isFull_modIfPow2]
    split
    · rfl
    · cases b.writeOne d <;> rfl
  case readObj =>
    simp only [commandOf, Rbc.readObjCommand, Rbc.takeOne_modIfPow2, Rbc.modIfPow2_head,
      Rbc.modIfPow2_tail]
    split
    · rfl
    · cases b.takeOne <;> rfl
  case deleteHead =>
    simp only [commandOf, Rbc.deleteHeadCommand, Rbc.dropOne_modIfPow2, Rbc.modIfPow2_head,
      Rbc.modIfPow2_tail]
    split <;> rfl
  case deleteN n =>
    simp only [commandOf, Rbc.deleteNCommand, dropUntilEmpty_modIfPow2]
    rfl
  case writeN n ds =>
    simp only [commandOf, Rbc.writeNCommand, writeUntilFull_modIfPow2]
    cases writeUntilFull ds b <;> rfl
  case readN n =>
    simp only [commandOf, Rbc.readNCommand, takeUntilEmpty_modIfPow2]
    cases takeUntilEmpty n b <;> rfl
  case writeAll n ds =>
    simp only [commandOf, Rbc.writeAllCommand, writeEach_modIfPow2, Rbc.modIfPow2_cfg,
      Rbc.modIfPow2_head, Rbc.modIfPow2_tail, freeSlots_modIfPow2]
    split
    · cases writeEach ds b <;> rfl
    · rfl
  case readAll n =>
    simp only [commandOf, Rbc.readAllCommand, takeEach_modIfPow2, Rbc.modIfPow2_cfg,
      Rbc.modIfPow2_head, Rbc.modIfPow2_tail, occ_modIfPow2]
    split
    · cases takeEach n b <;> rfl
    · rfl
  case peekNth n =>
    simp only [commandOf, Rbc.peekNthCommand, Rbc.modIfPow2_cfg, Rbc.modIfPow2_head,
      Rbc.modIfPow2_tail, Rbc.modIfPow2_sto, occ_modIfPow2, readSlot_modIfPow2, memRead_modIfPow2]
    split
    · rfl
    · cases memRead b.cfg b.sto (readSlot b.cfg b.head (n % occ b.cfg b.head b.tail)) <;> rfl
  case qFull =>
    simp only [commandOf, Rbc.qFullCommand, Rbc.modIfPow2_cfg, isFull_modIfPow2]
    rfl
  all_goals rfl

/-! ## The RBC: the cycle level -/

theorem Rbc.lastStep_modIfPow2 (b : Rbc) (job : Job) :
    b.modIfPow2.lastStep job = (b.lastStep job).map (Prod.map Rbc.modIfPow2 id) := by
  obtain ⟨op, n, data, k, issued, sent, flight, cycles⟩ := job
  cases op
  case writeObj =>
    simp only [Rbc.lastStep]
    split
    · exact commandOf_modIfPow2 (.writeObj data) b
    · rfl
  case deleteHead => exact commandOf_modIfPow2 .deleteHead b
  case deleteN => exact commandOf_modIfPow2 (.deleteN n) b
  case qFull => exact commandOf_modIfPow2 .qFull b
  all_goals rfl

theorem Rbc.finish_modIfPow2 (b : Rbc) (job : Job) :
    b.modIfPow2.finish job = (b.finish job).map Rbc.modIfPow2 := by
  have hw : b.modIfPow2.lastWrite job = b.lastWrite job := by
    simp only [Rbc.lastWrite, Rbc.modIfPow2_cfg, isFull_modIfPow2]
    rfl
  simp only [Rbc.finish, Rbc.lastStep_modIfPow2, hw]
  cases b.lastStep job <;> rfl

theorem Rbc.access_modIfPow2 (b : Rbc) (job : Job) :
    b.modIfPow2.access job = (b.access job).map Rbc.modIfPow2 := by
  obtain ⟨op, n, data, k, issued, sent, flight, cycles⟩ := job
  cases op
  case readObj | readN | readAll =>
    simp only [Rbc.access, Rbc.takeOne_modIfPow2]
    cases b.takeOne <;> rfl
  case peekNth =>
    simp only [Rbc.access, Rbc.modIfPow2_cfg, Rbc.modIfPow2_head, Rbc.modIfPow2_tail,
      Rbc.modIfPow2_sto, occ_modIfPow2, readSlot_modIfPow2, memRead_modIfPow2]
    cases memRead b.cfg b.sto (readSlot b.cfg b.head (n % occ b.cfg b.head b.tail)) <;> rfl
  case writeObj =>
    simp only [Rbc.access, Rbc.writeOne_modIfPow2]
    cases b.writeOne data <;> rfl
  all_goals rfl

theorem Rbc.sendData_modIfPow2 (b : Rbc) (send : Bool) (job : Job) :
    b.modIfPow2.sendData send job = Prod.map id Rbc.modIfPow2 (b.sendData send job) := by
  unfold Rbc.sendData
  split
  · cases job.flight <;> rfl
  · rfl

theorem Rbc.execMove_modIfPow2 (b : Rbc) (issue send : Bool) (job : Job) :
    b.modIfPow2.execMove issue send job = (b.execMove issue send job).map Rbc.modIfPow2 := by
  simp only [Rbc.execMove, Rbc.finish_modIfPow2, Rbc.sendData_modIfPow2, Prod.map,
    Rbc.access_modIfPow2, show b.modIfPow2.lastReady job = b.lastReady job from rfl,
    show b.modIfPow2.accessesLeft job = b.accessesLeft job from rfl, id]
  split
  · rfl
  · split <;> rfl

theorem Rbc.execEdge_modIfPow2 (b : Rbc) (pace : Pace) (job : Job) :
    b.modIfPow2.execEdge pace job = (b.execEdge pace job).map Rbc.modIfPow2 := by
  simp only [Rbc.execEdge, Rbc.execMove_modIfPow2,
    show b.modIfPow2.cfg.latMax = b.cfg.latMax from rfl]
  split
  · rfl
  · cases b.execMove pace.issue pace.send job with
    | error e => rfl
    | ok b₁ =>
      simp only [Except.map, show b₁.modIfPow2.inTime = b₁.inTime from rfl]
      split <;> rfl

theorem Rbc.acceptHeader_modIfPow2 (b : Rbc) (w d : Nat) :
    b.modIfPow2.acceptHeader w d = (b.acceptHeader w d).modIfPow2 := by
  simp only [Rbc.acceptHeader, Rbc.modIfPow2_cfg, plannedSteps_modIfPow2]
  rfl

theorem Rbc.acceptData_modIfPow2 (b : Rbc) (d : Nat) (op : Opcode) (n k i : Nat) :
    b.modIfPow2.acceptData d op n k i = (b.acceptData d op n k i).map Rbc.modIfPow2 := by
  simp only [Rbc.acceptData, Rbc.writeOne_modIfPow2]
  split
  · cases b.writeOne d <;> rfl
  · rfl

/-- An outcome of the RBC's edge, with a function applied to the next block. -/
def mapNextRbc (f : Rbc → Rbc) : Host.Outcome Rbc Fault Refusal → Host.Outcome Rbc Fault Refusal
  | .next b => .next (f b)
  | .fault e => .fault e
  | .refused r => .refused r

theorem edgeOutcome_map (f : Rbc → Rbc) (r : Except Fault Rbc) :
    edgeOutcome (r.map f) = mapNextRbc f (edgeOutcome r) := by
  cases r <;> rfl

theorem Rbc.runEdge_modIfPow2 (b : Rbc) (valid : Bool) (beat : CmdBeat) (pace : Pace) :
    b.modIfPow2.runEdge valid beat pace = mapNextRbc Rbc.modIfPow2 (b.runEdge valid beat pace) := by
  have hstart (ready : Bool) : b.modIfPow2.startEdge valid ready beat =
      (b.startEdge valid ready beat).modIfPow2 := rfl
  simp only [Rbc.runEdge, hstart, Rbc.modIfPow2_phase,
    show b.modIfPow2.cmdReady false pace.stall = b.cmdReady false pace.stall from rfl]
  split
  · rw [Rbc.acceptHeader_modIfPow2]
    cases valid <;> rfl
  · rw [Rbc.acceptData_modIfPow2, edgeOutcome_map]
    split
    · rfl
    · split <;> rfl
  · rw [Rbc.execEdge_modIfPow2, edgeOutcome_map]

theorem Rbc.clkEdge_modIfPow2 (b : Rbc) (rst valid : Bool) (beat : CmdBeat) (pace : Pace) :
    b.modIfPow2.clkEdge rst valid beat pace =
      mapNextRbc Rbc.modIfPow2 (b.clkEdge rst valid beat pace) := by
  simp only [Rbc.clkEdge, Rbc.runEdge_modIfPow2, Rbc.modIfPow2_cfg, checkRbc_modIfPow2]
  cases checkRbc b.cfg with
  | some r => rfl
  | none =>
    simp only [legally_none, apply_ite (mapNextRbc Rbc.modIfPow2)]
    rfl

/-! ## SF and AF -/

/-- The same block with `MOD` for `MASK` wherever the two agree. -/
def Sf.modIfPow2 (f : Sf) : Sf := { f with cfg := f.cfg.modIfPow2 }

/-- The same block with `MOD` for `MASK` wherever the two agree. -/
def Af.modIfPow2 (a : Af) : Af := { a with cfg := a.cfg.modIfPow2 }

@[simp] theorem Sf.modIfPow2_cfg (f : Sf) : f.modIfPow2.cfg = f.cfg.modIfPow2 := rfl
@[simp] theorem Af.modIfPow2_cfg (a : Af) : a.modIfPow2.cfg = a.cfg.modIfPow2 := rfl

theorem Sf.edge_modIfPow2 (f : Sf) (wrEn rdEn : Bool) (d : Nat) :
    f.modIfPow2.edge wrEn rdEn d = (f.edge wrEn rdEn d).map Sf.modIfPow2 := by
  simp only [Sf.edge, Sf.modIfPow2, isFull_modIfPow2, adv_modIfPow2, memRead_modIfPow2,
    memWrite_modIfPow2]
  by_cases hr : (rdEn && !isEmpty f.head f.tail) = true <;>
    by_cases hw : (wrEn && !isFull f.cfg f.head f.tail) = true <;>
    simp only [hr, hw, Bool.false_eq_true, ↓reduceIte]
  · cases memRead f.cfg f.sto f.head <;> cases memWrite f.cfg f.sto (writeSlot f.tail) d <;> rfl
  · cases memRead f.cfg f.sto f.head <;> rfl
  · cases memWrite f.cfg f.sto (writeSlot f.tail) d <;> rfl
  · rfl

theorem Af.fullW_modIfPow2 (a : Af) : a.modIfPow2.fullW = a.fullW := by
  simp only [Af.fullW, Af.modIfPow2, adv_modIfPow2]

theorem Af.pushOne_modIfPow2 (a : Af) (d : Nat) :
    a.modIfPow2.pushOne d = (a.pushOne d).map Af.modIfPow2 := by
  simp only [Af.pushOne, Af.modIfPow2, adv_modIfPow2, memWrite_modIfPow2]
  cases memWrite a.cfg a.sto (writeSlot a.wbin) d <;> rfl

theorem Af.popOne_modIfPow2 (a : Af) : a.modIfPow2.popOne = a.popOne.map Af.modIfPow2 := by
  simp only [Af.popOne, Af.modIfPow2, adv_modIfPow2, memRead_modIfPow2]
  cases memRead a.cfg a.sto a.rbin <;> rfl

theorem Af.wEdge_modIfPow2 (a : Af) (winc : Bool) (d draw : Nat) :
    a.modIfPow2.wEdge winc d draw = (a.wEdge winc d draw).map Af.modIfPow2 := by
  simp only [Af.wEdge, Af.fullW_modIfPow2, Af.pushOne_modIfPow2]
  cases winc && !a.fullW with
  | false => rfl
  | true => cases a.pushOne d <;> rfl

theorem Af.rEdge_modIfPow2 (a : Af) (rinc : Bool) (draw : Nat) :
    a.modIfPow2.rEdge rinc draw = (a.rEdge rinc draw).map Af.modIfPow2 := by
  simp only [Af.rEdge, Af.popOne_modIfPow2, show a.modIfPow2.emptyR = a.emptyR from rfl]
  cases rinc && !a.emptyR with
  | false => rfl
  | true => cases a.popOne <;> rfl

theorem Af.wclkEdge_modIfPow2 (winc : Bool) (d draw : Nat) (release : Bool) (a : Af) :
    a.modIfPow2.wclkEdge winc d draw release =
      (a.wclkEdge winc d draw release).map Af.modIfPow2 := by
  have hreset : a.modIfPow2.wResetEdge draw release = (a.wResetEdge draw release).modIfPow2 := by
    simp only [Af.wResetEdge, apply_ite Af.modIfPow2]
    rfl
  simp only [Af.wclkEdge, Af.wEdge_modIfPow2, hreset, apply_ite (Except.map Af.modIfPow2)]
  rfl

theorem Af.rclkEdge_modIfPow2 (rinc : Bool) (draw : Nat) (release : Bool) (a : Af) :
    a.modIfPow2.rclkEdge rinc draw release =
      (a.rclkEdge rinc draw release).map Af.modIfPow2 := by
  have hreset : a.modIfPow2.rResetEdge draw release = (a.rResetEdge draw release).modIfPow2 := by
    simp only [Af.rResetEdge, apply_ite Af.modIfPow2]
    rfl
  simp only [Af.rclkEdge, Af.rEdge_modIfPow2, hreset, apply_ite (Except.map Af.modIfPow2)]
  rfl

theorem Af.driveReset_modIfPow2 (level : Bool) (a : Af) :
    a.modIfPow2.driveReset level = (a.driveReset level).modIfPow2 := by
  cases level <;> rfl

/-! ## The machine -/

/-- The same machine with `MOD` for `MASK` wherever the two agree. -/
def State.modIfPow2 (s : State) : State :=
  { s with rbc := s.rbc.modIfPow2, sf := s.sf.modIfPow2, af := s.af.modIfPow2 }

@[simp] theorem State.modIfPow2_rbc (s : State) : s.modIfPow2.rbc = s.rbc.modIfPow2 := rfl
@[simp] theorem State.modIfPow2_sf (s : State) : s.modIfPow2.sf = s.sf.modIfPow2 := rfl
@[simp] theorem State.modIfPow2_af (s : State) : s.modIfPow2.af = s.af.modIfPow2 := rfl
@[simp] theorem State.modIfPow2_pace (s : State) : s.modIfPow2.pace = s.pace := rfl
@[simp] theorem State.modIfPow2_free (s : State) : s.modIfPow2.free = s.free := rfl

theorem State.modIfPow2_eq_asMod {s : State} (hrbc : stratLegal s.rbc.cfg)
    (hsf : stratLegal s.sf.cfg) (haf : stratLegal s.af.cfg) : s.modIfPow2 = s.asMod := by
  simp only [State.modIfPow2, State.asMod, Rbc.modIfPow2, Sf.modIfPow2, Af.modIfPow2,
    modIfPow2_of_stratLegal hrbc, modIfPow2_of_stratLegal hsf, modIfPow2_of_stratLegal haf]

theorem mapNext_legally (f : State → State) (c : Option Refusal)
    (o : Host.Outcome State Fault Refusal) :
    mapNext f (legally c o) = legally c (mapNext f o) := by
  cases c <;> rfl

theorem transact_modIfPow2 {f : Rbc → Except Fault (Rbc × Response)}
    (hf : ∀ b, f b.modIfPow2 = (f b).map (Prod.map Rbc.modIfPow2 id)) (s : State) :
    transact s.modIfPow2 f = mapNext State.modIfPow2 (transact s f) := by
  simp only [transact, mapNext_legally, State.modIfPow2_rbc, hf, Rbc.modIfPow2_cfg,
    Rbc.modIfPow2_phase, checkRbc_modIfPow2]
  congr 1
  split
  · cases f s.rbc <;> rfl
  · rfl

theorem onSf_modIfPow2 {f : Sf → Except Fault Sf}
    (hf : ∀ g, f g.modIfPow2 = (f g).map Sf.modIfPow2) (s : State) :
    onSf s.modIfPow2 f = mapNext State.modIfPow2 (onSf s f) := by
  simp only [onSf, mapNext_legally, State.modIfPow2_sf, hf, Sf.modIfPow2_cfg, checkSf_modIfPow2]
  cases f s.sf <;> rfl

theorem onAf_modIfPow2 {f : Nat → Bool → Af → Except Fault Af}
    (hf : ∀ draw release a, f draw release a.modIfPow2 = (f draw release a).map Af.modIfPow2)
    (s : State) : onAf s.modIfPow2 f = mapNext State.modIfPow2 (onAf s f) := by
  simp only [onAf, mapNext_legally, State.modIfPow2_af, State.modIfPow2_free, hf, Af.modIfPow2_cfg,
    checkAf_modIfPow2]
  cases f (Config.freeSample s.free) (Config.freeRelease s.free) s.af <;> rfl

theorem onSf_edge_modIfPow2 (wr rd : Bool) (d : Nat) (s : State) :
    onSf s.modIfPow2 (Sf.edge wr rd d) = mapNext State.modIfPow2 (onSf s (Sf.edge wr rd d)) :=
  onSf_modIfPow2 (fun f => f.edge_modIfPow2 wr rd d) s

theorem sfReset_modIfPow2 (s : State) :
    sfReset s.modIfPow2 = mapNext State.modIfPow2 (sfReset s) :=
  onSf_modIfPow2 (f := fun f => .ok f.cleared) (fun _ => rfl) s

theorem exec_modIfPow2 (i : Instr) (s : State) :
    exec i s.modIfPow2 = mapNext State.modIfPow2 (exec i s) := by
  cases i
  case sfIdle => exact onSf_edge_modIfPow2 false false 0 s
  case sfPush d => exact onSf_edge_modIfPow2 true false d s
  case sfPop => exact onSf_edge_modIfPow2 false true 0 s
  case sfPushPop d => exact onSf_edge_modIfPow2 true true d s
  case sfClear => exact sfReset_modIfPow2 s
  case afWidle => exact onAf_modIfPow2 (Af.wclkEdge_modIfPow2 false 0) s
  case afPush d => exact onAf_modIfPow2 (Af.wclkEdge_modIfPow2 true d) s
  case afRidle => exact onAf_modIfPow2 (Af.rclkEdge_modIfPow2 false) s
  case afPop => exact onAf_modIfPow2 (Af.rclkEdge_modIfPow2 true) s
  all_goals
    rw [exec_rbc rfl, exec_rbc rfl]
    exact transact_modIfPow2 (commandOf_modIfPow2 _) s

theorem decodeAndExec_modIfPow2 (p : Config) (word : PortWord) (s : State) :
    decodeAndExec p.modIfPow2 word s.modIfPow2 =
      mapNext State.modIfPow2 (decodeAndExec p word s) := by
  simp only [decodeAndExec, decode_modIfPow2, exec_modIfPow2]
  cases decode p word <;> rfl

theorem runCommand_modIfPow2 (w d : Nat) (ds : List Nat) (s : State) :
    runCommand w d ds s.modIfPow2 = mapNext State.modIfPow2 (runCommand w d ds s) := by
  have hexec := decodeAndExec_modIfPow2 s.rbc.cfg (.hdr w d ds) s.commandTaken
  simp only [runCommand, apply_ite (mapNext State.modIfPow2), ← hexec]
  rfl

theorem rbcClock_modIfPow2 (rst valid : Bool) (beat : CmdBeat) (s : State) :
    rbcClock rst valid beat s.modIfPow2 =
      mapNext State.modIfPow2 (rbcClock rst valid beat s) := by
  simp only [rbcClock, State.modIfPow2_rbc, State.modIfPow2_pace, Rbc.clkEdge_modIfPow2]
  cases s.rbc.clkEdge rst valid beat s.pace <;> rfl

theorem runSfEdge_modIfPow2 (rst : Bool) (w d : Nat) (s : State) :
    runSfEdge rst w d s.modIfPow2 = mapNext State.modIfPow2 (runSfEdge rst w d s) := by
  cases rst with
  | true => exact sfReset_modIfPow2 s
  | false => exact decodeAndExec_modIfPow2 s.sf.cfg (.sfCtl w d) s

theorem runLegal_modIfPow2 (e : Event) (s : State) :
    runLegal e s.modIfPow2 = mapNext State.modIfPow2 (runLegal e s) := by
  cases e with
  | cmd w d ds => exact runCommand_modIfPow2 w d ds s
  | rbcClk rst valid beat => exact rbcClock_modIfPow2 rst valid beat s
  | sfClk rst w d => exact runSfEdge_modIfPow2 rst w d s
  | wclk w d => exact decodeAndExec_modIfPow2 s.af.cfg (.afW w d) s
  | rclk w => exact decodeAndExec_modIfPow2 s.af.cfg (.afR w) s
  | arst level =>
    simp only [runLegal, afReset, mapNext_legally, State.modIfPow2_af, Af.driveReset_modIfPow2,
      Af.modIfPow2_cfg, checkAf_modIfPow2]
    rfl
  | secondAgent | domainReset => rfl

theorem Event.check_modIfPow2 (e : Event) (s : State) : e.check s.modIfPow2 = e.check s := by
  cases e with
  | cmd | rbcClk => exact checkRbc_modIfPow2 s.rbc.cfg
  | sfClk => exact checkSf_modIfPow2 s.sf.cfg
  | wclk | rclk | arst => exact checkAf_modIfPow2 s.af.cfg
  | secondAgent | domainReset => rfl

theorem runEvent_modIfPow2 (e : Event) (s : State) :
    runEvent e s.modIfPow2 = mapNext State.modIfPow2 (runEvent e s) := by
  rw [runEvent, runEvent, mapNext_legally, Event.check_modIfPow2, runLegal_modIfPow2]

/-- R404: with a legal strategy the same holds of `MOD`, since no event writes a parameter. -/
theorem runEvent_asMod {e : Event} {s : State} (hrbc : stratLegal s.rbc.cfg)
    (hsf : stratLegal s.sf.cfg) (haf : stratLegal s.af.cfg) :
    runEvent e s.asMod = mapNext State.asMod (runEvent e s) := by
  rw [← State.modIfPow2_eq_asMod hrbc hsf haf, runEvent_modIfPow2]
  cases h : runEvent e s with
  | next t =>
    obtain ⟨hr, hf, ha⟩ := runLegal_steps (runEvent_next.1 h).2
    have ht : t.modIfPow2 = t.asMod :=
      State.modIfPow2_eq_asMod (hr.cfg_eq ▸ hrbc) (hf.cfg_eq ▸ hsf) (ha.cfg_eq ▸ haf)
    simp only [mapNext, ht]
  | fault | refused => rfl

/-! ## What the machine shows, and R403 -/

theorem State.rbcStatus_modIfPow2 (s : State) : s.modIfPow2.rbcStatus = s.rbcStatus := by
  simp only [State.rbcStatus, Rbc.status, Rbc.shownCursors, State.modIfPow2_rbc,
    State.modIfPow2_free, Rbc.modIfPow2, statusOf_modIfPow2, prefixCursors_modIfPow2]

theorem Sf.status_modIfPow2 (f : Sf) : f.modIfPow2.status = f.status := by
  simp only [Sf.status, Sf.modIfPow2, statusOf_modIfPow2]

/-- R403: `k` places after `i` are `k` advances. -/
theorem addk_eq_iterate {p : Config} (h : checkShared p = none) {i : Nat} (hi : i < p.c)
    (k : Nat) : addk p i k = (adv p)^[k] i := by
  induction k with
  | zero => exact addk_zero h hi
  | succ k ih => rw [addk_succ h, ih, Function.iterate_succ_apply']

/-- Settles O5: every event and every output reads the strategy through `wrap`, and a legal `wrap`
is a modulo. -/
theorem indexAdvanceLaws : Obligations.IndexAdvanceLaws := by
  unfold Obligations.IndexAdvanceLaws
  refine ⟨?mask, ?unobservable, ?agree, ?iterate⟩
  case mask =>
    intro p m x hc
    refine ⟨?_, rfl⟩
    simp only [wrap, hc, Nat.and_two_pow_sub_one_eq_mod]
  case unobservable =>
    intro e s hrbc hsf haf
    refine ⟨runEvent_asMod hrbc hsf haf, ?_⟩
    rw [← State.modIfPow2_eq_asMod hrbc hsf haf]
    exact ⟨s.rbcStatus_modIfPow2, s.sf.status_modIfPow2, s.af.fullW_modIfPow2, rfl, rfl, rfl⟩
  case agree =>
    intro p i k hpow
    exact ⟨and_pred_eq_mod hpow _, and_pred_eq_mod hpow _⟩
  case iterate =>
    intro p i k hp hi
    exact ⟨addk_eq_mod hp i k, addk_eq_iterate hp hi k⟩

end Sys2Proof.Machine
end

section
/-! The header port's rows, and what a command answered in `IDLE` on a legal elaboration leaves:
NOP, CLEAR, the queries and the reserved opcode (41_rbc_construction_queries.md, R710). -/

open Sys2Proof.Statements

namespace Sys2Proof.Machine

/-- R301, R310, R320: every opcode's row, with the data beats it asks for. -/
theorem headerIs_ofHeader (op : Nat) :
    HeaderIs op (burstLength (Opcode.ofBits op)) (Instr.ofHeader (Opcode.ofBits op)) := by
  rintro p w d ds hw hd hds rfl hl
  exact decode_hdr_iff.2 ⟨hw, hd, hds, hl, rfl⟩

theorem exec_of_ready {i : Instr} {s : State} {b : Rbc} {r : Response} (hi : isRbc i = true)
    (hs : s.rbcReady) (hf : commandOf i s.rbc = .ok (b, r)) :
    exec i s = .next { s with rbc := b.respond r } := by
  rw [exec_rbc hi]
  exact transact_next.2 ⟨hs.1, hs.2, b, r, hf, rfl⟩

theorem respond_answer (b : Rbc) (st : Status) (k : Nat) :
    b.respond (answer st k) = answered b st k := rfl

/-- A command that answers without touching the block. -/
theorem exec_of_answer {i : Instr} {s : State} {st : Status} {k : Nat} (hi : isRbc i = true)
    (hs : s.rbcReady) (hf : commandOf i s.rbc = .ok (s.rbc, answer st k)) :
    exec i s = .next { s with rbc := answered s.rbc st k } := by
  rw [exec_of_ready hi hs hf, respond_answer]

/-! ## NOP, the reserved opcode and CLEAR (R501, R510, R710) -/

/-- Settles O8: both commands answer from the block as it is. -/
theorem nopAndReservedOnlyAnswer : Obligations.NopAndReservedOnlyAnswer := by
  unfold Obligations.NopAndReservedOnlyAnswer
  refine ⟨headerIs_ofHeader 0x0, headerIs_ofHeader 0xF, fun s hs => ⟨?nop, ?reserved⟩⟩
  case nop => exact exec_of_answer rfl hs rfl
  case reserved => exact exec_of_answer rfl hs rfl

/-- R502: the flags of an empty buffer, whose capacity is `C − 1`. -/
theorem statusOf_same {p : Config} (h : checkShared p = none) {i : Nat} (hi : i < p.c) :
    statusOf p i i = ⟨true, false, 0, p.c - 1⟩ := by
  have hocc : occ p i i = 0 := by simp [occ]
  have hempty : isEmpty i i = true := decide_eq_true rfl
  have hfull : isFull p i i = false := by
    simpa [hempty] using not_full_and_empty h hi hi
  simp [statusOf, hempty, hfull, hocc, freeSlots]

/-- Settles O9: CLEAR writes the two cursors and answers, and equal cursors are an empty buffer. -/
theorem clearEmptiesTheBuffer : Obligations.ClearEmptiesTheBuffer := by
  unfold Obligations.ClearEmptiesTheBuffer
  refine ⟨headerIs_ofHeader 0x1, fun s hs => ⟨?answer, ?flags⟩⟩
  case answer =>
    rw [exec_of_ready rfl hs rfl]
    rfl
  case flags =>
    have hshared := checkRbc_shared hs.1
    obtain ⟨-, hc, -⟩ := checkShared_spec hshared
    exact statusOf_same hshared (by omega)

/-! ## The queries (R520 to R523) -/

/-- A query's count, as the capacity function of the cursors. -/
theorem exec_queries {s : State} (hs : s.rbcReady) :
    let b := s.rbc
    exec .qEmpty s = .next { s with rbc := answered b .ok (isEmpty b.head b.tail).toNat } ∧
    exec .qFull s = .next { s with rbc := answered b .ok (isFull b.cfg b.head b.tail).toNat } ∧
    exec .qOccupied s = .next { s with rbc := answered b .ok (occ b.cfg b.head b.tail) } ∧
    exec .qFree s = .next { s with rbc := answered b .ok (freeSlots b.cfg b.head b.tail) } :=
  ⟨exec_of_answer rfl hs rfl, exec_of_answer rfl hs rfl, exec_of_answer rfl hs rfl,
    exec_of_answer rfl hs rfl⟩

theorem toNat_isEmpty (head tail : Nat) :
    (isEmpty head tail).toNat = if head = tail then 1 else 0 := Bool.cond_decide ..

theorem toNat_isFull {p : Config} (h : checkShared p = none) (head tail : Nat) :
    (isFull p head tail).toNat = if (tail + 1) % p.c = head then 1 else 0 := by
  rw [isFull, adv_eq_mod h]
  exact Bool.cond_decide ..

/-- Settles O10: the four capacity functions, with `adv` as a modulo. -/
theorem queriesAnswerTheirCount : Obligations.QueriesAnswerTheirCount := by
  unfold Obligations.QueriesAnswerTheirCount
  refine ⟨headerIs_ofHeader 0xB, headerIs_ofHeader 0xC, headerIs_ofHeader 0xD,
    headerIs_ofHeader 0xE, fun s ⟨hs, _, _⟩ => ?_⟩
  obtain ⟨hempty, hfull, hocc, hfree⟩ := exec_queries hs
  rw [toNat_isEmpty] at hempty
  rw [toNat_isFull (checkRbc_shared hs.1)] at hfull
  exact ⟨hempty, hfull, hocc, hfree⟩

end Sys2Proof.Machine
end

section
/-! The status outputs in `IDLE` (R524) and the fields of the packed vector `STATUS` (R114). -/

open Sys2Proof.Statements

namespace Sys2Proof.Machine

/-- R113: with no command in progress the outputs are those of the cursors, whatever the draw. -/
theorem Rbc.status_of_idle {b : Rbc} (h : b.phase = .idle) (draw : Nat) :
    b.status draw = statusOf b.cfg b.head b.tail := by
  simp only [Rbc.status, Rbc.shownCursors, h]

/-! ## The packed vector (R114) -/

/-- The two counts as one number above the two flags. -/
theorem StatusOutputs.pack_eq (p : Config) (o : StatusOutputs) :
    o.pack p = o.empty.toNat + 2 * o.full.toNat +
      2 ^ 2 * (o.occupied + 2 ^ indexWidth p.c * o.free) := by
  rw [StatusOutputs.pack]
  ring

theorem StatusOutputs.pack_testBit_zero (p : Config) (o : StatusOutputs) :
    (o.pack p).testBit 0 = o.empty := by
  rw [StatusOutputs.pack_eq, Nat.testBit_zero]
  cases o.empty <;> simp <;> omega

theorem StatusOutputs.pack_testBit_one (p : Config) (o : StatusOutputs) :
    (o.pack p).testBit 1 = o.full := by
  rw [StatusOutputs.pack_eq, Nat.testBit_succ, Nat.testBit_zero]
  cases o.empty <;> cases o.full <;> simp <;> omega

theorem StatusOutputs.pack_div_four (p : Config) (o : StatusOutputs) :
    o.pack p / 2 ^ 2 = o.occupied + 2 ^ indexWidth p.c * o.free := by
  have he := o.empty.toNat_le
  have hf := o.full.toNat_le
  rw [StatusOutputs.pack_eq]
  omega

theorem StatusOutputs.pack_occupied {p : Config} {o : StatusOutputs}
    (ho : o.occupied < 2 ^ indexWidth p.c) :
    o.pack p / 2 ^ 2 % 2 ^ indexWidth p.c = o.occupied := by
  rw [StatusOutputs.pack_div_four, Nat.add_mul_mod_self_left, Nat.mod_eq_of_lt ho]

theorem StatusOutputs.pack_free {p : Config} {o : StatusOutputs}
    (ho : o.occupied < 2 ^ indexWidth p.c) : o.pack p / 2 ^ (indexWidth p.c + 2) = o.free := by
  rw [Nat.pow_add', ← Nat.div_div_eq_div_mul, StatusOutputs.pack_div_four,
    Nat.add_mul_div_left _ _ (Nat.two_pow_pos _), Nat.div_eq_of_lt ho, Nat.zero_add]

theorem StatusOutputs.pack_lt {p : Config} {o : StatusOutputs}
    (ho : o.occupied < 2 ^ indexWidth p.c) (hg : o.free < 2 ^ indexWidth p.c) :
    o.pack p < 2 ^ (2 * indexWidth p.c + 2) := by
  have hexp : 2 * indexWidth p.c + 2 = indexWidth p.c + 2 + indexWidth p.c := by omega
  rw [hexp, Nat.pow_add, Nat.mul_comm, ← Nat.div_lt_iff_lt_mul (Nat.two_pow_pos _)]
  rwa [StatusOutputs.pack_free ho]

/-! ## The counts (R412, R413) -/

theorem occ_add_freeSlots {p : Config} (h : checkShared p = none) (head tail : Nat) :
    occ p head tail + freeSlots p head tail = p.c - 1 := by
  have ho := occ_lt h head tail
  unfold freeSlots
  omega

/-- Settles O26: in `IDLE` outputs and queries read the same functions, and each count fits its
`IW`-bit field of the vector. -/
theorem statusOutputsAndVector : Obligations.StatusOutputsAndVector := by
  unfold Obligations.StatusOutputsAndVector
  refine ⟨?outputs, ?vector⟩
  case outputs =>
    intro s draw hs
    obtain ⟨hempty, hfull, hocc, hfree⟩ := exec_queries hs
    rw [Rbc.status_of_idle hs.2]
    exact ⟨_, _, _, _, hempty, hfull, hocc, hfree, rfl, rfl, rfl, rfl⟩
  case vector =>
    intro p head tail hp hh ht
    obtain ⟨-, hc, -⟩ := checkShared_spec hp
    have hIW := le_two_pow_indexWidth hc
    have hsum := occ_add_freeSlots hp head tail
    have hocc : (statusOf p head tail).occupied < 2 ^ indexWidth p.c :=
      (occ_lt hp head tail).trans_le hIW
    have hfree : (statusOf p head tail).free < 2 ^ indexWidth p.c := by
      simp only [statusOf]
      omega
    exact ⟨StatusOutputs.pack_lt hocc hfree, StatusOutputs.pack_testBit_zero p _,
      StatusOutputs.pack_testBit_one p _, StatusOutputs.pack_occupied hocc,
      StatusOutputs.pack_free hocc, fun h => not_full_and_empty hp hh ht h.symm, hsum⟩

end Sys2Proof.Machine
end

section
/-! R500 and R17: the elaborations each block refuses, by which name, and where. -/

open Sys2Proof.Statements

namespace Sys2Proof.Machine

/-! ## What the checks on `C` ask for (R12 to R14) -/

/-- R13: a field is too narrow for `IW` exactly when it has fewer values than there are slots. -/
theorem lt_indexWidth_iff {c : Nat} (hc : 2 ≤ c) (w : Nat) : w < indexWidth c ↔ 2 ^ w < c := by
  rw [indexWidth, Nat.lt_succ_iff, Nat.le_log2 (by omega)]
  omega

theorem indexWidth_two_pow_succ (k : Nat) : indexWidth (2 ^ (k + 1)) = k + 1 := by
  have hpos := Nat.two_pow_pos k
  rw [indexWidth, (Nat.log2_eq_iff (k := k) (by omega)).2 ⟨by omega, by omega⟩]

/-- From two slots on, `isPow2` is what its name says. -/
theorem isPow2_iff {c : Nat} (hc : 2 ≤ c) : isPow2 c = true ↔ ∃ k, c = 2 ^ k := by
  constructor
  · intro h
    exact ⟨_, isPow2_spec h⟩
  · rintro ⟨k, rfl⟩
    cases k with
    | zero => simp at hc
    | succ k => rw [isPow2, indexWidth_two_pow_succ, decide_eq_true_eq]

theorem isPow2_eq_false_iff {c : Nat} (hc : 2 ≤ c) : isPow2 c = false ↔ ¬∃ k, c = 2 ^ k := by
  rw [← isPow2_iff hc, Bool.not_eq_true]

/-! ## The checks every block makes -/

/-- R10 to R18: the ranges that every block shares. -/
def sharedLegal (p : Config) : Prop :=
  1 ≤ p.s ∧ 2 ≤ p.c ∧ (p.strat = .mask → ∃ k, p.c = 2 ^ k) ∧
    (p.storage = .external → p.c ≤ p.dSto) ∧ 1 ≤ p.lSto

/-- R500: the name of a refusal that every block shares, with the range it names broken. -/
def sharedFails (p : Config) (r : Refusal) : Prop :=
  (r = .zeroObjectSize ∧ p.s = 0) ∨ (r = .capacityTooSmall ∧ p.c < 2) ∨
  (r = .maskNotPow2 ∧ p.strat = .mask ∧ ¬∃ k, p.c = 2 ^ k) ∨
  (r = .storageTooSmall ∧ p.storage = .external ∧ p.dSto < p.c) ∨ (r = .badLatency ∧ p.lSto = 0)

theorem checkShared_some {p : Config} {r : Refusal} (h : checkShared p = some r) :
    sharedFails p r := by
  unfold checkShared at h
  split_ifs at h with hs hc hmask hsto hlat <;> obtain rfl := Option.some.inj h
  · exact .inl ⟨rfl, by omega⟩
  · exact .inr (.inl ⟨rfl, hc⟩)
  · exact .inr (.inr (.inl ⟨rfl, hmask.1, (isPow2_eq_false_iff (by omega)).1 hmask.2⟩))
  · exact .inr (.inr (.inr (.inl ⟨rfl, hsto⟩)))
  · exact .inr (.inr (.inr (.inr ⟨rfl, by omega⟩)))

/-- A name is given only where a range is broken. -/
theorem not_sharedLegal_of_fails {p : Config} {r : Refusal} (h : sharedFails p r) :
    ¬sharedLegal p := by
  rintro ⟨hs, hc, hmask, hsto, hlat⟩
  obtain ⟨-, h⟩ | ⟨-, h⟩ | ⟨-, hm, h⟩ | ⟨-, he, h⟩ | ⟨-, h⟩ := h
  · omega
  · omega
  · exact h (hmask hm)
  · exact absurd (hsto he) (by omega)
  · omega

theorem checkShared_none_iff {p : Config} : checkShared p = none ↔ sharedLegal p := by
  constructor
  · intro h
    obtain ⟨hs, hc, hmask, hsto, hlat⟩ := checkShared_spec h
    exact ⟨hs, hc, fun hm => (isPow2_iff hc).1 (hmask hm), hsto, hlat⟩
  · intro h
    cases hcheck : checkShared p with
    | none => rfl
    | some r => exact absurd h (not_sharedLegal_of_fails (checkShared_some hcheck))

/-! ## The checks of one block: the shared ones, then its own -/

theorem checkRbc_eq_or (p : Config) :
    checkRbc p = (checkShared p).or
      (if p.nw < indexWidth p.c then some .countTooNarrow else none) := by
  unfold checkRbc
  cases checkShared p <;> rfl

theorem checkSf_eq_or (p : Config) :
    checkSf p = (checkShared p).or
      (if p.storage = .external ∧ p.lSto ≠ 1 then some .sfLatency else none) := by
  unfold checkSf
  cases checkShared p <;> rfl

theorem checkAf_eq_or (p : Config) :
    checkAf p = (checkShared p).or
      (if isPow2 p.c = false then some .afNotPow2
        else if p.syncN < 2 then some .afSyncTooShort else none) := by
  unfold checkAf
  cases checkShared p <;> rfl

theorem checkRbc_none_iff {p : Config} :
    checkRbc p = none ↔ sharedLegal p ∧ p.c ≤ 2 ^ p.nw := by
  rw [checkRbc_eq_or, Option.or_eq_none_iff, checkShared_none_iff]
  refine and_congr_right fun ⟨_, hc, _⟩ => ?_
  simp [lt_indexWidth_iff hc]

theorem checkSf_none_iff {p : Config} :
    checkSf p = none ↔ sharedLegal p ∧ (p.storage = .external → p.lSto = 1) := by
  rw [checkSf_eq_or, Option.or_eq_none_iff, checkShared_none_iff]
  simp

theorem checkAf_none_iff {p : Config} :
    checkAf p = none ↔ sharedLegal p ∧ (∃ k, p.c = 2 ^ k) ∧ 2 ≤ p.syncN := by
  rw [checkAf_eq_or, Option.or_eq_none_iff, checkShared_none_iff]
  refine and_congr_right fun ⟨_, hc, _⟩ => ?_
  rw [← isPow2_iff hc]
  cases isPow2 p.c <;> simp [Nat.succ_le_iff]

theorem checkRbc_some {p : Config} {r : Refusal} (h : checkRbc p = some r) :
    sharedFails p r ∨ (r = .countTooNarrow ∧ 2 ^ p.nw < p.c) := by
  rw [checkRbc_eq_or, Option.or_eq_some_iff] at h
  obtain h | ⟨hshared, h⟩ := h
  · exact .inl (checkShared_some h)
  · obtain ⟨-, hc, -⟩ := checkShared_none_iff.1 hshared
    split_ifs at h with hnw
    exact .inr ⟨(Option.some.inj h).symm, (lt_indexWidth_iff hc _).1 hnw⟩

theorem checkSf_some {p : Config} {r : Refusal} (h : checkSf p = some r) :
    sharedFails p r ∨ (r = .sfLatency ∧ p.storage = .external ∧ p.lSto ≠ 1) := by
  rw [checkSf_eq_or, Option.or_eq_some_iff] at h
  obtain h | ⟨-, h⟩ := h
  · exact .inl (checkShared_some h)
  · split_ifs at h with hlat
    exact .inr ⟨(Option.some.inj h).symm, hlat⟩

theorem checkAf_some {p : Config} {r : Refusal} (h : checkAf p = some r) :
    sharedFails p r ∨ (r = .afNotPow2 ∧ ¬∃ k, p.c = 2 ^ k) ∨
      (r = .afSyncTooShort ∧ p.syncN < 2) := by
  rw [checkAf_eq_or, Option.or_eq_some_iff] at h
  obtain h | ⟨hshared, h⟩ := h
  · exact .inl (checkShared_some h)
  · obtain ⟨-, hc, -⟩ := checkShared_none_iff.1 hshared
    split_ifs at h with hpow hsync
    · exact .inr (.inl ⟨(Option.some.inj h).symm, (isPow2_eq_false_iff hc).1 hpow⟩)
    · exact .inr (.inr ⟨(Option.some.inj h).symm, hsync⟩)

/-! ## A refused block answers its name (R17) -/

theorem runEvent_of_check {e : Event} {s : State} {r : Refusal} (h : e.check s = some r) :
    runEvent e s = .refused r := by
  rw [runEvent, h, legally_some]

theorem exec_rbc_of_check {i : Instr} {s : State} {r : Refusal} (hi : isRbc i = true)
    (h : checkRbc s.rbc.cfg = some r) : exec i s = .refused r := by
  rw [← legally_exec_rbc hi, h, legally_some]

theorem exec_sf_of_check {i : Instr} {s : State} {r : Refusal} (hi : isSf i = true)
    (h : checkSf s.sf.cfg = some r) : exec i s = .refused r := by
  rw [← legally_exec_sf hi, h, legally_some]

theorem exec_af_of_check {i : Instr} {s : State} {r : Refusal} (hi : isAf i = true)
    (h : checkAf s.af.cfg = some r) : exec i s = .refused r := by
  rw [← legally_exec_af hi, h, legally_some]

/-- Settles O25: each block's check is the shared ranges and its own, and every instruction and event
of the block asks for it first. -/
theorem illegalElaborationIsRefused : Obligations.IllegalElaborationIsRefused := by
  unfold Obligations.IllegalElaborationIsRefused
  refine ⟨fun p => ⟨checkRbc_none_iff, checkSf_none_iff, checkAf_none_iff, fun r =>
    ⟨checkRbc_some, checkSf_some, checkAf_some⟩⟩, fun i s r => ⟨exec_rbc_of_check,
    exec_sf_of_check, exec_af_of_check, ?rbcEvents, ?sfEvents, ?afEvents⟩⟩
  case rbcEvents =>
    exact fun h => ⟨fun w d ds => runEvent_of_check h, fun rst valid beat => runEvent_of_check h⟩
  case sfEvents =>
    exact fun h rst w d => runEvent_of_check h
  case afEvents =>
    exact fun h => ⟨fun w d => runEvent_of_check h, fun w => runEvent_of_check h,
      fun level => runEvent_of_check h⟩

end Sys2Proof.Machine
end

section
/-! How the counts move when a cursor moves `k` places (R403, R412, R413). -/

namespace Sys2Proof.Machine

section
variable {p : Config} (h : checkShared p = none)
include h

theorem addk_addk (i j k : Nat) : addk p (addk p i j) k = addk p i (j + k) := by
  rw [addk_eq_mod h, addk_eq_mod h, addk_eq_mod h, Nat.mod_add_mod, Nat.add_assoc]

variable {head tail k : Nat} (hh : head < p.c) (ht : tail < p.c)
include hh ht

/-- R414, for the two comparators that the transfer commands leave. -/
theorem comparators_iff :
    (isEmpty head tail = true ↔ occ p head tail = 0) ∧
      (isFull p head tail = true ↔ freeSlots p head tail = 0) := by
  obtain ⟨hempty, -, hfull, -⟩ := comparatorLaws p head tail h hh ht
  exact ⟨hempty, hfull⟩

theorem occ_addk_tail (hk : k ≤ freeSlots p head tail) :
    occ p head (addk p tail k) = occ p head tail + k := by
  have hsum := occ_add_freeSlots h head tail
  calc occ p head (addk p tail k)
      = occ p head (addk p (addk p head (occ p head tail)) k) := by rw [addk_occ h hh ht]
    _ = occ p head tail + k := by rw [addk_addk h, occ_addk h hh (by omega)]

theorem freeSlots_addk_tail (hk : k ≤ freeSlots p head tail) :
    freeSlots p head (addk p tail k) + k = freeSlots p head tail := by
  have hsum := occ_add_freeSlots h head tail
  have hsum' := occ_add_freeSlots h head (addk p tail k)
  rw [occ_addk_tail h hh ht hk] at hsum'
  omega

theorem occ_addk_head (hk : k ≤ occ p head tail) :
    occ p (addk p head k) tail + k = occ p head tail := by
  have hlt := occ_lt h head tail
  have htail : addk p (addk p head k) (occ p head tail - k) = tail := by
    rw [addk_addk h, Nat.add_sub_cancel' hk, addk_occ h hh ht]
  have hocc := occ_addk h (addk_lt h head k) (k := occ p head tail - k) (by omega)
  rw [htail] at hocc
  omega

theorem freeSlots_addk_head (hk : k ≤ occ p head tail) :
    freeSlots p (addk p head k) tail = freeSlots p head tail + k := by
  have hocc := occ_addk_head h hh ht hk
  have hsum := occ_add_freeSlots h head tail
  have hsum' := occ_add_freeSlots h (addk p head k) tail
  omega

end

end Sys2Proof.Machine
end

section
/-! The single-object commands and DELETE_N from `IDLE` (42_rbc_transfer.md R600 to R604). -/

open Sys2Proof.Statements

namespace Sys2Proof.Machine

/-! ## The two branches of a single-object command -/

theorem Rbc.writeObjCommand_of_full {b : Rbc} (h : isFull b.cfg b.head b.tail = true) (d : Nat) :
    b.writeObjCommand d = .ok (b, answer .full 0) := by
  rw [Rbc.writeObjCommand, if_pos h]

theorem Rbc.writeObjCommand_of_room {b b₁ : Rbc} {d : Nat}
    (h : isFull b.cfg b.head b.tail = false) (hd : b.writeOne d = .ok b₁) :
    b.writeObjCommand d = .ok (b₁, answer .ok 1) := by
  simp only [Rbc.writeObjCommand, h, hd, Bool.false_eq_true, ↓reduceIte]

theorem Rbc.readObjCommand_of_empty {b : Rbc} (h : isEmpty b.head b.tail = true) :
    b.readObjCommand = .ok (b, answer .empty 0) := by
  rw [Rbc.readObjCommand, if_pos h]

theorem Rbc.readObjCommand_of_object {b b₁ : Rbc} {x : Nat × Nat}
    (h : isEmpty b.head b.tail = false) (hx : b.takeOne = .ok (x, b₁)) :
    b.readObjCommand = .ok (b₁, answerObject 1 x.1 x.2) := by
  simp only [Rbc.readObjCommand, h, hx, Bool.false_eq_true, ↓reduceIte]

theorem Rbc.deleteHeadCommand_of_empty {b : Rbc} (h : isEmpty b.head b.tail = true) :
    b.deleteHeadCommand = .ok (b, answer .empty 0) := by
  rw [Rbc.deleteHeadCommand, if_pos h]

theorem Rbc.deleteHeadCommand_of_object {b : Rbc} (h : isEmpty b.head b.tail = false) :
    b.deleteHeadCommand = .ok (b.dropOne, answer .ok 1) := by
  simp only [Rbc.deleteHeadCommand, h, Bool.false_eq_true, ↓reduceIte]

/-! ## Counts and flags after one object -/

/-- R600: one object more, and full only when one slot was free. -/
theorem counts_after_writeOne {p : Config} (h : checkShared p = none) {head tail : Nat}
    (hh : head < p.c) (ht : tail < p.c) (hf : isFull p head tail = false) :
    occ p head (addk p tail 1) = occ p head tail + 1 ∧
      freeSlots p head (addk p tail 1) + 1 = freeSlots p head tail ∧
      isEmpty head (addk p tail 1) = false ∧
      (isFull p head (addk p tail 1) = true ↔ freeSlots p head tail = 1) := by
  have hpos := (isFull_eq_false h hh ht).1 hf
  have hocc := occ_addk_tail (k := 1) h hh ht hpos
  have hfree := freeSlots_addk_tail (k := 1) h hh ht hpos
  refine ⟨hocc, hfree, (isEmpty_eq_false h hh (addk_lt h tail 1)).2 (by omega), ?_⟩
  rw [(comparators_iff h hh (addk_lt h tail 1)).2]
  omega

/-- R601, R602: one object less, and empty only when it was the last. -/
theorem counts_after_dropOne {p : Config} (h : checkShared p = none) {head tail : Nat}
    (hh : head < p.c) (ht : tail < p.c) (he : isEmpty head tail = false) :
    occ p (addk p head 1) tail + 1 = occ p head tail ∧
      freeSlots p (addk p head 1) tail = freeSlots p head tail + 1 ∧
      isFull p (addk p head 1) tail = false ∧
      (isEmpty (addk p head 1) tail = true ↔ occ p head tail = 1) := by
  have hpos := (isEmpty_eq_false h hh ht).1 he
  have hocc := occ_addk_head (k := 1) h hh ht hpos
  have hfree := freeSlots_addk_head (k := 1) h hh ht hpos
  refine ⟨hocc, hfree, (isFull_eq_false h (addk_lt h head 1) ht).2 (by omega), ?_⟩
  rw [(comparators_iff h (addk_lt h head 1) ht).1]
  omega

/-! ## The statements -/

/-- Settles O11: the two branches of R600, the write at `tail` by the rules of `memWrite`. -/
theorem writeObjStoresAtTail : Obligations.WriteObjStoresAtTail := by
  unfold Obligations.WriteObjStoresAtTail
  refine ⟨headerIs_ofHeader 0x2, fun s d ⟨hs, hh, ht⟩ hd => ?_⟩
  have hc := checkRbc_shared hs.1
  simp only [← addk_eq_mod hc]
  refine ⟨fun hfull => ?full, fun hroom => ?room⟩
  case full =>
    exact exec_of_answer rfl hs (Rbc.writeObjCommand_of_full (decide_eq_true hfull) d)
  case room =>
    have hf : isFull s.rbc.cfg s.rbc.head s.rbc.tail = false := decide_eq_false hroom
    have hw := memWrite_of_lt s.rbc.sto d ht
    have hcmd := Rbc.writeObjCommand_of_room hf (Rbc.writeOne_of_lt d ht)
    exact ⟨_, exec_of_ready (i := .writeObj d) rfl hs hcmd,
      slotObj_write_same hw (of_decide_eq_true hd), fun a ha => readByte_memWrite_outside hw ha,
      counts_after_writeOne hc hh ht hf⟩

/-- Settles O12: the two branches of R601. -/
theorem readObjTakesTheHead : Obligations.ReadObjTakesTheHead := by
  unfold Obligations.ReadObjTakesTheHead
  refine ⟨headerIs_ofHeader 0x3, fun s ⟨hs, hh, ht⟩ => ?_⟩
  have hc := checkRbc_shared hs.1
  simp only [← addk_eq_mod hc]
  refine ⟨fun hempty => ?empty, fun d hobject hd => ?object⟩
  case empty => exact exec_of_answer rfl hs (Rbc.readObjCommand_of_empty (decide_eq_true hempty))
  case object =>
    have he : isEmpty s.rbc.head s.rbc.tail = false := decide_eq_false hobject
    have hcmd := Rbc.readObjCommand_of_object he (Rbc.takeOne_of_slotObj hh hd)
    exact ⟨exec_of_ready (i := .readObj) rfl hs hcmd, counts_after_dropOne hc hh ht he⟩

/-- Settles O13: the two branches of R602, neither of which looks at storage. -/
theorem deleteHeadAdvancesTheHead : Obligations.DeleteHeadAdvancesTheHead := by
  unfold Obligations.DeleteHeadAdvancesTheHead
  refine ⟨headerIs_ofHeader 0x4, fun s ⟨hs, hh, ht⟩ => ?_⟩
  have hc := checkRbc_shared hs.1
  simp only [← addk_eq_mod hc]
  refine ⟨fun hempty => ?empty, fun hobject => ?object⟩
  case empty =>
    exact exec_of_answer rfl hs (Rbc.deleteHeadCommand_of_empty (decide_eq_true hempty))
  case object =>
    have he : isEmpty s.rbc.head s.rbc.tail = false := decide_eq_false hobject
    exact ⟨exec_of_ready (i := .deleteHead) rfl hs (Rbc.deleteHeadCommand_of_object he),
      counts_after_dropOne hc hh ht he⟩

/-- Settles O14: `n` removals that stop at empty are one move of `head` by `min(n, occ)`. -/
theorem deleteNRemovesUpToN : Obligations.DeleteNRemovesUpToN := by
  unfold Obligations.DeleteNRemovesUpToN
  refine ⟨headerIs_ofHeader 0x5, fun s n ⟨hs, hh, ht⟩ => ?_⟩
  have hc := checkRbc_shared hs.1
  have hk := Nat.min_le_right n (occ s.rbc.cfg s.rbc.head s.rbc.tail)
  simp only [← addk_eq_mod hc]
  refine ⟨?_, occ_addk_head hc hh ht hk, freeSlots_addk_head hc hh ht hk⟩
  rw [exec_of_ready rfl hs (i := .deleteN n) rfl, dropUntilEmpty_eq hc hh ht]
  rfl

end Sys2Proof.Machine
end

section
/-! The bulk commands from `IDLE` (42_rbc_transfer.md R610 to R616). -/

open Sys2Proof.Statements

namespace Sys2Proof.Machine

/-! ## Moving as far as the buffer allows (R610, R611) -/

theorem isFull_addk_freeSlots {p : Config} (h : checkShared p = none) {head tail : Nat}
    (hh : head < p.c) (ht : tail < p.c) :
    isFull p head (addk p tail (freeSlots p head tail)) = true := by
  have hfree := freeSlots_addk_tail h hh ht (Nat.le_refl _)
  exact (comparators_iff h hh (addk_lt h ..)).2.2 (by omega)

theorem isEmpty_addk_occ {p : Config} (h : checkShared p = none) {head tail : Nat}
    (hh : head < p.c) (ht : tail < p.c) : isEmpty (addk p head (occ p head tail)) tail = true :=
  decide_eq_true (addk_occ h hh ht)

/-! ## Writing a burst (R610) -/

/-- `m'` is storage `m` after the first `k` objects of `ds` were stored from the slot `tail` on: each
lies in its slot, and no byte outside these slots changed. -/
def burstStored (p : Config) (m m' : Memory) (tail k : Nat) (ds : List Nat) : Prop :=
  (∀ j, j < k → slotObj p m' (addk p tail j) = ds[j]?) ∧
    ∀ a, (∀ j, j < k → outsideSlot p (addk p tail j) a) → readByte m' a = readByte m a

theorem writeEach_burstStored {b : Rbc} (hc : checkShared b.cfg = none) (ht : b.tail < b.cfg.c)
    {ds : List Nat} (hd : ∀ d ∈ ds, d < 2 ^ (8 * b.cfg.s))
    (hn : ds.length ≤ freeSlots b.cfg b.head b.tail) :
    ∃ m, writeEach ds b = .ok { b with sto := m, tail := addk b.cfg b.tail ds.length } ∧
      burstStored b.cfg b.sto m b.tail ds.length ds := by
  have hsum := occ_add_freeSlots hc b.head b.tail
  have hlt := occ_lt hc b.head b.tail
  obtain ⟨m, hm, -, hslots, -⟩ := writeEach_ok hc ht ds hd (by omega)
  exact ⟨m, hm, hslots, fun a ha => writeEach_bytes hc ht hm ha⟩

/-- The loop of WRITE_N stores what fits of its burst, from `tail` on, and moves `tail` over it. -/
theorem writeUntilFull_burstStored {b : Rbc} (hc : checkShared b.cfg = none)
    (hh : b.head < b.cfg.c) (ht : b.tail < b.cfg.c) {n k : Nat} {ds : List Nat}
    (hds : burstFits b.cfg n ds = true) (hk : k = min n (freeSlots b.cfg b.head b.tail)) :
    ∃ m, writeUntilFull ds b = .ok ({ b with sto := m, tail := addk b.cfg b.tail k }, k) ∧
      burstStored b.cfg b.sto m b.tail k ds := by
  obtain ⟨-, hfits, rfl⟩ := burstFits_iff.1 hds
  have hlen : (ds.take (freeSlots b.cfg b.head b.tail)).length = k := by
    rw [List.length_take, Nat.min_comm, hk]
  obtain ⟨m, hm, hslots, hbytes⟩ := writeEach_burstStored hc ht
    (fun d hd => hfits d (List.mem_of_mem_take hd)) (List.length_take_le ..)
  rw [hlen] at hm hslots hbytes
  refine ⟨m, by rw [writeUntilFull_eq hc hh ht, hm, hk], fun j hj => ?_, hbytes⟩
  rw [hslots j hj, List.getElem?_take_of_lt (by omega)]

theorem Rbc.writeNCommand_of_loop {b b₁ : Rbc} {n k : Nat} {ds : List Nat}
    (h : writeUntilFull ds b = .ok (b₁, k)) :
    b.writeNCommand n ds = .ok (b₁, answer (shortfall .full n k) k) := by
  rw [Rbc.writeNCommand, h]

/-- Settles O17: the loop stores the beats that fit and stops at full. -/
theorem writeNWritesUpToFull : Obligations.WriteNWritesUpToFull := by
  unfold Obligations.WriteNWritesUpToFull
  refine ⟨headerIs_ofHeader 0x6, fun s n ds ⟨hs, hh, ht⟩ hds => ?_⟩
  have hc := checkRbc_shared hs.1
  obtain ⟨m, hloop, hslots, hbytes⟩ := writeUntilFull_burstStored hc hh ht hds rfl
  have hk := Nat.min_le_right n (freeSlots s.rbc.cfg s.rbc.head s.rbc.tail)
  simp only [← addk_eq_mod hc]
  refine ⟨m, exec_of_ready (i := .writeN n ds) rfl hs (Rbc.writeNCommand_of_loop hloop), hslots,
    hbytes, occ_addk_tail hc hh ht hk, freeSlots_addk_tail hc hh ht hk, fun hlt => ?_⟩
  rw [Nat.min_eq_right (by omega)]
  exact isFull_addk_freeSlots hc hh ht

/-! ## Reading a burst (R611) -/

theorem getElem?_dataBeats (j i : Nat) (ys : List (Nat × Nat)) :
    (dataBeats j ys)[i]? = ys[i]?.map (dataBeat (j + i)) := by
  induction ys generalizing j i with
  | nil => rfl
  | cons y ys ih =>
    cases i with
    | zero => rfl
    | succ i => rw [dataBeats, List.getElem?_cons_succ, ih, Nat.succ_add_eq_add_succ]; rfl

/-- R331: the data beats of the objects `xs`, of which object `j` lies in the slot `f j`. -/
theorem dataBeats_zipWith (f : Nat → Nat) (xs : List Nat) :
    dataBeats 0 ((List.range xs.length).zipWith (fun j x => (f j, x)) xs) =
      (List.range xs.length).map fun j => ⟨false, .ok, j, some (f j), xs[j]?⟩ := by
  refine List.ext_getElem? fun i => ?_
  rw [getElem?_dataBeats]
  by_cases hi : i < xs.length
  · simp [hi, dataBeat]
  · simp [hi]

/-- R331: a bulk read sends its data beats, then the final beat, which carries no object. -/
theorem respond_burst (b : Rbc) (st : Status) (k : Nat) (ys : List (Nat × Nat)) :
    b.respond { answer st k with beats := ys } =
      { b with
        rsp := some ⟨true, st, k, none, none⟩
        out := b.out ++ dataBeats 0 ys ++ [⟨true, st, k, none, none⟩] } := by
  rw [List.append_assoc]
  rfl

theorem Rbc.readNCommand_of_loop {b b₁ : Rbc} {n : Nat} {ys : List (Nat × Nat)}
    (h : takeUntilEmpty n b = .ok (b₁, ys)) :
    b.readNCommand n =
      .ok (b₁, { answer (shortfall .empty n ys.length) ys.length with beats := ys }) := by
  rw [Rbc.readNCommand, h]

/-- Settles O18: the loop takes the objects there are, each from its slot, and stops at empty. -/
theorem readNTakesUpToEmpty : Obligations.ReadNTakesUpToEmpty := by
  unfold Obligations.ReadNTakesUpToEmpty
  refine ⟨headerIs_ofHeader 0x7, fun s n xs ⟨hs, hh, ht⟩ => ?_⟩
  have hc := checkRbc_shared hs.1
  simp only [← addk_eq_mod hc]
  intro hlen hxs
  have hk := Nat.min_le_right n (occ s.rbc.cfg s.rbc.head s.rbc.tail)
  rw [← hlen] at hxs hk ⊢
  have hloop := takeUntilEmpty_eq hc hh ht n
  rw [← hlen, takeEach_of_slots hc hh xs hxs] at hloop
  refine ⟨?answer, occ_addk_head hc hh ht hk, freeSlots_addk_head hc hh ht hk, fun hlt => ?_⟩
  case answer =>
    rw [exec_of_ready (i := .readN n) rfl hs (Rbc.readNCommand_of_loop hloop), respond_burst,
      dataBeats_zipWith, List.length_zipWith, List.length_range, Nat.min_self]
    rfl
  rw [show xs.length = occ s.rbc.cfg s.rbc.head s.rbc.tail by omega]
  exact isEmpty_addk_occ hc hh ht

/-! ## The guarded forms (R612, R613, R616) -/

/-- Two commands that answer alike are one transaction. -/
theorem exec_congr {i j : Instr} {s : State} (hi : isRbc i = true) (hj : isRbc j = true)
    (h : commandOf i s.rbc = commandOf j s.rbc) : exec i s = exec j s := by
  rw [exec_rbc hi, exec_rbc hj, transact, transact, h]

/-- WRITE_ALL is WRITE_N where the whole burst fits. -/
theorem Rbc.writeAllCommand_of_room {b : Rbc} (hc : checkShared b.cfg = none)
    (hh : b.head < b.cfg.c) (ht : b.tail < b.cfg.c) {n : Nat} {ds : List Nat}
    (hlen : ds.length = n) (hn : n ≤ freeSlots b.cfg b.head b.tail) :
    b.writeAllCommand n ds = b.writeNCommand n ds := by
  subst hlen
  rw [Rbc.writeAllCommand, if_pos hn, Rbc.writeNCommand, writeUntilFull_eq hc hh ht,
    List.take_of_length_le hn, Nat.min_eq_left hn]
  cases writeEach ds b with
  | error e => rfl
  | ok b₁ => simp [shortfall]

theorem Rbc.writeAllCommand_of_short {b : Rbc} {n : Nat} (ds : List Nat)
    (hn : freeSlots b.cfg b.head b.tail < n) :
    b.writeAllCommand n ds = .ok (b, answer .full 0) := by
  rw [Rbc.writeAllCommand, if_neg (Nat.not_le.2 hn)]

/-- READ_ALL is READ_N where there are enough objects. -/
theorem Rbc.readAllCommand_of_objects {b : Rbc} (hc : checkShared b.cfg = none)
    (hh : b.head < b.cfg.c) (ht : b.tail < b.cfg.c) {n : Nat}
    (hn : n ≤ occ b.cfg b.head b.tail) : b.readAllCommand n = b.readNCommand n := by
  rw [Rbc.readAllCommand, if_pos hn, Rbc.readNCommand, takeUntilEmpty_eq hc hh ht,
    Nat.min_eq_left hn]
  cases hx : takeEach n b with
  | error e => rfl
  | ok x =>
    obtain ⟨-, hlen, -⟩ := takeEach_ok hc hh hx
    simp [shortfall, hlen]

theorem Rbc.readAllCommand_of_short {b : Rbc} {n : Nat} (hn : occ b.cfg b.head b.tail < n) :
    b.readAllCommand n = .ok (b, answer .empty 0) := by
  rw [Rbc.readAllCommand, if_neg (Nat.not_le.2 hn)]

theorem exec_writeAll_of_room {s : State} (hs : Ready s) {n : Nat} {ds : List Nat}
    (hlen : ds.length = n) (hn : n ≤ freeSlots s.rbc.cfg s.rbc.head s.rbc.tail) :
    exec (.writeAll n ds) s = exec (.writeN n ds) s := by
  obtain ⟨hready, hh, ht⟩ := hs
  exact exec_congr rfl rfl
    (Rbc.writeAllCommand_of_room (checkRbc_shared hready.1) hh ht hlen hn)

theorem exec_readAll_of_objects {s : State} (hs : Ready s) {n : Nat}
    (hn : n ≤ occ s.rbc.cfg s.rbc.head s.rbc.tail) : exec (.readAll n) s = exec (.readN n) s := by
  obtain ⟨hready, hh, ht⟩ := hs
  exact exec_congr rfl rfl (Rbc.readAllCommand_of_objects (checkRbc_shared hready.1) hh ht hn)

/-- Settles O19: where the burst fits, what WRITE_N does with it. -/
theorem writeAllIsAllOrNothing : Obligations.WriteAllIsAllOrNothing := by
  unfold Obligations.WriteAllIsAllOrNothing
  refine ⟨headerIs_ofHeader 0x8, fun s n ds hs hds => ⟨fun hshort => ?short, fun hroom => ?room⟩⟩
  case short => exact exec_of_answer rfl hs.1 (Rbc.writeAllCommand_of_short ds hshort)
  case room =>
    obtain ⟨-, -, hlen⟩ := burstFits_iff.1 hds
    obtain ⟨m, hexec, hslots, hbytes, hocc, -⟩ := writeNWritesUpToFull.2 s n ds hs hds
    rw [exec_writeAll_of_room hs hlen hroom]
    rw [Nat.min_eq_left hroom] at hexec hslots hbytes hocc
    rw [if_pos rfl] at hexec
    exact ⟨m, hexec, hslots, hbytes, hocc⟩

/-- Settles O20: where there are `n` objects, what READ_N does with them. -/
theorem readAllIsAllOrNothing : Obligations.ReadAllIsAllOrNothing := by
  unfold Obligations.ReadAllIsAllOrNothing
  refine ⟨headerIs_ofHeader 0x9, fun s n xs hs => ⟨fun hshort => ?short, ?objects⟩⟩
  case short => exact exec_of_answer rfl hs.1 (Rbc.readAllCommand_of_short hshort)
  case objects =>
    intro hn hlen hxs
    have hreadN := readNTakesUpToEmpty.2 s n xs hs
    simp only [Nat.min_eq_left hn, ↓reduceIte] at hreadN
    obtain ⟨hexec, hocc, -⟩ := hreadN hlen hxs
    rw [exec_readAll_of_objects hs hn]
    exact ⟨hexec, hocc⟩

theorem Rbc.Inv.ready {s : State} (h : s.rbc.Inv) (hp : s.rbc.phase = .idle) : Ready s :=
  ⟨⟨h.legal, hp⟩, h.head_lt, h.tail_lt⟩

/-- Under the invariant READ_N's loop is answered: no slot of the window is unwritten (R206). -/
theorem Rbc.Cursors.takeUntilEmpty_answers {b : Rbc} (h : b.Cursors) (n : Nat) :
    ∃ ys, takeUntilEmpty n b =
        .ok ({ b with head := addk b.cfg b.head (min n (occ b.cfg b.head b.tail)) }, ys) ∧
      ys.length = min n (occ b.cfg b.head b.tail) := by
  rw [takeUntilEmpty_eq h.shared h.head_lt h.tail_lt]
  obtain ⟨⟨b₁, ys⟩, hys⟩ := h.takeEach_answers (Nat.min_le_right n _)
  obtain ⟨rfl, hlen, -⟩ := takeEach_ok h.shared h.head_lt hys
  exact ⟨ys, hys, hlen⟩

/-- Settles O22: the guard holds and the two commands answer alike, or it does not. -/
theorem guardedBulkEqualsBulkOrNothing : Obligations.GuardedBulkEqualsBulkOrNothing := by
  unfold Obligations.GuardedBulkEqualsBulkOrNothing
  refine ⟨fun s n ds hs hds => ?write, fun s n hinv hp => ?read⟩
  case write =>
    obtain hn | hn := Nat.lt_or_ge (freeSlots s.rbc.cfg s.rbc.head s.rbc.tail) n
    · exact .inr (exec_of_answer rfl hs.1 (Rbc.writeAllCommand_of_short ds hn))
    · obtain ⟨-, -, hlen⟩ := burstFits_iff.1 hds
      obtain ⟨m, hexec, -⟩ := writeNWritesUpToFull.2 s n ds hs hds
      rw [Nat.min_eq_left hn] at hexec
      exact .inl ⟨exec_writeAll_of_room hs hlen hn, _, hexec, rfl⟩
  case read =>
    have hs := hinv.ready hp
    obtain hn | hn := Nat.lt_or_ge (occ s.rbc.cfg s.rbc.head s.rbc.tail) n
    · exact .inr (exec_of_answer rfl hs.1 (Rbc.readAllCommand_of_short hn))
    · obtain ⟨ys, hloop, hlen⟩ := hinv.cursors.takeUntilEmpty_answers n
      have hexec := exec_of_ready (i := .readN n) rfl hs.1 (Rbc.readNCommand_of_loop hloop)
      rw [hlen, Nat.min_eq_left hn] at hexec
      exact .inl ⟨exec_readAll_of_objects hs hn, _, hexec, rfl⟩

/-! ## The loops of single commands (R614, R615) -/

theorem State.rbcReady.respond {s : State} {b : Rbc} (hs : s.rbcReady) (hm : s.rbc.Moved b)
    (r : Response) : State.rbcReady { s with rbc := b.respond r } := by
  obtain ⟨hcfg, hphase, -⟩ := hm.frame
  exact ⟨(congrArg checkRbc hcfg).trans hs.1, hphase.trans hs.2⟩

/-- A step of WRITE_N's loop: it stops at full, or stores one object and goes on. -/
theorem writeUntilFull_cons_ok {d k : Nat} {ds : List Nat} {b b' : Rbc}
    (h : writeUntilFull (d :: ds) b = .ok (b', k)) :
    (isFull b.cfg b.head b.tail = true ∧ b' = b) ∨
    (isFull b.cfg b.head b.tail = false ∧
      ∃ b₁ k₁, b.writeOne d = .ok b₁ ∧ writeUntilFull ds b₁ = .ok (b', k₁)) := by
  unfold writeUntilFull at h
  split at h
  · rename_i hf
    cases h
    exact .inl ⟨hf, rfl⟩
  · rename_i hf
    split at h
    · cases h
    · rename_i b₁ hone
      split at h
      · cases h
      · rename_i hrest
        cases h
        exact .inr ⟨Bool.eq_false_of_not_eq_true hf, b₁, _, hone, hrest⟩

/-- A step of READ_N's loop: it stops at empty, or takes one object and goes on. -/
theorem takeUntilEmpty_succ_ok {n : Nat} {b b' : Rbc} {ys : List (Nat × Nat)}
    (h : takeUntilEmpty (n + 1) b = .ok (b', ys)) :
    (isEmpty b.head b.tail = true ∧ b' = b ∧ ys = []) ∨
    (isEmpty b.head b.tail = false ∧
      ∃ y zs, b.takeOne = .ok (y, b.dropOne) ∧ takeUntilEmpty n b.dropOne = .ok (b', zs) ∧
        ys = y :: zs) := by
  unfold takeUntilEmpty at h
  split at h
  · rename_i he
    cases h
    exact .inl ⟨he, rfl, rfl⟩
  · rename_i he
    split at h
    · cases h
    · rename_i y b₁ hone
      obtain ⟨-, -, -, rfl⟩ := Rbc.takeOne_ok hone
      split at h
      · cases h
      · rename_i zs hrest
        cases h
        exact .inr ⟨Bool.eq_false_of_not_eq_true he, y, zs, hone, hrest, rfl⟩

/-- The commands of a write loop that is answered leave the buffer it leaves: each step is a
WRITE_OBJ, whose answer the loop does not see. -/
theorem writeObjs_of_loop {ds : List Nat} {s : State} {b : Rbc} {k : Nat} (hs : s.rbcReady)
    (h : writeUntilFull ds s.rbc = .ok (b, k)) :
    ∃ u, writeObjs ds s = .next u ∧ u.rbc.buffer = b.buffer := by
  induction ds generalizing s b k with
  | nil =>
    cases h
    exact ⟨s, rfl, rfl⟩
  | cons d ds ih =>
    obtain ⟨hf, rfl⟩ | ⟨hf, b₁, k₁, hone, hrest⟩ := writeUntilFull_cons_ok h
    · have hcmd := Rbc.writeObjCommand_of_full hf d
      rw [writeObjs, exec_of_answer (i := .writeObj d) rfl hs hcmd]
      exact ⟨_, rfl, rfl⟩
    · have hcmd := Rbc.writeObjCommand_of_room hf hone
      have hloop := writeUntilFull_onto (b₁.respond (answer .ok 1)) b₁ ds
      rw [hrest] at hloop
      obtain ⟨u, hu, hbuffer⟩ := ih (hs.respond (Rbc.writeOne_stored hone).moved _) hloop
      rw [writeObjs, exec_of_ready (i := .writeObj d) rfl hs hcmd]
      exact ⟨u, hu, hbuffer⟩

/-- The commands of a read loop that is answered send the objects it takes and leave the buffer it
leaves. -/
theorem readObjs_of_loop {n : Nat} {s : State} {b : Rbc} {ys : List (Nat × Nat)}
    (hs : s.rbcReady) (h : takeUntilEmpty n s.rbc = .ok (b, ys)) :
    ∃ u, readObjs n s = some (ys.map Prod.snd, u) ∧ u.rbc.buffer = b.buffer := by
  induction n generalizing s b ys with
  | zero =>
    cases h
    exact ⟨s, rfl, rfl⟩
  | succ n ih =>
    obtain ⟨he, rfl, rfl⟩ | ⟨he, y, zs, hone, hrest, rfl⟩ := takeUntilEmpty_succ_ok h
    · rw [readObjs, exec_of_answer (i := .readObj) rfl hs (Rbc.readObjCommand_of_empty he)]
      exact ⟨_, rfl, rfl⟩
    · have hcmd := Rbc.readObjCommand_of_object he hone
      have hloop := takeUntilEmpty_onto (s.rbc.dropOne.respond (answerObject 1 y.1 y.2))
        s.rbc.dropOne n
      rw [hrest] at hloop
      obtain ⟨u, hu, hbuffer⟩ := ih (hs.respond (Rbc.HeadMoved.dropOne _).moved _) hloop
      rw [readObjs, exec_of_ready (i := .readObj) rfl hs hcmd]
      exact ⟨u, by simp [hu], hbuffer⟩

theorem filterMap_data_dataBeats (j : Nat) (ys : List (Nat × Nat)) :
    (dataBeats j ys).filterMap RspBeat.data = ys.map Prod.snd := by
  induction ys generalizing j with
  | nil => rfl
  | cons y ys ih => exact congrArg (y.2 :: ·) (ih (j + 1))

/-- Settles O21: each bulk command and its loop of single commands run one loop on one buffer. -/
theorem bulkEqualsTheLoop : Obligations.BulkEqualsTheLoop := by
  unfold Obligations.BulkEqualsTheLoop
  refine ⟨fun s n ds hs hds => ?write, fun s n hinv hp => ?read⟩
  case write =>
    obtain ⟨hready, hh, ht⟩ := hs
    have hc := checkRbc_shared hready.1
    obtain ⟨m, hloop, -⟩ := writeUntilFull_burstStored hc hh ht hds rfl
    obtain ⟨u, hu, hbuffer⟩ := writeObjs_of_loop hready hloop
    obtain ⟨hhead, htail, hsto⟩ := Rbc.buffer_inj hbuffer
    refine ⟨_, u, exec_of_ready (i := .writeN n ds) rfl hready (Rbc.writeNCommand_of_loop hloop),
      hu, hhead.symm, htail.symm, hsto.symm, rfl, fun hlt => ?_⟩
    rw [Nat.min_eq_right hlt.le]
    exact isFull_addk_freeSlots hc hh ht
  case read =>
    obtain ⟨hready, hh, ht⟩ := hinv.ready hp
    obtain ⟨ys, hloop, hlen⟩ := hinv.cursors.takeUntilEmpty_answers n
    obtain ⟨u, hu, hbuffer⟩ := readObjs_of_loop hready hloop
    obtain ⟨hhead, htail, hsto⟩ := Rbc.buffer_inj hbuffer
    have hexec := exec_of_ready (i := .readN n) rfl hready (Rbc.readNCommand_of_loop hloop)
    rw [respond_burst] at hexec
    refine ⟨_, u, _, hexec, hu, ?sent, hhead.symm, htail.symm, hsto.symm, congrArg some hlen,
      fun hlt => ?empty⟩
    case sent =>
      rw [List.append_assoc, List.drop_left, List.filterMap_append, filterMap_data_dataBeats]
      exact List.append_nil _
    case empty =>
      rw [Nat.min_eq_right hlt.le]
      exact isEmpty_addk_occ (checkRbc_shared hready.1) hh ht

end Sys2Proof.Machine
end

section
/-! PEEK_NTH from `IDLE`, and its agreement with the READ_OBJ that follows `n mod m` others
(43_rbc_random_access.md R700, R701). -/

open Sys2Proof.Statements

namespace Sys2Proof.Machine

/-! ## The two branches of PEEK_NTH (R700) -/

theorem Rbc.peekNthCommand_of_empty {b : Rbc} (h : occ b.cfg b.head b.tail = 0) (n : Nat) :
    b.peekNthCommand n = .ok (b, answer .empty 0) := by
  rw [Rbc.peekNthCommand, if_pos h]

theorem Rbc.peekNthCommand_of_object {b : Rbc} {n j d : Nat} (hc : checkShared b.cfg = none)
    (hm : occ b.cfg b.head b.tail ≠ 0) (hj : n % occ b.cfg b.head b.tail = j)
    (hd : slotObj b.cfg b.sto (addk b.cfg b.head j) = some d) :
    b.peekNthCommand n = .ok (b, answerObject j (addk b.cfg b.head j) d) := by
  rw [Rbc.peekNthCommand, if_neg hm, hj, readSlot, memRead_of_slotObj (addk_lt hc ..) hd]

/-- Settles O15: the two branches of R700. -/
theorem peekNthReadsWithoutRemoving : Obligations.PeekNthReadsWithoutRemoving := by
  unfold Obligations.PeekNthReadsWithoutRemoving
  refine ⟨headerIs_ofHeader 0xA, fun s n ⟨hs, _⟩ => ?_⟩
  have hc := checkRbc_shared hs.1
  simp only [← addk_eq_mod hc]
  refine ⟨fun hempty => ?empty, fun d hobject hd => ?object⟩
  case empty => exact exec_of_answer rfl hs (Rbc.peekNthCommand_of_empty hempty n)
  case object =>
    exact exec_of_ready (i := .peekNth n) rfl hs (Rbc.peekNthCommand_of_object hc hobject rfl hd)

/-! ## A loop of READ_OBJ commands -/

/-- A command that ran from `IDLE` leaves a block that takes the next one. -/
theorem exec_rbcReady {i : Instr} {s t : State} (hi : isRbc i = true) (h : exec i s = .next t) :
    t.rbcReady := by
  rw [exec_rbc hi] at h
  obtain ⟨hc, hp, b, r, hf, rfl⟩ := transact_next.1 h
  exact State.rbcReady.respond ⟨hc, hp⟩ (commandOf_moved hf) r

theorem readObjs_rbcReady {n : Nat} {s u : State} {xs : List Nat} (hs : s.rbcReady)
    (h : readObjs n s = some (xs, u)) : u.rbcReady := by
  induction n generalizing s xs with
  | zero =>
    cases h
    exact hs
  | succ n ih =>
    unfold readObjs at h
    split at h
    case h_1 t hexec =>
      have ht := exec_rbcReady rfl hexec
      split at h
      · obtain ⟨⟨ys, v⟩, hrest, hv⟩ := Option.map_eq_some_iff.1 h
        cases hv
        exact ih ht hrest
      · cases h
        exact ht
    all_goals cases h

/-- Under the invariant `k` READ_OBJ commands on a buffer of at least `k` objects send `k` objects;
they move `head` by `k` and leave the block ready for the next command. -/
theorem Rbc.Cursors.readObjs_answers {s : State} {k : Nat} (h : s.rbc.Cursors) (hs : s.rbcReady)
    (hk : k ≤ occ s.rbc.cfg s.rbc.head s.rbc.tail) :
    ∃ xs u, readObjs k s = some (xs, u) ∧ xs.length = k ∧ u.rbcReady ∧
      u.rbc.buffer = Rbc.buffer { s.rbc with head := addk s.rbc.cfg s.rbc.head k } := by
  obtain ⟨ys, hloop, hlen⟩ := h.takeUntilEmpty_answers k
  rw [Nat.min_eq_left hk] at hloop hlen
  obtain ⟨u, hu, hbuffer⟩ := readObjs_of_loop hs hloop
  exact ⟨_, u, hu, by rw [List.length_map, hlen], readObjs_rbcReady hs hu, hbuffer⟩

/-- READ_OBJ of a buffer that is not empty sends the object of the slot at `head` (R601). -/
theorem exec_readObj_sends_head {s : State} {d : Nat} (hs : s.rbcReady)
    (hh : s.rbc.head < s.rbc.cfg.c) (he : isEmpty s.rbc.head s.rbc.tail = false)
    (hd : slotObj s.rbc.cfg s.rbc.sto s.rbc.head = some d) :
    ∃ t, exec .readObj s = .next t ∧ t.rbc.rsp.bind RspBeat.data = some d :=
  ⟨_, exec_of_ready (i := .readObj) rfl hs
    (Rbc.readObjCommand_of_object he (Rbc.takeOne_of_slotObj hh hd)), rfl⟩

/-- Settles O16: both commands read the slot `n mod m` places after `head`, which is where `n mod m`
READ_OBJ commands bring `head`. -/
theorem peekAgreesWithReading : Obligations.PeekAgreesWithReading := by
  unfold Obligations.PeekAgreesWithReading
  intro s n hinv hp hm
  obtain ⟨hs, hh, ht⟩ := hinv.ready hp
  have hc := checkRbc_shared hs.1
  have hk := Nat.mod_lt n hm
  obtain ⟨d, hd⟩ := slotObj_of_written (hinv.window _ hk)
  obtain ⟨xs, u, hu, hlen, hready, hbuffer⟩ := hinv.cursors.readObjs_answers hs hk.le
  have hcfg : u.rbc.cfg = s.rbc.cfg := (congrArg Rbc.cfg hbuffer :)
  obtain ⟨hhead, htail, hsto⟩ := Rbc.buffer_inj hbuffer
  have hleft : isEmpty u.rbc.head u.rbc.tail = false := by
    have hocc := occ_addk_head hc hh ht hk.le
    rw [hhead, htail, isEmpty_eq_false hc (addk_lt hc ..) ht]
    omega
  obtain ⟨v, hv, hread⟩ := exec_readObj_sends_head (d := d) hready
    (by rw [hcfg, hhead]; exact addk_lt hc ..) hleft (by rw [hcfg, hhead, hsto]; exact hd)
  exact ⟨_, u, v, xs, d,
    exec_of_ready (i := .peekNth n) rfl hs (Rbc.peekNthCommand_of_object hc hm.ne' rfl hd),
    hu, hlen, hv, rfl, hread, rfl, rfl, rfl⟩

end Sys2Proof.Machine
end

section
/-! SF's operations one by one: idle, clear, push, pop, and a push and a pop on one edge
(44_sync_fifo.md R820 to R825). -/

open Sys2Proof.Statements

namespace Sys2Proof.Machine

/-- R811: an edge answers when the slot it pops gives an object and the slot it pushes takes one. Its
flags are the requests judged on the comparators `u` (full) and `e` (empty). -/
theorem Sf.edge_of_accesses {f : Sf} {wr rd u e : Bool} {d o : Nat} {m : Memory}
    (hu : isFull f.cfg f.head f.tail = u) (he : isEmpty f.head f.tail = e)
    (ho : (if rd && !e then memRead f.cfg f.sto f.head else .ok f.rdData) = .ok o)
    (hm : (if wr && !u then memWrite f.cfg f.sto f.tail d else .ok f.sto) = .ok m) :
    f.edge wr rd d = .ok
      { f with
        head := if rd && !e then adv f.cfg f.head else f.head
        tail := if wr && !u then adv f.cfg f.tail else f.tail
        sto := m, rdData := o
        wrAck := wr && !u, wrOvf := wr && u, rdAck := rd && !e, rdUnf := rd && e
        wPort := portWrite (wr && !u) f.tail d, rPort := portRead (rd && !e) f.head } := by
  simp only [Sf.edge, writeSlot, hu, he, ho, hm]

/-- `Sf.edge_of_accesses`, for an instruction that is such an edge. -/
theorem sfAnswers_of_accesses {i : Instr} {s : State} {wr rd u e : Bool} {d o : Nat} {m : Memory}
    (hi : exec i s = onSf s (Sf.edge wr rd d)) (hc : checkSf s.sf.cfg = none)
    (hu : isFull s.sf.cfg s.sf.head s.sf.tail = u) (he : isEmpty s.sf.head s.sf.tail = e)
    (ho : (if rd && !e then memRead s.sf.cfg s.sf.sto s.sf.head else .ok s.sf.rdData) = .ok o)
    (hm : (if wr && !u then memWrite s.sf.cfg s.sf.sto s.sf.tail d else .ok s.sf.sto) = .ok m) :
    sfAnswers (exec i s) s
      { s.sf with
        head := if rd && !e then adv s.sf.cfg s.sf.head else s.sf.head
        tail := if wr && !u then adv s.sf.cfg s.sf.tail else s.sf.tail
        sto := m, rdData := o
        wrAck := wr && !u, wrOvf := wr && u, rdAck := rd && !e, rdUnf := rd && e } :=
  ⟨_, _, hi ▸ onSf_next.2 ⟨hc, _, Sf.edge_of_accesses hu he ho hm, rfl⟩⟩

theorem exec_sfClear_next {s t : State} : exec .sfClear s = .next t ↔
    checkSf s.sf.cfg = none ∧ t = { s with sf := s.sf.cleared } := by
  rw [show exec .sfClear s = onSf s fun f => .ok f.cleared from rfl, onSf_next]
  simp only [Except.ok.injEq, exists_eq_left']

/-- Settles O37: an idle edge asks for no access, and a clear writes the registers R824 names. -/
theorem sfIdleAndClear : Obligations.SfIdleAndClear := by
  unfold Obligations.SfIdleAndClear
  have hclear (w : Nat) (hw : w < 8) (h2 : w.testBit 2 = true) : ControlIs w fun _ => .sfClear := by
    intro p d hd
    rw [decode_sfCtl_of_fits hw hd, if_pos h2]
  refine ⟨fun _ _ hd => decode_sfCtl_of_fits (by decide) hd, hclear 4 (by decide) (by decide),
    hclear 5 (by decide) (by decide), hclear 6 (by decide) (by decide),
    hclear 7 (by decide) (by decide), fun s hc => ⟨?idle, ?clear, ?flags⟩⟩
  case idle =>
    exact sfAnswers_of_accesses (i := .sfIdle) (wr := false) (rd := false) rfl hc rfl rfl rfl rfl
  case clear => exact ⟨none, none, exec_sfClear_next.2 ⟨hc, rfl⟩⟩
  case flags =>
    have hshared := checkSf_shared hc
    obtain ⟨-, hcap, -⟩ := checkShared_spec hshared
    exact statusOf_same hshared (by omega)

/-- Settles O38: the two branches of R821, the write at `tail` by the rules of `memWrite`. -/
theorem sfPushStoresAtTail : Obligations.SfPushStoresAtTail := by
  unfold Obligations.SfPushStoresAtTail
  refine ⟨fun _ _ hd => decode_sfCtl_of_fits (by decide) hd, fun s d ⟨hlegal, hh, ht⟩ hd => ?_⟩
  have hc := checkSf_shared hlegal
  simp only [← addk_eq_mod hc]
  refine ⟨fun hfull => ?full, fun hroom => ?room⟩
  case full =>
    exact sfAnswers_of_accesses (i := .sfPush d) rfl hlegal (decide_eq_true hfull) rfl rfl rfl
  case room =>
    have hu : isFull s.sf.cfg s.sf.head s.sf.tail = false := decide_eq_false hroom
    have hw := memWrite_of_lt s.sf.sto d ht
    obtain ⟨hocc, -, hcomparators⟩ := counts_after_writeOne hc hh ht hu
    exact ⟨_, sfAnswers_of_accesses (i := .sfPush d) rfl hlegal hu rfl rfl hw,
      slotObj_write_same hw (of_decide_eq_true hd), fun a ha => readByte_memWrite_outside hw ha,
      hocc, hcomparators⟩

/-- Settles O39: the two branches of R822, the read at `head` by the rules of `memRead`. -/
theorem sfPopLoadsRdData : Obligations.SfPopLoadsRdData := by
  unfold Obligations.SfPopLoadsRdData
  refine ⟨fun _ _ hd => decode_sfCtl_of_fits (by decide) hd, fun s ⟨hlegal, hh, ht⟩ => ?_⟩
  have hc := checkSf_shared hlegal
  simp only [← addk_eq_mod hc]
  refine ⟨fun hempty => ?empty, fun o hobject ho => ?object⟩
  case empty =>
    exact sfAnswers_of_accesses (i := .sfPop) rfl hlegal rfl (decide_eq_true hempty) rfl rfl
  case object =>
    have he : isEmpty s.sf.head s.sf.tail = false := decide_eq_false hobject
    obtain ⟨hocc, -, hcomparators⟩ := counts_after_dropOne hc hh ht he
    exact ⟨sfAnswers_of_accesses (i := .sfPop) rfl hlegal rfl he (memRead_of_slotObj hh ho) rfl,
      hocc, hcomparators⟩

/-- Settles O40: R823's three cases, by which of the two comparators holds before the edge. -/
theorem sfPushPopOnOneEdge : Obligations.SfPushPopOnOneEdge := by
  unfold Obligations.SfPushPopOnOneEdge
  refine ⟨fun _ _ hd => decode_sfCtl_of_fits (by decide) hd, fun s d ⟨hlegal, hh, ht⟩ hd => ?_⟩
  have hc := checkSf_shared hlegal
  obtain ⟨-, hcap, -⟩ := checkShared_spec hc
  have hw := memWrite_of_lt s.sf.sto d ht
  have hstored := slotObj_write_same hw (of_decide_eq_true hd)
  have hexclusive := not_full_and_empty hc hh ht
  have hanswers {u e : Bool} {o : Nat} {m : Memory} :=
    sfAnswers_of_accesses (i := .sfPushPop d) (u := u) (e := e) (o := o) (m := m) rfl hlegal
  simp only [← addk_eq_mod hc]
  refine ⟨fun o hfull ho => ?full, fun hempty => ?empty, fun o hroom hobject ho => ?both⟩
  case full =>
    have hu : isFull s.sf.cfg s.sf.head s.sf.tail = true := decide_eq_true hfull
    have he : isEmpty s.sf.head s.sf.tail = false := by simpa [hu] using hexclusive
    have hocc : occ s.sf.cfg s.sf.head s.sf.tail = s.sf.cfg.c - 1 := by
      rwa [isFull_eq_occ hc hh ht, decide_eq_true_eq] at hu
    obtain ⟨hless, -⟩ := counts_after_dropOne hc hh ht he
    exact ⟨hanswers hu he (memRead_of_slotObj hh ho) rfl, by omega⟩
  case empty =>
    have he : isEmpty s.sf.head s.sf.tail = true := decide_eq_true hempty
    have hu : isFull s.sf.cfg s.sf.head s.sf.tail = false := by simpa [he] using hexclusive
    have hocc : occ s.sf.cfg s.sf.head s.sf.tail = 0 := by
      rwa [isEmpty_eq_occ hc hh ht, decide_eq_true_eq] at he
    obtain ⟨hmore, -⟩ := counts_after_writeOne hc hh ht hu
    exact ⟨_, hanswers hu he rfl hw, hstored, fun a ha => readByte_memWrite_outside hw ha,
      by omega⟩
  case both =>
    have hu : isFull s.sf.cfg s.sf.head s.sf.tail = false := decide_eq_false hroom
    have he : isEmpty s.sf.head s.sf.tail = false := decide_eq_false hobject
    obtain ⟨hless, -, hu', -⟩ := counts_after_dropOne hc hh ht he
    obtain ⟨hmore, -⟩ := counts_after_writeOne hc (addk_lt hc s.sf.head 1) ht hu'
    exact ⟨_, hanswers hu he (memRead_of_slotObj hh ho) hw, hstored,
      fun a ha => readByte_memWrite_outside hw ha, by omega⟩

end Sys2Proof.Machine
end

section
/-! What an edge of SF does, told by its two acknowledgements, and the frame of SF
(44_sync_fifo.md R810, R811). -/

open Sys2Proof.Statements

namespace Sys2Proof.Machine

/-! ## An edge by its acknowledgements -/

/-- What an edge of R811 that answers `g` has done: a pop exactly if `rd_ack`, a push exactly if
`wr_ack`, and the storage ports show those. -/
structure Sf.EdgeEffect (f g : Sf) (wr rd : Bool) (d : Nat) : Prop where
  cfg_eq : g.cfg = f.cfg
  wrAck_eq : g.wrAck = (wr && !isFull f.cfg f.head f.tail)
  rdAck_eq : g.rdAck = (rd && !isEmpty f.head f.tail)
  pushed : g.wrAck = true →
    memWrite f.cfg f.sto f.tail d = .ok g.sto ∧ g.tail = adv f.cfg f.tail
  unpushed : g.wrAck = false → g.sto = f.sto ∧ g.tail = f.tail
  popped : g.rdAck = true →
    memRead f.cfg f.sto f.head = .ok g.rdData ∧ g.head = adv f.cfg f.head
  unpopped : g.rdAck = false → g.rdData = f.rdData ∧ g.head = f.head
  wPort_eq : g.wPort = portWrite g.wrAck f.tail d
  rPort_eq : g.rPort = portRead g.rdAck f.head

theorem Sf.edge_effect {f g : Sf} {wr rd : Bool} {d : Nat} (h : f.edge wr rd d = .ok g) :
    f.EdgeEffect g wr rd d := by
  obtain ⟨m, o, ho, hm, hcfg, rfl, rfl, hhead, htail, hwrAck, -, hrdAck, -, hwPort, hrPort⟩ :=
    Sf.edge_ok h
  rw [← hrdAck] at ho hhead hrPort
  rw [← hwrAck] at hm htail hwPort
  refine ⟨hcfg, hwrAck, hrdAck, fun ha => ?_, fun ha => ?_, fun ha => ?_, fun ha => ?_, hwPort,
    hrPort⟩
  · simp only [ha, if_true] at hm htail
    exact ⟨hm, htail⟩
  · simp only [ha, Bool.false_eq_true, if_false] at hm htail
    exact ⟨hm, htail⟩
  · simp only [ha, if_true] at ho hhead
    exact ⟨ho, hhead⟩
  · simp only [ha, Bool.false_eq_true, if_false] at ho hhead
    exact ⟨ho, hhead⟩

section
variable {f g : Sf} {wr rd : Bool} {d : Nat} (h : f.EdgeEffect g wr rd d)
include h

theorem Sf.EdgeEffect.notFull (ha : g.wrAck = true) : isFull f.cfg f.head f.tail = false := by
  simpa using (Bool.and_eq_true_iff.1 (h.wrAck_eq.symm.trans ha)).2

theorem Sf.EdgeEffect.notEmpty (ha : g.rdAck = true) : isEmpty f.head f.tail = false := by
  simpa using (Bool.and_eq_true_iff.1 (h.rdAck_eq.symm.trans ha)).2

/-- R212: an edge writes no byte outside slot `tail`. -/
theorem Sf.EdgeEffect.readByte_outside {a : Nat} (ha : outsideSlot f.cfg f.tail a) :
    readByte g.sto a = readByte f.sto a := by
  cases hack : g.wrAck with
  | true => exact readByte_memWrite_outside (h.pushed hack).1 ha
  | false => rw [(h.unpushed hack).1]

/-- R208: `sto_rdata` holds the popped object. -/
theorem Sf.EdgeEffect.stoRdata_eq : g.stoRdata = if g.rdAck then some g.rdData else none := by
  rw [Sf.stoRdata, h.rPort_eq]
  cases g.rdAck <;> rfl

end

/-! ## The frame -/

/-- The `wr_en` of an instruction of SF (R303). -/
def sfWrEn : Instr → Bool
  | .sfPush _ | .sfPushPop _ => true
  | _ => false

/-- The `rd_en` of an instruction of SF. -/
def sfRdEn : Instr → Bool
  | .sfPop | .sfPushPop _ => true
  | _ => false

/-- The `wr_data` of an instruction of SF, 0 where it has none. -/
def sfWrData : Instr → Nat
  | .sfPush d | .sfPushPop d => d
  | _ => 0

/-- Every instruction of SF but the clear is the edge of R811 that its requests ask for. -/
theorem exec_sf_of_ne_clear {i : Instr} (hi : isSf i = true) (hne : i ≠ .sfClear) (s : State) :
    exec i s = onSf s (Sf.edge (sfWrEn i) (sfRdEn i) (sfWrData i)) := by
  cases i
  case sfIdle | sfPush | sfPop | sfPushPop => rfl
  case sfClear => exact absurd rfl hne
  all_goals cases hi

/-- Settles O44: a clear makes no access, and an edge only those it acknowledges. -/
theorem sfFrame : Obligations.SfFrame := by
  unfold Obligations.SfFrame
  intro i s t hi ht
  by_cases hclear : i = .sfClear
  case pos =>
    subst hclear
    obtain ⟨-, rfl⟩ := exec_sfClear_next.1 ht
    exact ⟨rfl, rfl, rfl, rfl, rfl, rfl, fun _ _ => rfl, fun _ => ⟨rfl, absurd rfl⟩,
      fun _ => ⟨rfl, absurd rfl⟩, rfl, rfl, rfl⟩
  case neg =>
    rw [exec_sf_of_ne_clear hi hclear, onSf_next] at ht
    obtain ⟨-, g, hg, rfl⟩ := ht
    have h := Sf.edge_effect hg
    have hwPort := h.wPort_eq
    refine ⟨rfl, rfl, rfl, rfl, rfl, h.cfg_eq, fun a => h.readByte_outside,
      fun ha => ⟨(h.unpushed ha).1, fun _ => (h.unpushed ha).2⟩,
      fun ha => ⟨(h.unpopped ha).1, fun _ => (h.unpopped ha).2⟩, ?_, h.rPort_eq, h.stoRdata_eq⟩
    cases i
    case sfPush | sfPushPop => exact hwPort
    case sfIdle | sfPop => rwa [show g.wrAck = false from h.wrAck_eq] at hwPort
    case sfClear => exact absurd rfl hclear
    all_goals cases hi

end Sys2Proof.Machine
end

section
/-! An SF edge that pushes and pops, as two single operations in sequence (44_sync_fifo.md R825,
R826). -/

open Sys2Proof.Statements

namespace Sys2Proof.Machine

/-- From the invariant every such instruction answers, with the invariant again. -/
theorem Sf.Inv.exec_effect {i : Instr} {s : State} (h : s.sf.Inv) (hi : isSf i = true)
    (hne : i ≠ .sfClear) : ∃ g, exec i s = .next { s with sf := g } ∧ g.Inv ∧
      s.sf.EdgeEffect g (sfWrEn i) (sfRdEn i) (sfWrData i) := by
  obtain ⟨g, hg⟩ := h.edge_answers (sfWrEn i) (sfRdEn i) (sfWrData i)
  refine ⟨g, ?_, h.edge hg, Sf.edge_effect hg⟩
  rw [exec_sf_of_ne_clear hi hne]
  exact onSf_next.2 ⟨h.legal, g, hg, rfl⟩

section
variable {f g : Sf} {wr rd : Bool} {d : Nat} (h : f.EdgeEffect g wr rd d)
include h

/-- R825: a push does not write the slot a pop reads. -/
theorem Sf.EdgeEffect.slotObj_head (he : isEmpty f.head f.tail = false) :
    slotObj f.cfg g.sto f.head = slotObj f.cfg f.sto f.head := by
  cases hack : g.wrAck with
  | true => exact slotObj_write_other (h.pushed hack).1 (of_decide_eq_false he)
  | false => rw [(h.unpushed hack).1]

/-- A push leaves an object for a pop that had one. -/
theorem Sf.EdgeEffect.notEmpty_after_push (he : isEmpty f.head f.tail = false) :
    isEmpty f.head g.tail = false := by
  cases hack : g.wrAck with
  | true =>
    rw [(h.pushed hack).2]
    exact decide_eq_false fun heq => of_decide_eq_false (h.notFull hack) heq.symm
  | false => rwa [(h.unpushed hack).2]

/-- A pop leaves room for a push that had some. -/
theorem Sf.EdgeEffect.notFull_after_pop (hf : f.Inv) (hfull : isFull f.cfg f.head f.tail = false) :
    isFull f.cfg g.head f.tail = false := by
  cases hack : g.rdAck with
  | true =>
    rw [(h.popped hack).2]
    obtain ⟨-, -, hroom, -⟩ :=
      counts_after_dropOne hf.shared hf.head_lt hf.tail_lt (h.notEmpty hack)
    exact hroom
  | false => rwa [(h.unpopped hack).2]

variable {f' g' : Sf} {wr' rd' : Bool} {d' : Nat}

/-- Two edges that push alike, from the same `tail` and storage, leave the same two. -/
theorem Sf.EdgeEffect.push_congr (h' : f'.EdgeEffect g' wr' rd' d) (hcfg : f'.cfg = f.cfg)
    (htail : f'.tail = f.tail) (hsto : f'.sto = f.sto) (hack : g.wrAck = g'.wrAck) :
    g.tail = g'.tail ∧ g.sto = g'.sto := by
  cases ha : g.wrAck with
  | true =>
    obtain ⟨hw, ht⟩ := h.pushed ha
    obtain ⟨hw', ht'⟩ := h'.pushed (hack.symm.trans ha)
    rw [hcfg, hsto, htail] at hw'
    exact ⟨by rw [ht, ht', hcfg, htail], Except.ok.inj (hw.symm.trans hw')⟩
  | false =>
    obtain ⟨hm, ht⟩ := h.unpushed ha
    obtain ⟨hm', ht'⟩ := h'.unpushed (hack.symm.trans ha)
    exact ⟨by rw [ht, ht', htail], by rw [hm, hm', hsto]⟩

/-- Two edges that pop alike, from the same `head`, `rd_data` and slot, leave the same two. -/
theorem Sf.EdgeEffect.pop_congr (h' : f'.EdgeEffect g' wr' rd' d') (hcfg : f'.cfg = f.cfg)
    (hhead : f'.head = f.head) (hdata : f'.rdData = f.rdData)
    (hslot : g.rdAck = true → slotObj f.cfg f'.sto f.head = slotObj f.cfg f.sto f.head)
    (hack : g.rdAck = g'.rdAck) : g.head = g'.head ∧ g.rdData = g'.rdData := by
  cases ha : g.rdAck with
  | true =>
    obtain ⟨hr, hh⟩ := h.popped ha
    obtain ⟨hr', hh'⟩ := h'.popped (hack.symm.trans ha)
    have ho := (memRead_ok hr).2
    have ho' := (memRead_ok hr').2
    rw [hcfg, hhead, hslot ha] at ho'
    exact ⟨by rw [hh, hh', hcfg, hhead], Option.some.inj (ho.symm.trans ho')⟩
  | false =>
    obtain ⟨ho, hh⟩ := h.unpopped ha
    obtain ⟨ho', hh'⟩ := h'.unpopped (hack.symm.trans ha)
    exact ⟨by rw [hh, hh', hhead], by rw [ho, ho', hdata]⟩

end

section
variable {f g : Sf} {d : Nat} (hg : f.EdgeEffect g true true d)
include hg

/-- R826, not empty: the push leaves the pop's slot and request as they were. -/
theorem Sf.EdgeEffect.eq_push_then_pop {u u' : Sf} {d' : Nat} (hu : f.EdgeEffect u true false d)
    (hu' : u.EdgeEffect u' false true d') (he : isEmpty f.head f.tail = false) :
    g.head = u'.head ∧ g.tail = u'.tail ∧ g.sto = u'.sto ∧ g.rdData = u'.rdData := by
  obtain ⟨hdata, hhead⟩ := hu.unpopped hu.rdAck_eq
  obtain ⟨hsto', htail'⟩ := hu'.unpushed hu'.wrAck_eq
  obtain ⟨htail, hsto⟩ := hg.push_congr hu rfl rfl rfl (hg.wrAck_eq.trans hu.wrAck_eq.symm)
  have hack : g.rdAck = u'.rdAck := by
    rw [hg.rdAck_eq, hu'.rdAck_eq, he, hhead, hu.notEmpty_after_push he]
  obtain ⟨hhead', hdata'⟩ := hg.pop_congr hu' hu.cfg_eq hhead hdata
    (fun _ => hu.slotObj_head he) hack
  exact ⟨hhead', htail.trans htail'.symm, hsto.trans hsto'.symm, hdata'⟩

/-- R826, not full: the pop leaves the push's slot and request as they were. -/
theorem Sf.EdgeEffect.eq_pop_then_push {v v' : Sf} {d' : Nat} (hf : f.Inv)
    (hv : f.EdgeEffect v false true d') (hv' : v.EdgeEffect v' true false d)
    (hfull : isFull f.cfg f.head f.tail = false) :
    g.head = v'.head ∧ g.tail = v'.tail ∧ g.sto = v'.sto ∧ g.rdData = v'.rdData := by
  obtain ⟨hsto, htail⟩ := hv.unpushed hv.wrAck_eq
  obtain ⟨hdata', hhead'⟩ := hv'.unpopped hv'.rdAck_eq
  obtain ⟨hhead, hdata⟩ := hg.pop_congr hv rfl rfl rfl (fun _ => rfl)
    (hg.rdAck_eq.trans hv.rdAck_eq.symm)
  have hack : g.wrAck = v'.wrAck := by
    rw [hg.wrAck_eq, hv'.wrAck_eq, hfull, hv.cfg_eq, htail, hv.notFull_after_pop hf hfull]
  obtain ⟨htail', hsto'⟩ := hg.push_congr hv' hv.cfg_eq htail hsto hack
  exact ⟨hhead.trans hhead'.symm, htail', hsto', hdata.trans hdata'.symm⟩

end

/-- Settles O42: in either order the first operation leaves alone what the second reads. -/
theorem sfEdgeIsLinearisable : Obligations.SfEdgeIsLinearisable := by
  unfold Obligations.SfEdgeIsLinearisable
  intro s d h _
  obtain ⟨t, ht, -, hboth⟩ := h.exec_effect (i := .sfPushPop d) rfl nofun
  obtain ⟨u, hu, huinv, hpush⟩ := h.exec_effect (i := .sfPush d) rfl nofun
  obtain ⟨u', hu', -, hpop'⟩ :=
    Sf.Inv.exec_effect (s := { s with sf := u }) (i := .sfPop) huinv rfl nofun
  obtain ⟨v, hv, hvinv, hpop⟩ := h.exec_effect (i := .sfPop) rfl nofun
  obtain ⟨v', hv', -, hpush'⟩ :=
    Sf.Inv.exec_effect (s := { s with sf := v }) (i := .sfPush d) hvinv rfl nofun
  exact ⟨_, _, _, _, _, ht, hu, hu', hv, hv', hboth.eq_push_then_pop hpush hpop',
    hboth.eq_pop_then_push h hpop hpush'⟩

end Sys2Proof.Machine
end

section
/-! FIFO order of SF, and its occupancy per edge (44_sync_fifo.md R827, R828). -/

open Sys2Proof.Statements

namespace Sys2Proof.Machine

section
variable {p : Config} {m : Memory} {head tail : Nat} (hc : checkShared p = none)
  (hh : head < p.c) (ht : tail < p.c)
include hc hh ht

/-- A removal takes the oldest object off the window. -/
theorem windowObjs_pop (he : isEmpty head tail = false) :
    windowObjs p m head (occ p head tail) =
      slotObj p m head :: windowObjs p m (adv p head) (occ p (adv p head) tail) := by
  rw [← occ_adv_head hc hh ht he]
  simp only [windowObjs, readSlot, List.range_succ_eq_map, List.map_cons, List.map_map,
    addk_zero hc hh, addk_adv hc, Function.comp_def]

/-- A write at `tail` puts the newest object on the window, and leaves the others. -/
theorem windowObjs_push {m' : Memory} {d : Nat} (hf : isFull p head tail = false)
    (hw : memWrite p m tail d = .ok m') (hd : d < 2 ^ (8 * p.s)) :
    windowObjs p m' head (occ p head (adv p tail)) =
      windowObjs p m head (occ p head tail) ++ [some d] := by
  have htail := addk_occ hc hh ht
  have hlt := occ_lt hc head tail
  have hothers : ∀ j ∈ List.range (occ p head tail),
      slotObj p m' (addk p head j) = slotObj p m (addk p head j) := by
    intro j hj
    have hj := List.mem_range.1 hj
    refine slotObj_write_other hw fun heq => ?_
    have := addk_injective hc hh (by omega) hlt (heq.trans htail.symm)
    omega
  simp only [occ_adv_tail hc hh ht hf, windowObjs, readSlot, List.range_succ, List.map_append,
    List.map_cons, List.map_nil, htail, slotObj_write_same hw hd, List.map_congr_left hothers]

end

theorem Sf.length_contents (f : Sf) : f.contents.length = occ f.cfg f.head f.tail := by
  simp [Sf.contents, windowObjs]

section
variable {f g : Sf} {wr rd : Bool} {d : Nat} (h : f.EdgeEffect g wr rd d) (hf : f.Inv)
include h hf

/-- A successful pop gives the oldest object. -/
theorem Sf.EdgeEffect.head?_contents (ha : g.rdAck = true) :
    f.contents.head? = some (some g.rdData) := by
  rw [Sf.contents, windowObjs_pop hf.shared hf.head_lt hf.tail_lt (h.notEmpty ha),
    (memRead_ok (h.popped ha).1).2, List.head?_cons]

/-- What the pop of an edge leaves, before its push. -/
theorem Sf.EdgeEffect.window_after_pop :
    windowObjs f.cfg f.sto g.head (occ f.cfg g.head f.tail) =
      if g.rdAck then f.contents.tail else f.contents := by
  cases ha : g.rdAck with
  | true =>
    rw [if_pos rfl, Sf.contents, windowObjs_pop hf.shared hf.head_lt hf.tail_lt (h.notEmpty ha),
      List.tail_cons, (h.popped ha).2]
  | false =>
    rw [if_neg Bool.false_ne_true, (h.unpopped ha).2]
    rfl

/-- R827, of the pop: it takes one object. -/
theorem Sf.EdgeEffect.length_after_pop :
    (if g.rdAck then f.contents.tail else f.contents).length + g.rdAck.toNat =
      f.contents.length := by
  cases ha : g.rdAck with
  | true =>
    have hpos : 0 < f.contents.length :=
      List.length_pos_of_mem (List.mem_of_head? (h.head?_contents hf ha))
    rw [if_pos rfl, List.length_tail]
    exact Nat.sub_add_cancel hpos
  | false => rfl

/-- The push of an edge, after its pop. -/
theorem Sf.EdgeEffect.contents_eq (hhead : g.head < f.cfg.c) (hd : d < 2 ^ (8 * f.cfg.s)) :
    g.contents = windowObjs f.cfg f.sto g.head (occ f.cfg g.head f.tail) ++
      if g.wrAck then [some d] else [] := by
  rw [Sf.contents, h.cfg_eq]
  cases ha : g.wrAck with
  | true =>
    obtain ⟨hw, htail⟩ := h.pushed ha
    rw [htail, windowObjs_push hf.shared hhead hf.tail_lt
      (h.notFull_after_pop hf (h.notFull ha)) hw hd, if_pos rfl]
  | false =>
    obtain ⟨hsto, htail⟩ := h.unpushed ha
    rw [hsto, htail, if_neg Bool.false_ne_true, List.append_nil]

end

/-- R303: with `rst = clr = 0` an edge is R811's, with the requests of its control vector. -/
theorem runSfEdge_of_no_clear {s : State} {w d : Nat} (hw : w < 4)
    (hd : objFits s.sf.cfg d = true) :
    runSfEdge false w d s = onSf s (Sf.edge (w.testBit 0) (w.testBit 1) d) := by
  have hclr : w.testBit 2 = false := by
    rw [← Bool.not_eq_true, testBit_two_iff (by omega)]
    omega
  rw [runSfEdge, if_neg Bool.false_ne_true,
    decodeAndExec_of_ok (decode_sfCtl_of_fits (by omega) hd), hclr, if_neg Bool.false_ne_true]
  cases w.testBit 1 <;> cases w.testBit 0 <;> rfl

/-- Settles O43: the pop takes the oldest object, the push adds the newest, and the occupancies are
the lengths of those lists. -/
theorem sfKeepsFifoOrder : Obligations.SfKeepsFifoOrder := by
  unfold Obligations.SfKeepsFifoOrder
  intro s t w d hf hd hw hrun
  obtain ⟨-, hedge⟩ := runEvent_next.1 hrun
  rw [show runLegal (.sfClk false w d) s = _ from runSfEdge_of_no_clear hw hd, onSf_next] at hedge
  obtain ⟨-, g, hg, rfl⟩ := hedge
  have h := Sf.edge_effect hg
  have hinv := hf.edge hg
  have horder : g.contents = _ :=
    h.window_after_pop hf ▸ h.contents_eq hf (h.cfg_eq ▸ hinv.head_lt) (of_decide_eq_true hd)
  refine ⟨horder, h.head?_contents hf, fun ha => (h.unpopped ha).1, ?count, ?bound⟩
  case count =>
    have hnew : (if g.wrAck then [some d] else []).length = g.wrAck.toNat := by
      cases g.wrAck <;> rfl
    have hold := h.length_after_pop hf
    have hlen := congrArg List.length horder
    rw [List.length_append, hnew] at hlen
    rw [← Sf.length_contents, ← Sf.length_contents]
    dsimp only
    omega
  case bound => exact Nat.le_sub_one_of_lt (occ_lt hinv.shared g.head g.tail)

end Sys2Proof.Machine
end

section
/-! What an edge of either AF clock does (45_async_fifo.md R910 to R921, R1202), case by case, and
the registers of the other domain, which it leaves alone (R900). -/

open Sys2Proof.Statements

namespace Sys2Proof.Machine

/-! ## The cases of an edge -/

/-- What a `wclk` edge can make of AF: a push, an edge of the live domain that pushes nothing, or an
edge of the domain in reset. -/
inductive Af.WclkEdge (a : Af) (winc : Bool) (d draw : Nat) (release : Bool) : Af → Prop
  | push {m : Memory} (hn : a.arstN = true) (hl : a.wLive = true) (hw : winc = true)
      (hf : a.fullW = false) (hm : memWrite a.cfg a.sto a.wbin d = .ok m) :
      Af.WclkEdge a winc d draw release (Af.shiftW draw
        { a with sto := m, wbin := adv a.cfg a.wbin, wgray := gray (adv a.cfg a.wbin)
                 wc := a.wc + 1, wMoved := true
                 wrAck := true, wrOvf := false, wPort := some (.write a.wbin d) })
  | noPush (hn : a.arstN = true) (hl : a.wLive = true) (hf : winc = true → a.fullW = true) :
      Af.WclkEdge a winc d draw release (Af.shiftW draw
        { a with wrAck := false, wrOvf := winc, wPort := none })
  | inReset (hr : ¬(a.arstN = true ∧ a.wLive = true)) :
      Af.WclkEdge a winc d draw release (a.wResetEdge draw release)

/-- What an `rclk` edge can make of AF: a pop, an edge of the live domain that pops nothing, or an
edge of the domain in reset. -/
inductive Af.RclkEdge (a : Af) (rinc : Bool) (draw : Nat) (release : Bool) : Af → Prop
  | pop {o : Nat} (hn : a.arstN = true) (hl : a.rLive = true) (hr : rinc = true)
      (he : a.emptyR = false) (ho : memRead a.cfg a.sto a.rbin = .ok o) :
      Af.RclkEdge a rinc draw release (Af.shiftR draw
        { a with rdData := o, rbin := adv a.cfg a.rbin, rgray := gray (adv a.cfg a.rbin)
                 rc := a.rc + 1, rMoved := true
                 rdAck := true, rdUnf := false, rPort := some (.read a.rbin) })
  | noPop (hn : a.arstN = true) (hl : a.rLive = true) (he : rinc = true → a.emptyR = true) :
      Af.RclkEdge a rinc draw release (Af.shiftR draw
        { a with rdAck := false, rdUnf := rinc, rPort := none })
  | inReset (hr : ¬(a.arstN = true ∧ a.rLive = true)) :
      Af.RclkEdge a rinc draw release (a.rResetEdge draw release)

theorem Af.wclkEdge_iff {a a' : Af} {winc release : Bool} {d draw : Nat} :
    a.wclkEdge winc d draw release = .ok a' ↔ a.WclkEdge winc d draw release a' := by
  constructor
  · intro h
    obtain ⟨hn, hl, hedge⟩ | ⟨hr, rfl⟩ := Af.wclkEdge_ok h
    · obtain ⟨a₁, ha₁, rfl⟩ := Af.wEdge_ok hedge
      cases winc with
      | false =>
        obtain rfl : a₁ = a := by simpa using ha₁
        exact .noPush hn hl nofun
      | true =>
        cases hf : a.fullW with
        | true =>
          obtain rfl : a₁ = a := by simpa [hf] using ha₁
          exact .noPush hn hl fun _ => hf
        | false =>
          obtain ⟨m, hm, rfl⟩ := Af.pushOne_ok (by simpa [hf] using ha₁)
          exact .push hn hl rfl hf hm
    · exact .inReset hr
  · intro h
    cases h with
    | push hn hl hw hf hm =>
      simp [Af.wclkEdge, Af.wEdge, Af.pushOne, writeSlot, hn, hl, hw, hf, hm]
    | noPush hn hl hf =>
      cases winc with
      | false => simp [Af.wclkEdge, Af.wEdge, hn, hl]
      | true => simp [Af.wclkEdge, Af.wEdge, hn, hl, hf rfl]
    | inReset hr => simp [Af.wclkEdge, hr]

theorem Af.rclkEdge_iff {a a' : Af} {rinc release : Bool} {draw : Nat} :
    a.rclkEdge rinc draw release = .ok a' ↔ a.RclkEdge rinc draw release a' := by
  constructor
  · intro h
    obtain ⟨hn, hl, hedge⟩ | ⟨hr, rfl⟩ := Af.rclkEdge_ok h
    · obtain ⟨a₁, ha₁, rfl⟩ := Af.rEdge_ok hedge
      cases rinc with
      | false =>
        obtain rfl : a₁ = a := by simpa using ha₁
        exact .noPop hn hl nofun
      | true =>
        cases he : a.emptyR with
        | true =>
          obtain rfl : a₁ = a := by simpa [he] using ha₁
          exact .noPop hn hl fun _ => he
        | false =>
          obtain ⟨o, ho, rfl⟩ := Af.popOne_ok (by simpa [he] using ha₁)
          exact .pop hn hl rfl he ho
    · exact .inReset hr
  · intro h
    cases h with
    | pop hn hl hr he ho => simp [Af.rclkEdge, Af.rEdge, Af.popOne, hn, hl, hr, he, ho]
    | noPop hn hl he =>
      cases rinc with
      | false => simp [Af.rclkEdge, Af.rEdge, hn, hl]
      | true => simp [Af.rclkEdge, Af.rEdge, hn, hl, he rfl]
    | inReset hr => simp [Af.rclkEdge, hr]

/-! ## The instructions of AF -/

theorem onAf_wclkEdge_next {s t : State} {winc : Bool} {d : Nat} :
    onAf s (Af.wclkEdge winc d) = .next t ↔ checkAf s.af.cfg = none ∧ ∃ a,
      s.af.WclkEdge winc d (Config.freeSample s.free) (Config.freeRelease s.free) a ∧
        t = afterAfEdge s a := by
  simp only [onAf_next, Af.wclkEdge_iff, afterAfEdge]

theorem onAf_rclkEdge_next {s t : State} {rinc : Bool} :
    onAf s (Af.rclkEdge rinc) = .next t ↔ checkAf s.af.cfg = none ∧ ∃ a,
      s.af.RclkEdge rinc (Config.freeSample s.free) (Config.freeRelease s.free) a ∧
        t = afterAfEdge s a := by
  simp only [onAf_next, Af.rclkEdge_iff, afterAfEdge]

/-! ## What an edge leaves alone -/

/-- The registers of AF's read domain agree in two states. -/
structure Af.SameReader (a a' : Af) : Prop where
  rbin_eq : a'.rbin = a.rbin
  rgray_eq : a'.rgray = a.rgray
  rq_eq : a'.rq = a.rq
  rqc_eq : a'.rqc = a.rqc
  rc_eq : a'.rc = a.rc
  rdData_eq : a'.rdData = a.rdData
  rdAck_eq : a'.rdAck = a.rdAck
  rdUnf_eq : a'.rdUnf = a.rdUnf
  rPort_eq : a'.rPort = a.rPort
  rLive_eq : a'.rLive = a.rLive

/-- The registers of AF's write domain agree in two states. -/
structure Af.SameWriter (a a' : Af) : Prop where
  wbin_eq : a'.wbin = a.wbin
  wgray_eq : a'.wgray = a.wgray
  wq_eq : a'.wq = a.wq
  wqc_eq : a'.wqc = a.wqc
  wc_eq : a'.wc = a.wc
  wrAck_eq : a'.wrAck = a.wrAck
  wrOvf_eq : a'.wrOvf = a.wrOvf
  wPort_eq : a'.wPort = a.wPort
  wLive_eq : a'.wLive = a.wLive

section
variable {a a' : Af} {winc release : Bool} {d draw : Nat}
  (h : a.WclkEdge winc d draw release a')
include h

theorem Af.WclkEdge.step : a.Step a' := .wclk (Af.wclkEdge_iff.2 h)

theorem Af.WclkEdge.sameReader : a.SameReader a' := by
  cases h with
  | push | noPush => exact ⟨rfl, rfl, rfl, rfl, rfl, rfl, rfl, rfl, rfl, rfl⟩
  | inReset => constructor <;> simp

theorem Af.WclkEdge.arstN_eq : a'.arstN = a.arstN := by
  cases h with
  | push | noPush => rfl
  | inReset => exact Af.wResetEdge_arstN ..

/-- R911: an edge without `winc` pushes nothing. -/
theorem Af.WclkEdge.wc_of_idle (hw : winc = false) : a'.wc = a.wc := by
  cases h with
  | push _ _ hw' => exact absurd (hw.symm.trans hw') Bool.false_ne_true
  | noPush => rfl
  | inReset => exact Af.wResetEdge_wc ..

end

section
variable {a a' : Af} {rinc release : Bool} {draw : Nat} (h : a.RclkEdge rinc draw release a')
include h

theorem Af.RclkEdge.step : a.Step a' := .rclk (Af.rclkEdge_iff.2 h)

theorem Af.RclkEdge.sameWriter : a.SameWriter a' := by
  cases h with
  | pop | noPop => exact ⟨rfl, rfl, rfl, rfl, rfl, rfl, rfl, rfl, rfl⟩
  | inReset => constructor <;> simp

theorem Af.RclkEdge.arstN_eq : a'.arstN = a.arstN := by
  cases h with
  | pop | noPop => rfl
  | inReset => exact Af.rResetEdge_arstN ..

theorem Af.RclkEdge.sto_eq : a'.sto = a.sto := by
  cases h with
  | pop | noPop => rfl
  | inReset => exact Af.rResetEdge_sto ..

/-- R921: an edge without `rinc` pops nothing. -/
theorem Af.RclkEdge.rc_of_idle (hr : rinc = false) : a'.rc = a.rc := by
  cases h with
  | pop _ _ hr' => exact absurd (hr.symm.trans hr') Bool.false_ne_true
  | noPop => rfl
  | inReset => exact Af.rResetEdge_rc ..

end

end Sys2Proof.Machine
end

section
/-! AF's comparators and levels: those of the index unit on the synchronised pointers
(45_async_fifo.md R905, R906, R940, R941), and the counts they stand for (R951 to R957). -/

open Sys2Proof.Statements

namespace Sys2Proof.Machine

/-! ## The synchronised pointers (R905, R906) -/

section
variable {p : Config} (hp : checkAf p = none)
include hp

/-- R13: a gray code of `IW` bits is that of an index. -/
theorem grayInv_lt_c {g : Nat} (hg : g < p.c) : grayInv (indexWidth p.c) g < p.c := by
  have hpow := isPow2_spec (checkAf_spec hp).1
  exact Nat.lt_of_lt_of_eq (grayInv_lt (Nat.lt_of_lt_of_eq hg hpow)) hpow.symm

/-- R431: equal gray codes are equal pointers. -/
theorem gray_eq_iff {i g : Nat} (hi : i < p.c) (hg : g < p.c) :
    gray i = g ↔ i = grayInv (indexWidth p.c) g := by
  have hpow := isPow2_spec (checkAf_spec hp).1
  constructor
  · rintro rfl
    exact (grayInv_gray (Nat.lt_of_lt_of_eq hi hpow)).symm
  · rintro rfl
    exact gray_grayInv (Nat.lt_of_lt_of_eq hg hpow)

end

/-- R905: `full_w` is the source's full test of the synchronised read pointer. -/
theorem Af.fullW_eq_isFull {a : Af} (hp : checkAf a.cfg = none) (hq : chainOut a.wq < a.cfg.c) :
    a.fullW = isFull a.cfg (grayInv (indexWidth a.cfg.c) (chainOut a.wq)) a.wbin :=
  decide_eq_decide.2 (gray_eq_iff hp (adv_lt (checkAf_shared hp) _) hq)

/-- R906: `empty_r` is the source's empty test of the synchronised write pointer. -/
theorem Af.emptyR_eq_isEmpty {a : Af} (hp : checkAf a.cfg = none) (hb : a.rbin < a.cfg.c)
    (hg : a.rgray = gray a.rbin) (hq : chainOut a.rq < a.cfg.c) :
    a.emptyR = isEmpty a.rbin (grayInv (indexWidth a.cfg.c) (chainOut a.rq)) :=
  decide_eq_decide.2 (by rw [hg, gray_eq_iff hp hb hq])

/-! ## The counts -/

/-- The occupancy of two wraparound counters is the difference of what they count. -/
theorem occ_mod {p : Config} (hc : checkShared p = none) {x y : Nat} (hxy : x ≤ y)
    (hlt : y - x < p.c) : occ p (x % p.c) (y % p.c) = y - x := by
  have htail : y % p.c = addk p (x % p.c) (y - x) := by
    rw [addk_eq_mod hc, Nat.mod_add_mod, Nat.add_sub_cancel' hxy]
  rw [htail, occ_addk hc (Nat.mod_lt _ (by omega)) hlt]

section
variable {a : Af} (h : a.Inv)
include h

/-- R950: the read count the write domain sees is no later than the count itself. -/
theorem Af.Inv.rv_le : a.rv ≤ a.rc := h.wqc_le _ (chainOut_mem h.wqc_ne)

theorem Af.Inv.c_pos : 0 < a.cfg.c := Nat.lt_of_le_of_lt (Nat.zero_le _) h.rbin_lt

/-- R951: the counts lie in order, no more than `C − 1` apart. -/
theorem Af.Inv.counts :
    a.rv ≤ a.rc ∧ a.rc ≤ a.wv ∧ a.wv ≤ a.wc ∧ a.wc + 1 ≤ a.rv + a.cfg.c :=
  ⟨h.rv_le, h.no_underflow, h.wv_le, h.no_overflow⟩

/-- R133, R931: the output of the write domain's synchroniser is the gray code of `Rv`. -/
theorem Af.Inv.chainOut_wq : chainOut a.wq = gray (a.rv % a.cfg.c) := by
  rw [h.wq_code, chainOut_map _ h.wqc_ne]
  rfl

/-- R133, R931: the output of the read domain's synchroniser is the gray code of `Wv`. -/
theorem Af.Inv.chainOut_rq : chainOut a.rq = gray (a.wv % a.cfg.c) := by
  rw [h.rq_code, chainOut_map _ h.rqc_ne]
  rfl

theorem Af.Inv.gray_mod_lt (x : Nat) : gray (x % a.cfg.c) < a.cfg.c := by
  have hpow := isPow2_spec (checkAf_spec h.legal).1
  have hlt := Nat.mod_lt x h.c_pos
  exact Nat.lt_of_lt_of_eq (gray_lt (Nat.lt_of_lt_of_eq hlt hpow)) hpow.symm

theorem Af.Inv.grayInv_mod (x : Nat) :
    grayInv (indexWidth a.cfg.c) (gray (x % a.cfg.c)) = x % a.cfg.c :=
  grayInv_gray (Nat.lt_of_lt_of_eq (Nat.mod_lt x h.c_pos) (isPow2_spec (checkAf_spec h.legal).1))

/-- R957: `w_level = Wc − Rv`. -/
theorem Af.Inv.wLevel_eq : a.wLevel = a.wc - a.rv := by
  obtain ⟨hrv, hrc, hwv, hroom⟩ := h.counts
  rw [Af.wLevel, h.chainOut_wq, h.grayInv_mod, h.wbin_count]
  exact occ_mod h.shared (by omega) (by omega)

/-- R957: `r_level = Wv − Rc`. -/
theorem Af.Inv.rLevel_eq : a.rLevel = a.wv - a.rc := by
  obtain ⟨hrv, hrc, hwv, hroom⟩ := h.counts
  rw [Af.rLevel, h.chainOut_rq, h.grayInv_mod, h.rbin_count]
  exact occ_mod h.shared hrc (by omega)

/-- The true occupancy, of the pointers themselves. -/
theorem Af.Inv.occ_eq : occ a.cfg a.rbin a.wbin = a.wc - a.rc := by
  obtain ⟨hrv, hrc, hwv, hroom⟩ := h.counts
  rw [h.rbin_count, h.wbin_count]
  exact occ_mod h.shared (by omega) (by omega)

/-- R940: `full_w` exactly when `w_level = C − 1`. -/
theorem Af.Inv.fullW_iff : a.fullW = true ↔ a.wLevel = a.cfg.c - 1 := by
  have hq : chainOut a.wq < a.cfg.c := h.chainOut_wq ▸ h.gray_mod_lt _
  rw [Af.fullW_eq_isFull h.legal hq, isFull_eq_occ h.shared (grayInv_lt_c h.legal hq) h.wbin_lt,
    decide_eq_true_eq, Af.wLevel]

/-- R941: `empty_r` exactly when `r_level = 0`. -/
theorem Af.Inv.emptyR_iff : a.emptyR = true ↔ a.rLevel = 0 := by
  have hq : chainOut a.rq < a.cfg.c := h.chainOut_rq ▸ h.gray_mod_lt _
  rw [Af.emptyR_eq_isEmpty h.legal h.rbin_lt h.rgray_code hq,
    isEmpty_eq_occ h.shared h.rbin_lt (grayInv_lt_c h.legal hq), decide_eq_true_eq, Af.rLevel]

end

/-- Settles O48: the comparators are tests of the levels, and the levels differences of counts that
lie in order. -/
theorem afFlagsAndLevelsAreConservative : Obligations.AfFlagsAndLevelsAreConservative := by
  unfold Obligations.AfFlagsAndLevelsAreConservative
  refine ⟨fun a h => ?levels, fun a h => ?pessimism⟩
  case levels =>
    obtain ⟨hrv, hrc, hwv, hroom⟩ := h.counts
    have hw := h.wLevel_eq
    have hr := h.rLevel_eq
    exact ⟨h.fullW_iff, h.emptyR_iff, hr, hw, by omega, by omega, by omega⟩
  case pessimism =>
    obtain ⟨hrv, hrc, hwv, hroom⟩ := h.counts
    rw [h.fullW_iff, h.emptyR_iff, h.wLevel_eq, h.rLevel_eq]
    exact ⟨by omega, by omega⟩

end Sys2Proof.Machine
end

section
/-! How each synchroniser follows its input count (45_async_fifo.md R930, R931): it never falls back
(R950), and it catches up with a count that has stopped (R955). -/

open Sys2Proof.Statements

namespace Sys2Proof.Machine

/-! ## One synchroniser -/

/-- What R931 speaks of at one synchroniser: the count its input stands for, whether the input has
moved since the last shift, and the counts of its stages. -/
structure Sync where
  now : Nat
  moved : Bool
  chain : List Nat

/-- The synchroniser of the write domain, which follows `Rc`. -/
def Af.wSync (a : Af) : Sync := ⟨a.rc, a.rMoved, a.wqc⟩

/-- The synchroniser of the read domain, which follows `Wc`. -/
def Af.rSync (a : Af) : Sync := ⟨a.wc, a.wMoved, a.rqc⟩

/-- R930: an edge of the synchroniser's own clock. -/
def Sync.Shifts (y y' : Sync) : Prop :=
  ∃ draw, y' = ⟨y.now, false, shiftIn (sampleCount y.moved (y.chain.headD 0) y.now draw) y.chain⟩

/-- Between its own edges the chain holds, and its input may move on. -/
structure Sync.Waits (y y' : Sync) : Prop where
  chain_eq : y'.chain = y.chain
  now_le : y.now ≤ y'.now
  moved_eq : y'.now = y.now → y'.moved = y.moved

theorem Sync.Waits.refl (y : Sync) : y.Waits y := ⟨rfl, le_rfl, fun _ => rfl⟩

/-- R950: a shift never moves the output back. -/
theorem Sync.Shifts.chainOut_le {y y' : Sync} (h : y.Shifts y') (hy : chainLags y.now y.chain) :
    chainOut y.chain ≤ chainOut y'.chain := by
  obtain ⟨draw, rfl⟩ := h
  exact (chainLags_shiftIn hy y.moved draw).2

section
variable {a a' : Af} {winc release : Bool} {d draw : Nat}
  (h : a.WclkEdge winc d draw release a')
include h

/-- R930: with `arst_n = 1` a `wclk` edge shifts the write domain's synchroniser, live or not. -/
theorem Af.WclkEdge.wSync_shifts (hn : a.arstN = true) : a.wSync.Shifts a'.wSync := by
  cases h with
  | push | noPush => exact ⟨_, rfl⟩
  | inReset =>
    rw [Af.wResetEdge_shifts hn]
    exact ⟨_, rfl⟩

/-- R1202: with `arst_n = 0` it holds. -/
theorem Af.WclkEdge.wSync_holds (hn : a.arstN = false) : a'.wSync = a.wSync := by
  cases h with
  | push hn' | noPush hn' => exact absurd (hn.symm.trans hn') Bool.false_ne_true
  | inReset =>
    rw [Af.wResetEdge_held hn]
    rfl

/-- A `wclk` edge moves the input of the read domain's synchroniser by a push alone. -/
theorem Af.WclkEdge.rSync_waits : a.rSync.Waits a'.rSync := by
  cases h with
  | push => exact ⟨rfl, Nat.le_succ _, fun heq => absurd heq (Nat.succ_ne_self _)⟩
  | noPush => exact .refl _
  | inReset =>
    rw [show (a.wResetEdge draw release).rSync = a.rSync by simp [Af.rSync]]
    exact .refl _

end

section
variable {a a' : Af} {rinc release : Bool} {draw : Nat} (h : a.RclkEdge rinc draw release a')
include h

/-- R930: with `arst_n = 1` an `rclk` edge shifts the read domain's synchroniser, live or not. -/
theorem Af.RclkEdge.rSync_shifts (hn : a.arstN = true) : a.rSync.Shifts a'.rSync := by
  cases h with
  | pop | noPop => exact ⟨_, rfl⟩
  | inReset =>
    rw [Af.rResetEdge_shifts hn]
    exact ⟨_, rfl⟩

/-- R1202: with `arst_n = 0` it holds. -/
theorem Af.RclkEdge.rSync_holds (hn : a.arstN = false) : a'.rSync = a.rSync := by
  cases h with
  | pop hn' | noPop hn' => exact absurd (hn.symm.trans hn') Bool.false_ne_true
  | inReset =>
    rw [Af.rResetEdge_held hn]
    rfl

/-- An `rclk` edge moves the input of the write domain's synchroniser by a pop alone. -/
theorem Af.RclkEdge.wSync_waits : a.wSync.Waits a'.wSync := by
  cases h with
  | pop => exact ⟨rfl, Nat.le_succ _, fun heq => absurd heq (Nat.succ_ne_self _)⟩
  | noPop => exact .refl _
  | inReset =>
    rw [show (a.rResetEdge draw release).wSync = a.wSync by simp [Af.wSync]]
    exact .refl _

end

/-! ## The seen counts never decrease (R950) -/

theorem Af.WclkEdge.seen_le {a a' : Af} {winc release : Bool} {d draw : Nat}
    (h : a.WclkEdge winc d draw release a') (hinv : a.Inv) : a.rv ≤ a'.rv ∧ a.wv ≤ a'.wv := by
  refine ⟨?_, (congrArg chainOut h.rSync_waits.chain_eq).ge⟩
  cases hn : a.arstN with
  | true => exact (h.wSync_shifts hn).chainOut_le ⟨hinv.wqc_order, hinv.wqc_le⟩
  | false => exact (congrArg (chainOut ∘ Sync.chain) (h.wSync_holds hn)).ge

theorem Af.RclkEdge.seen_le {a a' : Af} {rinc release : Bool} {draw : Nat}
    (h : a.RclkEdge rinc draw release a') (hinv : a.Inv) : a.rv ≤ a'.rv ∧ a.wv ≤ a'.wv := by
  refine ⟨(congrArg chainOut h.wSync_waits.chain_eq).ge, ?_⟩
  cases hn : a.arstN with
  | true => exact (h.rSync_shifts hn).chainOut_le ⟨hinv.rqc_order, hinv.rqc_le⟩
  | false => exact (congrArg (chainOut ∘ Sync.chain) (h.rSync_holds hn)).ge

/-- An AF instruction is one of the two edges. -/
theorem execAf_edge {i : Instr} {s t : State} (hi : isAf i = true) (h : exec i s = .next t) :
    (∃ winc d draw release, s.af.WclkEdge winc d draw release t.af) ∨
      ∃ rinc draw release, s.af.RclkEdge rinc draw release t.af := by
  obtain ⟨winc, d, he⟩ | ⟨rinc, he⟩ := exec_af hi s <;> rw [he] at h
  · obtain ⟨-, a, ha, rfl⟩ := onAf_wclkEdge_next.1 h
    exact .inl ⟨_, _, _, _, ha⟩
  · obtain ⟨-, a, ha, rfl⟩ := onAf_rclkEdge_next.1 h
    exact .inr ⟨_, _, _, ha⟩

/-- An event other than a level of `arst_n` is an edge of AF, or leaves AF alone. -/
theorem runLegal_af {e : Event} {s t : State} (h : runLegal e s = .next t)
    (hne : ∀ l, e ≠ .arst l) :
    t.af = s.af ∨ (∃ winc d draw release, s.af.WclkEdge winc d draw release t.af) ∨
      ∃ rinc draw release, s.af.RclkEdge rinc draw release t.af := by
  cases e with
  | cmd =>
    obtain ⟨-, -, haf⟩ := runCommand_steps h
    exact .inl haf
  | rbcClk =>
    obtain ⟨b, -, rfl⟩ := rbcClock_next.1 h
    exact .inl rfl
  | sfClk =>
    obtain ⟨-, -, haf⟩ := runSfEdge_steps h
    exact .inl haf
  | wclk =>
    obtain ⟨i, hdec, hexec⟩ := decodeAndExec_next h
    exact .inr (execAf_edge (decodeAfW_isAf hdec) hexec)
  | rclk =>
    obtain ⟨i, hdec, hexec⟩ := decodeAndExec_next h
    exact .inr (execAf_edge (decodeAfR_isAf hdec) hexec)
  | arst level => exact absurd rfl (hne level)
  | secondAgent | domainReset => cases h

/-- Settles O49: each synchroniser shifts, waits or is another block's, and a shift never moves its
output back. -/
theorem afCountsLagAndNeverDecrease : Obligations.AfCountsLagAndNeverDecrease := by
  unfold Obligations.AfCountsLagAndNeverDecrease
  intro s t e hinv h
  refine ⟨hinv.rv_le, hinv.wv_le, fun hne => ?_⟩
  obtain haf | ⟨_, _, _, _, hedge⟩ | ⟨_, _, _, hedge⟩ := runLegal_af (runEvent_next.1 h).2 hne
  · rw [haf]
    exact ⟨le_rfl, le_rfl⟩
  · exact hedge.seen_le hinv
  · exact hedge.seen_le hinv

/-! ## Catching up (R955) -/

/-- A run of one synchroniser that holds `k` edges of its own clock. -/
inductive Sync.Run : Nat → Sync → Sync → Prop
  | nil (y : Sync) : Sync.Run 0 y y
  | shift {k : Nat} {y y₁ y' : Sync} (h : y.Shifts y₁) (hr : Sync.Run k y₁ y') :
      Sync.Run (k + 1) y y'
  | wait {k : Nat} {y y₁ y' : Sync} (h : y.Waits y₁) (hr : Sync.Run k y₁ y') : Sync.Run k y y'

/-- R955, after `k` edges with a steady input: the first may capture a stale count, the next ones
capture the exact count, and their captures fill the first `k − 1` stages. -/
def Sync.CaughtUp (y : Sync) : Nat → Prop
  | 0 => True
  | k + 1 => y.moved = false ∧ ∀ x ∈ y.chain.take k, x = y.now

theorem Sync.Shifts.now_eq {y y' : Sync} (h : y.Shifts y') : y'.now = y.now := by
  obtain ⟨draw, rfl⟩ := h
  rfl

theorem Sync.Shifts.caughtUp {y y' : Sync} (h : y.Shifts y') {k : Nat} (hy : y.CaughtUp k) :
    y'.CaughtUp (k + 1) := by
  obtain ⟨draw, rfl⟩ := h
  refine ⟨rfl, fun x hx => ?_⟩
  cases k with
  | zero => cases hx
  | succ k =>
    obtain ⟨hmoved, hchain⟩ := hy
    rw [shiftIn, List.take_succ_cons, hmoved, sampleCount_steady] at hx
    obtain rfl | hx := List.mem_cons.1 hx
    · rfl
    · exact hchain x (((List.dropLast_prefix _).take k).mem hx)

theorem Sync.Waits.caughtUp {y y' : Sync} (h : y.Waits y') (hnow : y'.now = y.now) {k : Nat}
    (hy : y.CaughtUp k) : y'.CaughtUp k := by
  cases k with
  | zero => trivial
  | succ k =>
    obtain ⟨hmoved, hchain⟩ := hy
    exact ⟨(h.moved_eq hnow).trans hmoved, by rwa [h.chain_eq, hnow]⟩

theorem Sync.Run.now_le {k : Nat} {y y' : Sync} (h : Sync.Run k y y') : y.now ≤ y'.now := by
  induction h with
  | nil => exact le_rfl
  | shift h _ ih => exact h.now_eq.ge.trans ih
  | wait h _ ih => exact h.now_le.trans ih

theorem Sync.Run.caughtUp {k : Nat} {y y' : Sync} (h : Sync.Run k y y') (hnow : y'.now = y.now)
    {j : Nat} (hy : y.CaughtUp j) : y'.CaughtUp (j + k) := by
  induction h generalizing j with
  | nil => exact hy
  | shift h _ ih =>
    rw [Nat.add_comm _ 1, ← Nat.add_assoc]
    exact ih (hnow.trans h.now_eq.symm) (h.caughtUp hy)
  | wait h hr ih =>
    have hle := hr.now_le
    have hstop := Nat.le_antisymm (hle.trans hnow.le) h.now_le
    exact ih (hnow.trans hstop.symm) (h.caughtUp hstop hy)

/-- R955: `SYNC_N + 1` own edges bring the output to a steady count. -/
theorem Sync.Run.chainOut_eq {k : Nat} {y y' : Sync} (h : Sync.Run k y y')
    (hnow : y'.now = y.now) (hk : y'.chain.length + 1 ≤ k) (hne : y'.chain ≠ []) :
    chainOut y'.chain = y'.now := by
  have hup := h.caughtUp hnow (j := 0) trivial
  obtain ⟨n, rfl⟩ : ∃ n, k = n + 1 := ⟨k - 1, by omega⟩
  rw [Nat.zero_add] at hup
  obtain ⟨-, hchain⟩ := hup
  exact hchain _ (by rw [List.take_of_length_le (by omega)]; exact chainOut_mem hne)

/-! ## A run of both clocks -/

/-- A run of edges of the two AF clocks, each with what its event's request bit asks for. -/
inductive Af.EdgeRun : List Event → Af → Af → Prop
  | nil (a : Af) : Af.EdgeRun [] a a
  | wclk {w d d' draw : Nat} {release : Bool} {es : List Event} {a a₁ a' : Af}
      (h : a.WclkEdge (w.testBit 0) d' draw release a₁) (hr : Af.EdgeRun es a₁ a') :
      Af.EdgeRun (.wclk w d :: es) a a'
  | rclk {w draw : Nat} {release : Bool} {es : List Event} {a a₁ a' : Af}
      (h : a.RclkEdge (w.testBit 0) draw release a₁) (hr : Af.EdgeRun es a₁ a') :
      Af.EdgeRun (.rclk w :: es) a a'

section
variable {es : List Event} {a a' : Af} (h : Af.EdgeRun es a a')
include h

theorem Af.EdgeRun.inv (hinv : a.Inv) : a'.Inv := by
  induction h with
  | nil => exact hinv
  | wclk h _ ih | rclk h _ ih => exact ih (h.step.inv hinv)

theorem Af.EdgeRun.rSync_run (hn : a.arstN = true) : Sync.Run (rclkEdges es) a.rSync a'.rSync := by
  induction h with
  | nil => exact .nil _
  | wclk h _ ih => exact .wait h.rSync_waits (ih (h.arstN_eq.trans hn))
  | rclk h _ ih => exact .shift (h.rSync_shifts hn) (ih (h.arstN_eq.trans hn))

theorem Af.EdgeRun.wSync_run (hn : a.arstN = true) : Sync.Run (wclkEdges es) a.wSync a'.wSync := by
  induction h with
  | nil => exact .nil _
  | wclk h _ ih => exact .shift (h.wSync_shifts hn) (ih (h.arstN_eq.trans hn))
  | rclk h _ ih => exact .wait h.wSync_waits (ih (h.arstN_eq.trans hn))

theorem Af.EdgeRun.cfg_eq : a'.cfg = a.cfg := by
  induction h with
  | nil => rfl
  | wclk h _ ih | rclk h _ ih => exact ih.trans h.step.cfg_eq

/-- A write domain that never asks makes no push. -/
theorem Af.EdgeRun.wc_of_idle (hidle : ∀ w d, .wclk w d ∈ es → w = 0) : a'.wc = a.wc := by
  induction h with
  | nil => rfl
  | @wclk w d _ _ _ _ _ _ _ h _ ih =>
    obtain rfl := hidle w d List.mem_cons_self
    exact (ih fun w d hmem => hidle w d (List.mem_cons_of_mem _ hmem)).trans (h.wc_of_idle rfl)
  | rclk h _ ih =>
    exact (ih fun w d hmem => hidle w d (List.mem_cons_of_mem _ hmem)).trans h.sameWriter.wc_eq

/-- A read domain that never asks makes no pop. -/
theorem Af.EdgeRun.rc_of_idle (hidle : ∀ w, .rclk w ∈ es → w = 0) : a'.rc = a.rc := by
  induction h with
  | nil => rfl
  | wclk h _ ih =>
    exact (ih fun w hmem => hidle w (List.mem_cons_of_mem _ hmem)).trans h.sameReader.rc_eq
  | @rclk w _ _ _ _ _ _ h _ ih =>
    obtain rfl := hidle w List.mem_cons_self
    exact (ih fun w hmem => hidle w (List.mem_cons_of_mem _ hmem)).trans (h.rc_of_idle rfl)

end

/-- R304, R322: a `wclk` event is the edge that its `winc` asks for. -/
theorem runLegal_wclk {s : State} {w d : Nat} (hw : w < 2) (hd : objFits s.af.cfg d = true) :
    runLegal (.wclk w d) s =
      onAf s (Af.wclkEdge (w.testBit 0) (if w.testBit 0 then d else 0)) := by
  rw [runLegal, decodeAndExec_of_ok (decode_afW_of_fits hw hd)]
  cases w.testBit 0 <;> rfl

/-- R303, R304: an `rclk` event is the edge that its `rinc` asks for. -/
theorem runLegal_rclk {s : State} {w : Nat} (hw : w < 2) :
    runLegal (.rclk w) s = onAf s (Af.rclkEdge (w.testBit 0)) := by
  rw [runLegal, decodeAndExec_of_ok (decode_afR_of_fits hw)]
  cases w.testBit 0 <;> rfl

theorem Af.Inv.runEvent_wclk {s : State} {w d : Nat} (h : s.af.Inv) (hw : w < 2)
    (hd : objFits s.af.cfg d = true) : ∃ a d' draw release,
      runEvent (.wclk w d) s = .next (afterAfEdge s a) ∧
        s.af.WclkEdge (w.testBit 0) d' draw release a := by
  obtain ⟨a, ha⟩ := h.wclkEdge_answers (w.testBit 0) (if w.testBit 0 then d else 0)
    (Config.freeSample s.free) (Config.freeRelease s.free)
  have hedge := Af.wclkEdge_iff.1 ha
  refine ⟨a, _, _, _, runEvent_next.2 ⟨h.legal, ?_⟩, hedge⟩
  rw [runLegal_wclk hw hd]
  exact onAf_wclkEdge_next.2 ⟨h.legal, a, hedge, rfl⟩

theorem Af.Inv.runEvent_rclk {s : State} {w : Nat} (h : s.af.Inv) (hw : w < 2) :
    ∃ a draw release, runEvent (.rclk w) s = .next (afterAfEdge s a) ∧
      s.af.RclkEdge (w.testBit 0) draw release a := by
  obtain ⟨a, ha⟩ := h.rclkEdge_answers (w.testBit 0) (Config.freeSample s.free)
    (Config.freeRelease s.free)
  have hedge := Af.rclkEdge_iff.1 ha
  refine ⟨a, _, _, runEvent_next.2 ⟨h.legal, ?_⟩, hedge⟩
  rw [runLegal_rclk hw]
  exact onAf_rclkEdge_next.2 ⟨h.legal, a, hedge, rfl⟩

theorem run_succ_of_step {s t : State} (h : step s = .next t) (k : Nat) :
    Sys2Proof.core.run (k + 1) s = Sys2Proof.core.run k t := by
  simp only [Host.Core.run, Sys2Proof.core, h]

/-- From the invariant every run of AF edges is answered. -/
theorem run_afEdges {es rest : List Event} {s : State} (h : s.af.Inv)
    (hes : afEdges s.af.cfg es) (hs : s.script = es ++ rest) :
    ∃ t, Sys2Proof.core.run es.length s = .next t ∧ Af.EdgeRun es s.af t.af := by
  induction es generalizing s with
  | nil => exact ⟨s, rfl, .nil _⟩
  | cons e es ih =>
    have hstep := step_cons hs
    have hlater {a : Af} (ha : s.af.Step a) := ih
      (s := afterAfEdge { s with script := es ++ rest } a) (ha.inv h)
      (fun e' he' => ha.cfg_eq.symm ▸ hes e' (List.mem_cons_of_mem _ he')) rfl
    obtain ⟨w, hw, rfl⟩ | ⟨w, d, hw, hd, rfl⟩ := hes e List.mem_cons_self
    · obtain ⟨a, draw, release, hrun, hedge⟩ :=
        Af.Inv.runEvent_rclk (s := { s with script := es ++ rest }) h hw
      obtain ⟨t, ht, hr⟩ := hlater hedge.step
      exact ⟨t, (run_succ_of_step (hstep.trans hrun) _).trans ht, .rclk hedge hr⟩
    · obtain ⟨a, d', draw, release, hrun, hedge⟩ :=
        Af.Inv.runEvent_wclk (s := { s with script := es ++ rest }) h hw hd
      obtain ⟨t, ht, hr⟩ := hlater hedge.step
      exact ⟨t, (run_succ_of_step (hstep.trans hrun) _).trans ht, .wclk hedge hr⟩

/-! ## The flags after catching up -/

section
variable {a : Af} (h : a.Inv)
include h

theorem Af.Inv.length_rqc : a.rqc.length = a.cfg.syncN := by
  rw [← h.rq_length, h.rq_code, List.length_map]

theorem Af.Inv.length_wqc : a.wqc.length = a.cfg.syncN := by
  rw [← h.wq_length, h.wq_code, List.length_map]

/-- R955: where the read domain sees every push, `empty_r` is exact. -/
theorem Af.Inv.emptyR_exact (hwv : a.wv = a.wc) : a.emptyR = false ↔ a.rc < a.wc := by
  rw [← Bool.not_eq_true, h.emptyR_iff, h.rLevel_eq, hwv]
  omega

/-- R955: where the write domain sees every pop, `full_w` is exact. -/
theorem Af.Inv.fullW_exact (hrv : a.rv = a.rc) : a.fullW = true ↔ a.wc - a.rc = a.cfg.c - 1 := by
  rw [h.fullW_iff, h.wLevel_eq, hrv]

end

/-- Settles O52: over the run each synchroniser shifts at its own edges and waits at the others',
and an input that has not moved in between fills the chain. -/
theorem afPointersCatchUp : Obligations.AfPointersCatchUp := by
  unfold Obligations.AfPointersCatchUp
  refine ⟨fun s es rest h hn hes hk hs => ?read, fun s es rest h hn hes hk hs => ?write⟩
  all_goals
    obtain ⟨t, ht, hrun⟩ := run_afEdges h hes hs
    have hinv := hrun.inv h
  case read =>
    refine ⟨t, ht, hrun.wc_of_idle, fun hnow => ?_⟩
    have hlen : t.af.rqc.length = s.af.cfg.syncN := hrun.cfg_eq ▸ hinv.length_rqc
    have hwv : t.af.wv = t.af.wc :=
      (hrun.rSync_run hn).chainOut_eq hnow ((Nat.succ_le_succ hlen.le).trans hk) hinv.rqc_ne
    exact ⟨hwv, hinv.emptyR_exact hwv⟩
  case write =>
    refine ⟨t, ht, hrun.rc_of_idle, fun hnow => ?_⟩
    have hlen : t.af.wqc.length = s.af.cfg.syncN := hrun.cfg_eq ▸ hinv.length_wqc
    have hrv : t.af.rv = t.af.rc :=
      (hrun.wSync_run hn).chainOut_eq hnow ((Nat.succ_le_succ hlen.le).trans hk) hinv.wqc_ne
    exact ⟨hrv, hinv.fullW_exact hrv⟩

end Sys2Proof.Machine
end

section
/-! AF's operations one by one: push, pop and the idle edges (45_async_fifo.md R910 to R921). -/

open Sys2Proof.Statements

namespace Sys2Proof.Machine

/-- R930, R931: what a shift draws is a capture. -/
theorem captures_sample (p : Config) (moved : Bool) (seen now src draw : Nat) :
    Captures p moved seen now src (sampleCount moved seen now draw)
      (sampleGray p src now (sampleCount moved seen now draw)) :=
  ⟨fun hm => hm ▸ rfl, fun hle => sampleCount_bounds hle moved draw, rfl⟩

/-- R910: where `full_w` is 0, a push raises `w_level` by one. -/
theorem Af.wLevel_push {a b : Af} (hp : checkAf a.cfg = none) (hb : a.wbin < a.cfg.c)
    (hf : a.fullW = false) (hq : chainOut a.wq < a.cfg.c) (hcfg : b.cfg = a.cfg)
    (hwq : b.wq = a.wq) (hwbin : b.wbin = adv a.cfg a.wbin) : b.wLevel = a.wLevel + 1 := by
  rw [Af.fullW_eq_isFull hp hq] at hf
  rw [Af.wLevel, hcfg, hwq, hwbin]
  exact occ_adv_tail (checkAf_shared hp) (grayInv_lt_c hp hq) hb hf

/-- R920: where `empty_r` is 0, a pop lowers `r_level` by one. -/
theorem Af.rLevel_pop {a b : Af} (hp : checkAf a.cfg = none) (hb : a.rbin < a.cfg.c)
    (he : a.emptyR = false) (hq : chainOut a.rq < a.cfg.c) (hg : a.rgray = gray a.rbin)
    (hcfg : b.cfg = a.cfg) (hrq : b.rq = a.rq) (hrbin : b.rbin = adv a.cfg a.rbin) :
    b.rLevel + 1 = a.rLevel := by
  rw [Af.emptyR_eq_isEmpty hp hb hg hq] at he
  rw [Af.rLevel, hcfg, hrq, hrbin]
  exact occ_adv_head (checkAf_shared hp) hb (grayInv_lt_c hp hq) he

/-- Settles O45: the two branches of R910, the write at `wbin` by the rules of `memWrite`. -/
theorem afPushStoresAtWbin : Obligations.AfPushStoresAtWbin := by
  unfold Obligations.AfPushStoresAtWbin
  refine ⟨fun _ _ hd => decode_afW_of_fits (by decide) hd, fun s d ⟨hlegal, hn, hl⟩ hb hd => ?_⟩
  simp only [← adv_eq_mod (checkAf_shared hlegal)]
  have hcaptures := captures_sample s.af.cfg s.af.rMoved (s.af.wqc.headD 0) s.af.rc s.af.rgray
    (Config.freeSample s.free)
  cases hf : s.af.fullW with
  | true =>
    exact ⟨_, _, none, hcaptures,
      fun _ => onAf_wclkEdge_next.2 ⟨hlegal, _, .noPush hn hl fun _ => hf, rfl⟩,
      absurd (of_decide_eq_true hf)⟩
  | false =>
    have hw := memWrite_of_lt s.af.sto d hb
    exact ⟨_, _, some (.write s.af.wbin d), hcaptures,
      fun heq => absurd heq (of_decide_eq_false hf),
      fun _ => ⟨_, onAf_wclkEdge_next.2 ⟨hlegal, _, .push hn hl rfl hf hw, rfl⟩,
        slotObj_write_same hw (of_decide_eq_true hd), fun a ha => readByte_memWrite_outside hw ha,
        fun hq => Af.wLevel_push hlegal hb hf hq rfl rfl rfl⟩⟩

/-- Settles O46: an idle edge asks for no access. -/
theorem afIdleEdgesShift : Obligations.AfIdleEdgesShift := by
  unfold Obligations.AfIdleEdgesShift
  refine ⟨fun _ _ hd => decode_afW_of_fits (by decide) hd, fun _ => decode_afR_of_fits (by decide),
    fun s ⟨hlegal, hn, hl⟩ => ?write, fun s ⟨hlegal, hn, hl⟩ => ?read⟩
  case write =>
    exact ⟨_, _, none, captures_sample _ _ _ _ _ (Config.freeSample s.free),
      onAf_wclkEdge_next.2 ⟨hlegal, _, .noPush hn hl nofun, rfl⟩⟩
  case read =>
    exact ⟨_, _, none, captures_sample _ _ _ _ _ (Config.freeSample s.free),
      onAf_rclkEdge_next.2 ⟨hlegal, _, .noPop hn hl nofun, rfl⟩⟩

/-- Settles O47: the two branches of R920, the read at `rbin` by the rules of `memRead`. -/
theorem afPopLoadsRdData : Obligations.AfPopLoadsRdData := by
  unfold Obligations.AfPopLoadsRdData
  refine ⟨fun _ => decode_afR_of_fits (by decide), fun s ⟨hlegal, hn, hl⟩ hb => ?_⟩
  simp only [← adv_eq_mod (checkAf_shared hlegal)]
  have hcaptures := captures_sample s.af.cfg s.af.wMoved (s.af.rqc.headD 0) s.af.wc s.af.wgray
    (Config.freeSample s.free)
  cases he : s.af.emptyR with
  | true =>
    exact ⟨_, _, none, hcaptures,
      fun _ => onAf_rclkEdge_next.2 ⟨hlegal, _, .noPop hn hl fun _ => he, rfl⟩,
      fun _ => absurd (of_decide_eq_true he)⟩
  | false =>
    exact ⟨_, _, some (.read s.af.rbin), hcaptures,
      fun heq => absurd heq (of_decide_eq_false he),
      fun d _ hd => ⟨onAf_rclkEdge_next.2
          ⟨hlegal, _, .pop hn hl rfl he (memRead_of_slotObj hb hd), rfl⟩,
        fun hq hg => Af.rLevel_pop hlegal hb he hq hg rfl rfl rfl⟩⟩

end Sys2Proof.Machine
end

section
/-! An edge of AF told by its acknowledgement: its frame and its storage port (45_async_fifo.md
R900, R910, R920, R207), and from the invariant FIFO order (R951 to R956). -/

open Sys2Proof.Statements

namespace Sys2Proof.Machine

/-! ## A domain that does not run (R1202) -/

theorem Af.Inv.wLive_eq_false {a : Af} (h : a.Inv) (hr : ¬(a.arstN = true ∧ a.wLive = true)) :
    a.wLive = false := by
  cases hn : a.arstN with
  | true => exact Bool.eq_false_of_not_eq_true fun hl => hr ⟨hn, hl⟩
  | false => exact (h.in_reset hn).1

theorem Af.Inv.rLive_eq_false {a : Af} (h : a.Inv) (hr : ¬(a.arstN = true ∧ a.rLive = true)) :
    a.rLive = false := by
  cases hn : a.arstN with
  | true => exact Bool.eq_false_of_not_eq_true fun hl => hr ⟨hn, hl⟩
  | false => exact (h.in_reset hn).2

/-! ## Edges of `wclk` -/

section
variable {a a' : Af} {winc release : Bool} {d draw : Nat}
  (h : a.WclkEdge winc d draw release a')
include h

/-- R910, R911: an edge that pushes nothing leaves the pointer pair, the count and storage. -/
theorem Af.WclkEdge.unpushed (hack : winc = false ∨ a'.wrAck = false) :
    a'.wbin = a.wbin ∧ a'.wgray = a.wgray ∧ a'.wc = a.wc ∧ a'.sto = a.sto := by
  cases h with
  | push _ _ hw =>
    obtain hw' | hack := hack
    · exact absurd (hw'.symm.trans hw) Bool.false_ne_true
    · cases hack
  | noPush => exact ⟨rfl, rfl, rfl, rfl⟩
  | inReset => simp

/-- R212: an edge writes no byte outside slot `wbin`. -/
theorem Af.WclkEdge.readByte_outside {b : Nat} (hb : outsideSlot a.cfg a.wbin b) :
    readByte a'.sto b = readByte a.sto b := by
  cases h with
  | push _ _ _ _ hm => exact readByte_memWrite_outside hm hb
  | noPush => rfl
  | inReset => rw [Af.wResetEdge_sto]

/-- R207: the write port shows the push, and no other access. -/
theorem Af.WclkEdge.wPort_eq : a'.wPort =
    if winc && (a.arstN && a.wLive && a'.wrAck) then some (.write a.wbin d) else none := by
  cases h with
  | push hn hl hw => simp [hn, hl, hw]
  | noPush => simp
  | inReset hr => simp [hr]

/-- R910: from the invariant only a push is acknowledged. -/
theorem Af.WclkEdge.pushed (hinv : a.Inv) (hack : a'.wrAck = true) :
    a.fullW = false ∧ memWrite a.cfg a.sto a.wbin d = .ok a'.sto ∧ a'.wbin = adv a.cfg a.wbin := by
  cases h with
  | push _ _ _ hf hm => exact ⟨hf, hm, rfl⟩
  | noPush => cases hack
  | inReset hr =>
    obtain ⟨-, hno, -⟩ := hinv.write_in_reset (hinv.wLive_eq_false hr)
    exact absurd (hno.symm.trans (Af.wResetEdge_wrAck .. ▸ hack)) Bool.false_ne_true

end

/-! ## Edges of `rclk` -/

section
variable {a a' : Af} {rinc release : Bool} {draw : Nat} (h : a.RclkEdge rinc draw release a')
include h

/-- R920, R921: an edge that pops nothing leaves the pointer, the count and `rd_data`. -/
theorem Af.RclkEdge.unpopped (hack : rinc = false ∨ a'.rdAck = false) :
    a'.rbin = a.rbin ∧ a'.rc = a.rc ∧ a'.rdData = a.rdData := by
  cases h with
  | pop _ _ hr =>
    obtain hr' | hack := hack
    · exact absurd (hr'.symm.trans hr) Bool.false_ne_true
    · cases hack
  | noPop => exact ⟨rfl, rfl, rfl⟩
  | inReset => simp

/-- R207: the read port shows the pop, and no other access. -/
theorem Af.RclkEdge.rPort_eq : a'.rPort =
    if a.arstN && a.rLive && a'.rdAck then some (.read a.rbin) else none := by
  cases h with
  | pop hn hl => simp [hn, hl]
  | noPop => simp
  | inReset hr => simp [hr]

/-- R207: the read port delivers the popped object into `rd_data`. -/
theorem Af.RclkEdge.stoRdata_eq : a'.stoRdata =
    if a.arstN && a.rLive && a'.rdAck then some a'.rdData else none := by
  rw [Af.stoRdata, h.rPort_eq]
  cases a.arstN && a.rLive && a'.rdAck <;> rfl

/-- R920: from the invariant only a pop is acknowledged. -/
theorem Af.RclkEdge.popped (hinv : a.Inv) (hack : a'.rdAck = true) :
    a.emptyR = false ∧ memRead a.cfg a.sto a.rbin = .ok a'.rdData ∧
      a'.rbin = adv a.cfg a.rbin ∧ a'.rc = a.rc + 1 := by
  cases h with
  | pop _ _ _ he ho => exact ⟨he, ho, rfl, rfl⟩
  | noPop => cases hack
  | inReset hr =>
    obtain ⟨-, hno, -⟩ := hinv.read_in_reset (hinv.rLive_eq_false hr)
    exact absurd (hno.symm.trans (Af.rResetEdge_rdAck .. ▸ hack)) Bool.false_ne_true

end

/-! ## The frame -/

/-- Settles O54: each domain's edge writes its own registers, and storage by a push alone. -/
theorem afFrame : Obligations.AfFrame := by
  unfold Obligations.AfFrame
  intro i s t hi ht
  cases i
  case afWidle =>
    obtain ⟨-, a, h, rfl⟩ := onAf_wclkEdge_next.1 ht
    obtain ⟨hwbin, hwgray, -, hsto⟩ := h.unpushed (.inl rfl)
    obtain ⟨hrbin, hrgray, hrq, hrqc, hrc, hdata, hack, hunf, hport, hlive⟩ := h.sameReader
    exact ⟨rfl, rfl, rfl, rfl, rfl, h.step.cfg_eq, h.arstN_eq, hrbin, hrgray, hrq, hrqc, hrc, hdata,
      hack, hunf, hport, hlive, fun _ => h.readByte_outside, h.wPort_eq,
      fun _ => ⟨hwbin, hwgray, fun b => congrArg (readByte · b) hsto⟩⟩
  case afPush d =>
    obtain ⟨-, a, h, rfl⟩ := onAf_wclkEdge_next.1 ht
    obtain ⟨hrbin, hrgray, hrq, hrqc, hrc, hdata, hack, hunf, hport, hlive⟩ := h.sameReader
    refine ⟨rfl, rfl, rfl, rfl, rfl, h.step.cfg_eq, h.arstN_eq, hrbin, hrgray, hrq, hrqc, hrc,
      hdata, hack, hunf, hport, hlive, fun _ => h.readByte_outside, h.wPort_eq, fun hno => ?_⟩
    obtain ⟨hwbin, hwgray, -, hsto⟩ := h.unpushed (.inr (hno.resolve_left nofun))
    exact ⟨hwbin, hwgray, fun b => congrArg (readByte · b) hsto⟩
  case afRidle | afPop =>
    obtain ⟨-, a, h, rfl⟩ := onAf_rclkEdge_next.1 ht
    obtain ⟨hwbin, hwgray, hwq, hwqc, hwc, hack, hovf, hport, hlive⟩ := h.sameWriter
    exact ⟨rfl, rfl, rfl, rfl, rfl, h.step.cfg_eq, h.arstN_eq, hwbin, hwgray, hwq, hwqc, hwc, hack,
      hovf, hport, hlive, ⟨h.rPort_eq, h.stoRdata_eq⟩, fun b => congrArg (readByte · b) h.sto_eq⟩
  all_goals cases hi

/-! ## No overflow, no underflow (R951, R952, R954) -/

section
variable {a : Af} (h : a.Inv)
include h

/-- R953: a FIFO that is not full as the write domain sees it is not full. -/
theorem Af.Inv.notFull (hf : a.fullW = false) : isFull a.cfg a.rbin a.wbin = false := by
  have hroom := h.room hf
  obtain ⟨hrv, hrc, hwv, -⟩ := h.counts
  rw [isFull_eq_occ h.shared h.rbin_lt h.wbin_lt, h.occ_eq]
  exact decide_eq_false (by omega)

/-- R953: a FIFO that is not empty as the read domain sees it is not empty. -/
theorem Af.Inv.notEmpty (he : a.emptyR = false) : isEmpty a.rbin a.wbin = false := by
  have hobject := h.object he
  have hwv := h.wv_le
  rw [isEmpty_eq_occ h.shared h.rbin_lt h.wbin_lt, h.occ_eq]
  exact decide_eq_false (by omega)

end

/-- Settles O50: the bounds are the invariant's, and a pop is one that `empty_r` allowed. -/
theorem afNeverOverflowsOrUnderflows : Obligations.AfNeverOverflowsOrUnderflows := by
  unfold Obligations.AfNeverOverflowsOrUnderflows
  refine ⟨fun a h => ?bounds, fun s t hinv ht hne => ?pop⟩
  case bounds =>
    obtain ⟨hrv, hrc, hwv, hroom⟩ := h.counts
    exact ⟨by omega, by omega⟩
  case pop =>
    obtain ⟨-, a, h, rfl⟩ := onAf_rclkEdge_next.1 ht
    have hack : a.rdAck = true := Bool.eq_true_of_not_eq_false fun hno =>
      hne (h.unpopped (.inr hno)).2.1
    obtain ⟨he, -, -, hrc⟩ := h.popped hinv hack
    exact ⟨hinv.object he, hrc, of_decide_eq_false (hinv.notEmpty he)⟩

/-! ## FIFO order (R956) -/

/-- The objects held are those of the occupied window of the two pointers. -/
theorem Af.Inv.contents_eq {a : Af} (h : a.Inv) :
    a.contents = windowObjs a.cfg a.sto a.rbin (occ a.cfg a.rbin a.wbin) := by
  rw [h.occ_eq, Af.contents]

section
variable {a a' : Af} {winc release : Bool} {d draw : Nat}
  (h : a.WclkEdge winc d draw release a')
include h

theorem Af.WclkEdge.contents_of_push (hinv : a.Inv) (hd : objFits a.cfg d = true)
    (hack : a'.wrAck = true) : a'.contents = a.contents ++ [some d] := by
  obtain ⟨hf, hm, hwbin⟩ := h.pushed hinv hack
  rw [(h.step.inv hinv).contents_eq, h.step.cfg_eq, h.sameReader.rbin_eq, hwbin, hinv.contents_eq]
  exact windowObjs_push hinv.shared hinv.rbin_lt hinv.wbin_lt (hinv.notFull hf) hm
    (of_decide_eq_true hd)

theorem Af.WclkEdge.contents_of_no_push (hack : winc = false ∨ a'.wrAck = false) :
    a'.contents = a.contents := by
  obtain ⟨-, -, hwc, hsto⟩ := h.unpushed hack
  rw [Af.contents, h.step.cfg_eq, hsto, h.sameReader.rbin_eq, h.sameReader.rc_eq, hwc, Af.contents]

end

section
variable {a a' : Af} {rinc release : Bool} {draw : Nat} (h : a.RclkEdge rinc draw release a')
include h

theorem Af.RclkEdge.contents_of_pop (hinv : a.Inv) (hack : a'.rdAck = true) :
    a.contents = some a'.rdData :: a'.contents := by
  obtain ⟨he, ho, hrbin, -⟩ := h.popped hinv hack
  rw [hinv.contents_eq, windowObjs_pop hinv.shared hinv.rbin_lt hinv.wbin_lt (hinv.notEmpty he),
    (memRead_ok ho).2, (h.step.inv hinv).contents_eq, h.step.cfg_eq, h.sto_eq, hrbin,
    h.sameWriter.wbin_eq]

theorem Af.RclkEdge.contents_of_no_pop (hack : rinc = false ∨ a'.rdAck = false) :
    a'.contents = a.contents ∧ a'.rdData = a.rdData := by
  obtain ⟨hrbin, hrc, hdata⟩ := h.unpopped hack
  refine ⟨?_, hdata⟩
  rw [Af.contents, h.step.cfg_eq, h.sto_eq, hrbin, hrc, h.sameWriter.wc_eq, Af.contents]

end

/-- An instruction of another block leaves AF alone. -/
theorem exec_af_eq {i : Instr} {s t : State} (hi : isAf i = false) (h : exec i s = .next t) :
    t.af = s.af := by
  cases hsf : isSf i with
  | true => exact (execSf_steps hsf h).2.2
  | false =>
    have hrbc : isRbc i = true := by
      cases i
      case sfIdle | sfPush | sfPop | sfPushPop | sfClear => cases hsf
      case afWidle | afPush | afRidle | afPop => cases hi
      all_goals rfl
    rw [exec_rbc hrbc, transact_next] at h
    obtain ⟨-, -, b, r, -, rfl⟩ := h
    rfl

/-- Settles O51: a push adds at the end of the window, a pop takes off its front, and no other edge
moves a pointer. -/
theorem afKeepsFifoOrder : Obligations.AfKeepsFifoOrder := by
  unfold Obligations.AfKeepsFifoOrder
  intro s t i hinv hwf ht
  cases i
  case afPush d =>
    obtain ⟨-, a, h, rfl⟩ := onAf_wclkEdge_next.1 ht
    exact ⟨h.contents_of_push hinv hwf, fun hack => h.contents_of_no_push (.inr hack)⟩
  case afPop =>
    obtain ⟨-, a, h, rfl⟩ := onAf_rclkEdge_next.1 ht
    exact ⟨h.contents_of_pop hinv, fun hack => h.contents_of_no_pop (.inr hack)⟩
  case afWidle =>
    obtain ⟨-, a, h, rfl⟩ := onAf_wclkEdge_next.1 ht
    exact ⟨h.contents_of_no_push (.inl rfl), h.sameReader.rdData_eq⟩
  case afRidle =>
    obtain ⟨-, a, h, rfl⟩ := onAf_rclkEdge_next.1 ht
    exact h.contents_of_no_pop (.inl rfl)
  all_goals
    have haf := exec_af_eq rfl ht
    exact ⟨congrArg Af.contents haf, congrArg Af.rdData haf⟩

end Sys2Proof.Machine
end

section
/-! How every command is answered: the status its class allows, and one final beat after its data
beats (60_exceptions.md R1111, 30_encoding.md R320, R331). -/

open Sys2Proof.Statements

namespace Sys2Proof.Machine

/-! ## The status of an answer (R1111) -/

/-- R1111: the statuses the class of an RBC instruction may report. -/
def classReports (i : Instr) (st : Status) : Prop :=
  match i with
  | .writeObj _ | .writeN _ _ | .writeAll _ _ => st = .ok ∨ st = .full
  | .readObj | .deleteHead | .deleteN _ | .readN _ | .readAll _ | .peekNth _ =>
    st = .ok ∨ st = .empty
  | .reservedF => st = .illegal
  | _ => st = .ok

theorem shortfall_ok_or (short : Status) (n k : Nat) :
    shortfall short n k = .ok ∨ shortfall short n k = short := by
  unfold shortfall
  split
  · exact .inl rfl
  · exact .inr rfl

/-- R1111: a command answers with a status of its class. -/
theorem commandOf_classReports {i : Instr} {b b' : Rbc} {r : Response}
    (h : commandOf i b = .ok (b', r)) : classReports i r.status := by
  cases i
  case writeObj =>
    obtain ⟨-, -, rfl⟩ | ⟨-, -, rfl⟩ := Rbc.writeObjCommand_ok h
    · exact .inr rfl
    · exact .inl rfl
  case writeN n ds =>
    obtain ⟨k, -, rfl⟩ := Rbc.writeNCommand_ok h
    exact shortfall_ok_or .full n k
  case writeAll =>
    obtain ⟨-, -, rfl⟩ | ⟨-, -, rfl⟩ := Rbc.writeAllCommand_ok h
    · exact .inl rfl
    · exact .inr rfl
  case readObj =>
    obtain ⟨-, -, rfl⟩ | ⟨-, x, -, -, rfl⟩ := Rbc.readObjCommand_ok h
    · exact .inr rfl
    · exact .inl rfl
  case deleteHead =>
    obtain ⟨-, -, rfl⟩ | ⟨-, -, rfl⟩ := Rbc.deleteHeadCommand_ok h
    · exact .inr rfl
    · exact .inl rfl
  case deleteN n =>
    cases h
    exact shortfall_ok_or .empty n _
  case readN n =>
    obtain ⟨xs, -, rfl⟩ := Rbc.readNCommand_ok h
    exact shortfall_ok_or .empty n xs.length
  case readAll =>
    obtain ⟨-, xs, -, rfl⟩ | ⟨-, -, rfl⟩ := Rbc.readAllCommand_ok h
    · exact .inl rfl
    · exact .inr rfl
  case peekNth =>
    obtain ⟨-, ⟨-, rfl⟩ | ⟨-, d, -, rfl⟩⟩ := Rbc.peekNthCommand_ok h
    · exact .inr rfl
    · exact .inl rfl
  all_goals cases h; rfl

/-! ## The beats of an answer (R320, R331) -/

/-- R331: no data beat is final, and each reports OK. -/
theorem dataBeats_last_status {x : RspBeat} {j : Nat} {ys : List (Nat × Nat)}
    (h : x ∈ dataBeats j ys) : x.last = false ∧ x.status = .ok := by
  induction ys generalizing j with
  | nil => cases h
  | cons y ys ih =>
    obtain rfl | hys := List.mem_cons.1 h
    · exact ⟨rfl, rfl⟩
    · exact ih hys

/-- Settles O23: the answer's data beats go out before its final beat, whose status is the
command's. -/
theorem everyCommandEndsWithOneFinalBeat : Obligations.EveryCommandEndsWithOneFinalBeat := by
  unfold Obligations.EveryCommandEndsWithOneFinalBeat
  intro i s t hi ht
  rw [exec_rbc hi, transact_next] at ht
  obtain ⟨-, -, b, r, hcmd, rfl⟩ := ht
  have hout : (b.respond r).out = s.rbc.out ++ dataBeats 0 r.beats ++ [r.final] := by
    rw [respond_out_of_command hcmd, Response.toBeats, List.append_assoc]
  have hstatus := commandOf_classReports hcmd
  refine ⟨dataBeats 0 r.beats, r.final, hout, rfl, rfl, fun x hx => dataBeats_last_status hx, ?_⟩
  -- the statement writes `classReports` out, and agrees with it instruction by instruction
  cases i <;> exact hstatus

end Sys2Proof.Machine
end

section
/-! What reset leaves in each block: the stated values, the invariant, and the flags of an empty
block (70_reset_and_hazards.md R1200 to R1204). -/

open Sys2Proof.Statements

namespace Sys2Proof.Machine

/-! ## Right after reset (R1204) -/

/-- Settles O55: the registers are reset's own, a chain of zeros holds only zeros, and nothing has
been stored. -/
theorem resetLeavesTheStatedValues : Obligations.ResetLeavesTheStatedValues := by
  unfold Obligations.ResetLeavesTheStatedValues
  have hzeros {k : Nat} : ∀ x ∈ List.replicate k 0, x = 0 := fun _ => List.eq_of_mem_replicate
  exact fun p => ⟨⟨rfl, rfl, rfl, rfl⟩, ⟨rfl, rfl, rfl, rfl, rfl, rfl⟩,
    ⟨rfl, rfl, hzeros, rfl, rfl, rfl, rfl, hzeros, rfl, rfl⟩,
    readByte_nil, readByte_nil, readByte_nil⟩

theorem Rbc.inv_reset {p : Config} (hp : checkRbc p = none) : (Rbc.reset p).Inv := by
  obtain ⟨-, hc, -⟩ := checkShared_spec (checkRbc_shared hp)
  have hpos : 0 < p.c := by omega
  exact {
    legal := hp
    head_lt := hpos
    tail_lt := hpos
    preHead_lt := hpos
    preTail_lt := hpos
    sto_wf := Memory.wf_nil
    window := windowWritten_same [] 0
    out_fits := nofun
    rsp_fits := nofun
    phase_ok := trivial }

theorem Sf.inv_reset {p : Config} (hp : checkSf p = none) : (Sf.reset p).Inv := by
  obtain ⟨-, hc, -⟩ := checkShared_spec (checkSf_shared hp)
  have hpos : 0 < p.c := by omega
  exact {
    legal := hp
    head_lt := hpos
    tail_lt := hpos
    sto_wf := Memory.wf_nil
    window := windowWritten_same [] 0
    rdData_fits := Nat.two_pow_pos _
    write_once := nofun
    read_once := nofun
    not_both := nofun }

theorem Af.inv_reset {p : Config} (hp : checkAf p = none) : (Af.reset p).Inv := by
  obtain ⟨-, hc, -⟩ := checkShared_spec (checkAf_shared hp)
  obtain ⟨horder, hle⟩ := chainLags_replicate p.syncN
  exact {
    legal := hp
    sto_wf := Memory.wf_nil
    wq_length := List.length_replicate
    rq_length := List.length_replicate
    wbin_count := (Nat.zero_mod _).symm
    rbin_count := (Nat.zero_mod _).symm
    wgray_code := by simp [Af.reset, gray]
    rgray_code := by simp [Af.reset, gray]
    wq_code := zeros_code p
    rq_code := zeros_code p
    wqc_order := horder
    rqc_order := horder
    wqc_le := hle
    rqc_le := hle
    no_underflow := Nat.zero_le _
    no_overflow := Nat.le_add_left_of_le (Nat.le_of_succ_le hc)
    window := fun _ _ hx => absurd hx (Nat.not_lt_zero _)
    rdData_fits := Nat.two_pow_pos _
    write_once := nofun
    read_once := nofun
    in_reset := nofun
    write_in_reset := nofun
    read_in_reset := nofun }

/-- Settles O56: each block's cursors are 0 in a capacity of at least 2, and its window is empty. -/
theorem resetMeetsTheInvariant : Obligations.ResetMeetsTheInvariant := by
  unfold Obligations.ResetMeetsTheInvariant
  exact ⟨⟨Rbc.inv_reset (by decide), Sf.inv_reset (by decide), Af.inv_reset (by decide)⟩,
    fun _ => ⟨Rbc.inv_reset, Sf.inv_reset, Af.inv_reset⟩⟩

/-! ## RBC and SF at an edge with `rst = 1` (R1200, R1201) -/

/-- Settles O32: the edge is `Rbc.resetEdge`, which accepts neither a beat nor a header. -/
theorem rbcResetAbandonsTheCommand : Obligations.RbcResetAbandonsTheCommand := by
  unfold Obligations.RbcResetAbandonsTheCommand
  intro s valid stall beat hc hheld hfits
  have hshared := checkRbc_shared hc
  obtain ⟨-, hcap, -⟩ := checkShared_spec hshared
  refine ⟨rbcEdge_next.2 ⟨_, Rbc.clkEdge_next.2 ⟨hc, Rbc.holdsBeat_iff.2 hheld, hfits, rfl⟩, ?_⟩,
    rfl, statusOf_same hshared (by omega)⟩
  cases valid <;> rfl

/-- Settles O41: whatever the control vector, the edge is that of a clear. -/
theorem sfResetTakesPrecedence : Obligations.SfResetTakesPrecedence := by
  unfold Obligations.SfResetTakesPrecedence
  intro s w d hc
  have hclear : runLegal (.sfClk true w d) s = exec .sfClear s := rfl
  exact ⟨none, none, runEvent_next.2 ⟨hc, hclear.trans (exec_sfClear_next.2 ⟨hc, rfl⟩)⟩⟩

end Sys2Proof.Machine
end

section
/-! AF under `arst_n`: the level driven to 0 and to 1, and the edges of a domain that has not left
reset (70_reset_and_hazards.md R1202). -/

open Sys2Proof.Statements

namespace Sys2Proof.Machine

/-! ## The level of `arst_n` -/

theorem runEvent_arst {s : State} (hc : checkAf s.af.cfg = none) (level : Bool) :
    runEvent (.arst level) s = .next { s with af := s.af.driveReset level } :=
  runEvent_next.2 ⟨hc, legally_next.2 ⟨hc, rfl⟩⟩

/-- R940, R941: with no push since reset each domain sees an empty FIFO. -/
theorem Af.Inv.flags_of_no_push {a : Af} (h : a.Inv) (hwc : a.wc = 0) :
    a.fullW = false ∧ a.emptyR = true ∧ a.wLevel = 0 ∧ a.rLevel = 0 := by
  obtain ⟨-, hc, -⟩ := checkShared_spec h.shared
  obtain ⟨-, -, hwv, -⟩ := h.counts
  have hw : a.wLevel = 0 := by rw [h.wLevel_eq, hwc, Nat.zero_sub]
  have hr : a.rLevel = 0 := by rw [h.rLevel_eq]; omega
  exact ⟨by rw [Bool.eq_false_iff, ne_eq, h.fullW_iff]; omega, h.emptyR_iff.2 hr, hw, hr⟩

/-- R1202: the flags of both domains after `arst_n = 0`, from any state: they read no register that
`Af.assertReset` leaves other than `Af.reset` does. -/
theorem Af.assertReset_flags {a : Af} (hc : checkAf a.cfg = none) :
    a.assertReset.fullW = false ∧ a.assertReset.emptyR = true ∧
      a.assertReset.wLevel = 0 ∧ a.assertReset.rLevel = 0 :=
  (Af.inv_reset hc).flags_of_no_push rfl

/-! ## An edge of a domain in reset -/

/-- R1202, R930: a `wclk` edge in reset changes nothing, or shifts and may leave reset. -/
theorem Af.wResetEdge_eq {a : Af} (hl : a.wLive = false) (draw : Nat) (release : Bool) : ∃ x g,
    Captures a.cfg a.rMoved (a.wqc.headD 0) a.rc a.rgray x g ∧
    a.wResetEdge draw release =
      if a.arstN then shiftedW { a with wLive := release, wPort := none } x g
      else { a with wPort := none } := by
  refine ⟨_, _, captures_sample _ _ _ _ _ draw, ?_⟩
  split
  · exact Af.wResetEdge_shifts ‹_› draw release
  · rw [Af.wResetEdge_held (Bool.eq_false_of_not_eq_true ‹_›), ← hl]

/-- R1202, R930: an `rclk` edge in reset changes nothing, or shifts and may leave reset. -/
theorem Af.rResetEdge_eq {a : Af} (hl : a.rLive = false) (draw : Nat) (release : Bool) : ∃ x g,
    Captures a.cfg a.wMoved (a.rqc.headD 0) a.wc a.wgray x g ∧
    a.rResetEdge draw release =
      if a.arstN then shiftedR { a with rLive := release, rPort := none } x g
      else { a with rPort := none } := by
  refine ⟨_, _, captures_sample _ _ _ _ _ draw, ?_⟩
  split
  · exact Af.rResetEdge_shifts ‹_› draw release
  · rw [Af.rResetEdge_held (Bool.eq_false_of_not_eq_true ‹_›), ← hl]

/-- R1202: a `wclk` edge of a domain in reset is the same with `winc` and without. -/
theorem onAf_wclkEdge_of_reset {s : State} (hc : checkAf s.af.cfg = none) (hl : s.af.wLive = false)
    (winc : Bool) (d : Nat) : onAf s (Af.wclkEdge winc d) = .next (afterAfEdge s
      (s.af.wResetEdge (Config.freeSample s.free) (Config.freeRelease s.free))) :=
  onAf_wclkEdge_next.2 ⟨hc, _, .inReset (by simp [hl]), rfl⟩

/-- R1202: an `rclk` edge of a domain in reset is the same with `rinc` and without. -/
theorem onAf_rclkEdge_of_reset {s : State} (hc : checkAf s.af.cfg = none) (hl : s.af.rLive = false)
    (rinc : Bool) : onAf s (Af.rclkEdge rinc) = .next (afterAfEdge s
      (s.af.rResetEdge (Config.freeSample s.free) (Config.freeRelease s.free))) :=
  onAf_rclkEdge_next.2 ⟨hc, _, .inReset (by simp [hl]), rfl⟩

/-! ## Leaving reset -/

/-- R1202: with `arst_n = 0` no `wclk` edge lets the write domain leave reset. -/
theorem Af.WclkEdge.wLive_of_arst {a a' : Af} {winc release : Bool} {d draw : Nat}
    (h : a.WclkEdge winc d draw release a') (hn : a.arstN = false) : a'.wLive = false := by
  cases h with
  | push hn' | noPush hn' => exact absurd (hn.symm.trans hn') Bool.false_ne_true
  | inReset => rw [Af.wResetEdge_held hn]

/-- R1202: with `arst_n = 0` no `rclk` edge lets the read domain leave reset. -/
theorem Af.RclkEdge.rLive_of_arst {a a' : Af} {rinc release : Bool} {draw : Nat}
    (h : a.RclkEdge rinc draw release a') (hn : a.arstN = false) : a'.rLive = false := by
  cases h with
  | pop hn' | noPop hn' => exact absurd (hn.symm.trans hn') Bool.false_ne_true
  | inReset => rw [Af.rResetEdge_held hn]

/-- R1202: driving `arst_n` lets neither domain leave reset. -/
theorem Af.driveReset_stays (level : Bool) (a : Af) :
    (a.wLive = false → (a.driveReset level).wLive = false) ∧
      (a.rLive = false → (a.driveReset level).rLive = false) := by
  cases level with
  | true => exact ⟨id, id⟩
  | false => exact ⟨fun _ => rfl, fun _ => rfl⟩

/-- R304, R322: what a write port's value that decodes fits. -/
theorem decode_afW_fits {p : Config} {w d : Nat} {i : Instr} (h : decode p (.afW w d) = .ok i) :
    w < 2 ∧ objFits p d = true := by
  have hw : w < 2 := by
    by_contra hw
    simp [decode, decodeAfW, hw] at h
  refine ⟨hw, ?_⟩
  cases hd : objFits p d with
  | true => rfl
  | false => simp [decode, decodeAfW, hw, hd] at h

/-- R303, R304: what a read port's value that decodes fits. -/
theorem decode_afR_fits {p : Config} {w : Nat} {i : Instr} (h : decode p (.afR w) = .ok i) :
    w < 2 := by
  by_contra hw
  simp [decode, decodeAfR, hw] at h

/-- An answered `wclk` event is an edge of `wclk`. -/
theorem runLegal_wclk_edge {s t : State} {w d : Nat} (h : runLegal (.wclk w d) s = .next t) :
    ∃ winc d' draw release, s.af.WclkEdge winc d' draw release t.af := by
  obtain ⟨i, hdec, -⟩ := decodeAndExec_next h
  obtain ⟨hw, hd⟩ := decode_afW_fits hdec
  rw [runLegal_wclk hw hd] at h
  obtain ⟨-, a, ha, rfl⟩ := onAf_wclkEdge_next.1 h
  exact ⟨_, _, _, _, ha⟩

/-- An answered `rclk` event is an edge of `rclk`. -/
theorem runLegal_rclk_edge {s t : State} {w : Nat} (h : runLegal (.rclk w) s = .next t) :
    ∃ rinc draw release, s.af.RclkEdge rinc draw release t.af := by
  obtain ⟨i, hdec, -⟩ := decodeAndExec_next h
  rw [runLegal_rclk (decode_afR_fits hdec)] at h
  obtain ⟨-, a, ha, rfl⟩ := onAf_rclkEdge_next.1 h
  exact ⟨_, _, _, ha⟩

/-- R1202: a domain leaves reset only at an edge of its own clock with `arst_n = 1`. -/
theorem runLegal_stays_in_reset {e : Event} {s t : State} (h : runLegal e s = .next t) :
    (s.af.wLive = false → s.af.arstN = false ∨ (∀ w d, e ≠ .wclk w d) → t.af.wLive = false) ∧
    (s.af.rLive = false → s.af.arstN = false ∨ (∀ w, e ≠ .rclk w) → t.af.rLive = false) := by
  cases e with
  | cmd =>
    obtain ⟨-, -, haf⟩ := runCommand_steps h
    exact haf ▸ ⟨fun hl _ => hl, fun hl _ => hl⟩
  | rbcClk =>
    obtain ⟨b, -, rfl⟩ := rbcClock_next.1 h
    exact ⟨fun hl _ => hl, fun hl _ => hl⟩
  | sfClk =>
    obtain ⟨-, -, haf⟩ := runSfEdge_steps h
    exact haf ▸ ⟨fun hl _ => hl, fun hl _ => hl⟩
  | wclk w d =>
    obtain ⟨_, _, _, _, hedge⟩ := runLegal_wclk_edge h
    exact ⟨fun _ hn => hedge.wLive_of_arst (hn.resolve_right fun hne => hne w d rfl),
      fun hl _ => hedge.sameReader.rLive_eq.trans hl⟩
  | rclk w =>
    obtain ⟨_, _, _, hedge⟩ := runLegal_rclk_edge h
    exact ⟨fun hl _ => hedge.sameWriter.wLive_eq.trans hl,
      fun _ hn => hedge.rLive_of_arst (hn.resolve_right fun hne => hne w rfl)⟩
  | arst level =>
    obtain ⟨-, ht⟩ := legally_next.1 h
    obtain rfl := Host.Outcome.next.inj ht
    obtain ⟨hw, hr⟩ := s.af.driveReset_stays level
    exact ⟨fun hl _ => hw hl, fun hl _ => hr hl⟩
  | secondAgent | domainReset => cases h

/-- Settles O53: `arst_n` writes the registers `Af.driveReset` says, and an edge in reset is
`Af.wResetEdge` or `Af.rResetEdge`, whatever is asked for. -/
theorem afResetClearsBothDomains : Obligations.AfResetClearsBothDomains := by
  unfold Obligations.AfResetClearsBothDomains
  refine ⟨fun s hc => ?assert, fun s hc => runEvent_arst hc true, fun s d hc hl => ?write,
    fun s hc hl => ?read, fun s t e h => runLegal_stays_in_reset (runEvent_next.1 h).2⟩
  case assert =>
    -- no push has been made, nor a pop, that either synchroniser could show
    obtain ⟨hrv, -, hwv, -⟩ := (Af.inv_reset hc).counts
    exact ⟨s.af.assertReset, runEvent_arst hc false, rfl, rfl, rfl, rfl, rfl, rfl, rfl, rfl, rfl,
      rfl, rfl, rfl, rfl, rfl, rfl, Nat.le_zero.1 hwv, Nat.le_zero.1 hrv, rfl, rfl, rfl, rfl, rfl,
      Af.assertReset_flags hc⟩
  case write =>
    obtain ⟨x, g, hx, hedge⟩ :=
      Af.wResetEdge_eq hl (Config.freeSample s.free) (Config.freeRelease s.free)
    have hin := onAf_wclkEdge_of_reset hc hl
    exact ⟨_, x, g, hx, hedge ▸ hin true d, (hin false 0).trans (hin true d).symm⟩
  case read =>
    obtain ⟨x, g, hx, hedge⟩ :=
      Af.rResetEdge_eq hl (Config.freeSample s.free) (Config.freeRelease s.free)
    have hin := onAf_rclkEdge_of_reset hc hl
    exact ⟨_, x, g, hx, hedge ▸ hin true, (hin false).trans (hin true).symm⟩

end Sys2Proof.Machine
end
